-- ==== Sys2Proof/Word.lean ====
section
/-! DEFINITION. The word types of the JX9 (R5, R64, R65) and their plainest operations. -/

namespace Sys2Proof

/-- One byte of memory. -/
abbrev Byte := BitVec 8

/-- A 32-bit lane word or instruction word (R5, R41, R64). -/
abbrev Word := BitVec 32

/-- A 64-bit value: a register pair, a virtual address, a timeline number (R42). -/
abbrev DWord := BitVec 64

/-- A lane mask: bit i stands for lane i (R65). -/
abbrev Mask := BitVec 32

/-- A vector-register field (R64). -/
abbrev Reg := BitVec 7

/-- A predicate field (R64). -/
abbrev PReg := BitVec 3

end Sys2Proof
end

