-- ==== Sys2Proof/Machine/Num.lean ====
section
/-! DEFINITION. Number formats, rounding, and the functions that every arithmetic instruction, the matrix array, the
Winnower and the copy engines share (R103 to R126). Codes are natural numbers below 2^width; exact values are
integers times powers of two, with a sticky bit where the exact value is not dyadic. -/

namespace Sys2Proof.Machine

/-- A floating-point format (R103): bits of the exponent and mantissa fields, bias, and whether it is finite-only (R105). -/
structure Fmt where
  ebits : Nat
  mbits : Nat
  bias : Nat
  finite : Bool
  deriving DecidableEq, Repr, Inhabited

def fp64 : Fmt := ⟨11, 52, 1023, false⟩
def fp32 : Fmt := ⟨8, 23, 127, false⟩
def fp16 : Fmt := ⟨5, 10, 15, false⟩
def bf16 : Fmt := ⟨8, 7, 127, false⟩
def e4m3 : Fmt := ⟨4, 3, 7, true⟩
def e5m2 : Fmt := ⟨5, 2, 15, true⟩
def e2m1 : Fmt := ⟨2, 1, 1, true⟩

/-- The width of a code. -/
def Fmt.width (f : Fmt) : Nat := f.ebits + f.mbits + 1

/-- The code bit of the sign. -/
def Fmt.signBit (f : Fmt) : Nat := 2 ^ (f.ebits + f.mbits)

/-- The exponent of the unit in the last place of the subnormals: emin − m (R103, R104). -/
def Fmt.qmin (f : Fmt) : Int := 1 - (f.bias : Int) - f.mbits

/-- The code of the largest finite magnitude (R103, R105). -/
def Fmt.maxCode (f : Fmt) : Nat :=
  if f.finite then f.signBit - 1 else (2 ^ f.ebits - 1) * 2 ^ f.mbits - 1

/-- The code of +Inf. -/
def Fmt.infCode (f : Fmt) : Nat := (2 ^ f.ebits - 1) * 2 ^ f.mbits

/-- The canonical quiet NaN (R107). -/
def Fmt.nanCode (f : Fmt) : Nat := f.infCode + 2 ^ (f.mbits - 1)

/-- The sign put on a magnitude code; E2M1 has no −0 (R106). -/
def Fmt.signed (f : Fmt) (neg : Bool) (code : Nat) : Nat :=
  if neg && !(decide (f = e2m1) && code == 0) then f.signBit + code else code

/-- The value of a code: a NaN, an infinity, or (−1)^neg · m · 2^e. -/
inductive FVal where
  | nan (signalling : Bool)
  | inf (neg : Bool)
  | fin (neg : Bool) (m : Nat) (e : Int)
  deriving DecidableEq, Repr, Inhabited

/-- The value of a code (R104; E2M1 code 0b1000 reads as −0, R106). -/
def Fmt.val (f : Fmt) (code : Nat) : FVal :=
  let neg := decide (code / f.signBit % 2 = 1)
  let ex := code / 2 ^ f.mbits % 2 ^ f.ebits
  let mant := code % 2 ^ f.mbits
  if ex = 2 ^ f.ebits - 1 ∧ f.finite = false then
    if mant = 0 then .inf neg else .nan (decide (mant < 2 ^ (f.mbits - 1)))
  else if ex = 0 then .fin neg mant f.qmin
  else .fin neg (2 ^ f.mbits + mant) (f.qmin + (ex - 1))

def FVal.isNan : FVal → Bool
  | .nan _ => true
  | _ => false

def FVal.isSnan : FVal → Bool
  | .nan true => true
  | _ => false

def FVal.nonFinite : FVal → Bool
  | .fin _ _ _ => false
  | _ => true

/-- Flags in the order of FPCSR bits 8 to 13 (R57): NV, DZ, OF, UF, NX, NF. -/
abbrev Flags := BitVec 6
def flagNV : Flags := 1#6
def flagDZ : Flags := 2#6
def flagOF : Flags := 4#6
def flagUF : Flags := 8#6
def flagNX : Flags := 16#6
def flagNF : Flags := 32#6

/-- A flag or nothing. -/
def flagIf (c : Bool) (f : Flags) : Flags := if c then f else 0#6

/-- A code with the flags that its computation raised. -/
abbrev Rounded := Nat × Flags

/-- Rounding modes (R57): RNE 0, RZ 1, RU 2, RD 3. -/
abbrev Mode := BitVec 2
def rne : Mode := 0#2
def rz : Mode := 1#2
def ru : Mode := 2#2
def rd : Mode := 3#2

/-- The number of bits of a natural number. -/
def bitLen (n : Nat) : Nat := if n = 0 then 0 else n.log2 + 1

/-- Does rounding move away from zero (R114)? `half` compares twice the discarded part with one unit. -/
def roundsUp (mode : Mode) (neg odd inexact : Bool) (half : Ordering) : Bool :=
  if mode = rne then (match half with | .gt => true | .eq => odd | .lt => false)
  else if mode = rz then false
  else if mode = ru then inexact && !neg
  else inexact && neg

/-- A magnitude (m + δ) · 2^e, with 0 < δ < 1 when sticky and δ = 0 otherwise, cut at the unit 2^q: the integer part
in units, whether something was cut off, and how twice that compares with one unit. A sticky value cut at q ≤ e has
its δ below half by the precision its maker gives it. -/
def cutAt (m : Nat) (e q : Int) (sticky : Bool) : Nat × Bool × Ordering :=
  if q ≤ e then (m * 2 ^ (e - q).toNat, sticky, .lt)
  else
    let s := (q - e).toNat
    let r := m % 2 ^ s
    let h := compare (2 * r) (2 ^ s)
    (m / 2 ^ s, sticky || r != 0, if sticky && h == .eq then .gt else h)

/-- The magnitude in units of 2^q after rounding (R114), and whether it differs from the exact one. -/
def roundAt (mode : Mode) (neg : Bool) (m : Nat) (e q : Int) (sticky : Bool) : Nat × Bool :=
  let (k, inexact, half) := cutAt m e q sticky
  (if roundsUp mode neg (k % 2 == 1) inexact half then k + 1 else k, inexact)

/-- The result of an overflow (R115). -/
def overflow (f : Fmt) (mode : Mode) (sat : Bool) (neg : Bool) : Rounded :=
  let largest :=
    f.finite || (sat && !decide (f = fp64)) || decide (mode = rz) || (decide (mode = ru) && neg) ||
      (decide (mode = rd) && !neg)
  (f.signed neg (if largest then f.maxCode else f.infCode),
    flagOF ||| flagNX ||| flagIf (!largest) flagNF)

/-- RoundTo of a finite exact value (R114 to R116). A zero takes the sign `neg`. -/
def roundFin (f : Fmt) (mode : Mode) (sat neg : Bool) (m : Nat) (e : Int) (sticky : Bool) : Rounded :=
  if m = 0 ∧ sticky = false then (f.signed neg 0, 0#6)
  else
    let top := e + bitLen m
    let q := max (top - (f.mbits + 1 : Nat)) f.qmin
    let (k, inexact) := roundAt mode neg m e q sticky
    let code := (q - f.qmin).toNat * 2 ^ f.mbits + k
    if code > f.maxCode then overflow f mode sat neg
    else
      let emin := f.qmin + f.mbits
      let (k2, _) := roundAt mode neg m e (top - (f.mbits + 1 : Nat)) sticky
      let tiny := decide (top ≤ emin) && !(decide (top = emin) && k2 == 2 ^ (f.mbits + 1))
      (f.signed neg code, flagIf inexact flagNX ||| flagIf (inexact && tiny) flagUF)

/-- RoundTo of a NaN (R114, R105, R107). NF is raised for a returned NaN. -/
def roundNan (f : Fmt) : Rounded := if f.finite then (0, flagNV) else (f.nanCode, flagNF)

/-- RoundTo of an infinity (R114, R105). -/
def roundInf (f : Fmt) (neg : Bool) : Rounded :=
  if f.finite then (f.signed neg f.maxCode, flagNV) else (f.signed neg f.infCode, flagNF)

/-- RoundTo of a value (R114). -/
def roundVal (f : Fmt) (mode : Mode) (sat : Bool) : FVal → Rounded
  | .nan _ => roundNan f
  | .inf n => roundInf f n
  | .fin n m e => roundFin f mode sat n m e false

/-- An invalid operation (R116): the canonical NaN with NV. -/
def invalid (f : Fmt) : Rounded := (f.nanCode, flagNV ||| flagNF)

/-- The flags that reading operands raises (R116): NV for a signalling NaN, NF for a non-finite value. -/
def readFlags (vs : List FVal) : Flags :=
  flagIf (vs.any FVal.isSnan) flagNV ||| flagIf (vs.any FVal.nonFinite) flagNF

/-- A result with the operand flags merged. -/
def Rounded.withReads (r : Rounded) (vs : List FVal) : Rounded := (r.1, r.2 ||| readFlags vs)

/-! ### Exact sums -/

/-- An exact dyadic value m · 2^e. -/
structure Dyadic where
  m : Int
  e : Int
  deriving DecidableEq, Repr, Inhabited

def FVal.dyadic : FVal → Dyadic
  | .fin n m e => ⟨if n then -(m : Int) else m, e⟩
  | _ => ⟨0, 0⟩

def Dyadic.add (a b : Dyadic) : Dyadic :=
  let e := min a.e b.e
  ⟨a.m * 2 ^ (a.e - e).toNat + b.m * 2 ^ (b.e - e).toNat, e⟩

def Dyadic.mul (a b : Dyadic) : Dyadic := ⟨a.m * b.m, a.e + b.e⟩

def Dyadic.neg (a : Dyadic) : Dyadic := ⟨-a.m, a.e⟩

/-- Order of two exact values. -/
def Dyadic.lt (a b : Dyadic) : Bool := decide ((a.add b.neg).m < 0)

/-- RoundTo of an exact dyadic value; an exact zero takes the sign given (R108). -/
def roundDyadic (f : Fmt) (mode : Mode) (sat zeroNeg : Bool) (d : Dyadic) : Rounded :=
  roundFin f mode sat (if d.m = 0 then zeroNeg else decide (d.m < 0)) d.m.natAbs d.e false

/-- The sign of an exact zero sum of two addends (R108). -/
def zeroSign (mode : Mode) (negA negB : Bool) : Bool := if negA = negB then negA else decide (mode = rd)

def FVal.neg : FVal → FVal
  | .nan s => .nan s
  | .inf n => .inf (!n)
  | .fin n m e => .fin (!n) m e

def FVal.isNeg : FVal → Bool
  | .nan _ => false
  | .inf n => n
  | .fin n _ _ => n

def FVal.isZero : FVal → Bool
  | .fin _ 0 _ => true
  | _ => false

/-- The rounded sum of two values, without operand flags (R141, R108). -/
def addVal (f : Fmt) (mode : Mode) (sat : Bool) (a b : FVal) : Rounded :=
  match a, b with
  | .nan _, _ => roundNan f
  | _, .nan _ => roundNan f
  | .inf x, .inf y => if x = y then roundInf f x else invalid f
  | .inf x, _ => roundInf f x
  | _, .inf y => roundInf f y
  | .fin x _ _, .fin y _ _ => roundDyadic f mode sat (zeroSign mode x y) (a.dyadic.add b.dyadic)

/-- The exact product of two values, when it is defined: 0 · Inf is not. -/
def mulVal (a b : FVal) : Option FVal :=
  match a, b with
  | .nan s, _ => some (.nan s)
  | _, .nan s => some (.nan s)
  | .inf x, .inf y => some (.inf (x != y))
  | .inf x, .fin y m _ => if m = 0 then none else some (.inf (x != y))
  | .fin x m _, .inf y => if m = 0 then none else some (.inf (x != y))
  | .fin x m e, .fin y n g => some (.fin (x != y) (m * n) (e + g))

/-- FADD (R141). -/
def fAdd (f : Fmt) (mode : Mode) (sat : Bool) (a b : Nat) : Rounded :=
  (addVal f mode sat (f.val a) (f.val b)).withReads [f.val a, f.val b]

/-- FSUB (R141). -/
def fSub (f : Fmt) (mode : Mode) (sat : Bool) (a b : Nat) : Rounded :=
  (addVal f mode sat (f.val a) (f.val b).neg).withReads [f.val a, f.val b]

/-- FMUL (R141). -/
def fMul (f : Fmt) (mode : Mode) (sat : Bool) (a b : Nat) : Rounded :=
  (match mulVal (f.val a) (f.val b) with
   | none => invalid f
   | some v => roundVal f mode sat v).withReads [f.val a, f.val b]

/-- a · b + c rounded once, on values; 0 · Inf is invalid whatever c is (R141). -/
def fmaVal (f : Fmt) (mode : Mode) (sat : Bool) (a b c : FVal) : Rounded :=
  match a, b with
  | .nan _, _ => roundNan f
  | _, .nan _ => roundNan f
  | _, _ =>
    match mulVal a b with
    | none => invalid f
    | some p => addVal f mode sat p c

/-- FFMA (R141). -/
def fFma (f : Fmt) (mode : Mode) (sat : Bool) (a b c : Nat) : Rounded :=
  (fmaVal f mode sat (f.val a) (f.val b) (f.val c)).withReads [f.val a, f.val b, f.val c]

/-- The quotient of two finite magnitudes, with enough bits that its sticky part lies below every rounding (R119). -/
def divFin (f : Fmt) (mode : Mode) (sat neg : Bool) (m : Nat) (e : Int) (n : Nat) (g : Int) : Rounded :=
  let k := f.mbits + 4 + bitLen n
  let num := m * 2 ^ k
  roundFin f mode sat neg (num / n) (e - g - k) (num % n != 0)

/-- FDIV (R141). -/
def fDiv (f : Fmt) (mode : Mode) (sat : Bool) (a b : Nat) : Rounded :=
  (match f.val a, f.val b with
   | .nan _, _ => roundNan f
   | _, .nan _ => roundNan f
   | .inf _, .inf _ => invalid f
   | .inf x, .fin y _ _ => roundInf f (x != y)
   | .fin x _ _, .inf y => (f.signed (x != y) 0, 0#6)
   | .fin x m e, .fin y n g =>
     if n = 0 then
       if m = 0 then invalid f
       else ((roundInf f (x != y)).1, (roundInf f (x != y)).2 ||| flagDZ)
     else divFin f mode sat (x != y) m e n g).withReads [f.val a, f.val b]

/-- The integer square root of n below 2^k, bit by bit. -/
def isqrtBits (n : Nat) : Nat → Nat → Nat
  | 0, r => r
  | k + 1, r => isqrtBits n k (if (r + 2 ^ k) * (r + 2 ^ k) ≤ n then r + 2 ^ k else r)

/-- The integer square root. -/
def isqrt (n : Nat) : Nat := isqrtBits n (bitLen n / 2 + 1) 0

/-- The square root of a positive finite magnitude. -/
def sqrtFin (f : Fmt) (mode : Mode) (m : Nat) (e : Int) : Rounded :=
  let s := 2 * (f.mbits + 4) + (if e % 2 = 0 then 0 else 1)
  let n := m * 2 ^ s
  let r := isqrt n
  roundFin f mode false false r ((e - s) / 2) (r * r != n)

/-- FSQRT (R144). -/
def fSqrt (f : Fmt) (mode : Mode) (a : Nat) : Rounded :=
  (match f.val a with
   | .nan _ => roundNan f
   | .inf false => roundInf f false
   | .inf true => invalid f
   | .fin n m e =>
     if m = 0 then (f.signed n 0, 0#6)
     else if n then invalid f
     else sqrtFin f mode m e).withReads [f.val a]

/-- FRCP (R144). -/
def fRcp (f : Fmt) (mode : Mode) (sat : Bool) (a : Nat) : Rounded :=
  (match f.val a with
   | .nan _ => roundNan f
   | .inf n => (f.signed n 0, 0#6)
   | .fin n m e =>
     if m = 0 then ((roundInf f n).1, (roundInf f n).2 ||| flagDZ)
     else divFin f mode sat n 1 0 m e).withReads [f.val a]

/-- 1/√x of a positive finite magnitude. -/
def rsqrtFin (f : Fmt) (mode : Mode) (m : Nat) (e : Int) : Rounded :=
  let odd := e % 2 ≠ 0
  let n := if odd then 2 * m else m
  let g := if odd then e - 1 else e
  let k := f.mbits + 4 + bitLen n
  let r := isqrt (2 ^ (2 * k) / n)
  roundFin f mode false false r (-(k : Int) - g / 2) (r * r * n != 2 ^ (2 * k))

/-- FRSQ (R144). -/
def fRsq (f : Fmt) (mode : Mode) (a : Nat) : Rounded :=
  (match f.val a with
   | .nan _ => roundNan f
   | .inf false => (0, 0#6)
   | .inf true => invalid f
   | .fin n m e =>
     if m = 0 then ((roundInf f n).1, (roundInf f n).2 ||| flagDZ)
     else if n then invalid f
     else rsqrtFin f mode m e).withReads [f.val a]

/-! ### Exponential, logarithm, sigmoid (R119, R144, R244) -/

/-- Fraction bits of the fixed-point evaluation. The functions below take no rational value at the arguments that
reach them, and their results stay farther from every rounding boundary than this precision. -/
def fixBits : Nat := 512

/-- 1 in fixed point. -/
def fixOne : Nat := 2 ^ fixBits

/-- The series of atanh(1/3): the sum of 1 / ((2j+1) · 3^(2j+1)) for the first terms. -/
def atanhThird : Nat → Nat
  | 0 => fixOne / 3
  | j + 1 => atanhThird j + fixOne / ((2 * j + 3) * 3 ^ (2 * j + 3))

/-- ln 2 = 2 · atanh(1/3). -/
def ln2 : Nat := 2 * atanhThird 170

/-- The Taylor series of e^r for 0 ≤ r < 1, Horner from the term of the given number down. -/
def expSeries (r : Nat) : Nat → Nat → Nat
  | 0, acc => acc
  | j + 1, acc => expSeries r j (fixOne + acc * r / (fixOne * (j + 1)))

/-- e^r in fixed point for 0 ≤ r < 1. -/
def expFix (r : Nat) : Nat := expSeries r 110 fixOne

/-- A non-negative finite magnitude m · 2^e as fixed point, cut. -/
def toFix (m : Nat) (e : Int) : Nat :=
  let s := e + fixBits
  if s ≥ 0 then m * 2 ^ s.toNat else m / 2 ^ (-s).toNat

/-- e^(−t) for fixed-point t: a fixed-point fraction in [1/2, 1] and a power of two. -/
def expNeg (t : Nat) : Nat × Int :=
  let k := t / ln2
  (fixOne * fixOne / expFix (t - k * ln2), -(k : Int))

/-- FEXP2 (R144). -/
def fExp2 (f : Fmt) (mode : Mode) (sat : Bool) (a : Nat) : Rounded :=
  (match f.val a with
   | .nan _ => roundNan f
   | .inf false => roundInf f false
   | .inf true => (0, 0#6)
   | .fin n m e =>
     if m = 0 then roundFin f mode sat false 1 0 false
     else if e + bitLen m > 20 then
       if n then roundFin f mode sat false 1 (-100000) true else roundFin f mode sat false 1 100000 false
     else
       let x := toFix m e
       let whole := x / fixOne
       let frac := x % fixOne
       if frac = 0 then roundFin f mode sat false 1 (if n then -(whole : Int) else whole) false
       else if n then
         roundFin f mode sat false (expFix ((fixOne - frac) * ln2 / fixOne)) (-(whole : Int) - 1 - fixBits) true
       else roundFin f mode sat false (expFix (frac * ln2 / fixOne)) ((whole : Int) - fixBits) true).withReads
    [f.val a]

/-- The bits of log2 of a fixed-point y in [1, 2), by repeated squaring. -/
def log2Bits : Nat → Nat → Nat → Nat
  | 0, _, acc => acc
  | k + 1, y, acc =>
    let z := y * y / fixOne
    if 2 * fixOne ≤ z then log2Bits k (z / 2) (2 * acc + 1) else log2Bits k z (2 * acc)

/-- FLOG2 (R144). -/
def fLog2 (f : Fmt) (mode : Mode) (a : Nat) : Rounded :=
  (match f.val a with
   | .nan _ => roundNan f
   | .inf false => roundInf f false
   | .inf true => invalid f
   | .fin n m e =>
     if m = 0 then ((roundInf f true).1, (roundInf f true).2 ||| flagDZ)
     else if n then invalid f
     else
       let w : Int := e + bitLen m - 1
       if m = 2 ^ (bitLen m - 1) then roundFin f mode false (decide (w < 0)) w.natAbs 0 false
       else
         let y := m * fixOne / 2 ^ (bitLen m - 1)
         let v : Int := w * 2 ^ 160 + log2Bits 160 y 0
         if v < 0 then roundFin f mode false true (v.natAbs - 1) (-160) true
         else roundFin f mode false false v.toNat (-160) true).withReads [f.val a]

/-- Sig of a finite non-zero value as (m + δ) · 2^e (R119). -/
def sigmoidFin (neg : Bool) (m : Nat) (e : Int) : Nat × Int :=
  if e + bitLen m > 9 then
    if neg then (1, -1000) else (fixOne - 1, -(fixBits : Int))
  else
    let (q, k) := expNeg (toFix m e)
    let small := q * 2 ^ fixBits / 2 ^ (-k).toNat
    -- `small` is e^(−|x|) with twice the fraction bits
    if neg then (small * fixOne / (fixOne * fixOne + small), -(fixBits : Int))
    else
      let r := fixOne * fixOne * fixOne / (fixOne * fixOne + small)
      (if r = fixOne then fixOne - 1 else r, -(fixBits : Int))

/-- FSIGM (R144). -/
def fSigm (f : Fmt) (mode : Mode) (a : Nat) : Rounded :=
  (match f.val a with
   | .nan _ => roundNan f
   | .inf false => roundFin f mode false false 1 0 false
   | .inf true => (0, 0#6)
   | .fin n m e =>
     if m = 0 then roundFin f mode false false 1 (-1) false
     else
       let (r, g) := sigmoidFin n m e
       roundFin f mode false false r g true).withReads [f.val a]

/-! ### Comparison, selection, class, scaling -/

/-- Are two values, neither a NaN, in the order a < b (−0 equals +0)? -/
def FVal.lt (a b : FVal) : Bool :=
  match a, b with
  | .inf x, .inf y => x && !y
  | .inf x, _ => x
  | _, .inf y => !y
  | _, _ => a.dyadic.lt b.dyadic

def FVal.eq (a b : FVal) : Bool := !FVal.lt a b && !FVal.lt b a

/-- FMIN and FMAX (R142): the code of one operand; −0 is ordered below +0. -/
def fMinMax (f : Fmt) (wantMax : Bool) (a b : Nat) : Rounded :=
  let x := f.val a
  let y := f.val b
  let below (p q : FVal) : Bool := FVal.lt p q || (FVal.eq p q && p.isNeg && !q.isNeg)
  let code :=
    if x.isNan then (if y.isNan then f.nanCode else b)
    else if y.isNan then a
    else if wantMax then (if below x y then b else a)
    else (if below y x then b else a)
  (code, readFlags [x, y])

/-- FCLASS (R145). -/
def fClass (f : Fmt) (a : Nat) : Nat :=
  match f.val a with
  | .inf true => 2 ^ 0
  | .inf false => 2 ^ 7
  | .nan true => 2 ^ 8
  | .nan false => 2 ^ 9
  | .fin n m _ =>
    if m = 0 then (if n then 2 ^ 3 else 2 ^ 4)
    else if a / 2 ^ f.mbits % 2 ^ f.ebits = 0 then (if n then 2 ^ 2 else 2 ^ 5)
    else (if n then 2 ^ 1 else 2 ^ 6)

/-- FSCALB (R146); ±0 and ±Inf are unchanged, with NF for an infinity (R116). -/
def fScalb (f : Fmt) (mode : Mode) (sat : Bool) (a : Nat) (n : Int) : Rounded :=
  (match f.val a with
   | .nan _ => roundNan f
   | .inf _ => (a, 0#6)
   | .fin x m e => if m = 0 then (a, 0#6) else roundFin f mode sat x m (e + n) false).withReads [f.val a]

/-- The relation that a condition code names between two FP values (R68, R140). -/
def fCond (c : Nat) (a b : FVal) : Bool :=
  if a.isNan || b.isNan then decide (c = 1 ∨ c = 10)
  else match c with
    | 0 => FVal.eq a b
    | 1 => !FVal.eq a b
    | 2 => FVal.lt a b
    | 3 => !FVal.lt b a
    | 4 => FVal.lt b a
    | 5 => !FVal.lt a b
    | 11 => true
    | _ => false

/-! ### Conversions -/

/-- RoundInt of a finite exact value into the range lo to hi (R117). -/
def roundIntFin (lo hi : Int) (mode : Mode) (neg : Bool) (m : Nat) (e : Int) : Int × Flags :=
  let (k, inexact) := roundAt mode neg m e 0 false
  let y : Int := if neg then -(k : Int) else k
  if y < lo then (lo, flagNV) else if hi < y then (hi, flagNV) else (y, flagIf inexact flagNX)

/-- RoundInt (R117), without operand flags. -/
def roundInt (lo hi : Int) (mode : Mode) : FVal → Int × Flags
  | .nan _ => (0, flagNV)
  | .inf n => (if n then lo else hi, flagNV)
  | .fin n m e => roundIntFin lo hi mode n m e

/-- SRound (R118), without operand flags. -/
def sRound (f : Fmt) (sat : Bool) (v : FVal) (r : Nat) : Rounded :=
  match v with
  | .fin neg m e =>
    if m = 0 then roundFin f rz sat neg m e false
    else
      let q := max (e + bitLen m - (f.mbits + 1 : Nat)) f.qmin
      let k := (cutAt m e q false).1
      let s := (q - e).toNat
      let rest := if q ≤ e then 0 else m % 2 ^ s
      let base := (q - f.qmin).toNat * 2 ^ f.mbits
      if base + k > f.maxCode then overflow f rne sat neg
      else if rest = 0 then (f.signed neg (base + k), 0#6)
      else
        let y := if r * 2 ^ s < rest * 2 ^ 32 then k + 1 else k
        if base + y > f.maxCode then overflow f rne sat neg
        else (f.signed neg (base + y), flagNX ||| flagIf (decide (base + y < 2 ^ f.mbits)) flagUF)
  | _ => roundVal f rz sat v

/-! ### Probability codes -/

/-- The integer nearest to num / den, ties to even (R119, R246). -/
def nearestEven (num den : Nat) : Nat :=
  let k := num / den
  let r := 2 * (num % den)
  if den < r ∨ (r = den ∧ k % 2 = 1) then k + 1 else k

/-- Code of (m + δ) · 2^e, a value from 0 to 1 (R119). With δ > 0 a tie is passed upward. -/
def codeOf (m : Nat) (e : Int) (sticky : Bool) : Nat :=
  let k := (-e).toNat
  let num := 65535 * m + (if sticky then 1 else 0)
  if 65535 * 2 ^ k ≤ 65535 * m then 65535 else nearestEven num (2 ^ k)

/-- Code(Sig(x)) for a value that is not a NaN (R119, R244). -/
def codeSig : FVal → Nat
  | .nan _ => 0
  | .inf n => if n then 0 else 65535
  | .fin n m e =>
    if m = 0 then 32768
    else
      let (r, g) := sigmoidFin n m e
      codeOf r g true

/-- Code(e^(−x²)) for a value that is not a NaN (R119, R244). -/
def codeGauss : FVal → Nat
  | .fin _ m e =>
    if m = 0 then 65535
    else if e + bitLen m > 4 then 0
    else
      let (q, k) := expNeg (toFix (m * m) (2 * e))
      if q = fixOne ∧ k = 0 then 65535 else codeOf q (k - fixBits) true
  | _ => 0

/-! ### The one rounding of the engines: nearest even, SAT = 0 (R115, R121) -/

def fl64 (d : Dyadic) (zeroNeg : Bool) : Rounded := roundDyadic fp64 rne false zeroNeg d

/-- One step of R121: RoundTo(FP64, a · b + s, RNE) on codes, with flags. -/
def fma64 (a b s : Nat) : Rounded := fFma fp64 rne false a b s

/-- The sequential sum of R121 over pairs, from s. -/
def dotFrom : List (Nat × Nat) → Nat → Flags → Rounded
  | [], s, fl => (s, fl)
  | (a, b) :: rest, s, fl =>
    let r := fma64 a b s
    dotFrom rest r.1 (fl ||| r.2)

/-- The pairwise tree of R124 over options; the list has the length given, and `fuel` bounds the depth. -/
def treeReduce {α : Type} (op : α → α → α) : Nat → List (Option α) → Option α
  | 0, xs => xs.head?.join
  | fuel + 1, xs =>
    match xs with
    | [] => none
    | [x] => x
    | _ =>
      let h := 2 ^ (bitLen (xs.length - 1) - 1)
      match treeReduce op fuel (xs.take h), treeReduce op fuel (xs.drop h) with
      | some a, some b => some (op a b)
      | some a, none => some a
      | none, b => b

end Sys2Proof.Machine
end

