-- ==== Sys2Proof/Config.lean ====
section
/-! DEFINITION. What an implementation fixes and the values that the manual leaves open. A constant here has
either the figure of the manual or, where it is declared opaque, no value that a proof could use. -/

namespace Sys2Proof.Config

/-- Lanes of a warp (R22). -/
def lanes : Nat := 32

/-- Compute dies built on a device, clusters enabled per die and cores per cluster as shipped (R1). -/
def dies : Nat := 4
def clustersPerDie : Nat := 16
def coresPerCluster : Nat := 4

/-- Split-table entries of a warp (R23), deferral records of a warp (R25), return addresses of a stack (R162),
the deepest WIDE (R166) and the deepest handler (R336). -/
def splitEntries : Nat := 8
def maxRecords : Nat := 31
def maxStack : Nat := 16
def maxWide : Nat := 15
def maxHandler : Nat := 4

/-- Physical bytes that separate the memories of two dies in the physical address space (DESIGN CHOICE, log 5). -/
def dieStride : Nat := 2 ^ 38

/-- Bytes of the accumulator slots of a cluster (R275, R316). -/
def slotBytes : Nat := 16384

/-- Register banks of a core as shipped (R63). -/
def regBanks : Nat := 32

/-- The periods of the 1 GHz reference after which an unanswered PEER access faults (R364): 100 microseconds. -/
def peerTimeout : Nat := 100000

/-- Which of the four warp pipes of its core a warp uses, by agent number (R1). The manual does not say how warps are
dealt to pipes (log 21). -/
opaque warpPipe : Nat → Fin 4

/-- Boot-time facts of the security block (R372): the digest of the boot ROM, the digest of the resident kernel,
whether its signature verifies against the fused key, and the digest of its configuration. The manual gives no
value for them (log 10). -/
opaque romDigest : List Byte
opaque kernelDigest : List Byte
opaque kernelSignatureOk : Bool
opaque configDigest : List Byte

/-- ML-DSA-44 verification of a message hash against a registered key (R374), and the signature of an attestation
report with the device identity key (R373), which has 2,420 bytes (R374). The manual names the scheme and gives no algorithm (log 10). -/
opaque mlDsaVerify : (key msg sig : List Byte) → Bool
opaque mlDsaSign : (msg : List Byte) → Vector Byte 2420

/-- The NVMe status code of a transfer that the drive refuses (R370): the manual gives no code. A free value, one
for each use (log 3). -/
opaque nvmeStatus : Nat → BitVec 16

/-- Results that a mailbox reply holds where the manual gives none: RESULT0 of an undefined record and of a CLOCK record
for a die that is not enabled, and both results of an ATTEST record whose nonce cannot be read (R362, R363). A free value, one for each use
(log 3). -/
opaque openResult : Nat → BitVec 64

/-- The word of a stream element whose poisoned index forms an address that fails: the manual gives the element its mark and no
value (R215). A free value, one for each use and element (log 49). -/
opaque streamElement : Nat → Nat → BitVec 32

end Sys2Proof.Config
end

