-- ==== Sys2Proof/Syntax.lean ====
section
/-! DEFINITION. The steps of the JX9 as syntax: one constructor for each row of spec/opcode_table.json.
An encoded instruction carries its fields at the widths of R67, R69, R71 and R72; an event (a step that no
instruction word names) carries the choices that the manual leaves to the Helm, the engines or the outside. The constructors without fields stand
after those with fields, because the compiled form of a constructor with fields allows at most 244 of them
before it. -/

namespace Sys2Proof

/-- How far a store or atomic is to be performed by STORE_PERFORM (R220, R221). -/
inductive Reach where
  /-- The issuing cluster's point of coherence. -/
  | cluster
  /-- The die cache of the home die, or host memory. -/
  | home
  deriving DecidableEq, Repr

/-- The storage word that an uncorrectable error strikes (R48, R356). -/
inductive EccTarget where
  /-- A lane word of a vector register of an agent; a register that is not GENERAL is marked in all lanes. -/
  | vreg (agent reg lane : Nat)
  /-- A predicate of one lane. -/
  | preg (agent reg lane : Nat)
  /-- The protected word of a local memory, a Granary or a die cache that holds a byte, by its key. -/
  | memory (key : Nat)
  /-- A 64-byte line of DRAM, by the key of a byte of it. -/
  | dramLine (key : Nat)
  /-- An entry of a codebook table of a copy context. -/
  | codebook (agent table entry : Nat)
  deriving DecidableEq, Repr

/-- The entry that a parity error discards (R356). -/
inductive ParityTarget where
  /-- The n-th entry held by the TLBs. -/
  | tlb (n : Nat)
  /-- The n-th entry held by the walk caches. -/
  | walk (n : Nat)
  /-- The n-th instruction word fetched ahead. -/
  | fetched (n : Nat)
  deriving DecidableEq, Repr

/-- A page-table walk (R231, R352): the die of the walker, and the entry held by the walk caches, by its number, after which it begins;
none for a walk from the root. -/
structure Walker where
  die : Nat
  start : Option Nat
  deriving DecidableEq, Repr

/-- The worn unit that the service routine acts on (R375). -/
inductive SpareUnit where
  | cluster (die cluster : Nat)
  | dramLayer (die : Nat)
  | registerBank (core : Nat)
  | bearingLane (port : Nat)
  deriving DecidableEq, Repr

/-- The CXL.io registers that the host writes (R361, R371). -/
inductive HostReg where
  | notifyBase
  | mailboxBase (mailbox : Nat)
  deriving DecidableEq, Repr

/-- What a PEER access from another device does (R198, R203, R204): a load, a store of bytes, an atomic with its operation
code and operand, or a compare and swap; register words come with their marks. -/
inductive PeerOp where
  | load
  | store (bytes : List Byte) (poison : List Bool)
  | atomic (op operand : Nat) (poison : Bool)
  | cas (new compare : Nat) (poison : Bool)
  deriving DecidableEq, Repr

/-- A PEER access that arrives from another device (R191, R365): that device's id, the address space bound to the root
region of the issuing task, the virtual address, the bytes it covers and what it does there. -/
structure PeerReq where
  source : Nat
  space : Nat
  va : BitVec 64
  size : Nat
  op : PeerOp
  deriving DecidableEq, Repr

/-- One step of the machine: an instruction of the opcode maps (R74, R71, R72) or an event. -/
inductive Instr where
  /-- `IADD` (R133). Adds two 32-bit lane words modulo 2^32 in each executing lane. -/
  | iadd (vd va vb : BitVec 7) (ps : BitVec 3)
  /-- `ISUB` (R133). Subtracts two 32-bit lane words modulo 2^32. -/
  | isub (vd va vb : BitVec 7) (ps : BitVec 3)
  /-- `IMUL` (R133). Multiplies two 32-bit lane words, keeping the low 32 bits. -/
  | imul (vd va vb : BitVec 7) (ps : BitVec 3)
  /-- `IMULH_I32` (R133). Gives the high word of the signed 64-bit product. -/
  | imulhI32 (vd va vb : BitVec 7) (ps : BitVec 3)
  /-- `IMULH_N32` (R133). Gives the high word of the unsigned 64-bit product. -/
  | imulhN32 (vd va vb : BitVec 7) (ps : BitVec 3)
  /-- `IMAD` (R133). Computes a*b plus the old destination, modulo 2^32. -/
  | imad (vd va vb : BitVec 7) (ps : BitVec 3)
  /-- `IMIN_I32` (R133). Gives the signed minimum. -/
  | iminI32 (vd va vb : BitVec 7) (ps : BitVec 3)
  /-- `IMIN_N32` (R133). Gives the unsigned minimum. -/
  | iminN32 (vd va vb : BitVec 7) (ps : BitVec 3)
  /-- `IMAX_I32` (R133). Gives the signed maximum. -/
  | imaxI32 (vd va vb : BitVec 7) (ps : BitVec 3)
  /-- `IMAX_N32` (R133). Gives the unsigned maximum. -/
  | imaxN32 (vd va vb : BitVec 7) (ps : BitVec 3)
  /-- `AND` (R133). Bitwise AND of two lane words. -/
  | land (vd va vb : BitVec 7) (ps : BitVec 3)
  /-- `OR` (R133). Bitwise OR of two lane words. -/
  | lor (vd va vb : BitVec 7) (ps : BitVec 3)
  /-- `XOR` (R133). Bitwise XOR of two lane words. -/
  | lxor (vd va vb : BitVec 7) (ps : BitVec 3)
  /-- `ANDN` (R133). Computes a AND NOT b. -/
  | andn (vd va vb : BitVec 7) (ps : BitVec 3)
  /-- `SHL` (R133). Shifts left by the full 32-bit count, giving 0 for counts of 32 or more. -/
  | shl (vd va vb : BitVec 7) (ps : BitVec 3)
  /-- `SHR_N` (R133). Logical right shift by the full 32-bit count. -/
  | shrN (vd va vb : BitVec 7) (ps : BitVec 3)
  /-- `SHR_I` (R133). Arithmetic right shift by the full 32-bit count. -/
  | shrI (vd va vb : BitVec 7) (ps : BitVec 3)
  /-- `ROT` (R133). Rotates left by the count modulo 32. -/
  | rot (vd va vb : BitVec 7) (ps : BitVec 3)
  /-- `POPC` (R134). Counts the 1 bits of a lane word. -/
  | popc (vd va : BitVec 7) (ps : BitVec 3)
  /-- `CLZ` (R134). Counts leading zero bits. -/
  | clz (vd va : BitVec 7) (ps : BitVec 3)
  /-- `BREV` (R134). Reverses the bits of a lane word. -/
  | brev (vd va : BitVec 7) (ps : BitVec 3)
  /-- `BFX` (R135). Extracts a bit field, optionally sign-extended, under a control word. -/
  | bfx (vd va vb : BitVec 7) (ps : BitVec 3)
  /-- `BFI` (R135). Inserts a bit field into the old destination. -/
  | bfi (vd va vb : BitVec 7) (ps : BitVec 3)
  /-- `BSEL` (R135). Builds each result byte from byte selectors. -/
  | bsel (vd va vb : BitVec 7) (ps : BitVec 3)
  /-- `IADD64` (R136). Adds 64-bit pairs modulo 2^64. -/
  | iadd64 (vd va vb : BitVec 7) (ps : BitVec 3)
  /-- `ISUB64` (R136). Subtracts 64-bit pairs modulo 2^64. -/
  | isub64 (vd va vb : BitVec 7) (ps : BitVec 3)
  /-- `IMUL64` (R136). Multiplies 64-bit pairs modulo 2^64. -/
  | imul64 (vd va vb : BitVec 7) (ps : BitVec 3)
  /-- `ICMP` (R139). Compares two integer words and writes a hard predicate with lineage. -/
  | icmp (c : BitVec 4) (pd : BitVec 3) (va vb : BitVec 7) (ps : BitVec 3)
  /-- `FCMP32` (R140). Compares two FP32 values and writes a hard predicate. -/
  | fcmp32 (c : BitVec 4) (pd : BitVec 3) (va vb : BitVec 7) (ps : BitVec 3)
  /-- `FCMP64` (R140). Compares two FP64 pairs and writes a hard predicate. -/
  | fcmp64 (c : BitVec 4) (pd : BitVec 3) (va vb : BitVec 7) (ps : BitVec 3)
  /-- `BRA` (R159). Branches the fragment, diverging into the split table or deferral records when lanes disagree. -/
  | bra (off : BitVec 21) (ps : BitVec 3)
  /-- `EXIT` (R165). Exits each guard-passing lane, removing it from fragments, joins and deferral records. -/
  | exit (ps : BitVec 3)
  /-- `FADD` (R141). FP32 addition rounded under FPCSR. -/
  | fadd (vd va vb : BitVec 7) (ps : BitVec 3)
  /-- `FSUB` (R141). FP32 subtraction. -/
  | fsub (vd va vb : BitVec 7) (ps : BitVec 3)
  /-- `FMUL` (R141). FP32 multiplication. -/
  | fmul (vd va vb : BitVec 7) (ps : BitVec 3)
  /-- `FFMA` (R141). FP32 fused multiply-add into the old destination. -/
  | ffma (vd va vb : BitVec 7) (ps : BitVec 3)
  /-- `FMIN` (R142). Returns the smaller FP32 operand's bits. -/
  | fmin (vd va vb : BitVec 7) (ps : BitVec 3)
  /-- `FMAX` (R142). Returns the larger FP32 operand's bits. -/
  | fmax (vd va vb : BitVec 7) (ps : BitVec 3)
  /-- `FNEGABS` (R143). Negates, clears or sets the sign bit. -/
  | fnegabs (vd va : BitVec 7) (sel : BitVec 2) (ps : BitVec 3)
  /-- `FRCP` (R144). FP32 reciprocal, correctly rounded. -/
  | frcp (vd va : BitVec 7) (ps : BitVec 3)
  /-- `FRSQ` (R144). FP32 reciprocal square root. -/
  | frsq (vd va : BitVec 7) (ps : BitVec 3)
  /-- `FSQRT` (R144). FP32 square root. -/
  | fsqrt (vd va : BitVec 7) (ps : BitVec 3)
  /-- `FDIV` (R141). FP32 division. -/
  | fdiv (vd va vb : BitVec 7) (ps : BitVec 3)
  /-- `FEXP2` (R144). FP32 base-2 exponential. -/
  | fexp2 (vd va : BitVec 7) (ps : BitVec 3)
  /-- `FLOG2` (R144). FP32 base-2 logarithm. -/
  | flog2 (vd va : BitVec 7) (ps : BitVec 3)
  /-- `FSIGM` (R144). FP32 logistic sigmoid. -/
  | fsigm (vd va : BitVec 7) (ps : BitVec 3)
  /-- `FCLASS` (R145). Classifies an FP32 value into a one-hot word. -/
  | fclass (vd va : BitVec 7) (ps : BitVec 3)
  /-- `FSCALB` (R146). Scales an FP32 value by a power of two. -/
  | fscalb (vd va vb : BitVec 7) (ps : BitVec 3)
  /-- `DADD` (R141). FP64 addition on pairs. -/
  | dadd (vd va vb : BitVec 7) (ps : BitVec 3)
  /-- `DSUB` (R141). FP64 subtraction. -/
  | dsub (vd va vb : BitVec 7) (ps : BitVec 3)
  /-- `DMUL` (R141). FP64 multiplication. -/
  | dmul (vd va vb : BitVec 7) (ps : BitVec 3)
  /-- `DFMA` (R141). FP64 fused multiply-add. -/
  | dfma (vd va vb : BitVec 7) (ps : BitVec 3)
  /-- `DMIN` (R142). Returns the smaller FP64 operand. -/
  | dmin (vd va vb : BitVec 7) (ps : BitVec 3)
  /-- `DMAX` (R142). Returns the larger FP64 operand. -/
  | dmax (vd va vb : BitVec 7) (ps : BitVec 3)
  /-- `DDIV` (R141). FP64 division. -/
  | ddiv (vd va vb : BitVec 7) (ps : BitVec 3)
  /-- `DSQRT` (R144). FP64 square root. -/
  | dsqrt (vd va : BitVec 7) (ps : BitVec 3)
  /-- `DRCP` (R144). FP64 reciprocal. -/
  | drcp (vd va : BitVec 7) (ps : BitVec 3)
  /-- `DRSQ` (R144). FP64 reciprocal square root. -/
  | drsq (vd va : BitVec 7) (ps : BitVec 3)
  /-- `DCLASS` (R145). Classifies an FP64 value. -/
  | dclass (vd va : BitVec 7) (ps : BitVec 3)
  /-- `DSCALB` (R146). Scales an FP64 value by a power of two. -/
  | dscalb (vd va vb : BitVec 7) (ps : BitVec 3)
  /-- `HADD2` (R147). Adds packed FP16 pairs. -/
  | hadd2 (vd va vb : BitVec 7) (ps : BitVec 3)
  /-- `HFMA2` (R147). Fused multiply-add on packed FP16 pairs. -/
  | hfma2 (vd va vb : BitVec 7) (ps : BitVec 3)
  /-- `BADD2` (R147). Adds packed BF16 pairs. -/
  | badd2 (vd va vb : BitVec 7) (ps : BitVec 3)
  /-- `BFMA2` (R147). Fused multiply-add on packed BF16 pairs. -/
  | bfma2 (vd va vb : BitVec 7) (ps : BitVec 3)
  /-- `CVT` (R148). Converts between formats under a 7-bit conversion code. -/
  | cvt (vd va k : BitVec 7) (ps : BitVec 3)
  /-- `PACK` (R151). Packs the low halves of two words. -/
  | pack (vd va vb : BitVec 7) (ps : BitVec 3)
  /-- `UNPK` (R151). Extracts an element of a packed word. -/
  | unpk (vd va vb : BitVec 7) (ps : BitVec 3)
  /-- `CVTS_F16` (R150). Stochastically rounds FP32 to FP16 with a supplied draw. -/
  | cvtsF16 (vd va vb : BitVec 7) (ps : BitVec 3)
  /-- `CVTS_BF16` (R150). Stochastically rounds FP32 to BF16. -/
  | cvtsBf16 (vd va vb : BitVec 7) (ps : BitVec 3)
  /-- `CVTS_E4M3` (R150). Stochastically rounds FP32 to E4M3. -/
  | cvtsE4m3 (vd va vb : BitVec 7) (ps : BitVec 3)
  /-- `CVTS_E5M2` (R150). Stochastically rounds FP32 to E5M2. -/
  | cvtsE5m2 (vd va vb : BitVec 7) (ps : BitVec 3)
  /-- `CVTS_E2M1` (R150). Stochastically rounds FP32 to E2M1. -/
  | cvtsE2m1 (vd va vb : BitVec 7) (ps : BitVec 3)
  /-- `MOV` (R138). Copies a lane word unchanged. -/
  | mov (vd va : BitVec 7) (ps : BitVec 3)
  /-- `SELB_F32` (R250). Blends two FP32 operands by a probability predicate. -/
  | selbF32 (vd va vb : BitVec 7) (pk : BitVec 3)
  /-- `SELB_F64` (R250). Blends two FP64 operands by a probability predicate. -/
  | selbF64 (vd va vb : BitVec 7) (pk : BitVec 3)
  /-- `SELB_BF16X2` (R250). Blends packed BF16 pairs by a probability predicate. -/
  | selbBf16x2 (vd va vb : BitVec 7) (pk : BitVec 3)
  /-- `SHAPE` (R152). Writes the shape tag code of a register. -/
  | shape (vd va : BitVec 7) (ps : BitVec 3)
  /-- `MOVP` (R153). Moves a predicate's code, code and lineage, or hard value into a register. -/
  | movp (vd : BitVec 7) (pa : BitVec 3) (sel : BitVec 7) (ps : BitVec 3)
  /-- `RAND` (R154). Computes Philox-4x32-10 from a key and counter into four registers. -/
  | rand (vd va vb : BitVec 7) (ps : BitVec 3)
  /-- `PCMP32` (R244). Soft-compares FP32 operands at the TEMP temperature into a probability predicate. -/
  | pcmp32 (c : BitVec 4) (pd : BitVec 3) (va vb : BitVec 7) (ps : BitVec 3)
  /-- `PCMP64` (R244). Soft-compares FP64 operands into a probability predicate. -/
  | pcmp64 (c : BitVec 4) (pd : BitVec 3) (va vb : BitVec 7) (ps : BitVec 3)
  /-- `PLOG` (R246). Combines probability predicates by product rules or min/max, setting DEP on overlap. -/
  | plog (pd pa pb : BitVec 3) (func : BitVec 5) (ps : BitVec 3)
  /-- `COLLAPSE` (R249). Collapses a probability predicate to a hard value against a supplied draw. -/
  | collapse (pd pa : BitVec 3) (vb : BitVec 7) (ps : BitVec 3)
  /-- `PGRAD` (R252). Writes the compare gradient or the probability of a predicate as FP32. -/
  | pgrad (vd : BitVec 7) (pa : BitVec 3) (sel : BitVec 7) (ps : BitVec 3)
  /-- `PSUM` (R253). Sums predicate probabilities over the executing lanes. -/
  | psum (vd : BitVec 7) (pa ps : BitVec 3)
  /-- `PCONST` (R248). Writes a constant predicate code with lineage 0. -/
  | pconst (pd : BitVec 3) (imm : BitVec 16) (ps : BitVec 3)
  /-- `PQUERY` (R254). Reads a predicate's lineage, fractional flag or poison. -/
  | pquery (vd : BitVec 7) (pa : BitVec 3) (sel : BitVec 7) (ps : BitVec 3)
  /-- `LMASK` (R177). Gathers a thresholded predicate across member lanes as mask, count, first or class. -/
  | lmask (vd : BitVec 7) (pa : BitVec 3) (vb : BitVec 7) (c : BitVec 3)
  /-- `XLANE` (R178). Exchanges values between lanes by absolute, rotate, group or butterfly index. -/
  | xlane (vd va vb : BitVec 7) (c : BitVec 3)
  /-- `REDUX` (R179). Reduces member lanes' values with a fixed pairwise tree. -/
  | redux (vd va vb : BitVec 7) (c : BitVec 3)
  /-- `SCAN` (R180). Inclusive scan over member lanes. -/
  | scan (vd va vb : BitVec 7) (c : BitVec 3)
  /-- `REBAL` (R183). Distributes counted work items evenly over lanes for one round. -/
  | rebal (vd va vb : BitVec 7)
  /-- `WSORT` (R184). Stable-sorts lane keys, giving source, rank or key. -/
  | wsort (vd va : BitVec 7) (c : BitVec 3)
  /-- `MATCH` (R181). Gives the mask of member lanes holding an equal value. -/
  | matchLanes (vd va vb : BitVec 7) (c : BitVec 3)
  /-- `ELECT` (R182). Elects the lowest active member lane. -/
  | elect (vd vb : BitVec 7) (c : BitVec 3)
  /-- `LD8` (R199). Loads a byte through a layout entry, zero-extended. -/
  | ld8 (vd vc : BitVec 7) (lay : BitVec 6) (hint : BitVec 1) (ps : BitVec 3)
  /-- `LD16` (R199). Loads a half word through a layout entry. -/
  | ld16 (vd vc : BitVec 7) (lay : BitVec 6) (hint : BitVec 1) (ps : BitVec 3)
  /-- `LD32` (R199). Loads a word through a layout entry. -/
  | ld32 (vd vc : BitVec 7) (lay : BitVec 6) (hint : BitVec 1) (ps : BitVec 3)
  /-- `LD64` (R199). Loads 8 bytes into an even pair. -/
  | ld64 (vd vc : BitVec 7) (lay : BitVec 6) (hint : BitVec 1) (ps : BitVec 3)
  /-- `LD128` (R199). Loads 16 bytes into a block of four. -/
  | ld128 (vd vc : BitVec 7) (lay : BitVec 6) (hint : BitVec 1) (ps : BitVec 3)
  /-- `ST8` (R199). Stores a byte through a layout entry. -/
  | st8 (vs vc : BitVec 7) (lay : BitVec 6) (hint : BitVec 1) (ps : BitVec 3)
  /-- `ST16` (R199). Stores a half word. -/
  | st16 (vs vc : BitVec 7) (lay : BitVec 6) (hint : BitVec 1) (ps : BitVec 3)
  /-- `ST32` (R199). Stores a word. -/
  | st32 (vs vc : BitVec 7) (lay : BitVec 6) (hint : BitVec 1) (ps : BitVec 3)
  /-- `ST64` (R199). Stores an even pair. -/
  | st64 (vs vc : BitVec 7) (lay : BitVec 6) (hint : BitVec 1) (ps : BitVec 3)
  /-- `ST128` (R199). Stores a block of four. -/
  | st128 (vs vc : BitVec 7) (lay : BitVec 6) (hint : BitVec 1) (ps : BitVec 3)
  /-- `CSTORE` (R205). Stores passing lanes' data to consecutive positions, updating the running count. -/
  | cstore (vs vc : BitVec 7) (lay : BitVec 6) (hint : BitVec 1) (ps : BitVec 3)
  /-- `LOOKUP` (R207). Searches the tag table for each lane's key. -/
  | lookup (vd va : BitVec 7) (ps : BitVec 3)
  /-- `SPOP` (R216). Takes the next elements of an indirect read stream, waiting for them. -/
  | spop (vd m : BitVec 7) (ps : BitVec 3)
  /-- `SPUSH` (R216). Supplies elements to an indirect write stream. -/
  | spush (va m : BitVec 7) (ps : BitVec 3)
  /-- `MOVI32` (R138). Moves a 32-bit literal into each executing lane. -/
  | movi32 (vd : BitVec 7) (ps : BitVec 3) (imm : BitVec 32)
  /-- `ATOM32` (R204). Performs a 32-bit atomic read-modify-write at the point of coherence of a level. -/
  | atom32 (vd va : BitVec 7) (ps : BitVec 3) (vc : BitVec 7) (lay : BitVec 6) (lv : BitVec 4) (op : BitVec 5) (ord : BitVec 2)
  /-- `ATOM64` (R204). Performs a 64-bit atomic read-modify-write. -/
  | atom64 (vd va : BitVec 7) (ps : BitVec 3) (vc : BitVec 7) (lay : BitVec 6) (lv : BitVec 4) (op : BitVec 5) (ord : BitVec 2)
  /-- `CAS32` (R204). 32-bit compare-and-swap. -/
  | cas32 (vd va vb : BitVec 7) (ps : BitVec 3) (vc : BitVec 7) (lay : BitVec 6) (lv : BitVec 4) (ord : BitVec 2)
  /-- `CAS64` (R204). 64-bit compare-and-swap. -/
  | cas64 (vd va vb : BitVec 7) (ps : BitVec 3) (vc : BitVec 7) (lay : BitVec 6) (lv : BitVec 4) (ord : BitVec 2)
  /-- `IADDI` (R137). Adds a signed 10-bit immediate in every active lane. -/
  | iaddi (vd va : BitVec 7) (imm : BitVec 10)
  /-- `ANDI` (R137). ANDs a sign-extended immediate. -/
  | andi (vd va : BitVec 7) (imm : BitVec 10)
  /-- `ORI` (R137). ORs a sign-extended immediate. -/
  | ori (vd va : BitVec 7) (imm : BitVec 10)
  /-- `XORI` (R137). XORs a sign-extended immediate. -/
  | xori (vd va : BitVec 7) (imm : BitVec 10)
  /-- `SHLI` (R137). Shifts left by an immediate count 0-31. -/
  | shli (vd va : BitVec 7) (imm : BitVec 10)
  /-- `SHRI_N` (R137). Logical right shift by an immediate. -/
  | shriN (vd va : BitVec 7) (imm : BitVec 10)
  /-- `SHRI_I` (R137). Arithmetic right shift by an immediate. -/
  | shriI (vd va : BitVec 7) (imm : BitVec 10)
  /-- `MOVI` (R138). Moves a signed 17-bit immediate into every active lane. -/
  | movi (vd : BitVec 7) (imm : BitVec 17)
  /-- `ICMPI` (R139). Compares a lane word with an immediate into a hard predicate. -/
  | icmpi (c : BitVec 4) (pd : BitVec 3) (va : BitVec 7) (imm : BitVec 10)
  /-- `SADD` (R155). Uniform addition, 32-bit or pair form. -/
  | sadd (vd va vb : BitVec 7) (sub : BitVec 3)
  /-- `SSUB` (R155). Uniform subtraction. -/
  | ssub (vd va vb : BitVec 7) (sub : BitVec 3)
  /-- `SMUL` (R155). Uniform multiplication. -/
  | smul (vd va vb : BitVec 7) (sub : BitVec 3)
  /-- `SMULH` (R155). Uniform high product, signed or unsigned. -/
  | smulh (vd va vb : BitVec 7) (sub : BitVec 3)
  /-- `SAND` (R155). Uniform AND. -/
  | sand (vd va vb : BitVec 7) (sub : BitVec 3)
  /-- `SOR` (R155). Uniform OR. -/
  | sor (vd va vb : BitVec 7) (sub : BitVec 3)
  /-- `SXOR` (R155). Uniform XOR. -/
  | sxor (vd va vb : BitVec 7) (sub : BitVec 3)
  /-- `SSHL` (R155). Uniform left shift. -/
  | sshl (vd va vb : BitVec 7) (sub : BitVec 3)
  /-- `SSHR` (R155). Uniform logical right shift. -/
  | sshr (vd va vb : BitVec 7) (sub : BitVec 3)
  /-- `SSAR` (R155). Uniform arithmetic right shift. -/
  | ssar (vd va vb : BitVec 7) (sub : BitVec 3)
  /-- `SMIN` (R155). Uniform minimum, signed or unsigned. -/
  | smin (vd va vb : BitVec 7) (sub : BitVec 3)
  /-- `SMAX` (R155). Uniform maximum. -/
  | smax (vd va vb : BitVec 7) (sub : BitVec 3)
  /-- `SCC` (R155). Uniform compare giving 1 or 0. -/
  | scc (vd va vb : BitVec 7) (sub : BitVec 3)
  /-- `SPOPC` (R155). Uniform population count. -/
  | spopc (vd va : BitVec 7) (sub : BitVec 3)
  /-- `SCLZ` (R155). Uniform leading-zero count. -/
  | sclz (vd va : BitVec 7) (sub : BitVec 3)
  /-- `SMOV` (R155). Uniform move, or the lane-0 form reading lane 0 of any register. -/
  | smov (vd va : BitVec 7) (sub : BitVec 3)
  /-- `JMP` (R161). Jumps the whole fragment or context, unconditionally or if V0-V6 is non-zero. -/
  | jmp (t : BitVec 3) (off : BitVec 21)
  /-- `BRU` (R160). Uniform branch on a predicate, trapping if lanes disagree. -/
  | bru (ps : BitVec 3) (off : BitVec 21)
  /-- `CALL` (R163). Pushes the return address and jumps. -/
  | call (off : BitVec 21)
  /-- `RECONV` (R164). Sets the fragment's pending reconvergence address. -/
  | reconv (off : BitVec 21)
  /-- `BAR` (R171). Arrives at a team barrier with a warp count and waits for completion. -/
  | bar (va : BitVec 7) (n : BitVec 6)
  /-- `TBAR` (R172). Arrives at the barrier of a tree-level node and waits. -/
  | tbar (lv : BitVec 4)
  /-- `PHASE` (R227). Releases and acquires at a tree level. -/
  | phase (lv : BitVec 4)
  /-- `FENCE_AR` (R227). Release and acquire fence at a level. -/
  | fenceAr (lv : BitVec 4)
  /-- `FENCE_REL` (R227). Release fence at a level. -/
  | fenceRel (lv : BitVec 4)
  /-- `FENCE_ACQ` (R227). Acquire fence at a level. -/
  | fenceAcq (lv : BitVec 4)
  /-- `TFENCE` (R228). Performs page-table stores and waits for earlier TLBINVs across a level's node. -/
  | tfence (lv : BitVec 4)
  /-- `IFENCE` (R229). Performs code stores and discards stale fetched words across a node. -/
  | ifence (lv : BitVec 4)
  /-- `ID` (R168). Reads the thread's index or linear identifier at a tree level. -/
  | levelId (lv : BitVec 4) (vd : BitVec 7) (c : BitVec 6)
  /-- `SIZE` (R169). Reads a level's fanout or cumulative count. -/
  | levelSize (lv : BitVec 4) (vd : BitVec 7) (c : BitVec 6)
  /-- `COLL` (R175). Contributes to a tree-level reduce, scan or broadcast and waits for the result. -/
  | coll (lv : BitVec 4) (vd va : BitVec 7) (k : BitVec 2) (op : BitVec 3)
  /-- `LAYOUT` (R195). Reads, validates and installs a 64-byte layout image into a table entry. -/
  | layout (va : BitVec 7) (lay : BitVec 6)
  /-- `LAYOUT_INV` (R195). Writes zeros to a layout entry, invalidating it. -/
  | layoutInv (lay : BitVec 6)
  /-- `LAYQ` (R196). Reads a field of a layout entry. -/
  | layq (va : BitVec 7) (lay : BitVec 6) (c : BitVec 4)
  /-- `MFSR` (R189). Reads a special register. -/
  | mfsr (vd : BitVec 7) (sr : BitVec 10)
  /-- `MTSR` (R189). Writes a special register, clamping or ignoring fields as each register gives. -/
  | mtsr (va : BitVec 7) (sr : BitVec 10)
  /-- `LAUNCH` (R260). Reads a launch packet, checks and binds it, and enqueues the task or reports FULL or a fault. -/
  | launch (vd va : BitVec 7)
  /-- `TWAIT` (R262). Waits for a launched task to retire and returns its status word. -/
  | twait (vd va : BitVec 7)
  /-- `TWAIT_POLL` (R262). Returns a task's status word or a not-retired value without waiting. -/
  | twaitPoll (vd va : BitVec 7)
  /-- `FORK_TILE` (R185). Starts a program on a free tile-sequencer context, or reports BUSY. -/
  | forkTile (vd va vb : BitVec 7)
  /-- `FORK_COPY` (R185). Starts a program on a free copy-sequencer context, or reports BUSY. -/
  | forkCopy (vd va vb : BitVec 7)
  /-- `RDV` (R186). Waits for a forked program to halt and returns its result. -/
  | rdv (vd va : BitVec 7)
  /-- `COMMIT` (R326). Closes the open matrix batch and returns its timeline number. -/
  | commit (vd : BitVec 7)
  /-- `TLWAIT` (R212). Waits until an engine timeline reaches a number, then acquires. -/
  | tlwait (va vb : BitVec 7)
  /-- `AEXPECT` (R214). Arms an arrival word's TARGET and applies a zero arrival. -/
  | aexpect (va vb : BitVec 7) (lay : BitVec 6)
  /-- `AWAIT` (R214). Waits until an arrival word's generation moves, acquires, and traps if ERR. -/
  | await (va vb : BitVec 7) (lay : BitVec 6)
  /-- `AARRIVE` (R214). Arrives on an arrival word as a release at CORE. -/
  | aarrive (va vb : BitVec 7) (lay : BitVec 6)
  /-- `CPY` (R210). Issues an asynchronous copy walking a layout entry. -/
  | cpy (va vb : BitVec 7) (lay : BitVec 6)
  /-- `CPYX` (R331). Issues an asynchronous copy that expands scaled, unscaled or codebook formats. -/
  | cpyx (va vb : BitVec 7) (lay : BitVec 6)
  /-- `GATHER` (R210). Issues an indexed gather copy. -/
  | gather (va vb : BitVec 7) (lay : BitVec 6)
  /-- `SCATTER` (R210). Issues an indexed scatter copy. -/
  | scatter (va vb : BitVec 7) (lay : BitVec 6)
  /-- `FILL` (R209). Makes a PENDING tag run and copies data into local slots, waiting for conflicting fills. -/
  | fill (va vb : BitVec 7) (lay : BitVec 6) (c : BitVec 4)
  /-- `TAGSET` (R208). Makes a slot a READY tag run with a key. -/
  | tagset (va vb : BitVec 7)
  /-- `TAGCLR` (R208). Invalidates the tag run covering a slot. -/
  | tagclr (va : BitVec 7)
  /-- `CBLOAD` (R330). Loads a 16-entry BF16 codebook table slot. -/
  | cbload (va : BitVec 7) (lay : BitVec 6) (k : BitVec 3)
  /-- `SETUPIS` (R215). Sets up an indirect read or write stream, discarding or draining the previous one. -/
  | setupis (va vb : BitVec 7) (lay : BitVec 6) (c : BitVec 4)
  /-- `PREF` (R217). Hints a line into the die cache. -/
  | pref (va : BitVec 7) (lay : BitVec 6) (hint : BitVec 4)
  /-- `CINC` (R218). Adds to a device usage counter atomically. -/
  | cinc (va vb : BitVec 7)
  /-- `CRD` (R218). Reads a device usage counter. -/
  | crd (vd va : BitVec 7)
  /-- `MMA_F64` (R322). Issues an FP64 64x64x16 matrix multiply-accumulate into a slot pair. -/
  | mmaF64 (va vb : BitVec 7) (slot : BitVec 6)
  /-- `MMA_BF16` (R322). Issues a BF16 matrix multiply-accumulate into an FP32 slot. -/
  | mmaBf16 (va vb : BitVec 7) (slot : BitVec 6)
  /-- `MMA_F16` (R322). Issues an FP16 matrix multiply-accumulate. -/
  | mmaF16 (va vb : BitVec 7) (slot : BitVec 6)
  /-- `MMA_E4M3` (R322). Issues an E4M3 matrix multiply-accumulate. -/
  | mmaE4m3 (va vb : BitVec 7) (slot : BitVec 6)
  /-- `MMA_E5M2` (R322). Issues an E5M2 matrix multiply-accumulate. -/
  | mmaE5m2 (va vb : BitVec 7) (slot : BitVec 6)
  /-- `MMA_B1` (R322). Issues a binary XOR or AND population-count multiply-accumulate. -/
  | mmaB1 (va vb : BitVec 7) (slot : BitVec 6) (c : BitVec 1)
  /-- `MMA_I8` (R322). Issues an INT8 matrix multiply-accumulate. -/
  | mmaI8 (va vb : BitVec 7) (slot : BitVec 6)
  /-- `ACCZ` (R323). Zeroes a run of accumulator slots. -/
  | accz (slot : BitVec 6) (n : BitVec 4)
  /-- `ACCLD` (R324). Copies a Granary region into a slot or pair. -/
  | accld (va : BitVec 7) (slot : BitVec 6) (c : BitVec 1)
  /-- `ACCST` (R324). Copies a slot or pair into a Granary region. -/
  | accst (va : BitVec 7) (slot : BitVec 6) (c : BitVec 1)
  /-- `ACCCVT` (R325). Down-converts a slot into a Granary region. -/
  | acccvt (va : BitVec 7) (slot : BitVec 6) (c : BitVec 4)
  /-- `TNEW` (R294). Places a ZERO or zeroed DENSE tile from a parameter register. -/
  | tnew (h : BitVec 5) (v : BitVec 7)
  /-- `TNEW_IMM` (R294). Places a ZERO or zeroed DENSE tile of a format named in ctl. -/
  | tnewImm (h : BitVec 5) (f : BitVec 1) (k : BitVec 2)
  /-- `TFREE` (R295). Makes a handle ZERO and releases its slab run. -/
  | tfree (hd : BitVec 5)
  /-- `TSLAB` (R296). Moves a LOWRANK tile to a run of a chosen capacity. -/
  | tslab (h : BitVec 5) (v : BitVec 7)
  /-- `TLOAD` (R298). Loads a DENSE tile from memory. -/
  | tload (h : BitVec 5) (v : BitVec 7) (lay : BitVec 6) (f : BitVec 1)
  /-- `TSTORE` (R298). Stores a tile's elements to memory. -/
  | tstore (h : BitVec 5) (v : BitVec 7) (lay : BitVec 6)
  /-- `TLRLD` (R299). Loads low-rank factors into a LOWRANK tile without rounding. -/
  | tlrld (h : BitVec 5) (v : BitVec 7) (lay : BitVec 6) (f : BitVec 1)
  /-- `TLRST` (R299). Stores a LOWRANK tile's factors and writes its rank. -/
  | tlrst (h : BitVec 5) (v : BitVec 7) (lay : BitVec 6)
  /-- `TADD` (R300). Adds or subtracts tiles, rank-rounding low-rank sums. -/
  | tadd (hd ha hb : BitVec 5) (c : BitVec 4)
  /-- `TSCAL` (R301). Scales a tile by an FP64 value. -/
  | tscal (h : BitVec 5) (v : BitVec 7)
  /-- `TMUL` (R302). Multiplies tiles, optionally transposed, rank-rounding low-rank products. -/
  | tmul (hd ha hb : BitVec 5) (tb ta : BitVec 1)
  /-- `TROUND` (R303). Rank-rounds a LOWRANK tile. -/
  | tround (hd ha : BitVec 5)
  /-- `TCOMP` (R303). Compresses a DENSE tile to LOWRANK when its rank fits CAP. -/
  | tcomp (hd ha : BitVec 5)
  /-- `TDENSE` (R303). Expands a tile to DENSE in a chosen format. -/
  | tdense (hd ha : BitVec 5) (c : BitVec 2)
  /-- `TINFO` (R297). Returns a handle's descriptor word. -/
  | tinfo (h : BitVec 5) (v : BitVec 7)
  /-- `TNORM` (R304). Returns a tile's Frobenius norm or its square. -/
  | tnorm (h : BitVec 5) (v : BitVec 7) (c : BitVec 1)
  /-- `TGEMM` (R309). Computes C plus or minus op(A)op(B) on the matrix array or a Winnower. -/
  | tgemm (hd ha hb hc : BitVec 5) (tb ta sub : BitVec 1)
  /-- `TCHOL` (R310). Cholesky-factors a DENSE tile in place and writes a status word. -/
  | tchol (h : BitVec 5) (v : BitVec 7)
  /-- `TLU` (R311). LU-factors a DENSE tile with row pivoting, writing pivots and status. -/
  | tlu (h : BitVec 5) (v : BitVec 7) (lay : BitVec 6)
  /-- `TQR` (R312). Householder QR of a DENSE tile into R and Q. -/
  | tqr (hd ha hc : BitVec 5)
  /-- `TQR_R` (R312). Householder QR keeping only R. -/
  | tqrR (hd ha : BitVec 5)
  /-- `TTRSM` (R313). Triangular solve against a tile. -/
  | ttrsm (hd ha hb : BitVec 5) (c : BitVec 4)
  /-- `TMV` (R314). Tile-vector multiply into memory. -/
  | tmv (h : BitVec 5) (v : BitVec 7) (lay : BitVec 6) (c : BitVec 3)
  /-- `TRAP` (R342). Raises SOFTWARE with an immediate. -/
  | trap (imm : BitVec 9)
  /-- `SYSC` (R344). Reads task values or requests a resident-kernel service. -/
  | sysc (vd va : BitVec 7) (n : BitVec 10)
  /-- `PGMAP` (R345). Maps a zero-touch page from the glean pool in one atomic step. -/
  | pgmap (vd va : BitVec 7)
  /-- `TLBINV` (R346). Removes TLB entries translating a VA across a node. -/
  | tlbinv (lv : BitVec 4) (va : BitVec 7)
  /-- `TLBINV_ALL` (R346). Removes every TLB entry of the task's address space across a node. -/
  | tlbinvAll (lv : BitVec 4)
  /-- `CLOCK` (R348). Reads the die's 1 GHz reference count. -/
  | clock (vd : BitVec 7)
  /-- `SADDI` (R156). Uniform add of a sign-extended immediate. -/
  | saddi (vd va : BitVec 7) (imm : BitVec 10)
  /-- `SANDI` (R156). Uniform AND with an immediate. -/
  | sandi (vd va : BitVec 7) (imm : BitVec 10)
  /-- `SORI` (R156). Uniform OR with an immediate. -/
  | sori (vd va : BitVec 7) (imm : BitVec 10)
  /-- `SXORI` (R156). Uniform XOR with an immediate. -/
  | sxori (vd va : BitVec 7) (imm : BitVec 10)
  /-- `SSHLI` (R156). Uniform left shift by an immediate. -/
  | sshli (vd va : BitVec 7) (imm : BitVec 10)
  /-- `SSHRI` (R156). Uniform logical right shift by an immediate. -/
  | sshri (vd va : BitVec 7) (imm : BitVec 10)
  /-- `SSARI` (R156). Uniform arithmetic right shift by an immediate. -/
  | ssari (vd va : BitVec 7) (imm : BitVec 10)
  /-- `SMOVI` (R156). Uniform move of a signed 17-bit immediate. -/
  | smovi (vd : BitVec 7) (imm : BitVec 17)
  /-- `SCCI` (R156). Uniform signed less-than against an immediate. -/
  | scci (vd va : BitVec 7) (imm : BitVec 10)
  /-- `SMULI` (R156). Uniform multiply by an immediate. -/
  | smuli (vd va : BitVec 7) (imm : BitVec 10)
  /-- `SMOVI32` (R157). Uniform move of a 32-bit literal. -/
  | smovi32 (vd : BitVec 7) (imm : BitVec 32)
  /-- `SMOVI64` (R157). Uniform move of a 64-bit literal into a pair. -/
  | smovi64 (vd : BitVec 7) (imm : BitVec 64)
  /-- `SADDI32` (R157). Uniform add of a 32-bit literal. -/
  | saddi32 (vd va : BitVec 7) (imm : BitVec 32)
  /-- `SANDI32` (R157). Uniform AND with a 32-bit literal. -/
  | sandi32 (vd va : BitVec 7) (imm : BitVec 32)
  /-- `SORI32` (R157). Uniform OR with a 32-bit literal. -/
  | sori32 (vd va : BitVec 7) (imm : BitVec 32)
  /-- `SXORI32` (R157). Uniform XOR with a 32-bit literal. -/
  | sxori32 (vd va : BitVec 7) (imm : BitVec 32)
  /-- `RET` (R163). Pops the return stack and jumps there. -/
  | ret
  /-- `WIDE` (R166). Opens or nests a bracket in which the fragment takes every non-exited lane. -/
  | wide
  /-- `ENDWIDE` (R166). Closes a WIDE bracket, restoring the saved mask. -/
  | endwide
  /-- `YIELD` (R167). Yields issue to other fragments, warps or contexts. -/
  | yield
  /-- `DSYNC` (R187). Waits in deterministic mode until the team's logical clock is not ahead of any other. -/
  | dsync
  /-- `TKTAKE` (R188). Waits until the team holds the Lodestone. -/
  | tktake
  /-- `TKPASS` (R188). Passes the Lodestone to the next team. -/
  | tkpass
  /-- `TRAP_ESC` (R342). Re-raises the trap FAULTINFO describes to the next fault domain. -/
  | trapEsc
  /-- `TRET` (R343). Returns from a handler, restoring state and re-executing or skipping the faulting instruction. -/
  | tret
  /-- `HALT` (R347). Stops a sequencer program, commits its batch and releases waiting RDVs. -/
  | halt
  /-- `NOP` (R167). Does nothing. -/
  | nop
  /-- `RESET_BOOT` (R372). At reset the boot ROM measures itself, verifies and measures the kernel, and starts it. -/
  | resetBoot
  /-- `TEAM_DISPATCH` (R266). The Helm dispatches or resumes a team of a dispatchable task onto a free core by deadline, priority and launch order. -/
  | teamDispatch (die : Nat) (cores : List Nat)
  /-- `DEADLINE_PASS` (R265). A die's CLOCK passes an unstarted task's deadline, marking it overdue and counting MISSED. -/
  | deadlinePass (die task : Nat)
  /-- `PREEMPT_REQUEST` (R267). The Helm requests preemption of later-deadline preemptible teams to free cores. -/
  | preemptRequest (die : Nat)
  /-- `TEAM_SAVE_COMPLETE` (R353). A stopped team's outstanding operations drain and its live state is saved, freeing its core. -/
  | teamSaveComplete (team : Nat)
  /-- `MIGRATE` (R268). The Helm moves a whole undispatched or stopped team to another die. -/
  | migrate (team core : Nat)
  /-- `KERNEL_TRAP_SERVICE` (R369). The resident kernel maps, marks or re-validates a page and resumes the agent, or terminates the task. -/
  | kernelTrapService (agent : Nat)
  /-- `WATCHDOG_EXPIRY` (R341). A task passes its region's watchdog limit, counting FAULTS and reporting to the OS cores. -/
  | watchdogExpiry (task : Nat)
  /-- `COPY_COMPLETE` (R210). An asynchronous copy, gather, scatter, fill or expansion completes, arrives and advances its timeline. -/
  | copyComplete (agent num : Nat)
  /-- `CPYX_TABLE_READ` (R334). A waiting CPYX reads a block's codebook table once the table-arrival word allows. -/
  | cpyxTableRead (agent num : Nat)
  /-- `STREAM_FETCH` (R215). The stream unit fetches read-stream elements ahead into the FIFO. -/
  | streamFetch (agent stream : Nat)
  /-- `STREAM_STORE` (R216). The stream unit stores a pushed write-stream element. -/
  | streamStore (agent stream : Nat)
  /-- `MMA_OP_START` (R327). The array takes the next matrix operation and fetches its operands after the previous one's writes. -/
  | mmaOpStart (agent : Nat)
  /-- `MMA_OP_COMPLETE` (R322). A matrix operation writes its accumulator words and merges flags. -/
  | mmaOpComplete (agent : Nat)
  /-- `WINNOWER_START` (R308). A free Winnower or the transfer path takes a context's next tile operation. -/
  | winnowerStart (agent : Nat)
  /-- `TILE_ALLOCATION_POINT` (R276). A rounding result reaches its allocation point and its storage is placed. -/
  | tileAllocationPoint (agent : Nat)
  /-- `TILE_OP_COMPLETE` (R291). A tile operation completes, releasing old runs, writing status, merging flags and advancing the Winnower timeline. -/
  | tileOpComplete (agent : Nat)
  /-- `PAGE_WALK` (R231). A walker reads page-table entries at their home die cache to fill a TLB. -/
  | pageWalk (walker : Walker) (space va : Nat)
  /-- `STORE_PERFORM` (R221). A store or atomic is performed at a point of coherence. -/
  | storePerform (idx : Nat) (reach : Reach)
  /-- `ECC_CORRECTED` (R357). A corrected storage error is counted in a machine-check record. -/
  | eccCorrected (unit : Nat)
  /-- `ECC_UNCORRECTABLE` (R356). An uncorrectable storage error marks the affected words poisoned. -/
  | eccUncorrectable (target : EccTarget)
  /-- `PARITY_DISCARD` (R356). A parity error discards a TLB, walk-cache or instruction-cache entry for refetch. -/
  | parityDiscard (target : ParityTarget)
  /-- `SPARE_CHANGE` (R375). The service routine retires a worn unit, brings in a spare and updates capability counts. -/
  | spareChange (unit : SpareUnit)
  /-- `MAILBOX_LAUNCH` (R363). The OS cores act on a host LAUNCH record and reply with id and result. -/
  | mailboxLaunch (mb : Nat) (others : List (Nat × Nat)) (share : List Nat)
  /-- `MAILBOX_WAIT` (R362). The OS cores take a host WAIT record for a task id. -/
  | mailboxWait (mb : Nat)
  /-- `MAILBOX_WAIT_REPLY` (R363). The WAIT reply is written after the task's retirement reaches the host window. -/
  | mailboxWaitReply (mb : Nat)
  /-- `MAILBOX_POLL` (R362). Replies with a task's status word or a not-retired value. -/
  | mailboxPoll (mb : Nat)
  /-- `MAILBOX_COUNTER` (R362). Replies with a usage counter value. -/
  | mailboxCounter (mb : Nat)
  /-- `MAILBOX_ATTEST` (R373). Produces a signed attestation report over a nonce and measurements. -/
  | mailboxAttest (mb : Nat)
  /-- `MAILBOX_CLOCK` (R362). Replies with a compute die's CLOCK. -/
  | mailboxClock (mb : Nat)
  /-- `SYSC_LOG` (R370). The kernel logs up to 256 bytes of text. -/
  | syscLog (agent : Nat)
  /-- `SYSC_NOTIFY` (R371). The kernel posts a value to the host notify line, incrementing COUNT. -/
  | syscNotify (agent : Nat)
  /-- `SYSC_BLKREAD` (R370). The kernel reads NVMe blocks into a buffer. -/
  | syscBlkread (agent : Nat)
  /-- `SYSC_BLKWRITE` (R370). The kernel writes a buffer to NVMe blocks. -/
  | syscBlkwrite (agent : Nat)
  /-- `HOST_REGISTER_WRITE` (R371). The host writes a CXL.io register with no row of its own, such as the notify-line base. -/
  | hostRegisterWrite (reg : HostReg) (value : Nat)
  /-- `LINK_REPLAY` (R364). A Bearing flit failing its CRC is replayed. -/
  | linkReplay (port : Nat)
  /-- `LINK_DOWN` (R364). A port failing 8 consecutive replays goes down and traffic moves to other ports. -/
  | linkDown (port : Nat)
  /-- `CHANNEL_STOP` (R364). A receiver asserts stop on a full virtual channel. -/
  | channelStop (port chan : Nat)
  /-- `CHANNEL_RESUME` (R364). A receiver signals resume on a virtual channel. -/
  | channelResume (port chan : Nat)
  /-- `PEER_TIMEOUT` (R364). A PEER access to an unreachable device faults PERM after 100 us. -/
  | peerTimeout (agent : Nat)
  /-- `THERMAL_THROTTLE` (R376). A die junction above 105 C lowers that die's arithmetic clock in 125 MHz steps. -/
  | thermalThrottle (die : Nat)
  /-- `TLBINV_COMPLETE` (R346). An issued TLBINV finishes removing its entries from every TLB of the level-L node. -/
  | tlbinvComplete (idx : Nat)
  /-- `PEER_ACCESS` (R365). A PEER access from another device arrives over Bearing and is translated and performed at this device. -/
  | peerAccess (req : PeerReq)
  /-- `SYSTEM_LAUNCH_PACKET` (R366). A SYSTEM-domain launch packet sent by another device's OS cores arrives and is bound against this device's capability registers. -/
  | systemLaunchPacket (space : Nat) (packet : List Byte) (others : List (Nat × Nat)) (share : List Nat)
  /-- `COLLECTIVE_CHANNEL_MESSAGE` (R365). A collective contribution for a level bound to RACK or SYSTEM arrives over the Bearing collective channel and may complete a COLL instance. -/
  | collectiveChannelMessage (inst pos : Nat) (value : BitVec 64) (poison : Bool)
  /-- `MAILBOX_UNDEFINED_RECORD` (R363). The OS cores act on a request record with an unlisted OP or a non-zero reserved byte and reply with RESULT1 = 0xFFFF_FFFF. -/
  | mailboxUndefinedRecord (mb : Nat)
  /-- `SYSC_UNKNOWN_SERVICE` (R344). The resident kernel serves a SYSC request for an unknown service from 16 to 511 and returns all ones. -/
  | syscUnknownService (agent : Nat)
  deriving DecidableEq, Repr, Inhabited

end Sys2Proof
end

