-- ==== Sys2Proof/Machine/State.lean ====
section
/-! DEFINITION. The state of a JX9 device as plain data: the device and its units, the tasks of the Helm, the
teams, the agents (warps and sequencer contexts) with their registers, memory with its poison marks, the accesses and
operations in flight, and the state after reset. -/

namespace Sys2Proof.Machine

/-! ### Registers -/

/-- How a vector register holds its 32 lane values (R43). -/
inductive Shape where
  /-- Every lane reads the value. -/
  | uniform (value : Word)
  /-- Lane i reads base + i × stride, modulo 2^32. -/
  | affine (base stride : Word)
  /-- Lane i reads the i-th word. -/
  | general (words : List Word)
  deriving DecidableEq, Repr, Inhabited

/-- A vector register: its shape and the 32 poison marks (R41, R43, R48). -/
structure VReg where
  shape : Shape
  poison : Mask
  deriving DecidableEq, Repr, Inhabited

/-- A predicate register in one lane (R49). -/
structure Pred where
  code : BitVec 16
  lin : BitVec 8
  poison : Bool
  deriving DecidableEq, Repr, Inhabited

/-- The special registers of a warp or sequencer context (R56 to R62). -/
structure SRegs where
  fpcsr : Word
  temp : Word
  pstat : Word
  memberExit : Bool
  trcc : Word
  trct : DWord
  faultinfo : BitVec 128
  deriving DecidableEq, Repr, Inhabited

/-- A layout entry (R52). -/
structure Layout where
  base : DWord
  space : Byte
  esize : Byte
  dims : Byte
  mode : Byte
  peer : BitVec 16
  xmask : BitVec 16
  extent : List Word
  stride : List DWord
  deriving DecidableEq, Repr, Inhabited

/-! ### Memory -/

/-- Memory: the bytes that differ from 0 by rising key, the rising numbers of the poisoned 32-bit words (R48), and those
of the words whose stored bits an uncorrectable error has struck and no store has replaced since (R201, R356; log 44).
A key is a physical byte address, a byte of a team's local memory, a byte of a cluster's Granary, or a byte of another
device; Ops.lean gives the numbering. A byte that is not listed reads 0 (log 1). -/
structure Memory where
  cells : List Host.Cell
  marks : List Nat
  struck : List Nat := []
  deriving DecidableEq, Repr, Inhabited

/-- One access that writes memory as a whole: the bytes from `key` on, and the marks it sets or clears. -/
structure Store where
  key : Nat
  bytes : List Byte
  marks : List (Nat × Bool)
  deriving DecidableEq, Repr, Inhabited

/-- The three distances of a point of coherence from its agent (R220): its core, its cluster, the home. -/
inductive Point where
  | core
  | cluster
  | home
  deriving DecidableEq, Repr, Inhabited

/-- A store or atomic that its agent has issued and that is not yet performed at its home (R221, R224). -/
structure Pend where
  agent : Nat
  core : Nat
  cluster : Nat
  store : Store
  atomic : Bool := false
  deriving DecidableEq, Repr, Inhabited

/-! ### Split table, handlers -/

/-- A split-table entry in use is a fragment or a join (R23). -/
inductive EntryKind where
  | free
  | running
  | join
  deriving DecidableEq, Repr, Inhabited

/-- A deferral record (R25, R162). `phase` is set once the deferred lanes have taken over. -/
structure Deferral where
  resume : DWord
  deferred : Mask
  full : Mask
  target : Option DWord
  stack : List DWord
  phase : Bool
  deriving DecidableEq, Repr, Inhabited

/-- What a running fragment waits for (R27). -/
inductive Hold where
  /-- Nothing: the fragment is ready. -/
  | ready
  /-- A condition that the same instruction tests again when it is issued again (TWAIT, TLWAIT, AWAIT, DSYNC,
  TKTAKE, FILL, SPOP, SETUPIS and stalls at issue). -/
  | polling
  /-- The other ready fragments that issue before it does: it has yielded, and completes when it issues again (R167). -/
  | yielded
  /-- The end of a sequencer program (R186): its join id and the register that takes the result. -/
  | rdv (id dest : Nat)
  /-- The completion of wait instances (R170), by number in the list of instances, and the destination of a COLL's
  result, with whether it is a pair. -/
  | barrier (insts : List Nat) (dest : Option (Nat × Bool))
  /-- A SYSC service from 16 to 511, its argument, and the pair that takes its result (R344). -/
  | service (n : Nat) (arg : DWord) (dest : Nat)
  /-- A PEER access to a device that no port reaches, since the CLOCK value of the hosting die (R364). -/
  | peer (since : Nat)
  /-- The allocation point of the tile operation that the context issued last (R277), or the completion of TNORM. -/
  | allocation
  deriving DecidableEq, Repr, Inhabited

/-- A split-table entry (R23), or the one program counter of a sequencer context. -/
structure Entry where
  kind : EntryKind
  pc : DWord
  mask : Mask
  reconv : Option DWord
  parent : Option Nat
  stack : List DWord
  pending : Option DWord
  records : List Deferral
  arrived : Mask
  hold : Hold
  /-- After a return from a handler: re-execute in these lanes only (R343). -/
  redo : Option Mask
  /-- After YIELD: the fragments that issue before this one does (R167), as agent and entry; entry 8 stands for any
  fragment of the agent. -/
  owed : List (Nat × Nat)
  /-- Issue slots that its warp has given to other fragments since it became ready or last issued (R27). -/
  given : Nat := 0
  /-- Instructions that its warp pipe has issued for other warps since its warp last issued one, or, while it waits, since it last
  tested its wait (R27). -/
  passed : Nat := 0
  /-- When it last issued, by the count of issues: the model's own field (R28, log 2). -/
  turn : Nat := 0
  deriving DecidableEq, Repr, Inhabited

/-- The WIDE bracket of a warp (R166): its depth, the widening entry, that entry's saved mask, W, and the number of
records it held. -/
structure Wide where
  depth : Nat
  entry : Nat
  saved : Mask
  lanes : Mask
  records : Nat
  deriving DecidableEq, Repr, Inhabited

/-- What R337 saves when a handler is entered, with the faulting entry, the instruction's address and the address
after it, the entry lanes E, and whether lanes outside MASK completed the instruction (R338). -/
structure Frame where
  entries : List Entry
  wide : Wide
  fpcsr : Word
  temp : Word
  pstat : Word
  faultinfo : BitVec 128
  entry : Nat
  pc : DWord
  next : DWord
  lanes : Mask
  partDone : Bool
  /-- For a translation that failed at another device, that device and the address (R365, R369). -/
  peer : Option (Nat × DWord) := none
  deriving DecidableEq, Repr, Inhabited

/-- A trap: the fields of FAULTINFO it writes (R62, R335), and whether lanes outside the mask completed (R338). -/
structure Trap where
  cause : Nat
  mask : Mask
  addr : DWord
  access : Nat
  level : Option Nat
  partDone : Bool
  /-- The field LEVEL where LEVELV is 0: TRAP.esc takes it from FAULTINFO as it stands (R342). -/
  stale : Nat := 0
  /-- The device of the access, when its translation is made at another one (R365, R369). -/
  peer : Option Nat := none
  deriving DecidableEq, Repr, Inhabited

/-! ### Engines of an agent -/

/-- Which copy an operation is (R210, R209, R331). -/
inductive CopyKind where
  | cpy
  | gather
  | scatter
  | fill (slot slots : Nat)
  | cpyx (sfmt dfmt : Nat) (extra : BitVec 16) (table : List (Word × Bool)) (tarr : Bool) (gen : Nat)
  deriving DecidableEq, Repr, Inhabited

/-- A copy in flight, with everything it captured at issue (R213). -/
structure CopyOp where
  num : Nat
  kind : CopyKind
  walked : Layout
  walkFrom : List Int
  other : Layout
  otherFrom : List Int
  index : Layout
  indexFrom : Int
  count : Nat
  /-- The key of the arrival word, when the copy has one. -/
  arrival : Option Nat
  /-- The key of the table-arrival word, when the expansion waits on one. -/
  tableArrival : Option Nat
  /-- Tables of 3-bit codebook blocks read so far (R334). -/
  tables : List (List (Word × Bool))
  /-- Elements written so far, and the coordinates of the next one in the walked layout and in the other one (R192, R225). -/
  done : Nat := 0
  walkAt : List Int := []
  otherAt : List Int := []
  /-- A scale code of 0xFF has been met in them (R333). -/
  bad : Bool := false
  /-- Since when, as a CLOCK value plus 1, it has waited for a device that no port reaches (R364); 0 when it does not wait. -/
  since : Nat := 0
  deriving DecidableEq, Repr, Inhabited

/-- A stream of a warp (R215). -/
structure Stream where
  setUp : Bool
  write : Bool
  entry : Layout
  index : Layout
  coords : List Int
  start : Int
  count : Nat
  /-- Elements already popped or pushed. -/
  next : Nat
  /-- Elements fetched ahead, or pushed and not stored: where each lies (none when it is absent), its word, its mark. -/
  fifo : List (Option Nat × Word × Bool)
  deriving DecidableEq, Repr, Inhabited

/-- A tile handle (R51, R274). -/
structure Handle where
  /-- 0 ZERO, 1 DENSE, 2 LOWRANK. -/
  kind : Nat
  /-- Elements are FP32. -/
  f32 : Bool
  rank : Nat
  cap : Nat
  slab : Nat
  psn : Bool
  deriving DecidableEq, Repr, Inhabited

/-- The value of a finished tile operation, before it is stored: the kind, the format and the stored words in
storage order (64-bit words for FP64, 32-bit words for FP32), whether every word is poisoned. -/
structure TileValue where
  kind : Nat
  f32 : Bool
  rank : Nat
  words : List Nat
  poison : Bool
  deriving DecidableEq, Repr, Inhabited

/-- What a tile operation occupies while it runs (R308): the transfer path, a Winnower, the matrix array. -/
inductive TileUnit where
  | transfer
  | winnower
  | array
  deriving DecidableEq, Repr, Inhabited

/-- A tile operation in flight (R291, R306): the instruction, the parameters it captured (R213, R283), the memory elements
that its checks translated (R298), how far it has come, its destinations, and what it has computed. -/
structure TileOp where
  num : Nat
  instr : Instr
  order : Nat
  params : List Word
  trcc : Word
  trct : DWord
  /-- The keys of its memory elements in element order; none for an absent one. -/
  keys : List (Option Nat)
  /-- The words of its source handles at issue. -/
  srcs : List Handle
  unit : TileUnit
  /-- A unit has taken it: it has read its operands. -/
  started : Bool
  /-- It has passed its allocation point (R276). -/
  allocated : Bool
  /-- Destination handle, its word with the storage placed, the run released at completion (start, length). -/
  dests : List (Nat × Handle × (Nat × Nat))
  /-- What it stores in its destination handles. -/
  results : List TileValue
  /-- What it stores in memory or in the register pair of TNORM, with marks. -/
  elems : List (Nat × Bool)
  status : Word
  flags : BitVec 6
  capped : Bool
  densified : Bool
  /-- How many of its accesses to memory it has performed. -/
  done : Nat := 0
  deriving DecidableEq, Repr, Inhabited

/-- A matrix or ACC operation in flight (R317, R326, R327): the instruction, the operand words it captured, its place
in the cluster's issue order, and the operands once they are fetched. -/
structure MatOp where
  instr : Instr
  order : Nat
  wordA : Word
  wordB : Word
  started : Bool
  /-- Operand elements with their marks, row by row. -/
  opA : List (List (Nat × Bool))
  opB : List (List (Nat × Bool))
  flags : BitVec 6
  /-- How many of its accesses to the Granary it has performed. -/
  done : Nat := 0
  deriving DecidableEq, Repr, Inhabited

/-- The tile, Winnower and matrix state of a tile-sequencer context. -/
structure TileCtx where
  handles : Vector Handle 32
  /-- Operations numbered on the Winnower timeline (R54, R291). -/
  issued : Nat
  ops : List TileOp
  /-- Matrix operations in issue order, and the number of operations closed by each committed batch not yet
  complete (R326). -/
  matOps : List MatOp
  batches : List Nat
  committed : Nat
  /-- Registers that wait for a status word (R307), with the number of the operation. -/
  statusRegs : List (Nat × Nat)
  deriving DecidableEq, Repr, Inhabited

/-! ### Agents -/

/-- Which of the three agents (R79). -/
inductive AgentKind where
  | warp
  | tileSeq
  | copySeq
  deriving DecidableEq, Repr, Inhabited

/-- Where an agent is in its life. -/
inductive Phase where
  /-- It issues instructions. -/
  | active
  /-- A trap of the given entry reached the OS cores and the agent is stopped (R336). -/
  | stopped (entry : Nat) (t : Trap)
  /-- HALT has issued and operations are in flight (R347). -/
  | halting
  /-- Its team is saved (R353). -/
  | saved
  /-- A warp without lanes (R33), or a context that is free again. -/
  | retired
  deriving DecidableEq, Repr, Inhabited

/-- A warp or a sequencer context. -/
structure Agent where
  kind : AgentKind
  team : Nat
  /-- The warp's number within its team (R10), or the context's number within its sequencer. -/
  number : Nat
  phase : Phase
  regs : Vector VReg 128
  /-- P0 to P6, each 32 lanes. -/
  preds : Vector (Vector Pred 32) 7
  entries : List Entry
  exited : Mask
  wide : Wide
  frames : List Frame
  sregs : SRegs
  layouts : Vector Layout 64
  view : Memory
  /-- Bytes that engine operations wrote since its last refresh, oldest first: its own operations, or, in local memory, those
  of its team (R192, R225). Its loads may return them: each key with the byte and what becomes of its word's mark. -/
  late : List (Nat × Byte × Option Bool)
  copyIssued : Nat
  copyOps : List CopyOp
  codebooks : List (List (Word × Bool))
  streams : List Stream
  tile : TileCtx
  /-- The section whose code it runs: 0 .text, 1 .seq tile, 2 .seq copy (R92). -/
  sect : Nat
  /-- Releases that its later memory instructions wait for, until the team's turn: of its own PHASE and FENCE, or of the FORK that
  started it. Each with the agent that releases, the point, and whether its own view is refreshed after it (R185, R223, R227). -/
  due : List (Nat × Point × Bool) := []
  /-- The address of the instruction that it issued last (R267). -/
  issuedAt : DWord := 0#64
  deriving DecidableEq, Repr, Inhabited

/-! ### Teams -/

inductive TeamPhase where
  | undispatched
  | resident
  | suspended
  | retired
  deriving DecidableEq, Repr, Inhabited

/-- State of a tag-table entry (R206). -/
inductive TagState where
  | invalid
  | pending
  | ready
  deriving DecidableEq, Repr, Inhabited

/-- A run of tag entries: its start, state, key and length, and the copy that fills it (agent and number). -/
structure Tag where
  start : Nat
  state : TagState
  key : Word
  length : Nat
  filler : Option (Nat × Nat)
  deriving DecidableEq, Repr, Inhabited

/-- A sequencer program that a team started (R185, R186). -/
structure Join where
  id : Nat
  agent : Nat
  result : Option Nat
  consumed : Bool
  deriving DecidableEq, Repr, Inhabited

/-- A save record of an agent (R355): the 64-byte header, the control block as data, and the records as bytes. -/
structure SaveRecord where
  agent : Nat
  header : List Byte
  entries : List Entry
  wide : Wide
  exited : Mask
  vecs : List (List Byte)
  preds : List (List Byte)
  handles : List (List Byte)
  deriving DecidableEq, Repr, Inhabited

/-- A store that waits for the team's turn (R272), its place in the order of the buffered stores, and the keys of its bytes
that a later access of the team's core has replaced (log 45). -/
structure Buffered where
  agent : Nat
  store : Store
  order : Nat := 0
  gone : List Nat := []
  deriving DecidableEq, Repr, Inhabited

structure Team where
  task : Nat
  logical : Nat
  phase : TeamPhase
  /-- The core it runs on, numbered over the device; while it is not dispatched, a core of the die that holds it. -/
  core : Nat
  /-- It has been placed on a core. -/
  placed : Bool
  /-- The layout table that the warps share (R52); each warp uses its own copy until R53 lets it use this one. -/
  layouts : Vector Layout 64
  tags : List Tag
  joins : List Join
  clock : DWord
  buffer : List Buffered
  preemptReq : Bool
  /-- Since it was last resumed, the team has passed a preemption point (R267). -/
  passedPoint : Bool
  /-- Until it has: the agents and addresses of the instructions completed that have not been looked up (R267). -/
  left : List (Nat × DWord) := []
  /-- TKPASS was issued while the team had a fault in a handler: the Lodestone passes once it is resolved (R271). -/
  passDue : Bool := false
  /-- The suspended team resumes in place, on its core, since its unit has changed and no other core takes it (R375). -/
  stays : Bool := false
  /-- Clusters whose accumulator slots its task holds since it was placed there; it counts among their teams until it retires
  (R316). -/
  slotsIn : List Nat := []
  saved : List SaveRecord
  deriving DecidableEq, Repr, Inhabited

/-- The kind of a wait instance (R170). -/
inductive InstKind where
  | bar (number : Nat)
  | tbar (level : Nat)
  | coll (level : Nat) (ctl : Nat)
  deriving DecidableEq, Repr, Inhabited

/-- A contribution to a collective: the agent (none for one that came over Bearing), its position, value and mark. -/
structure Contribution where
  agent : Option Nat
  position : Nat
  value : DWord
  poison : Bool
  deriving DecidableEq, Repr, Inhabited

/-- Lanes of a suspended warp that a completed wait instance releases when they issue again, with their result (R173). -/
structure Owed where
  agent : Nat
  lanes : Mask
  value : DWord
  poison : Bool
  flags : BitVec 6
  deriving DecidableEq, Repr, Inhabited

/-- A wait instance in its current generation (R170 to R175): the task, its kind, its node (the number of R168 .lin, or
the team for BAR), the lanes of each warp that have issued, and what their fragments read, in order of issue. -/
structure Instance where
  task : Nat
  kind : InstKind
  node : Nat
  arrivals : List (Nat × Mask)
  /-- Agent, lanes, the count or contribution that the fragment read, its mark. -/
  offers : List (Nat × Mask × DWord × Bool)
  count : Option Nat
  contributions : List Contribution
  owes : List Owed
  deriving DecidableEq, Repr, Inhabited

/-! ### Tasks -/

/-- A declared level of the tree: fanout (0 for $arg) and binding code (8 for any) (R8, R92). -/
structure TreeLevel where
  fan : Nat
  phys : Nat
  deriving DecidableEq, Repr, Inhabited

/-- A bound level: its fanout, its physical code, and whether the program declared it (R15). -/
structure BoundLevel where
  fan : Nat
  phys : Nat
  declared : Bool
  deriving DecidableEq, Repr, Inhabited

/-- What the Helm keeps of a code object (R92, R259). -/
structure CodeInfo where
  regsN : Nat
  regsG : Nat
  localSize : Nat
  granary : Nat
  tree : List TreeLevel
  /-- Section kind, file offset and size. -/
  sections : List (Nat × Nat × Nat)
  deriving DecidableEq, Repr, Inhabited

/-- The effective values of one region of a chain (R36, R37). -/
structure Region where
  va : DWord
  cores : Nat
  pages : Nat
  localBytes : Nat
  granary : Nat
  slabs : Nat
  prio : Nat
  preemptible : Bool
  deterministic : Bool
  reqsign : Bool
  handler : DWord
  watchdog : Nat
  qlimit : Nat
  deriving DecidableEq, Repr, Inhabited

/-- A declared range (R258). -/
structure Range where
  mode : Nat
  start : DWord
  length : Nat
  deriving DecidableEq, Repr, Inhabited

/-- A physical extent (R269): first VA, first physical address, bytes, and the attributes and permissions of the PTEs. -/
structure Extent where
  va : Nat
  pa : Nat
  size : Nat
  pte : DWord
  deriving DecidableEq, Repr, Inhabited

/-- Who launched a task (R260, R363, R366). -/
inductive Launcher where
  | task (t : Nat)
  | mailbox (mb : Nat)
  | system
  deriving DecidableEq, Repr, Inhabited

inductive TaskPhase where
  | queued
  | started
  | retired
  deriving DecidableEq, Repr, Inhabited

/-- A team of a SYSTEM launch that another device runs (R366): its identifier, its logical clock (R187), whether it has
retired, and which of its warps have (R170). -/
structure Away where
  logical : Nat
  clock : DWord
  retired : Bool
  warpsGone : List Nat := []
  deriving DecidableEq, Repr, Inhabited

/-- A task of the Helm (R258 to R272). -/
structure Task where
  launcher : Launcher
  /-- The id its launcher knows it by. -/
  id : Nat
  space : Nat
  code : DWord
  info : CodeInfo
  entry : Nat
  coresident : Bool
  abandon : Bool
  system : Bool
  domain : Nat
  pk : List Nat
  binding : List BoundLevel
  args : DWord
  ranges : List Range
  /-- The region of the task and its ancestors, the root last. -/
  chain : List Region
  issuingDie : Nat
  /-- The deadline as each die holds it (R265). -/
  deadlines : List (Nat × DWord)
  order : Nat
  deps : List Nat
  phase : TaskPhase
  overdue : Bool
  status : Nat
  cause : Nat
  /-- The die and the CLOCK value of the first dispatch (R340). -/
  began : Option (Nat × Nat)
  extents : List Extent
  /-- The logical identifier of the team that holds the Lodestone (R271). -/
  lodestone : Option Nat
  /-- The next id that LAUNCH gives to a child. -/
  nextChild : Nat
  /-- The teams of a SYSTEM launch that other devices run (R366). -/
  away : List Away := []
  /-- The other devices that the binding of a SYSTEM launch names (R366). -/
  devices : List Nat := []
  /-- The units that had room for the task's nodes at its first dispatch, as physical code and number: the binding chose
  among them (R14, R20). -/
  units : List (Nat × Nat) := []
  /-- The cores of the teams that were asked to stop for the task, until it is dispatched (R267). -/
  claims : List Nat := []
  deriving DecidableEq, Repr, Inhabited

/-! ### The device -/

/-- A core as CAPCORE reports it, and whether it is enabled (R63, R2). -/
structure CoreUnit where
  enabled : Bool
  regbanks : Nat
  warps : Nat
  localKib : Nat
  barriers : Nat
  tags : Nat
  copies : Nat
  deriving DecidableEq, Repr, Inhabited

/-- A run of slabs that is held (R275): by a handle of an agent, or by a task's Granary reservation. -/
inductive RunOwner where
  | handle (agent : Nat)
  | reservation (task : Nat)
  deriving DecidableEq, Repr, Inhabited

/-- A cluster as CAPCLUS reports it, its held slab runs and the task that holds its accumulator slots. -/
structure ClusterUnit where
  enabled : Bool
  cores : Nat
  seqctx : Nat
  winnowers : Nat
  array : Nat
  cpyctx : Nat
  grankib : Nat
  /-- First slab, length, owner. -/
  runs : List (Nat × Nat × RunOwner)
  slotHolder : Option Nat
  deriving DecidableEq, Repr, Inhabited

/-- A compute die as CAPDIE reports it, its CLOCK, its offsets to the other dies (R265), its glean pool (R345), and
how many 125 MHz steps its arithmetic clock has fallen (R376). -/
structure DieUnit where
  enabled : Bool
  clusters : Nat
  spareclus : Nat
  layers : Nat
  dramgib : Nat
  cachemib : Nat
  walkers : Nat
  spareLayer : Bool
  clock : Nat
  offsets : List Int
  pool : List Nat
  steps : Nat
  deriving DecidableEq, Repr, Inhabited

/-- A TLB entry held by the TLBs of a die: address space, page-table level, the VA of the page, the PTE (R352), and the cores
of the die whose agents no longer hold it (R346). -/
structure Tlb where
  die : Nat
  space : Nat
  level : Nat
  va : Nat
  pte : DWord
  gone : List Nat := []
  deriving DecidableEq, Repr, Inhabited

/-- A non-leaf entry held by the walk caches of a die: address space, the level of its table, the first VA that it leads to, its own
physical address, its value (R352), and the cores of the die whose walks no longer use it (R346). -/
structure WalkEntry where
  die : Nat
  space : Nat
  level : Nat
  va : Nat
  slot : Nat
  pte : DWord
  gone : List Nat := []
  deriving DecidableEq, Repr, Inhabited

/-- A TLBINV that has issued and not completed (R346): the issuer, its space, the dies of the node, the VA or all, and, for a
node below DIE, the cores of its agents. -/
structure TlbInv where
  agent : Nat
  space : Nat
  dies : List Nat
  va : Option DWord
  cores : Option (List Nat) := none
  deriving DecidableEq, Repr, Inhabited

/-- An instruction word that an agent has fetched ahead (R73, R229): the physical key it came from and the word. -/
structure Fetched where
  agent : Nat
  key : Nat
  word : Word
  deriving DecidableEq, Repr, Inhabited

/-- A mailbox (R362, R363): where its request and reply lines lie in host memory, the SEQ of the record acted on, the
record that waits for a task, the next task id, and the tasks launched through it that have retired, oldest first. -/
structure Mailbox where
  request : Nat
  reply : Nat
  lastSeq : DWord
  waiting : Option (DWord × DWord)
  nextId : Nat
  /-- The address space in which its packets are read. -/
  space : Nat
  /-- The number of tasks launched through it that have retired. -/
  retirements : Nat
  /-- Task id, the value of `retirements` at its retirement, whether a WAIT or POLL has returned it. -/
  statuses : List (Nat × Nat × Bool)
  deriving DecidableEq, Repr, Inhabited

/-- A Bearing port (R364, R375): up, consecutive replays, the stop signal of its four channels, lanes left. -/
structure Port where
  up : Bool
  replays : Nat
  stopped : List Bool
  lanes : Nat
  /-- The device it leads to. -/
  device : Nat
  deriving DecidableEq, Repr, Inhabited

/-- Another device (R365): its id, the root page of the table that it binds to each root region of this device, the
offset of each link on the path to it, as measured when the link trained (R367), and the glean pools of its dies (R369). -/
structure Peer where
  id : Nat
  roots : List (Nat × Nat)
  path : List Int := []
  pools : List (List Nat) := []
  deriving DecidableEq, Repr, Inhabited

/-- The arrival of a warp of this device at a wait instance of a RACK or SYSTEM node, as it goes to another device on the
collective channel (R365). -/
structure CollMessage where
  device : Nat
  task : Nat
  kind : InstKind
  node : Nat
  position : Nat
  value : DWord
  poison : Bool
  deriving DecidableEq, Repr, Inhabited

/-- The answer to a PEER access from another device (R198, R365): that device, the trap cause or 0, and what was read. -/
structure Answer where
  device : Nat
  cause : Nat
  bytes : List Byte
  poison : List Bool
  deriving DecidableEq, Repr, Inhabited

/-- An address space (R350, R368): the physical page number of its root table, and the keys registered for its root
region (R374). -/
structure Space where
  root : Nat
  keys : List (List Byte)
  deriving DecidableEq, Repr, Inhabited

/-- A record to the OS cores (R39, R201, R355, R357, R364, R375, R341). -/
inductive Check where
  | region (va : DWord)
  | partialStore (key : Nat)
  | saveRecord (agent : Nat)
  | corrected (unit : Nat)
  | linkDown (port : Nat)
  | spare (unit : SpareUnit)
  | watchdog (task : Nat)
  deriving DecidableEq, Repr, Inhabited

/-- What the host and the OS cores do on their own, outside every row of the opcode table: they store to memory, and the
OS cores set up what they own (R361, R362, R365, R368, R370, R373, R374). -/
inductive Outside where
  /-- A store of the host or of the OS cores, at its home. -/
  | store (st : Store)
  /-- The host window, programmed at boot (R361). -/
  | window (base size : Nat)
  /-- A table bound to a root region, with the keys registered for it (R368, R374). -/
  | space (root : Nat) (keys : List (List Byte))
  /-- The address space in which a mailbox's packets are read (R362). -/
  | mailboxSpace (mb space : Nat)
  /-- A page given to the glean pool of a die (R345). -/
  | poolPage (die page : Nat)
  /-- A namespace of a drive: block size and blocks (R370). -/
  | drive (size : Nat) (blocks : List (List Byte))
  /-- Another device, and the device that a port leads to (R365). -/
  | peer (p : Peer)
  | portTo (port device : Nat)
  /-- Where attestation reports are placed, in a mailbox's address space (R362, R373). -/
  | reportAt (va : DWord)
  /-- The system configuration: the devices of each rack and this device's id (R11, R63). -/
  | system (racks : List Nat) (id : Nat)
  /-- A store of the OS cores to a page table, with its shootdown (R368). -/
  | pageTable (space : Nat) (va : DWord) (st : Store)
  /-- The OS cores reclaim a page of a glean pool (R345, R351), or every page of a region that retires (R368). -/
  | reclaim (space page : Nat)
  | regionRetires (space : Nat) (va : DWord)
  /-- The kernel extends one of MS3 to MS7 (R372). -/
  | extendMeasure (k : Nat) (digest : List Byte)
  /-- A flit passes on a port (R364). -/
  | flitPasses (port : Nat)
  /-- Of a SYSTEM launch, another device reports a team's logical clock, the retirement of a warp or of a team, or that its
  team passes the Lodestone on (R170, R187, R271, R366). -/
  | awayClock (task logical : Nat) (clock : DWord)
  | awayWarpRetires (task logical warp : Nat)
  | awayRetires (task logical : Nat)
  | awayPasses (task : Nat)
  deriving DecidableEq, Repr, Inhabited

/-- One item of the order in which agents and events act. The manual fixes no such order (R27, R130, R221); it is
data, so a statement about every state is a statement about every order (log 2). -/
inductive Turn where
  /-- The fragment issues its next instruction. -/
  | issue (agent entry : Nat)
  /-- An event of the opcode table comes about. -/
  | event (e : Instr)
  /-- The host or the OS cores act on their own. -/
  | outside (o : Outside)
  /-- n periods of the 1 GHz reference pass on a die (R348). -/
  | tick (die n : Nat)
  /-- The agent fetches the word at a virtual address ahead (R229). -/
  | prefetch (agent : Nat) (va : DWord)
  /-- A warp comes to use the team's layout entry (R53). -/
  | adoptLayout (agent n : Nat)
  /-- Byte n of the list `late` appears to the agent's loads (R192, R225). -/
  | appear (agent n : Nat)
  /-- An operation in flight writes its next element (R192, R225): of the engine with a code of R54, by its number (the
  matrix array: the context's first operation). -/
  | land (agent engine num : Nat)
  /-- Stores performed farther away reach the point of a core (R221). -/
  | propagate (core : Nat)
  /-- Walks of a die come to read the entries that PGMAP has written on other dies (R345). -/
  | seeEntries (die : Nat)
  deriving DecidableEq, Repr, Inhabited

/-- The reasons for which the machine stops. There is one, and no run that `step` makes meets it. -/
inductive Fault where
  /-- Raised by the meaning of an encoded instruction when the state names no fragment that issues it (no agent, an
  agent that issues nothing, or an entry that is not running). Safe: the manual gives an instruction no effect without
  an agent. -/
  | noIssuer
  deriving DecidableEq, Repr

/-- The reasons for which an instruction has no meaning. -/
inductive Refusal where
  /-- Raised by an arm of `exec` whose instruction is not modelled. Safe: the run stops. -/
  | notModelled (mnemonic : String)
  deriving DecidableEq, Repr

/-- The state of the device. -/
structure State where
  dies : List DieUnit
  clusters : List ClusterUnit
  cores : List CoreUnit
  /-- CAPDIE.DEVID (R63). -/
  devid : Nat
  agents : List Agent
  teams : List Team
  tasks : List Task
  instances : List Instance
  /-- Every byte at its home: die memory, host memory, local memories, Granaries, other devices. -/
  mem : Memory
  /-- Issued stores not yet performed at their cluster, and at their home, in order (R221). -/
  corePend : List Pend
  clusterPend : List Pend
  /-- What a core or a cluster holds at its point of coherence, where it differs in time from the home (R220). -/
  coreMem : List (Nat × Memory)
  clusterMem : List (Nat × Memory)
  spaces : List Space
  tlbs : List Tlb
  walks : List WalkEntry
  invs : List TlbInv
  /-- Leaves that PGMAP has written and walks of a die may still read as they were: the die, the physical address, the old
  entry (R345). -/
  unseen : List (Nat × Nat × DWord)
  /-- Pages for which issued instructions have asked a translation: the die, the space, the first and the last page number
  (R231). -/
  asked : List (Nat × Nat × Nat × Nat)
  fetched : List Fetched
  /-- Usage counters that are not 0 (R218). -/
  counters : List (Nat × DWord)
  /-- Glean pages held, by space and region block (R345). -/
  pagesUsed : List (Nat × DWord × List Nat)
  /-- For each glean page that is held, the key of the leaf that maps it (R345, R351). -/
  pageSlots : List (Nat × Nat)
  /-- The CXL host window (R361). -/
  windowBase : Nat
  windowSize : Nat
  mailboxes : List Mailbox
  notifyBase : Nat
  notifyCount : DWord
  kernelLog : List (List Byte)
  checks : List Check
  /-- MS0 to MS7 (R372). -/
  measures : List (List Byte)
  booted : Bool
  /-- Where the OS cores place attestation reports (R362, R373). -/
  reportVa : DWord
  /-- NVMe namespaces: block size and blocks (R370). -/
  drives : List (Nat × List (List Byte))
  ports : List Port
  peers : List Peer
  /-- The devices of each rack, and this device's id, as the OS cores hold them (R11, R63). -/
  racks : List Nat
  systemId : Nat
  /-- Launch packets sent to other devices (R366, R367), and answers to their accesses (R365), oldest first. -/
  sent : List (Nat × List Byte)
  answers : List Answer
  /-- Messages for the collective channel: those that a stop signal keeps back, and those sent, oldest first (R364, R365). -/
  collQueue : List CollMessage
  collSent : List CollMessage
  /-- Units to which the service routine has stopped dispatch (R375). -/
  closing : List SpareUnit
  /-- The order of operations issued to the units of a cluster, and of launches (R261, R327). -/
  seq : Nat
  /-- The counter of free values: the model's own field (log 3). -/
  freshNo : Nat
  /-- The fragment that issues: the model's own field (log 2). -/
  cur : Option (Nat × Nat)
  /-- How many times a fragment has issued: the model's own field (log 2). -/
  issues : Nat
  /-- The order of what happens next: the model's own field (log 2). -/
  agenda : List Turn
  deriving DecidableEq, Repr

/-! ### Reset -/

/-- A core as shipped (R63). -/
def CoreUnit.shipped : CoreUnit :=
  { enabled := true, regbanks := Config.regBanks, warps := 64, localKib := 1024, barriers := 64, tags := 1024, copies := 512 }

/-- A cluster as shipped, with its whole pool free (R63, R275). -/
def ClusterUnit.shipped : ClusterUnit :=
  { enabled := true, cores := 4, seqctx := 8, winnowers := 2, array := 1, cpyctx := 8, grankib := 16384,
    runs := [], slotHolder := none }

/-- A die as shipped (R63), its CLOCK at 0 (R348). -/
def DieUnit.shipped : DieUnit :=
  { enabled := true, clusters := 16, spareclus := 2, layers := 11, dramgib := 176, cachemib := 128, walkers := 64,
    spareLayer := true, clock := 0, offsets := [0, 0, 0, 0], pool := [], steps := 0 }

/-- A mailbox that the host has not written to. -/
def Mailbox.empty : Mailbox :=
  { request := 0, reply := 0, lastSeq := 0#64, waiting := none, nextId := 1, space := 0, retirements := 0,
    statuses := [] }

/-- A port in service (R364). -/
def Port.inService : Port :=
  { up := true, replays := 0, stopped := [false, false, false, false], lanes := 4, device := 0 }

/-- Memory with nothing listed. -/
def Memory.empty : Memory := { cells := [], marks := [] }

/-- The device right after reset, before the boot ROM runs (R372): every unit as shipped, no task, no agent. The
figures that the manual does not give are those of log 9. -/
def State.reset : State :=
  { dies := List.replicate 4 DieUnit.shipped
    clusters := List.replicate 64 ClusterUnit.shipped
    cores := List.replicate 256 CoreUnit.shipped
    devid := 0
    agents := []
    teams := []
    tasks := []
    instances := []
    mem := Memory.empty
    corePend := []
    clusterPend := []
    coreMem := []
    clusterMem := []
    spaces := []
    tlbs := []
    walks := []
    invs := []
    unseen := []
    asked := []
    fetched := []
    counters := []
    pagesUsed := []
    pageSlots := []
    windowBase := 0
    windowSize := 0
    mailboxes := List.replicate 64 Mailbox.empty
    notifyBase := 0
    notifyCount := 0#64
    kernelLog := []
    checks := []
    measures := List.replicate 8 (List.replicate 32 0#8)
    booted := false
    reportVa := 0#64
    drives := []
    ports := List.replicate 24 Port.inService
    peers := []
    racks := [1]
    systemId := 0
    sent := []
    answers := []
    collQueue := []
    collSent := []
    closing := []
    seq := 0
    freshNo := 0
    cur := none
    issues := 0
    agenda := [] }

end Sys2Proof.Machine
end

