-- ==== Sys2Proof/Machine/Flags.lean ====
section
/-! DEFINITION. The flag and status computations: FPCSR (R57, R129), PSTAT (R59), WSTAT (R60), TRC (R61) and
FAULTINFO (R62), each with its reserved fields and its write rules. -/

namespace Sys2Proof.Machine

/-- A bit of a word. -/
def bitWord (n : Nat) : Word := 1#32 <<< n

/-- Merge flags into FPCSR bits 8 to 13 (R57). -/
def mergeFpcsr (w : Word) (f : Flags) : Word := w ||| (f.zeroExtend 32 <<< 8)

def SRegs.raise (r : SRegs) (f : Flags) : SRegs := { r with fpcsr := mergeFpcsr r.fpcsr f }

/-- FPCSR.RM and FPCSR.SAT (R57). -/
def SRegs.rm (r : SRegs) : Mode := r.fpcsr.extractLsb' 0 2
def SRegs.sat (r : SRegs) : Bool := r.fpcsr.getLsbD 2

/-- PSTAT.STRICT, DEPMODE (R59). -/
def SRegs.strict (r : SRegs) : Bool := r.pstat.getLsbD 0
def SRegs.depMode (r : SRegs) : Bool := r.pstat.getLsbD 1

/-- Set PSTAT.FRAC, PSTAT.DEP (R59). -/
def SRegs.setFrac (r : SRegs) : SRegs := { r with pstat := r.pstat ||| bitWord 8 }
def SRegs.setDep (r : SRegs) : SRegs := { r with pstat := r.pstat ||| bitWord 9 }

/-- The bits that FPCSR, PSTAT and WSTAT hold or accept (R57, R59, R60): reserved bits read as zero (R6). -/
def fpcsrMask : Word := 0x3F07#32
def pstatMask : Word := 0x303#32

/-- TRCC fields (R61). -/
def trccCap (w : Word) : Nat := (w.extractLsb' 1 6).toNat
def trccSweeps (w : Word) : Nat := (w.extractLsb' 7 5).toNat
def trccAbs (w : Word) : Bool := w.getLsbD 0
def trccCompress (w : Word) : Bool := w.getLsbD 12

/-- A value written to TRCC: CAP is stored as at most 32, SWEEPS from 1 to 16, reserved bits as zero (R61). -/
def trccStored (w : Word) : Word :=
  (w &&& 0x31001#32) ||| (BitVec.ofNat 32 (min 32 (trccCap w)) <<< 1) |||
    (BitVec.ofNat 32 (max 1 (min 16 (trccSweeps w))) <<< 7)

/-- Merge the sticky bits CAPPED and DENSIFIED (R61, R288). -/
def mergeTrcc (w : Word) (capped densified : Bool) : Word :=
  w ||| (if capped then bitWord 16 else 0#32) ||| (if densified then bitWord 17 else 0#32)

/-- The reserved bits of FAULTINFO read as zero; a sequencer holds MASK bit 0 alone (R62). -/
def faultinfoStored (isWarp : Bool) (v : BitVec 128) : BitVec 128 :=
  v &&& (if isWarp then 0xFFFFFFFFFFFFFFFFFFFFFFFF000F83FF#128 else 0xFFFFFFFFFFFFFFFF00000001000F83FF#128)

/-- FAULTINFO as a trap writes it (R62, R335). -/
def faultinfoOf (t : Trap) : BitVec 128 :=
  t.addr ++ t.mask ++ 0#12 ++ BitVec.ofNat 4 (t.level.getD t.stale) ++ BitVec.ofBool t.level.isSome ++ 0#5 ++
    BitVec.ofNat 2 t.access ++ BitVec.ofNat 8 t.cause

def faultCause (v : BitVec 128) : Nat := (v.extractLsb' 0 8).toNat
def faultAccess (v : BitVec 128) : Nat := (v.extractLsb' 8 2).toNat
def faultLevel (v : BitVec 128) : Option Nat :=
  if v.getLsbD 15 then some (v.extractLsb' 16 4).toNat else none
def faultStale (v : BitVec 128) : Nat := (v.extractLsb' 16 4).toNat
def faultMask (v : BitVec 128) : Mask := v.extractLsb' 32 32
def faultAddr (v : BitVec 128) : DWord := v.extractLsb' 64 64

/-- The special registers at start (R57 to R62): everything 0 but STRICT 1, CAP 32 and SWEEPS 12. -/
def SRegs.start : SRegs :=
  { fpcsr := 0#32, temp := 0#32, pstat := 1#32, memberExit := false,
    trcc := BitVec.ofNat 32 (32 * 2 + 12 * 128), trct := 0#64, faultinfo := 0#128 }

end Sys2Proof.Machine
end

