-- ==== Sys2Proof/Machine/Lanes.lean ====
section
/-! DEFINITION. Lanes, vector registers and predicates: what a lane reads (R41 to R49), and the one way in which a
lane instruction writes its destinations (R44, R46, R127, R128). -/

namespace Sys2Proof.Machine

/-- Change one element. -/
def vecModify {α : Type} {n : Nat} (v : Vector α n) (i : Nat) (f : α → α) : Vector α n :=
  Vector.ofFn fun j => if j.val = i then f v[j] else v[j]

/-! ### Lane masks (R65) -/

def laneList : List Nat := List.range 32

/-- The mask of the lanes that a test accepts. -/
def maskOf (f : Nat → Bool) : Mask :=
  laneList.foldl (fun m i => if f i then m ||| (1#32 <<< i) else m) 0#32

def allLanes : Mask := BitVec.allOnes 32

/-- Is lane i in the mask? -/
def inMask (m : Mask) (i : Nat) : Bool := m.getLsbD i

/-- The lanes of a mask in increasing order. -/
def lanesOf (m : Mask) : List Nat := laneList.filter (inMask m)

/-- The lowest lane of a mask. -/
def lowest (m : Mask) : Option Nat := laneList.find? (inMask m)

def popcount (m : Mask) : Nat := (lanesOf m).length

/-! ### Vector registers (R41, R43) -/

/-- The word that lane i reads (R43). -/
def VReg.lane (v : VReg) (i : Nat) : Word :=
  match v.shape with
  | .uniform x => x
  | .affine b s => b + s * BitVec.ofNat 32 i
  | .general ws => ws.getD i 0#32

/-- The mark of lane i's word (R48). -/
def VReg.marked (v : VReg) (i : Nat) : Bool := inMask v.poison i

/-- The tag code (R43). -/
def VReg.tag (v : VReg) : Nat :=
  match v.shape with
  | .uniform _ => 0
  | .affine _ _ => 1
  | .general _ => 2

def VReg.isGeneral (v : VReg) : Bool := v.tag == 2

/-- A UNIFORM register, marked in every lane or in none (R131). -/
def VReg.ofWord (w : Word) (p : Bool) : VReg := ⟨.uniform w, if p then allLanes else 0#32⟩

/-- A register at warp start (R45). -/
def VReg.zero : VReg := VReg.ofWord 0#32 false

def Agent.reg (ag : Agent) (r : Nat) : VReg := ag.regs.getD r VReg.zero

/-- Lane i's word of a register; a lane that has exited reads as 0, unpoisoned, where the instruction reads other
lanes (R176). -/
def Agent.word (ag : Agent) (r i : Nat) : Word := (ag.reg r).lane i

/-- Lane i's value of a pair, low word first (R42). -/
def Agent.dword (ag : Agent) (r i : Nat) : DWord := ag.word (r + 1) i ++ ag.word r i

/-- Is lane i's word of one of n registers from r on poisoned? -/
def Agent.marked (ag : Agent) (r n i : Nat) : Bool := (List.range n).any fun j => (ag.reg (r + j)).marked i

def Agent.setReg (ag : Agent) (r : Nat) (v : VReg) : Agent := { ag with regs := ag.regs.setIfInBounds r v }

/-! ### Predicates (R49) -/

/-- P7 reads code 65535, lineage 0, no mark (R49). -/
def Pred.always : Pred := ⟨65535#16, 0#8, false⟩

def Pred.zero : Pred := ⟨0#16, 0#8, false⟩

def Agent.pred (ag : Agent) (p i : Nat) : Pred :=
  if p = 7 then Pred.always else (ag.preds.getD p (Vector.replicate 32 Pred.zero)).getD i Pred.zero

/-- Write a predicate in the lanes of a mask; a write that names P7 is discarded (R49). -/
def Agent.setPred (ag : Agent) (p : Nat) (x : Mask) (f : Nat → Pred) : Agent :=
  { ag with preds := ag.preds.setIfInBounds p (Vector.ofFn fun i => if inMask x i then f i else ag.pred p i) }

/-- Does the code pass the threshold (R50)? -/
def Pred.holds (p : Pred) : Bool := decide (32768 ≤ p.code.toNat)

/-- Codes 0 and 65535 are hard (R240). -/
def Pred.fractional (p : Pred) : Bool := p.code != 0#16 && p.code != 65535#16

/-- A hard code. -/
def hardCode (t : Bool) : BitVec 16 := if t then 65535#16 else 0#16

/-! ### Writing a destination -/

/-- One destination register of a lane instruction: its number, the shape it takes when every lane is written (none
for GENERAL), and each lane's word and mark. -/
structure LaneOut where
  reg : Nat
  full : Option Shape
  val : Nat → Word
  mark : Nat → Bool

/-- The register after a write in the lanes of x (R46 rules 1 and 7, R127, R128). -/
def LaneOut.apply (o : LaneOut) (old : VReg) (x : Mask) : VReg :=
  { shape :=
      if x = allLanes ∧ o.full.isSome then o.full.getD (.uniform 0#32)
      else .general (laneList.map fun i => if inMask x i then o.val i else old.lane i)
    poison := maskOf fun i => if inMask x i then o.mark i else old.marked i }

/-- Would the write make the register GENERAL (R44)? -/
def LaneOut.general (o : LaneOut) (x : Mask) : Bool := !(decide (x = allLanes) && o.full.isSome)

/-- Apply all the destinations, none when no lane is written (R46 rule 1). -/
def Agent.writeOuts (ag : Agent) (x : Mask) (outs : List LaneOut) : Agent :=
  if x = 0#32 then ag else outs.foldl (fun g o => g.setReg o.reg (o.apply (g.reg o.reg) x)) ag

/-! ### Shape of a result (R46 rule 2) -/

/-- Base and stride of a register that is not GENERAL. -/
def VReg.affinePair (v : VReg) : Option (Word × Word) :=
  match v.shape with
  | .uniform x => some (x, 0#32)
  | .affine b s => some (b, s)
  | .general _ => none

/-- The shape with the given base and stride (R46 rule 2). -/
def shapeOf (b s : Word) : Shape := if s = 0#32 then .uniform b else .affine b s

/-- The uniform value of a register, if it is UNIFORM. -/
def VReg.uniformWord (v : VReg) : Option Word :=
  match v.shape with
  | .uniform x => some x
  | _ => none

/-- The shape rule of two sources under addition or subtraction. -/
def shapeLinear (f : Word → Word → Word) (a b : VReg) : Option Shape :=
  match a.affinePair, b.affinePair with
  | some (ba, sa), some (bb, sb) => some (shapeOf (f ba bb) (f sa sb))
  | _, _ => none

/-- The shape rule of SHL, SHLI and IMUL: one UNIFORM operand scales base and stride of the other. -/
def shapeScaled (f : Word → Word → Word) (a : VReg) (n : Option Word) : Option Shape :=
  match a.affinePair, n with
  | some (ba, sa), some n => some (shapeOf (f ba n) (f sa n))
  | _, _ => none

end Sys2Proof.Machine
end

