-- ==== Sys2Proof/Machine/Mem.lean ====
section
/-! DEFINITION. Memory as a canonical list of bytes and marks (R48, R191, R200, R201): the keys, reading and writing
bytes and words, and how accesses reach their points of coherence (R220 to R222). -/

namespace Sys2Proof.Machine

/-! ### Keys (log 5) -/

/-- The key of a byte of another agent's storage: kind 1 local memory, 2 Granary, 3 another device. -/
def spaceKey (kind idx off : Nat) : Nat := kind * 2 ^ 128 + idx * 2 ^ 64 + off

/-- A physical byte address is its own key. -/
def physKey (pa : Nat) : Nat := pa

/-- A byte of the local memory of a team. -/
def localKey (team off : Nat) : Nat := spaceKey 1 team off

/-- A byte of the Granary of a cluster: the slab pool first, the accumulator slots after it (R275, R316). -/
def granKey (cluster off : Nat) : Nat := spaceKey 2 cluster off

/-- A byte of the memory of another device. -/
def peerKey (dev off : Nat) : Nat := spaceKey 3 dev off

/-- The kind of a key: 0 physical, 1 local, 2 Granary, 3 another device. -/
def keyKind (k : Nat) : Nat := k / 2 ^ 128

/-! ### Cells in canonical form -/

/-- The byte listed under a key; an unlisted byte reads 0 (R192, R316; log 1). -/
def cellsRead : List Host.Cell → Nat → Byte
  | [], _ => 0#8
  | (k, b) :: rest, a => if a = k then b else cellsRead rest a

/-- Put a byte under a key of a rising list; the byte 0 is not listed. -/
def cellsWrite : List Host.Cell → Nat → Byte → List Host.Cell
  | [], a, v => if v = 0#8 then [] else [(a, v)]
  | (k, b) :: rest, a, v =>
    if a < k then (if v = 0#8 then (k, b) :: rest else (a, v) :: (k, b) :: rest)
    else if a = k then (if v = 0#8 then rest else (a, v) :: rest)
    else (k, b) :: cellsWrite rest a v

/-- Is every key above `lo` and rising, and every byte listed different from what an unlisted byte reads? -/
def cellsWf : Option Nat → List Host.Cell → Bool
  | _, [] => true
  | lo, (k, b) :: rest => (match lo with | none => true | some l => decide (l < k)) && b != 0#8 && cellsWf (some k) rest

/-- Membership in a rising list. -/
def markRead : List Nat → Nat → Bool
  | [], _ => false
  | k :: rest, a => a == k || markRead rest a

/-- Set or clear membership in a rising list. -/
def markWrite : List Nat → Nat → Bool → List Nat
  | [], a, v => if v then [a] else []
  | k :: rest, a, v =>
    if a < k then (if v then a :: k :: rest else k :: rest)
    else if a = k then (if v then k :: rest else rest)
    else k :: markWrite rest a v

def marksWf : Option Nat → List Nat → Bool
  | _, [] => true
  | lo, k :: rest => (match lo with | none => true | some l => decide (l < k)) && marksWf (some k) rest

/-- The canonical form of memory: keys rising, no byte listed that an unlisted one would read as. -/
def Memory.wf (m : Memory) : Bool := cellsWf none m.cells && marksWf none m.marks && marksWf none m.struck

/-- Read one byte. -/
def Memory.read (m : Memory) (k : Nat) : Byte := cellsRead m.cells k

/-- Is the 32-bit word that holds the byte poisoned (R48)? -/
def Memory.marked (m : Memory) (k : Nat) : Bool := markRead m.marks (k / 4)

/-- Write one byte. -/
def Memory.write (m : Memory) (k : Nat) (b : Byte) : Memory := { m with cells := cellsWrite m.cells k b }

/-- Set or clear the mark of the 32-bit word with the given number. -/
def Memory.mark (m : Memory) (w : Nat) (v : Bool) : Memory := { m with marks := markWrite m.marks w v }

/-- Set or clear that the 32-bit word with the given number is struck. -/
def Memory.setStruck (m : Memory) (w : Nat) (v : Bool) : Memory := { m with struck := markWrite m.struck w v }

/-- Write bytes from a key on. -/
def Memory.writeBytes : Memory → Nat → List Byte → Memory
  | m, _, [] => m
  | m, k, b :: bs => (m.write k b).writeBytes (k + 1) bs

/-- Set or clear marks. -/
def Memory.setMarks : Memory → List (Nat × Bool) → Memory
  | m, [] => m
  | m, (w, v) :: rest => (m.mark w v).setMarks rest

/-- Read n bytes from a key on. -/
def Memory.readBytes (m : Memory) (k : Nat) : Nat → List Byte
  | 0 => []
  | n + 1 => m.read k :: m.readBytes (k + 1) n

/-- The same for words struck. -/
def Memory.setStrucks : Memory → List (Nat × Bool) → Memory
  | m, [] => m
  | m, (w, v) :: rest => (m.setStruck w v).setStrucks rest

/-! ### Protected words (R201, R356) -/

/-- The size of a protected word: 4 bytes in local memory, 8 elsewhere (R356). -/
def protectedSize (k : Nat) : Nat := if keyKind k = 1 then 4 else 8

/-- The 32-bit words of the protected words that n bytes from k on touch. -/
def protectedWords (k n : Nat) : List Nat :=
  let u := protectedSize k
  if n = 0 then [] else (List.range (((k + n - 1) / u - k / u + 1) * (u / 4))).map fun i => k / u * (u / 4) + i

/-- Does an access of n bytes from k on leave a byte of the 32-bit word w as it is? -/
def leavesPart (k n w : Nat) : Bool := !decide (k ≤ 4 * w ∧ 4 * w + 4 ≤ k + n)

/-- The 32-bit words of the protected words of an access that hold a struck word it does not replace: the whole protected word
is marked (R201). -/
def Memory.spoiled (m : Memory) (st : Store) : List Nat :=
  let n := st.bytes.length
  let u := protectedSize st.key / 4
  (protectedWords st.key n).filter fun w => (List.range u).any fun i =>
    markRead m.struck (w / u * u + i) && leavesPart st.key n (w / u * u + i)

/-- Does an access cover part of a protected word whose other part is struck, or part of a marked 32-bit word: is there a
record to the OS cores (R201)? -/
def Memory.recordDue (m : Memory) (st : Store) : Bool :=
  !(m.spoiled st).isEmpty ||
    (protectedWords st.key st.bytes.length).any fun w =>
      markRead m.marks w && leavesPart st.key st.bytes.length w &&
        decide (st.key < 4 * w + 4) && decide (4 * w < st.key + st.bytes.length)

/-- Perform one access (R200): the bytes, the marks it sets or clears, and R201 where it covers part of a protected word. -/
def Memory.perform (m : Memory) (st : Store) : Memory :=
  let bad := m.spoiled st
  let whole := (protectedWords st.key st.bytes.length).filter fun w => !leavesPart st.key st.bytes.length w && !bad.contains w
  ((((m.writeBytes st.key st.bytes).setMarks st.marks).setMarks (bad.map (·, true))).setStrucks
    (whole.map (·, false))).setStrucks (bad.map (·, true))

/-- Bytes n from a key on as nothing has written them: zero, unpoisoned (R192, R316). -/
def Memory.clear (m : Memory) (k n : Nat) : Memory :=
  let out (x : Nat) : Bool := decide (x < k) || decide (k + n ≤ x)
  { cells := m.cells.filter fun c => out c.1
    marks := m.marks.filter fun w => out (4 * w)
    struck := m.struck.filter fun w => out (4 * w) }

/-- The given bytes, and the marks of their words, as another memory has them. -/
def Memory.copyBytes (m src : Memory) (ks : List Nat) : Memory :=
  ks.foldl (fun m k => (m.write k (src.read k)).mark (k / 4) (src.marked k)) m

/-- Perform accesses in order. -/
def Memory.performAll (m : Memory) (sts : List Store) : Memory := sts.foldl Memory.perform m

/-- Is some word that the n bytes from k on touch poisoned? -/
def Memory.anyMarked (m : Memory) (k n : Nat) : Bool := (List.range n).any fun i => m.marked (k + i)

/-! ### Little-endian values (R5) -/

def natOfBytes : List Byte → Nat
  | [] => 0
  | b :: rest => b.toNat + 256 * natOfBytes rest

/-- The low n bytes of a value, lowest first. -/
def bytesOfNat : Nat → Nat → List Byte
  | 0, _ => []
  | n + 1, v => BitVec.ofNat 8 v :: bytesOfNat n (v / 256)

def Memory.readNat (m : Memory) (k n : Nat) : Nat := natOfBytes (m.readBytes k n)

def Memory.read32 (m : Memory) (k : Nat) : Word := BitVec.ofNat 32 (m.readNat k 4)

def Memory.read64 (m : Memory) (k : Nat) : DWord := BitVec.ofNat 64 (m.readNat k 8)

/-- The word numbers that n bytes from k on touch, and whether each is covered whole. -/
def wordsTouched (k n : Nat) : List (Nat × Bool) :=
  if n = 0 then []
  else (List.range ((k + n - 1) / 4 - k / 4 + 1)).map fun i =>
    let w := k / 4 + i
    (w, decide (k ≤ 4 * w ∧ 4 * w + 4 ≤ k + n))

/-- The store of a value of n bytes (R201): a word covered whole takes the mark of its register word, given in order;
a word covered in part is marked when its register word is marked and otherwise keeps its mark. -/
def storeOf (k n : Nat) (bytes : List Byte) (poison : List Bool) : Store :=
  { key := k
    bytes := bytes.take n
    marks := ((wordsTouched k n).zipIdx.filterMap fun (w, i) =>
      let p := poison.getD i false
      if w.2 then some (w.1, p) else if p then some (w.1, true) else none) }

/-- Do two accesses share a byte? -/
def Store.overlaps (a b : Store) : Bool :=
  decide (a.key < b.key + b.bytes.length) && decide (b.key < a.key + a.bytes.length)

/-! ### Points of coherence (R220) -/

/-- The bytes that stores touch, in the order in which the stores are performed. -/
def overlay (m : Memory) (ps : List Pend) : Memory := m.performAll (ps.map (·.store))

/-- Does a key always have its home for a point of coherence (R220: local memory and Granary)? -/
def homeKey (k : Nat) : Bool := keyKind k == 1 || keyKind k == 2

/-- The memory m, but with the bytes and marks of local memories and Granaries as in `home`. -/
def withHome (m home : Memory) : Memory :=
  { cells := (m.cells.filter fun c => keyKind c.1 == 0) ++ (home.cells.filter fun c => homeKey c.1) ++
      (m.cells.filter fun c => keyKind c.1 ≥ 3)
    marks := (m.marks.filter fun w => keyKind (4 * w) == 0) ++ (home.marks.filter fun w => homeKey (4 * w)) ++
      (m.marks.filter fun w => keyKind (4 * w) ≥ 3)
    struck := (m.struck.filter fun w => keyKind (4 * w) == 0) ++ (home.struck.filter fun w => homeKey (4 * w)) ++
      (m.struck.filter fun w => keyKind (4 * w) ≥ 3) }

/-- What is held for a core or a cluster by its number; with nothing held, what the next point of the path holds. -/
def heldAt (l : List (Nat × Memory)) (n : Nat) (next : Memory) : Memory :=
  match l.find? (fun p => p.1 == n) with
  | some p => p.2
  | none => next

/-- Replace what is held for a number. -/
def holdAt (l : List (Nat × Memory)) (n : Nat) (m : Memory) : List (Nat × Memory) :=
  (n, m) :: l.filter (fun p => p.1 != n)

/-- The bytes of a buffered store that a later access has replaced (log 45). -/
def Buffered.replaced (b : Buffered) : List Nat :=
  b.gone.filter fun k => decide (b.store.key ≤ k) && decide (k < b.store.key + b.store.bytes.length)

/-- What is left of a buffered store: all of it, or the bytes that no later access has replaced (log 45). -/
def Buffered.stores (b : Buffered) : List Store :=
  if b.gone = [] then [b.store]
  else
    let marks := b.store.marks.filter fun w =>
      (List.range 4).any fun i => decide (b.store.key ≤ 4 * w.1 + i) &&
        decide (4 * w.1 + i < b.store.key + b.store.bytes.length) && !b.gone.contains (4 * w.1 + i)
    (if marks = [] then [] else [{ key := b.store.key, bytes := [], marks := marks }]) ++
      b.store.bytes.zipIdx.filterMap fun p =>
        if b.gone.contains (b.store.key + p.2) then none else some { key := b.store.key + p.2, bytes := [p.1], marks := [] }

/-- Insert a buffered store in the order of issue. -/
def insertBuffered (b : Buffered) : List Buffered → List Buffered
  | [] => [b]
  | c :: rest => if b.order ≤ c.order then b :: c :: rest else c :: insertBuffered b rest

/-- Has a team a place on a core, where what it has buffered counts: it resides there, or was stopped there? -/
def Team.placedOn (t : Team) (core : Nat) : Bool := t.core == core && (t.phase == .resident || t.phase == .suspended)

/-- The SHARED stores that teams of a core have buffered, in the order of issue: they count on that core as soon as they are
issued, and also when the team has been stopped there (R222, R272). -/
def State.bufferedAt (s : State) (core : Nat) : List Store :=
  (((s.teams.filter (·.placedOn core)).flatMap (·.buffer)).foldr insertBuffered []).flatMap
    Buffered.stores

/-- The place of the next buffered store of the device. -/
def State.nextBuffered (s : State) : Nat :=
  1 + ((s.teams.flatMap (·.buffer)).map (·.order)).foldl max 0

/-- The elements of a write stream that the unit has still to store (R216), as accesses. -/
def Stream.stores (x : Stream) : List Store :=
  if x.setUp && x.write then
    x.fifo.filterMap fun p => p.1.map fun k =>
      storeOf k (2 ^ x.entry.esize.toNat) (bytesOfNat 4 p.2.1.toNat) [p.2.2]
  else []

/-- The stream elements of an agent that are not stored yet. -/
def Agent.streamed (ag : Agent) : List Store := ag.streams.flatMap Stream.stores

/-- The stream elements that warps of a core have supplied and the unit has not stored. -/
def State.streamedAt (s : State) (core : Nat) : List Store :=
  (s.agents.filter fun ag => (s.teams.getD ag.team default).core == core).flatMap Agent.streamed

end Sys2Proof.Machine
end

