-- ==== Sys2Proof/Machine/Translate.lean ====
section
/-! DEFINITION. Translation (R350 to R352), extents (R269), and the physical memory map (log 5). -/

namespace Sys2Proof.Machine

/-- Trap causes (R335). -/
def causeIllegal : Nat := 0x01
def causeSeqOnly : Nat := 0x02
def causePriv : Nat := 0x03
def causeShape : Nat := 0x04
def causeFracpred : Nat := 0x05
def causeBru : Nat := 0x06
def causeLevel : Nat := 0x07
def causeLocalBounds : Nat := 0x08
def causeLayout : Nat := 0x09
def causeOpformat : Nat := 0x0A
def causeAccBusy : Nat := 0x0B
def causeSlabEmpty : Nat := 0x0C
def causeTileKind : Nat := 0x0D
def causePage : Nat := 0x10
def causePerm : Nat := 0x11
def causePoison : Nat := 0x12
def causeAlign : Nat := 0x13
def causeTretDiverged : Nat := 0x14
def causeMember : Nat := 0x15
def causeArriveOvf : Nat := 0x16
def causeSoftware : Nat := 0x17
def causeStream : Nat := 0x19
def causeWatchdog : Nat := 0x1A

/-- Kinds of access (R350). -/
inductive Access where
  | read
  | write
  | atomic
  | fetch
  deriving DecidableEq, Repr, Inhabited

/-- FAULTINFO.ACCESS of an access (R62). -/
def Access.code : Access → Nat
  | .read => 0
  | .write => 1
  | .atomic => 2
  | .fetch => 3

/-! ### The physical memory map (log 5) -/

/-- The die whose memory holds a physical address. -/
def State.dieOfPhys (s : State) (pa : Nat) : Option Nat :=
  let d := pa / Config.dieStride
  match s.dies[d]? with
  | some u => if u.enabled && decide (pa % Config.dieStride < u.dramgib * 2 ^ 30) then some d else none
  | none => none

/-- Does a physical address lie in the CXL host window (R361)? -/
def State.inWindow (s : State) (pa : Nat) : Bool :=
  decide (s.windowBase ≤ pa) && decide (pa < s.windowBase + s.windowSize)

/-! ### Page-table entries (R350, R351) -/

def pteV (p : DWord) : Bool := p.getLsbD 0
def pteR (p : DWord) : Bool := p.getLsbD 1
def pteW (p : DWord) : Bool := p.getLsbD 2
def pteX (p : DWord) : Bool := p.getLsbD 3
def pteU (p : DWord) : Bool := p.getLsbD 4
def pteA (p : DWord) : Bool := p.getLsbD 6
def pteD (p : DWord) : Bool := p.getLsbD 7
def ptePpn (p : DWord) : Nat := (p.extractLsb' 10 44).toNat
def pteHome (p : DWord) : Nat := (p.extractLsb' 54 2).toNat
def pteZeroTouch (p : DWord) : Bool := p.getLsbD 57
def pteN (p : DWord) : Bool := p.getLsbD 63

/-- A leaf grants reading or fetching. -/
def pteLeaf (p : DWord) : Bool := pteR p || pteX p

/-- Check 3 of R350 on any entry. -/
def pteBad (p : DWord) : Bool :=
  !pteV p || (pteW p && !pteR p) || decide (p.extractLsb' 61 2 = 3#2) || p.getLsbD 60

/-- The page size of a leaf at a level: 4 KiB, 2 MiB, 1 GiB, 512 GiB, or 64 KiB under Svnapot. -/
def pageSize (level : Nat) (p : DWord) : Nat := if level = 0 && pteN p then 2 ^ 16 else 2 ^ (12 + 9 * level)

/-- Is a leaf well formed at its level (R350 check 2, Svnapot)? -/
def leafOk (level : Nat) (p : DWord) : Bool :=
  decide (level ≤ 3) && decide (ptePpn p % 2 ^ (9 * level) = 0) &&
    (!pteN p || (decide (level = 0) && decide (ptePpn p % 16 = 8)))

/-- The physical address that a leaf gives a VA. -/
def leafPhys (level : Nat) (p : DWord) (va : Nat) : Nat :=
  let size := pageSize level p
  ptePpn p * 4096 / size * size + va % size

/-- A VA is sign-extended from bit 56 (R350 check 1). -/
def vaCanonical (va : DWord) : Bool :=
  decide (va = ((va.extractLsb' 0 57).signExtend 64))

/-- The nine bits of a VA that index the table of a level. -/
def vpn (va : Nat) (level : Nat) : Nat := va / 2 ^ (12 + 9 * level) % 512

/-- A walk from a table down (R231, R350): the level, the leaf and the physical address of the leaf. `base` is the key
of physical address 0 of the device that holds the tables. -/
def walkFrom (m : Memory) (base va : Nat) : Nat → Nat → Option (Nat × DWord × Nat)
  | 0, _ => none
  | level + 1, ppn =>
    let addr := ppn * 4096 + 8 * vpn va level
    let p := m.read64 (base + addr)
    if pteBad p then none
    else if pteLeaf p then (if leafOk level p then some (level, p, addr) else none)
    else if pteN p then none
    else walkFrom m base va level (ptePpn p)

/-- The non-leaf entries that a walk from a table down reads: level, entry, physical address of each. -/
def walkPath (m : Memory) (base va : Nat) : Nat → Nat → List (Nat × DWord × Nat)
  | 0, _ => []
  | level + 1, ppn =>
    let addr := ppn * 4096 + 8 * vpn va level
    let p := m.read64 (base + addr)
    if level = 0 || pteBad p || pteLeaf p || pteN p then [] else (level, p, addr) :: walkPath m base va level (ptePpn p)

/-- The address of the level-0 entry of a VA when every upper level is a valid non-leaf (R345). `base` is the key of physical
address 0 of the device that holds the tables. -/
def walkToLeafSlot (m : Memory) (base va : Nat) : Nat → Nat → Option Nat
  | 0, _ => none
  | 1, ppn => some (ppn * 4096 + 8 * vpn va 0)
  | level + 2, ppn =>
    let p := m.read64 (base + (ppn * 4096 + 8 * vpn va (level + 1)))
    if pteBad p || pteLeaf p || pteN p then none else walkToLeafSlot m base va (level + 1) (ptePpn p)

/-- The root table of an address space. -/
def State.spaceRoot (s : State) (space : Nat) : Option Nat := (s.spaces[space]?).map (·.root)

/-- The key of physical address 0 of this device, or of another one. -/
def baseOf : Option Nat → Nat
  | none => physKey 0
  | some d => peerKey d 0

/-- The root table that this device, or another one, binds to an address space (R365, R368). -/
def State.rootAt (s : State) (dev : Option Nat) (space : Nat) : Option Nat :=
  match dev with
  | none => s.spaceRoot space
  | some d => ((s.peers.find? (·.id == d)).bind fun p => p.roots.find? (·.1 == space)).map (·.2)

/-- The glean pool of a die of this device, or of another one (R345, R369). -/
def State.poolAt (s : State) (dev : Option Nat) (die : Nat) : List Nat :=
  match dev with
  | none => (s.dies.getD die default).pool
  | some d => (((s.peers.find? (·.id == d)).map (·.pools)).getD []).getD die []

/-- Change the glean pool of a die of this device, or of another one. -/
def State.modPool (s : State) (dev : Option Nat) (die : Nat) (f : List Nat → List Nat) : State :=
  match dev with
  | none => { s with dies := s.dies.modify die fun u => { u with pool := f u.pool } }
  | some d => { s with peers := s.peers.map fun (p : Peer) => if p.id = d then { p with pools := p.pools.modify die f } else p }

/-- Checks 4 and 5 of R350 on a leaf: the cause, if one fails. -/
def State.leafCheck (s : State) (p : DWord) (pa : Nat) (acc : Access) : Option Nat :=
  if !pteU p then some causePerm
  else if (acc == .read || acc == .atomic) && !pteR p then some causePerm
  else if (acc == .write || acc == .atomic) && !pteW p then some causePerm
  else if acc == .fetch && !pteX p then some causePerm
  else if (match s.dieOfPhys pa with | some d => d != pteHome p | none => false) then some causePerm
  else if !pteA p then some causePage
  else if (acc == .write || acc == .atomic) && !pteD p then some causePage
  else none

/-- A translation from one entry (R352). -/
def State.useLeaf (s : State) (level : Nat) (p : DWord) (va : Nat) (acc : Access) : Except Nat Nat :=
  let pa := leafPhys level p va
  match s.leafCheck p pa acc with
  | some c => .error c
  | none => .ok pa

/-- The TLB entry of a die that translates a VA, if one is held there, and by the core that asks when it is a core (R346,
R352). -/
def State.tlbFind (s : State) (die space va : Nat) (core : Option Nat) : Option Tlb :=
  s.tlbs.find? fun t =>
    t.die == die && t.space == space && decide (t.va ≤ va) && decide (va < t.va + pageSize t.level t.pte) &&
      !(core.any t.gone.contains)

/-- Memory as a walk of a die reads page tables: entries that it does not see yet stand as they were (R345). -/
def State.walkMem (s : State) (die : Nat) : Memory :=
  (s.unseen.filter (·.1 == die)).foldl (fun m p => m.writeBytes (physKey p.2.1) (bytesOfNat 8 p.2.2.toNat)) s.mem

/-- Does a cached non-leaf entry lead to the entries of a VA? -/
def WalkEntry.leadsTo (w : WalkEntry) (va : Nat) : Bool := decide (w.va ≤ va) && decide (va < w.va + 2 ^ (12 + 9 * w.level))

/-- The cached non-leaf entry at which a walk of a die for a VA begins: the one nearest the leaf, the newest of these, that the core
which asks may use (R346, R352; log 6). -/
def State.walkFind (s : State) (die space va : Nat) (core : Option Nat) : Option WalkEntry :=
  (List.range 5).findSome? fun level => s.walks.find? fun w =>
    w.level == level && w.die == die && w.space == space && w.leadsTo va && !(core.any w.gone.contains)

/-- Where a walk begins: the levels still to read and the table, after a cached entry or from the root. -/
def walkStart (root : Nat) : Option WalkEntry → Nat × Nat
  | some w => (w.level, ptePpn w.pte)
  | none => (5, root)

/-- Drop cached non-leaf entries that `old` names for the walks of some cores, or for all. -/
def State.dropWalks (s : State) (old : WalkEntry → Bool) (cores : Option (List Nat)) : State :=
  { s with walks := s.walks.filterMap fun w =>
      if old w then cores.map fun cs => { w with gone := w.gone ++ cs.filter fun c => !w.gone.contains c } else some w }

/-- Is a cached non-leaf entry older than what stands at its home? -/
def State.staleWalk (s : State) (w : WalkEntry) : Bool := s.mem.read64 (physKey w.slot) != w.pte

/-- Translate through the TLBs of a die and a walk (R350, R352), for an agent of a core or for the die's Helm and the OS
cores: a cause or a physical address. The walk goes on from what the die's walk caches hold. -/
def State.translate (s : State) (die space : Nat) (va : DWord) (acc : Access) (core : Option Nat := none) :
    Except Nat Nat :=
  if !vaCanonical va then .error causePage
  else
    let v := (va.extractLsb' 0 57).toNat
    match s.tlbFind die space v core with
    | some t => s.useLeaf t.level t.pte v acc
    | none =>
      match s.spaceRoot space with
      | none => .error causePage
      | some root =>
        let (n, table) := walkStart root (s.walkFind die space v core)
        match walkFrom (s.walkMem die) 0 v n table with
        | none => .error causePage
        | some (level, p, _) => s.useLeaf level p v acc

/-- The extent of a task's table that holds a VA (R269). -/
def Task.extentFind (t : Task) (va : DWord) : Option Extent :=
  t.extents.find? fun x => decide (x.va ≤ va.toNat) && decide (va.toNat < x.va + x.size)

/-- Translate a data access of a task: the extent table first (R269). An extent carries permissions and attributes; the
A and D bits are no part of them. -/
def State.translateData (s : State) (t : Task) (die : Nat) (va : DWord) (acc : Access) (core : Option Nat := none) :
    Except Nat Nat :=
  if !vaCanonical va then .error causePage
  else
    match t.extentFind va with
    | some x =>
      let pa := x.pa + (va.toNat - x.va)
      match s.leafCheck (x.pte ||| 0xC0#64) pa acc with
      | some c => .error c
      | none => .ok pa
    | none => s.translate die t.space va acc core

end Sys2Proof.Machine
end

