-- ==== Sys2Proof/WellFormed.lean ====
section
/-! DEFINITION. When an instruction's fields are defined (R68, R76, R77, R78, R80): the registers it names at
fixed distances from its fields, their alignment, and the selector values that its description defines.
The bits that a format fixes are checked by Decode. -/

namespace Sys2Proof

/-- A run of registers that an instruction names: `count` registers from `first`, which must be a multiple of
`align` (R42, R78). -/
structure RegUse where
  first : Nat
  count : Nat
  align : Nat
  deriving DecidableEq, Repr

/-- Every register of the run exists for a code object with N registers, and the run is aligned (R80). -/
def RegUse.ok (n : Nat) (u : RegUse) : Bool :=
  decide (u.first % u.align = 0) && decide (u.first + u.count ≤ n)

def oneReg (r : Reg) : RegUse := ⟨r.toNat, 1, 1⟩
def pairReg (r : Reg) : RegUse := ⟨r.toNat, 2, 2⟩
def quadReg (r : Reg) : RegUse := ⟨r.toNat, 4, 4⟩
def blockReg (r : Reg) : RegUse := ⟨r.toNat, 8, 8⟩

/-- A register or a pair, by a flag. -/
def wideReg (isPair : Bool) (r : Reg) : RegUse := if isPair then pairReg r else oneReg r

/-- The name of the check of R80 that an instruction fails. -/
inductive IllFormed where
  /-- A register at or above V(N), or a misaligned pairReg or block. -/
  | register
  /-- An undefined cond, ctl, func, sub or selector value. -/
  | selector
  deriving DecidableEq, Repr

/-- The width in words of a special register by its number, where the number is not reserved (R56). -/
def srWords (sr : BitVec 10) : Option Nat :=
  match sr.toNat with
  | 0x00 | 0x01 | 0x02 | 0x03 | 0x04 => some 1
  | 0x05 => some 2
  | 0x06 => some 4
  | 0x08 => some 2
  | 0x09 => some 1
  | 0x0A => some 2
  | _ => none

/-- The register run of a special-register transfer (R56); a reserved number is refused by `selectorsOk`. -/
def srUse (r : Reg) (sr : BitVec 10) : RegUse :=
  let w := (srWords sr).getD 1
  ⟨r.toNat, w, w⟩

/-- CVT: does the conversion code name a 64-bit destination (R148)? -/
def cvtDst64 (k : BitVec 7) : Bool :=
  if k.getLsbD 6 then
    if k.getLsbD 5 then !k.getLsbD 1 else decide (6 ≤ (k.extractLsb' 2 3).toNat)
  else decide ((k.extractLsb' 3 3).toNat = 0)

/-- CVT: does the conversion code name a 64-bit source (R148)? -/
def cvtSrc64 (k : BitVec 7) : Bool :=
  if k.getLsbD 6 then
    if k.getLsbD 5 then decide (6 ≤ (k.extractLsb' 2 3).toNat) else !k.getLsbD 1
  else decide ((k.extractLsb' 0 3).toNat = 0)

/-- CVT: the conversion code is defined (R148). -/
def cvtDefined (k : BitVec 7) : Bool :=
  if k.getLsbD 6 then !(k.getLsbD 5 && k.getLsbD 0)
  else
    let d := (k.extractLsb' 3 3).toNat
    let s := (k.extractLsb' 0 3).toNat
    decide (d ≠ 7) && decide (s ≠ 7) && decide (d ≠ s)

/-- The registers an instruction names at a fixed distance from its fields (R41, R42, R78, R80). A run whose
length depends on a layout entry is checked at run time (R197, R290); only its first register stands here. -/
def Instr.regUses : Instr → List RegUse
  | .iadd d a b _ | .isub d a b _ | .imul d a b _ | .imulhI32 d a b _ | .imulhN32 d a b _
  | .imad d a b _ | .iminI32 d a b _ | .iminN32 d a b _ | .imaxI32 d a b _ | .imaxN32 d a b _
  | .land d a b _ | .lor d a b _ | .lxor d a b _ | .andn d a b _ | .shl d a b _ | .shrN d a b _
  | .shrI d a b _ | .rot d a b _ | .bfx d a b _ | .bfi d a b _ | .bsel d a b _
  | .fadd d a b _ | .fsub d a b _ | .fmul d a b _ | .ffma d a b _ | .fmin d a b _ | .fmax d a b _
  | .fdiv d a b _ | .fscalb d a b _ | .hadd2 d a b _ | .hfma2 d a b _ | .badd2 d a b _ | .bfma2 d a b _
  | .pack d a b _ | .unpk d a b _ | .cvtsF16 d a b _ | .cvtsBf16 d a b _ | .cvtsE4m3 d a b _
  | .cvtsE5m2 d a b _ | .cvtsE2m1 d a b _ | .selbF32 d a b _ | .selbBf16x2 d a b _
  | .xlane d a b _ => [oneReg d, oneReg a, oneReg b]
  | .popc d a _ | .clz d a _ | .brev d a _ | .fnegabs d a _ _ | .frcp d a _ | .frsq d a _ | .fsqrt d a _
  | .fexp2 d a _ | .flog2 d a _ | .fsigm d a _ | .fclass d a _ | .mov d a _ | .shape d a _
  | .lookup d a _ => [oneReg d, oneReg a]
  | .iadd64 d a b _ | .isub64 d a b _ | .imul64 d a b _ | .dadd d a b _ | .dsub d a b _ | .dmul d a b _
  | .dfma d a b _ | .dmin d a b _ | .dmax d a b _ | .ddiv d a b _ | .selbF64 d a b _ => [pairReg d, pairReg a, pairReg b]
  | .icmp _ _ a b _ | .fcmp32 _ _ a b _ | .pcmp32 _ _ a b _ => [oneReg a, oneReg b]
  | .fcmp64 _ _ a b _ | .pcmp64 _ _ a b _ => [pairReg a, pairReg b]
  | .bra _ _ | .exit _ | .plog _ _ _ _ _ | .pconst _ _ _ => []
  | .dsqrt d a _ | .drcp d a _ | .drsq d a _ => [pairReg d, pairReg a]
  | .dclass d a _ => [oneReg d, pairReg a]
  | .dscalb d a b _ => [pairReg d, pairReg a, oneReg b]
  | .cvt d a k _ => [wideReg (cvtDst64 k) d, wideReg (cvtSrc64 k) a]
  | .movp d _ _ _ | .pgrad d _ _ _ | .pquery d _ _ _ | .psum d _ _ => [oneReg d]
  | .rand d a b _ => [quadReg d, pairReg a, quadReg b]
  | .collapse _ _ b _ => [oneReg b]
  | .lmask d _ b _ => [oneReg d, oneReg b]
  | .redux d a b c | .scan d a b c => [wideReg (c = 2#3) d, wideReg (c = 2#3) a, oneReg b]
  | .rebal d a b => [oneReg d, oneReg a, oneReg b]
  | .wsort d a _ => [oneReg d, oneReg a]
  | .matchLanes d a b c => [oneReg d, wideReg (c = 1#3) a, oneReg b]
  | .elect d b _ => [oneReg d, oneReg b]
  | .ld8 d v _ _ _ | .ld16 d v _ _ _ | .ld32 d v _ _ _ => [oneReg d, oneReg v]
  | .ld64 d v _ _ _ => [pairReg d, oneReg v]
  | .ld128 d v _ _ _ => [quadReg d, oneReg v]
  | .st8 s v _ _ _ | .st16 s v _ _ _ | .st32 s v _ _ _ => [oneReg s, oneReg v]
  | .st64 s v _ _ _ => [pairReg s, oneReg v]
  | .st128 s v _ _ _ => [quadReg s, oneReg v]
  | .cstore s v _ _ _ => [⟨s.toNat, 2, 1⟩, oneReg v]
  | .spop d _ _ => [oneReg d]
  | .spush a _ _ => [oneReg a]
  | .movi32 d _ _ => [oneReg d]
  | .atom32 d a _ v _ _ _ _ => [oneReg d, oneReg a, oneReg v]
  | .atom64 d a _ v _ _ _ _ => [pairReg d, pairReg a, oneReg v]
  | .cas32 d a b _ v _ _ _ => [oneReg d, oneReg a, oneReg b, oneReg v]
  | .cas64 d a b _ v _ _ _ => [pairReg d, pairReg a, pairReg b, oneReg v]
  | .iaddi d a _ | .andi d a _ | .ori d a _ | .xori d a _ | .shli d a _ | .shriN d a _ | .shriI d a _ =>
    [oneReg d, oneReg a]
  | .movi d _ => [oneReg d]
  | .icmpi _ _ a _ => [oneReg a]
  | .sadd d a b s | .ssub d a b s | .smul d a b s | .smulh d a b s | .sand d a b s | .sor d a b s
  | .sxor d a b s | .sshl d a b s | .sshr d a b s | .ssar d a b s | .smin d a b s | .smax d a b s
  | .scc d a b s => [wideReg (s.getLsbD 0) d, wideReg (s.getLsbD 0) a, wideReg (s.getLsbD 0) b]
  | .spopc d a s | .sclz d a s | .smov d a s => [wideReg (s.getLsbD 0) d, wideReg (s.getLsbD 0) a]
  | .jmp t _ => if t = 7#3 then [] else [⟨t.toNat, 1, 1⟩]
  | .bru _ _ | .call _ | .ret | .reconv _ | .wide | .endwide | .yield => []
  | .bar a _ => [oneReg a]
  | .tbar _ | .phase _ | .fenceAr _ | .fenceRel _ | .fenceAcq _ | .tfence _ | .ifence _ => []
  | .levelId _ d _ | .levelSize _ d _ => [oneReg d]
  | .coll _ d a _ o => [wideReg (o = 2#3) d, wideReg (o = 2#3) a]
  | .layout a _ => [pairReg a]
  | .layoutInv _ => []
  | .layq a _ c => [wideReg (decide (4 ≤ c.toNat ∧ c.toNat ≤ 8)) a]
  | .mfsr d r => [srUse d r]
  | .mtsr a r => [srUse a r]
  | .launch d a => [pairReg d, pairReg a]
  | .twait d a | .twaitPoll d a | .rdv d a => [oneReg d, oneReg a]
  | .forkTile d a b | .forkCopy d a b => [pairReg d, blockReg a, oneReg b]
  | .commit d | .clock d => [pairReg d]
  | .tlwait a b => [oneReg a, pairReg b]
  | .aexpect a b _ | .await a b _ | .aarrive a b _ => [oneReg a, oneReg b]
  | .dsync | .tktake | .tkpass => []
  | .cpy a b _ | .cpyx a b _ | .gather a b _ | .scatter a b _ => [oneReg a, blockReg b]
  | .fill a b _ _ => [pairReg a, oneReg b]
  | .tagset a b => [oneReg a, oneReg b]
  | .tagclr a => [oneReg a]
  | .cbload a _ _ | .pref a _ _ => [oneReg a]
  | .setupis a b _ _ => [oneReg a, quadReg b]
  | .cinc a b => [oneReg a, oneReg b]
  | .crd d a => [pairReg d, oneReg a]
  | .mmaF64 a b _ | .mmaBf16 a b _ | .mmaF16 a b _ | .mmaE4m3 a b _ | .mmaE5m2 a b _ | .mmaI8 a b _
  | .mmaB1 a b _ _ => [oneReg a, oneReg b]
  | .accz _ _ => []
  | .accld a _ _ | .accst a _ _ | .acccvt a _ _ => [oneReg a]
  | .tnew _ v | .tslab _ v => [oneReg v]
  | .tnewImm _ _ _ | .tfree _ => []
  | .tload _ v _ _ | .tlrld _ v _ _ => [oneReg v]
  | .tstore _ v _ | .tlrst _ v _ => [oneReg v]
  | .tadd _ _ _ _ | .tmul _ _ _ _ _ | .tround _ _ | .tcomp _ _ | .tdense _ _ _ => []
  | .tscal _ v | .tinfo _ v | .tnorm _ v _ => [pairReg v]
  | .tgemm _ _ _ _ _ _ _ | .tqr _ _ _ | .tqrR _ _ | .ttrsm _ _ _ _ => []
  | .tchol _ v => [oneReg v]
  | .tlu _ v _ => [oneReg v]
  | .tmv _ v _ _ => [oneReg v]
  | .trap _ | .trapEsc | .tret | .halt | .nop => []
  | .sysc d a n => if n.toNat < 16 then [pairReg d] else [pairReg d, pairReg a]
  | .pgmap d a => [oneReg d, pairReg a]
  | .tlbinv _ a => [pairReg a]
  | .tlbinvAll _ => []
  | .saddi d a _ | .sandi d a _ | .sori d a _ | .sxori d a _ | .sshli d a _ | .sshri d a _ | .ssari d a _
  | .scci d a _ | .smuli d a _ => [oneReg d, oneReg a]
  | .smovi d _ => [oneReg d]
  | .smovi32 d _ => [oneReg d]
  | .smovi64 d _ => [pairReg d]
  | .saddi32 d a _ | .sandi32 d a _ | .sori32 d a _ | .sxori32 d a _ => [oneReg d, oneReg a]
  | .teamDispatch _ _ | .deadlinePass _ _ | .preemptRequest _ | .teamSaveComplete _ | .migrate _ _
  | .kernelTrapService _ | .watchdogExpiry _ | .copyComplete _ _ | .cpyxTableRead _ _ | .streamFetch _ _
  | .streamStore _ _ | .mmaOpStart _ | .mmaOpComplete _ | .winnowerStart _ | .tileAllocationPoint _
  | .tileOpComplete _ | .pageWalk _ _ _ | .storePerform _ _ | .eccCorrected _ | .eccUncorrectable _
  | .parityDiscard _ | .spareChange _ | .mailboxLaunch _ _ _ | .mailboxWait _ | .mailboxWaitReply _
  | .mailboxPoll _ | .mailboxCounter _ | .mailboxAttest _ | .mailboxClock _ | .syscLog _ | .syscNotify _
  | .syscBlkread _ | .syscBlkwrite _ | .hostRegisterWrite _ _ | .linkReplay _ | .linkDown _
  | .channelStop _ _ | .channelResume _ _ | .peerTimeout _ | .resetBoot | .thermalThrottle _
  | .tlbinvComplete _ | .peerAccess _ | .systemLaunchPacket _ _ _ _ | .collectiveChannelMessage _ _ _ _
  | .mailboxUndefinedRecord _ | .syscUnknownService _ => []

/-- The scalar register forms whose variant field, sub bits 2:1, must be 0 (R155). -/
def subPlain (s : BitVec 3) : Bool := decide (s.toNat ≤ 1)

/-- The scalar register forms with the variants `.i` and `.n` (R155). -/
def subTwo (s : BitVec 3) : Bool := decide (s.toNat ≤ 3)

/-- A shift count of an immediate form lies from 0 to 31 (R137, R156). -/
def shiftOk (i : BitVec 10) : Bool := decide (i.toNat ≤ 31)

/-- The selector values that an instruction's description defines (R68, R76, R77). -/
def Instr.selectorsOk : Instr → Bool
  | .icmp c _ _ _ _ | .icmpi c _ _ _ => decide (c.toNat ≤ 9)
  | .fcmp32 c _ _ _ _ | .fcmp64 c _ _ _ _ => decide (c.toNat ≤ 5 ∨ c.toNat = 10 ∨ c.toNat = 11)
  | .pcmp32 c _ _ _ _ | .pcmp64 c _ _ _ _ => decide (c.toNat ≤ 5)
  | .fnegabs _ _ s _ => decide (s ≠ 0#2)
  | .cvt _ _ k _ => cvtDefined k
  | .movp _ _ s _ | .pquery _ _ s _ => decide (s.toNat ≤ 2)
  | .pgrad _ _ s _ => decide (s.toNat ≤ 1)
  | .plog _ _ pb f _ =>
    decide (f.toNat ≤ 6) && (decide (f.toNat ≠ 3 ∧ f.toNat ≠ 6) || decide (pb = 0#3))
  | .lmask _ _ _ c | .xlane _ _ _ c => decide (c.toNat ≤ 3)
  | .wsort _ _ c => decide (c.toNat ≤ 2)
  | .matchLanes _ _ _ c => decide (c.toNat ≤ 1)
  | .elect _ _ c => decide (c.toNat ≤ 1)
  | .spop _ m _ | .spush _ m _ => decide (m.toNat ≤ 7)
  | .atom32 _ _ _ _ _ _ op _ | .atom64 _ _ _ _ _ _ op _ => decide (1 ≤ op.toNat ∧ op.toNat ≤ 12)
  | .shli _ _ i | .shriN _ _ i | .shriI _ _ i | .sshli _ _ i | .sshri _ _ i | .ssari _ _ i => shiftOk i
  | .sadd _ _ _ s | .ssub _ _ _ s | .smul _ _ _ s | .sand _ _ _ s | .sor _ _ _ s | .sxor _ _ _ s
  | .sshl _ _ _ s | .sshr _ _ _ s | .ssar _ _ _ s | .spopc _ _ s | .sclz _ _ s => subPlain s
  | .smulh _ _ _ s | .smin _ _ _ s | .smax _ _ _ s | .smov _ _ s => subTwo s
  | .levelId _ _ c | .levelSize _ _ c => decide (c.toNat ≤ 1)
  | .coll _ _ _ k o => decide (k ≠ 3#2) || decide (o = 0#3)
  | .layq _ _ c => decide (c.toNat ≤ 10)
  | .mfsr _ r => (srWords r).isSome
  | .mtsr _ r => decide (r.toNat ≤ 6)
  | .mmaF64 _ _ d => decide (d.toNat % 2 = 0)
  | .accz d n => decide (d.toNat + n.toNat + 1 ≤ 64)
  | .accld _ d c | .accst _ d c => decide (c = 0#1) || decide (d.toNat % 2 = 0)
  | .acccvt _ d c => decide (c.toNat ≤ 0xA) && (decide (c ≠ 0#4) || decide (d.toNat % 2 = 0))
  | .tnewImm _ _ k => decide (k.toNat ≤ 1)
  | .tadd _ _ _ c => decide (c.toNat ≤ 1)
  | .tdense _ _ c => decide (c.toNat ≤ 2)
  | .tqr d _ e => decide (d ≠ e)
  | .sysc _ a n =>
    if n.toNat < 16 then decide (n.toNat ≤ 2) && decide (a = 0#7) else decide (n.toNat ≤ 511)
  | _ => true

/-- The check of R80 on an instruction's fields, for a code object with N registers: none when the instruction
is defined. -/
def Instr.illFormed (n : Nat) (i : Instr) : Option IllFormed :=
  if !i.selectorsOk then some .selector
  else if !i.regUses.all (RegUse.ok n) then some .register
  else none

/-- An instruction that R80 leaves defined under N registers. -/
abbrev Instr.WellFormed (n : Nat) (i : Instr) : Prop := i.illFormed n = none

end Sys2Proof
end

