-- ==== Sys2Proof/Machine/Ops.lean ====
section
/-! DEFINITION. The operations that every instruction shares: who issues it and where that agent is hosted, how an
instruction ends (R127, R338), the split table at an instruction boundary (R24 to R26, R32), taking a trap and
returning from one (R336, R337, R343). -/

namespace Sys2Proof.Machine

/-! ### Access to the parts of the state -/

def State.agent (s : State) (a : Nat) : Agent := s.agents.getD a default
def State.team (s : State) (t : Nat) : Team := s.teams.getD t default
def State.task (s : State) (t : Nat) : Task := s.tasks.getD t default
def State.modAgent (s : State) (a : Nat) (f : Agent → Agent) : State := { s with agents := s.agents.modify a f }
def State.modTeam (s : State) (t : Nat) (f : Team → Team) : State := { s with teams := s.teams.modify t f }
def State.modTask (s : State) (t : Nat) (f : Task → Task) : State := { s with tasks := s.tasks.modify t f }
def State.modCluster (s : State) (c : Nat) (f : ClusterUnit → ClusterUnit) : State :=
  { s with clusters := s.clusters.modify c f }
def State.modDie (s : State) (d : Nat) (f : DieUnit → DieUnit) : State := { s with dies := s.dies.modify d f }
def State.modMem (s : State) (f : Memory → Memory) : State := { s with mem := f s.mem }
def State.report (s : State) (c : Check) : State := { s with checks := s.checks ++ [c] }

def Agent.entry (ag : Agent) (e : Nat) : Entry := ag.entries.getD e default
def Agent.modEntry (ag : Agent) (e : Nat) (f : Entry → Entry) : Agent := { ag with entries := ag.entries.modify e f }
def State.modEntry (s : State) (a e : Nat) (f : Entry → Entry) : State := s.modAgent a (·.modEntry e f)

/-- The core of an agent's team, and its cluster and die (units are numbered over the device: 4 cores to a cluster, 16
clusters to a die). -/
def State.coreOf (s : State) (a : Nat) : Nat := (s.team (s.agent a).team).core
def clusterOfCore (c : Nat) : Nat := c / Config.coresPerCluster
def dieOfCore (c : Nat) : Nat := c / (Config.coresPerCluster * Config.clustersPerDie)
def State.clusterOf (s : State) (a : Nat) : Nat := clusterOfCore (s.coreOf a)
def State.dieOf (s : State) (a : Nat) : Nat := dieOfCore (s.coreOf a)
def State.taskOf (s : State) (a : Nat) : Nat := (s.team (s.agent a).team).task

/-- A free split-table entry. -/
def Entry.free : Entry :=
  { kind := .free, pc := 0#64, mask := 0#32, reconv := none, parent := none, stack := [], pending := none,
    records := [], arrived := 0#32, hold := .ready, redo := none, owed := [] }

/-- A running entry with the given lanes at an address, an empty stack and no reconvergence address (R23, R337). -/
def Entry.start (pc : DWord) (m : Mask) : Entry := { Entry.free with kind := .running, pc := pc, mask := m }

def Wide.none : Wide := { depth := 0, entry := 0, saved := 0#32, lanes := 0#32, records := 0 }

/-- The entries of an agent that starts with one running entry. -/
def startEntries (k : AgentKind) (pc : DWord) (m : Mask) : List Entry :=
  Entry.start pc m :: (if k = .warp then List.replicate (Config.splitEntries - 1) Entry.free else [])

/-! ### The issuing fragment -/

/-- What an instruction sees when it issues: the state, the agent and the entry by number and by value, its team and
task, and its active lanes. A re-execution in some lanes has those lanes active (R343). -/
structure Ctx where
  s : State
  a : Nat
  e : Nat
  ag : Agent
  en : Entry
  team : Team
  task : Task
  act : Mask

/-- The fragment or context that issues, if the state names one that runs. -/
def issuer (s : State) : Option Ctx :=
  match s.cur with
  | none => none
  | some (a, e) =>
    match s.agents[a]? with
    | none => none
    | some ag =>
      match ag.entries[e]? with
      | none => none
      | some en =>
        if ag.phase = .active ∧ en.kind = .running then
          let t := s.team ag.team
          some { s := s, a := a, e := e, ag := ag, en := en, team := t, task := s.task t.task,
                 act := match en.redo with | some m => en.mask &&& m | none => en.mask }
        else none

/-- How an instruction ends. -/
inductive Done where
  /-- It completes and the fragment goes to the next instruction. -/
  | retire (s : State)
  /-- It completes and has set every program counter itself. -/
  | placed (s : State)
  /-- It traps; the state holds what the instruction did before that (nothing, but for R338). -/
  | trap (s : State) (t : Trap)
  /-- It waits, and issues again when the fragment is next issued. -/
  | hold (s : State) (h : Hold)
  /-- It has arrived at wait instances, and the state already says what became of them. -/
  | arrived (s : State)

/-- Apply a change to the state that a completed instruction leaves. -/
def Done.map (f : State → State) : Done → Done
  | .retire s => .retire (f s)
  | .placed s => .placed (f s)
  | .trap s t => if t.partDone then .trap (f s) t else .trap s t
  | .hold s h => .hold s h
  | .arrived s => .arrived s

/-- The number of registers N and of full registers G of the issuing code (R41, R44). -/
def Ctx.n (c : Ctx) : Nat := c.task.info.regsN
def Ctx.g (c : Ctx) : Nat := c.task.info.regsG

def Ctx.isWarp (c : Ctx) : Bool := c.ag.kind == .warp

def Ctx.core (c : Ctx) : Nat := c.team.core
def Ctx.cluster (c : Ctx) : Nat := clusterOfCore c.team.core
def Ctx.die (c : Ctx) : Nat := dieOfCore c.team.core

/-- The depth of the declared tree (R9). -/
def Ctx.depth (c : Ctx) : Nat := c.task.info.tree.length

/-- The binding of declared level i (R15). -/
def Task.level (t : Task) (i : Nat) : BoundLevel := (t.binding.filter (·.declared)).getD i default

def Ctx.phys (c : Ctx) (i : Nat) : Nat := (c.task.level i).phys

/-! ### Traps -/

/-- A precise trap with the given mask and address (R335). -/
def Ctx.trapAt (c : Ctx) (cause : Nat) (mask : Mask) (addr : DWord) (access : Nat) : Done :=
  .trap c.s { cause := cause, mask := mask, addr := addr, access := access, level := none, partDone := false }

/-- A trap of every active lane with no address. -/
def Ctx.trapAll (c : Ctx) (cause : Nat) : Done := c.trapAt cause c.act 0#64 0

/-- ILLEGAL, SEQ_ONLY and PRIV carry the instruction's address and ACCESS 3 (R335). -/
def Ctx.illegal (c : Ctx) : Done := c.trapAt causeIllegal c.act c.en.pc 3
def Ctx.seqOnly (c : Ctx) : Done := c.trapAt causeSeqOnly c.act c.en.pc 3
def Ctx.priv (c : Ctx) : Done := c.trapAt causePriv c.act c.en.pc 3

/-- LEVEL with the level index (R81, R175). -/
def Ctx.levelTrap (c : Ctx) (l : Nat) : Done :=
  .trap c.s { cause := causeLevel, mask := c.act, addr := 0#64, access := 0, level := some l, partDone := false }

/-! ### The split table at an instruction boundary (R24 to R26, R32) -/

/-- Remove exited lanes from an entry and from its records (R32). -/
def Entry.strip (ex : Mask) (en : Entry) : Entry :=
  { en with mask := en.mask &&& ~~~ex, arrived := en.arrived &&& ~~~ex,
            records := en.records.map fun r => { r with deferred := r.deferred &&& ~~~ex, full := r.full &&& ~~~ex } }

/-- A deferral hand-over or the end of a record (R25), also when the lanes that run have all exited (R32). Where the deferred
lanes have all exited, the fragment keeps the return stack that it has (log 15). -/
def Entry.handOver (en : Entry) : Entry :=
  match en.kind, en.records with
  | .running, r :: rest =>
    if en.mask = 0#32 ∨ r.target = some en.pc then
      if !r.phase && r.deferred != 0#32 then
        { en with mask := r.deferred, pc := r.resume, stack := r.stack, records := { r with phase := true } :: rest }
      else { en with mask := r.full, pc := r.target.getD en.pc, records := rest }
    else en
  | _, _ => en

/-- An entry left with no lanes is freed (R32). -/
def Entry.freeEmpty (en : Entry) : Entry :=
  if en.kind = .running ∧ en.mask = 0#32 ∧ en.records = [] then Entry.free else en

/-- A join entry whose lanes have all arrived or exited becomes running (R26). One without lanes is freed, unless it holds
records, whose deferred lanes then take over (R25, R32). -/
def Entry.joinDone (en : Entry) : Entry :=
  if en.kind = .join ∧ en.mask &&& ~~~en.arrived = 0#32 then
    if en.mask = 0#32 ∧ en.records = [] then Entry.free
    else { en with kind := .running, arrived := 0#32, pending := none, hold := .ready }
  else en

/-- Fuse entry i back into its parent when its PC is its reconvergence address and it holds no record (R26). -/
def fuseAt (es : List Entry) (i : Nat) : List Entry :=
  match es[i]? with
  | none => es
  | some en =>
    if en.kind = .running ∧ en.records = [] ∧ en.reconv = some en.pc then
      match en.parent with
      | none => es
      | some p => (es.set i Entry.free).modify p fun j => { j with arrived := j.arrived ||| en.mask }
    else es

/-- Does an open WIDE keep entry i from handing over or fusing? Its bracket runs with the records it pushed (R166). -/
def Wide.guards (w : Wide) (i : Nat) (en : Entry) : Bool :=
  decide (0 < w.depth) && i == w.entry && decide (en.records.length ≤ w.records)

/-- One round of the boundary. -/
def settlePass (ex : Mask) (w : Wide) (es : List Entry) : List Entry :=
  let es := es.zipIdx.map fun (en, i) =>
    let en := en.strip ex
    if w.guards i en then en else en.handOver.freeEmpty
  let es := (List.range es.length).foldl
    (fun l i => if w.guards i (l.getD i Entry.free) then l else fuseAt l i) es
  es.map Entry.joinDone

/-- Repeat the boundary until nothing changes; every round ends a record, fuses or frees, so the fuel is never used up. -/
def settleEntries (ex : Mask) (w : Wide) : Nat → List Entry → List Entry
  | 0, es => es
  | k + 1, es =>
    let es' := settlePass ex w es
    if es' = es then es else settleEntries ex w k es'

/-- The split table of an agent at an instruction boundary. -/
def Agent.settle (ag : Agent) : Agent := { ag with entries := settleEntries ag.exited ag.wide 64 ag.entries }

/-! ### Completion of an instruction -/

/-- Is a task in deterministic mode (R270)? -/
def Task.deterministic (t : Task) : Bool := t.chain.head?.any (·.deterministic)

/-- Does an instruction that an agent completes count on its team's logical clock (R270)? -/
def State.counts (s : State) (a : Nat) : Bool := (s.agent a).kind == .warp && (s.task (s.taskOf a)).deterministic

/-- The team's logical clock counts each instruction that its warps complete in deterministic mode (R270); a team that has
been resumed and has passed no point yet notes the address of the instruction (R267). -/
def State.countIssue (s : State) (a : Nat) : State :=
  s.modTeam (s.agent a).team fun t =>
    { t with clock := if s.counts a then t.clock + 1#64 else t.clock
             left := if t.passedPoint then t.left else (a, (s.agent a).issuedAt) :: t.left }

/-- The same for an instruction at an address that the agent completes later than it issued it. -/
def State.countAt (s : State) (a : Nat) (pc : DWord) : State := (s.modAgent a fun ag => { ag with issuedAt := pc }).countIssue a

/-- Move a fragment past an instruction of the given number of words. -/
def Entry.advance (en : Entry) (len : Nat) : Entry :=
  { en with pc := en.pc + BitVec.ofNat 64 (4 * len), hold := .ready, redo := none }

/-- The boundary after an instruction of an agent. -/
def State.boundary (s : State) (a : Nat) : State := s.modAgent a Agent.settle

/-- A completed instruction: the fragment goes to the next one, the clock counts, the split table settles. -/
def State.complete (s : State) (a e len : Nat) : State :=
  ((s.modEntry a e (·.advance len)).countIssue a).boundary a

/-! ### Taking a trap (R336, R337) -/

/-- Add n to a 64-bit counter of a region block, translated afresh; a block that no longer translates, or is no longer
writable, loses the add and is reported (R39). -/
def State.addRegionCounter (s : State) (die space : Nat) (va : DWord) (off n : Nat) : State :=
  match s.translate die space (va + BitVec.ofNat 64 off) .atomic with
  | .ok pa =>
    s.modMem fun m => m.writeBytes (physKey pa) (bytesOfNat 8 ((m.readNat (physKey pa) 8 + n) % 2 ^ 64))
  | .error _ => s.report (.region va)

def missedOffset : Nat := 0x38
def faultsOffset : Nat := 0x40

/-- Add 1 to FAULTS of a task's region. -/
def State.countFault (s : State) (die : Nat) (t : Task) : State :=
  match t.chain.head? with
  | some r => s.addRegionCounter die t.space r.va faultsOffset 1
  | none => s

/-- The handler to which a trap at depth d is delivered: D_d is the d-th region of the chain (R336). -/
def Task.handlerAt (t : Task) (d : Nat) : Option DWord :=
  if Config.maxHandler ≤ d then none
  else
    match t.chain[d]? with
    | some r => if r.handler = 0#64 then none else some r.handler
    | none => none

/-- Entry into a handler as one step (R337). -/
def Agent.enterHandler (ag : Agent) (e len : Nat) (t : Trap) (handler : DWord) : Agent :=
  let en := ag.entry e
  let f : Frame :=
    { entries := ag.entries, wide := ag.wide, fpcsr := ag.sregs.fpcsr, temp := ag.sregs.temp,
      pstat := ag.sregs.pstat, faultinfo := ag.sregs.faultinfo, entry := e, pc := en.pc,
      next := en.pc + BitVec.ofNat 64 (4 * len), lanes := t.mask, partDone := t.partDone,
      peer := t.peer.map fun d => (d, t.addr) }
  { ag with frames := f :: ag.frames, entries := startEntries ag.kind handler t.mask, wide := Wide.none,
            sregs := { ag.sregs with faultinfo := faultinfoStored (ag.kind == .warp) (faultinfoOf t) } }

/-- Taking a trap: FAULTS counts it, then it goes to the handler of its domain, or the agent stops at the OS cores
(R336, R337). WATCHDOG always goes to the OS cores. -/
def takeTrap (s : State) (a e len : Nat) (t : Trap) : State :=
  let ag := s.agent a
  let task := s.task (s.taskOf a)
  let s := s.countFault (s.dieOf a) task
  match (if t.cause = causeWatchdog then none else task.handlerAt ag.frames.length) with
  | some h => s.modAgent a fun ag => ag.enterHandler e len t h
  | none => s.modAgent a fun ag =>
      (ag.modEntry e fun en => { en with hold := .ready }) |> fun ag => { ag with phase := .stopped e t }

/-- How an instruction that has issued leaves the state. -/
def finish (c : Ctx) (len : Nat) : Done → State
  | .retire s => s.complete c.a c.e len
  | .placed s => (s.countIssue c.a).boundary c.a
  | .trap s t => takeTrap s c.a c.e len t
  | .hold s h => s.modEntry c.a c.e fun en => { en with hold := h }
  | .arrived s => s

/-! ### Return from a trap (R343) -/

/-- The state saved at entry is restored and the depth falls by 1; exited lanes leave at the boundary. Flags that an operation
of the context has raised in FPCSR during the handler are lost with it (R57, R337, R343; log 15). -/
def Agent.restore (ag : Agent) (f : Frame) : Agent :=
  { ag with entries := f.entries, wide := f.wide, frames := ag.frames.tail,
            sregs := { ag.sregs with fpcsr := f.fpcsr, temp := f.temp, pstat := f.pstat, faultinfo := f.faultinfo } }

/-- Return with the lanes m that execute the faulting instruction again: none skips it, and after a trap that left
other lanes complete only those lanes re-execute (R343). -/
def Agent.returnWith (ag : Agent) (f : Frame) (m : Mask) : Agent :=
  (ag.restore f).modEntry f.entry fun en =>
    if m = 0#32 then { en with pc := f.next, hold := .ready, redo := none }
    else { en with pc := f.pc, hold := .ready, redo := if f.partDone then some m else en.redo }

/-- Resume a stopped agent as TRET would (R336, R369): after a trap that left other lanes complete, in its lanes only. -/
def Agent.resume (ag : Agent) (e : Nat) (t : Trap) : Agent :=
  { ag.modEntry e fun en => { en with redo := if t.partDone then some t.mask else en.redo } with phase := .active }

/-! ### Which agents run an instruction (R79, R81) -/

/-- Run the meaning of an encoded instruction of the given number of words on the fragment that issues. -/
def onAny (s : State) (len : Nat) (k : Ctx → Done) : Host.Outcome State Fault Refusal :=
  match issuer s with
  | none => .fault .noIssuer
  | some c => .next (finish c len (k c))

/-- An instruction of warps alone: ILLEGAL on a sequencer. -/
def onWarp (s : State) (len : Nat) (k : Ctx → Done) : Host.Outcome State Fault Refusal :=
  onAny s len fun c => if c.ag.kind = .warp then k c else c.illegal

/-- An instruction of tile-sequencer contexts alone: SEQ_ONLY on a warp, ILLEGAL on a copy-sequencer context. -/
def onTile (s : State) (len : Nat) (k : Ctx → Done) : Host.Outcome State Fault Refusal :=
  onAny s len fun c =>
    match c.ag.kind with
    | .warp => c.seqOnly
    | .copySeq => c.illegal
    | .tileSeq => k c

/-- The LEVEL check (R81). -/
def Ctx.withLevel (c : Ctx) (l : Nat) (k : Done) : Done := if c.depth ≤ l then c.levelTrap l else k

/-! ### Registers of the issuing agent -/

/-- The state with the issuing agent changed. -/
def Ctx.upd (c : Ctx) (f : Agent → Agent) : State := c.s.modAgent c.a f

/-- Write UNIFORM registers, each marked in every lane or in none (R131). -/
def Agent.writeWords (ag : Agent) (d : Nat) (p : Bool) : List Word → Agent
  | [] => ag
  | w :: ws => (ag.setReg d (VReg.ofWord w p)).writeWords (d + 1) p ws

/-- A 64-bit value as a pair of words (R42). -/
def pairWords (v : DWord) : List Word := [v.extractLsb' 0 32, v.extractLsb' 32 32]

end Sys2Proof.Machine
end

