-- ==== Sys2Proof/Machine/Operands.lean ====
section
/-! DEFINITION. Operand forms: guards (R50), lane instructions and their destinations (R44, R46, R127, R128), uniform
sources (R47, R48), parameters (R359), member masks (R176). -/

namespace Sys2Proof.Machine

/-! ### Guards (R50) -/

/-- The active lanes whose predicate is poisoned, fractional, or holds. -/
def Ctx.guardPoisoned (c : Ctx) (p : Nat) : Mask := maskOf fun i => inMask c.act i && (c.ag.pred p i).poison
def Ctx.guardFractional (c : Ctx) (p : Nat) : Mask := maskOf fun i => inMask c.act i && (c.ag.pred p i).fractional
def Ctx.guardHolds (c : Ctx) (p : Nat) : Mask := maskOf fun i => inMask c.act i && (c.ag.pred p i).holds

/-- Record that a fractional guard was thresholded (R50, R59). -/
def State.setFrac (s : State) (a : Nat) : State := s.modAgent a fun ag => { ag with sregs := ag.sregs.setFrac }

/-- The guard steps of R50, then the rest of the instruction in the lanes that pass. -/
def Ctx.guarded (c : Ctx) (p : Nat) (k : Mask → Done) : Done :=
  if c.guardPoisoned p ≠ 0#32 then c.trapAt causePoison (c.guardPoisoned p) 0#64 0
  else if c.guardFractional p ≠ 0#32 then
    if c.ag.sregs.strict then c.trapAt causeFracpred (c.guardFractional p) 0#64 0
    else (k (c.guardHolds p)).map fun s => s.setFrac c.a
  else k (c.guardHolds p)

/-! ### Lane instructions -/

/-- Write the destinations in the lanes of x and merge the flags, after the SHAPE check (R44, R46 rule 1, R57). -/
def Ctx.writeLanes (c : Ctx) (x : Mask) (outs : List LaneOut) (fl : Flags) : Done :=
  if x = 0#32 then .retire c.s
  else if outs.any fun o => decide (c.g ≤ o.reg) && o.general x then c.trapAll causeShape
  else .retire (c.upd fun ag => { ag.writeOuts x outs with sregs := ag.sregs.raise fl })

/-- The flags of every lane of x, merged (R57). -/
def laneFlags (x : Mask) (f : Nat → Flags) : Flags := (lanesOf x).foldl (fun acc i => acc ||| f i) 0#6

/-- One destination of 32 bits. -/
def out32 (d : Nat) (full : Option Shape) (f : Nat → Word) (mark : Nat → Bool) : LaneOut :=
  { reg := d, full := full, val := f, mark := mark }

/-- The two destinations of a pair (R42). -/
def out64 (d : Nat) (full : Option (Shape × Shape)) (f : Nat → DWord) (mark : Nat → Bool) : List LaneOut :=
  [{ reg := d, full := full.map (·.1), val := fun i => (f i).extractLsb' 0 32, mark := mark },
   { reg := d + 1, full := full.map (·.2), val := fun i => (f i).extractLsb' 32 32, mark := mark }]

/-- A guarded instruction with one 32-bit destination: the registers it reads in a lane (first and count), the shape
of a full write, and the word and flags of a lane. -/
def Ctx.lane32 (c : Ctx) (x : Mask) (d : Nat) (reads : List (Nat × Nat)) (full : Option Shape)
    (f : Nat → Word × Flags) : Done :=
  c.writeLanes x [out32 d full (fun i => (f i).1) (fun i => reads.any fun r => c.ag.marked r.1 r.2 i)]
    (laneFlags x fun i => (f i).2)

/-- A guarded instruction with a 64-bit destination. -/
def Ctx.lane64 (c : Ctx) (x : Mask) (d : Nat) (reads : List (Nat × Nat)) (full : Option (Shape × Shape))
    (f : Nat → DWord × Flags) : Done :=
  c.writeLanes x (out64 d full (fun i => (f i).1) (fun i => reads.any fun r => c.ag.marked r.1 r.2 i))
    (laneFlags x fun i => (f i).2)

/-- Write a predicate in the lanes of x (R49, R139, R241). -/
def Ctx.writePred (c : Ctx) (x : Mask) (pd : Nat) (f : Nat → Pred) (fl : Flags) : Done :=
  .retire (c.upd fun ag => { ag.setPred pd x f with sregs := ag.sregs.raise (if x = 0#32 then 0#6 else fl) })

/-- A register field as a number. -/
def rn (r : Reg) : Nat := r.toNat

/-! ### Uniform sources (R47, R48) -/

/-- A uniform read: none for a GENERAL register; an AFFINE one supplies its base; poisoned when any lane is marked. -/
def Agent.uread (ag : Agent) (r : Nat) : Option (Word × Bool) :=
  match (ag.reg r).shape with
  | .uniform x => some (x, (ag.reg r).poison != 0#32)
  | .affine b _ => some (b, (ag.reg r).poison != 0#32)
  | .general _ => none

/-- A list of uniform reads, none when one of them is GENERAL. -/
def Agent.ureads (ag : Agent) : List Nat → Option (List (Word × Bool))
  | [] => some []
  | r :: rs =>
    match ag.uread r, ag.ureads rs with
    | some x, some xs => some (x :: xs)
    | _, _ => none

/-- Read data sources under R47; a GENERAL one traps SHAPE. Poison goes to the result (R131). -/
def Ctx.sources (c : Ctx) (rs : List Nat) (k : List Word → Bool → Done) : Done :=
  match c.ag.ureads rs with
  | none => c.trapAll causeShape
  | some xs => k (xs.map (·.1)) (xs.any (·.2))

/-- Read parameters under R47: SHAPE, then POISON (R359, R171). -/
def Ctx.params (c : Ctx) (rs : List Nat) (k : List Word → Done) : Done :=
  c.sources rs fun ws p => if p then c.trapAll causePoison else k ws

/-- Registers r, r + 1, …, n of them. -/
def regRun (r n : Nat) : List Nat := (List.range n).map (r + ·)

/-- The value of a pair among words read. -/
def pairOf (ws : List Word) (i : Nat) : DWord := ws.getD (i + 1) 0#32 ++ ws.getD i 0#32

/-- Retire with UNIFORM words written from register d on. -/
def Ctx.retireWords (c : Ctx) (d : Nat) (p : Bool) (ws : List Word) : Done :=
  .retire (c.upd fun ag => ag.writeWords d p ws)

/-- A scalar instruction of 32 bits, or of 64 in the pair form (R131). -/
def Ctx.scalar (c : Ctx) (wide : Bool) (d : Nat) (rs : List Nat) (f32 : List Word → Word)
    (f64 : List DWord → DWord) : Done :=
  if wide then
    c.sources (rs.flatMap fun r => [r, r + 1]) fun ws p =>
      c.retireWords d p (pairWords (f64 ((List.range rs.length).map fun i => pairOf ws (2 * i))))
  else c.sources rs fun ws p => c.retireWords d p [f32 ws]

/-! ### Other lanes (R176) -/

/-- Lane j's word as another lane reads it: an exited lane reads as 0, unpoisoned. -/
def Agent.peek (ag : Agent) (r j : Nat) : Word := if inMask ag.exited j then 0#32 else ag.word r j
def Agent.peek64 (ag : Agent) (r j : Nat) : DWord := if inMask ag.exited j then 0#64 else ag.dword r j
def Agent.peekMark (ag : Agent) (r n j : Nat) : Bool := !inMask ag.exited j && ag.marked r n j

/-- The member mask of lane i, its own word of vb (R176). -/
def Ctx.members (c : Ctx) (vb : Reg) (i : Nat) : Mask := c.ag.word (rn vb) i

/-- Is an exited lane named by the member mask of an active lane (R176)? -/
def Ctx.namesExited (c : Ctx) (vb : Reg) : Bool :=
  (lanesOf c.act).any fun i => c.members vb i &&& c.ag.exited != 0#32

/-- Set WSTAT.MEMBEREXIT on completion when a member mask named an exited lane. -/
def Ctx.withMemberExit (c : Ctx) (vb : Reg) (d : Done) : Done :=
  if c.namesExited vb then
    d.map fun s => s.modAgent c.a fun ag => { ag with sregs := { ag.sregs with memberExit := true } }
  else d

end Sys2Proof.Machine
end

