-- ==== Sys2Proof/Machine/Order.lean ====
section
/-! DEFINITION. The ordering model (R220 to R226): points of coherence, stores on their way, views, releases and
refreshes. -/

namespace Sys2Proof.Machine

/-- The point of a level with a physical code (R220). A sequencer context meets at the cluster for CORE and below. -/
def pointOf (isWarp : Bool) (phys : Nat) : Point :=
  if phys ≤ 2 then (if isWarp then .core else .cluster) else if phys = 3 then .cluster else .home

def Point.le : Point → Point → Bool
  | .core, _ => true
  | .cluster, .core => false
  | .cluster, _ => true
  | .home, .home => true
  | .home, _ => false

/-- The nearer of two points. -/
def Point.min (a b : Point) : Point := if a.le b then a else b

/-- Where an access to a key meets for a point (R220): local memory at the team's core, the Granary at its cluster. -/
def Point.forKey (p : Point) (k : Nat) : Point := if keyKind k = 1 then .core else if keyKind k = 2 then .cluster else p

/-! ### What a point holds -/

/-- What a cluster reads at its point of coherence. -/
def State.clusterPoint (s : State) (cluster : Nat) : Memory :=
  overlay (withHome (heldAt s.clusterMem cluster s.mem) s.mem) (s.clusterPend.filter fun p => p.cluster == cluster)

/-- What a core holds of its own: the stores of the core that have gone on to the cluster are in it (R221). -/
def State.coreHolds (s : State) (core : Nat) : Memory :=
  withHome (heldAt s.coreMem core (s.clusterPoint (clusterOfCore core))) s.mem

/-- What a core reads at its point of coherence: what it holds, with its own stores on top. A store that is buffered is
older than every store of the core to its bytes that is on its way (R221, R272). -/
def State.corePoint (s : State) (core : Nat) : Memory :=
  (overlay ((s.coreHolds core).performAll (s.bufferedAt core))
    (s.corePend.filter fun p => p.core == core)).performAll (s.streamedAt core)

/-! ### Stores on their way -/

/-- Split a list of pending accesses into those that move, in order, and those that stay. With one that moves go the
earlier accesses to its bytes on the same path, so that the order at the point agrees with the order of issue (R221), and
the earlier atomics of its agent (R224). -/
def splitPend (sel : Pend → Bool) (same : Pend → Pend → Bool) (l : List Pend) : List Pend × List Pend :=
  l.foldr
    (fun p acc =>
      if sel p || acc.1.any (fun q => same p q && p.store.overlaps q.store || p.atomic && p.agent == q.agent) then
        (p :: acc.1, acc.2)
      else (acc.1, p :: acc.2)) ([], [])

/-- Apply an access to what is held for a number, if something is held; local memory and the Granary are held nowhere. -/
def applyHeld (l : List (Nat × Memory)) (n : Nat) (st : Store) : List (Nat × Memory) :=
  if homeKey st.key then l else l.map fun p => if p.1 = n then (p.1, p.2.perform st) else p

/-- Perform an access at the home; one that covers part of a word that cannot be corrected sends a record (R201). -/
def State.performMem (s : State) (st : Store) : State :=
  let s := if s.mem.recordDue st then s.report (.partialStore st.key) else s
  s.modMem (·.perform st)

/-- Perform accesses at the home and at every nearer point of their path (R221). -/
def State.performHome (s : State) (ps : List Pend) : State :=
  ps.foldl
    (fun s p => { s with coreMem := applyHeld s.coreMem p.core p.store,
                         clusterMem := applyHeld s.clusterMem p.cluster p.store }.performMem p.store) s

/-- An access has reached its cluster: what its core holds has it from now on, whatever the core has of its own on
its way. -/
def State.holdOwn (s : State) (p : Pend) : State :=
  { s with coreMem := holdAt s.coreMem p.core ((s.coreHolds p.core).perform p.store) }

/-- Perform the chosen accesses at their cluster (R221); those of the Granary have their home there. -/
def State.toCluster (s : State) (sel : Pend → Bool) : State :=
  let (go, stay) := splitPend sel (fun p q => p.core == q.core) s.corePend
  go.foldl
    (fun (s : State) p =>
      if homeKey p.store.key then s.performMem p.store
      else ({ s with clusterPend := s.clusterPend ++ [p] } : State).holdOwn p) { s with corePend := stay }

/-- Perform chosen accesses that have reached their cluster at their home. -/
def State.clusterToHome (s : State) (sel : Pend → Bool) : State :=
  let (go, stay) := splitPend sel (fun p q => p.cluster == q.cluster) s.clusterPend
  go.foldl (fun (s : State) p => { s with clusterMem := applyHeld s.clusterMem p.cluster p.store }.performMem p.store)
    { s with clusterPend := stay }

/-- Perform the chosen accesses at their home (R221). -/
def State.toHome (s : State) (sel : Pend → Bool) : State := (s.toCluster sel).clusterToHome sel

/-- Perform an agent's accesses at a point. Granary accesses meet at the cluster whatever the level (R220). -/
def State.performTo (s : State) (p : Point) (sel : Pend → Bool) : State :=
  match p with
  | .core => s.toCluster fun q => sel q && homeKey q.store.key
  | .cluster => s.toCluster sel
  | .home => s.toHome sel

/-- An access that an agent issues, as it goes on its way. -/
def State.pendOf (s : State) (a : Nat) (st : Store) (atomic : Bool) : Pend :=
  { agent := a, core := s.coreOf a, cluster := s.clusterOf a, store := st, atomic := atomic }

/-- The stream unit stores the elements of an agent's write streams (R216): they join its other stores. -/
def State.drainStreams (s : State) (a : Nat) : State :=
  let ag := s.agent a
  let near := ag.streamed.filter fun st => keyKind st.key == 1
  let far := ag.streamed.filter fun st => keyKind st.key != 1
  let s := near.foldl State.performMem s
  ({ s with corePend := s.corePend ++ far.map fun st => s.pendOf a st false }).modAgent a fun ag =>
    { ag with streams := ag.streams.map fun (x : Stream) => if x.write then { x with fifo := [] } else x }

/-- Stream elements of the warps of an agent's core that overlap an access reach memory before it (R221, R224, R232). -/
def State.drainOver (s : State) (a : Nat) (st : Store) : State :=
  let core := s.coreOf a
  (List.range s.agents.length).foldl
    (fun (s : State) i =>
      if s.coreOf i == core && (s.agent i).streamed.any (·.overlaps st) then s.drainStreams i else s) s

/-- The bytes of a later access leave a buffered store. -/
def Buffered.without (b : Buffered) (st : Store) : Buffered :=
  if b.store.overlaps st then { b with gone := b.gone ++ (List.range st.bytes.length).map (st.key + ·) } else b

/-- A later access of an agent takes the place of the buffered stores of its core, of those in `older`, in the bytes that they
share, so that the order of each byte agrees with the core's store order (R221, R222; log 45). -/
def State.replaceBuffered (s : State) (a : Nat) (older : Buffered → Bool) (st : Store) : State :=
  let own := (s.agent a).team
  let core := s.coreOf a
  { s with teams := s.teams.zipIdx.map fun (tm, t) =>
      if t == own || tm.placedOn core then
        { tm with buffer := tm.buffer.map fun b => if older b then b.without st else b }
      else tm }

/-- An access that is not buffered itself takes the place of all of them. -/
def State.supersede (s : State) (a : Nat) (st : Store) : State := s.replaceBuffered a (fun _ => true) st

/-- Every earlier access of the agent that is on its way is performed at the point, stream elements included. -/
def State.sendAll (s : State) (a : Nat) (p : Point) : State := (s.drainStreams a).performTo p fun q => q.agent == a

/-! ### Views -/

/-- Set the view of an agent to what its core reads. -/
def State.lookAgain (s : State) (a : Nat) : State :=
  let m := s.corePoint (s.coreOf a)
  s.modAgent a fun ag => { ag with view := m, late := [] }

/-- Bring what a core or cluster holds up to a farther point. What the core has on its way stays on top of it, and the
stores of the cluster on their way home on top of what comes from there (R221, R222). -/
def State.pull (s : State) (core cluster : Nat) (p : Point) : State :=
  match p with
  | .core => s
  | .cluster => { s with coreMem := holdAt s.coreMem core (s.clusterPoint cluster) }
  | .home =>
    let m := overlay s.mem (s.clusterPend.filter fun q => q.cluster == cluster)
    { s with coreMem := holdAt s.coreMem core m, clusterMem := holdAt s.clusterMem cluster s.mem }

/-- A refresh of the agent's view at a point (R222). -/
def State.refresh (s : State) (a : Nat) (p : Point) : State :=
  (s.pull (s.coreOf a) (s.clusterOf a) p).lookAgain a

/-- The value that a plain load of the agent reads (R222). -/
def Agent.loadBytes (ag : Agent) (k n : Nat) : List Byte := ag.view.readBytes k n

/-- An access that counts for an agent at once: its view has it, and an engine's older write to those bytes appears no
more (R222). -/
def Agent.shows (ag : Agent) (st : Store) : Agent :=
  { ag with view := ag.view.perform st
            late := ag.late.filter fun b => decide (b.1 < st.key) || decide (st.key + st.bytes.length ≤ b.1) }

/-- A store counts at once for the issuing agent and, for a warp, for every warp of its core (R222). -/
def State.showStore (s : State) (a : Nat) (st : Store) : State :=
  let core := s.coreOf a
  let warp := (s.agent a).kind == .warp
  { s with agents := s.agents.zipIdx.map fun (ag, i) =>
      if i == a || (warp && ag.kind == .warp && (s.team ag.team).core == core) then ag.shows st else ag }

/-- Issue a plain store (R221): local memory takes it at once, every other space when it is performed. -/
def State.issueStore (s : State) (a : Nat) (st : Store) : State :=
  let s := ((s.drainOver a st).supersede a st).showStore a st
  if keyKind st.key = 1 then s.performMem st
  else { s with corePend := s.corePend ++ [s.pendOf a st false] }

/-- An entry joins the buffer of an agent's team. -/
def State.pushBuffered (s : State) (b : Buffered) : State :=
  s.modTeam (s.agent b.agent).team fun tm => { tm with buffer := tm.buffer ++ [b] }

/-- Buffer a SHARED store (R272): it counts on its core at once. The core's earlier stores to its bytes go on to the
cluster, so that it stands on top of them. One to local memory takes its entry too, but the core is its point of coherence at every
level (R220), so local memory takes its bytes at once, as R222 has them count (DEDUCED; log 45). -/
def State.bufferStore (s : State) (a : Nat) (st : Store) : State :=
  let b : Buffered := { agent := a, store := st, order := s.nextBuffered }
  if keyKind st.key = 1 then (s.issueStore a st).pushBuffered (b.without st)
  else (((s.drainOver a st).toCluster fun q => q.core == s.coreOf a && q.store.overlaps st).showStore a st).pushBuffered b

/-- Before an agent's access is performed at a point (R221, R224): on its path, every access to its bytes that the agent can
have seen there, and every earlier atomic of the agent, is performed at that point. Those are the accesses of its core up to
its cluster, and the accesses of every core that have reached its cluster up to the home. -/
def State.clearPath (s : State) (a : Nat) (p : Point) (st : Store) : State :=
  let core := s.coreOf a
  let cluster := s.clusterOf a
  let mine (q : Pend) : Bool := q.agent == a && q.atomic
  let s := s.drainOver a st
  match p.forKey st.key with
  | .core => s
  | .cluster => s.toCluster fun q => mine q || q.core == core && q.store.overlaps st
  | .home => (s.toCluster fun q => mine q || q.core == core && q.store.overlaps st).clusterToHome fun q =>
      mine q || q.cluster == cluster && q.store.overlaps st

/-- Before an access to n bytes at a point. -/
def State.settleBytes (s : State) (a k n : Nat) (p : Point) : State :=
  s.clearPath a p { key := k, bytes := List.replicate n 0#8, marks := [] }

/-- Every earlier atomic of an agent is performed at its home (R224). -/
def State.settleAtomics (s : State) (a : Nat) : State := s.toHome fun q => q.agent == a && q.atomic

/-- What an atomic reads at its point (R224). -/
def State.pointMem (s : State) (a : Nat) (p : Point) : Memory :=
  match p with
  | .core => s.corePoint (s.coreOf a)
  | .cluster => s.clusterPoint (s.clusterOf a)
  | .home => s.mem

/-- Write at a point and at every nearer one, as an atomic does: its own agent sees it at once, other agents by a
refresh (R221, R222, R224). -/
def State.writeAtPoint (s : State) (a : Nat) (p : Point) (st : Store) : State :=
  let s := (s.modAgent a (·.shows st)).supersede a st
  let q := s.pendOf a st true
  if homeKey st.key then s.performMem st
  else
    match p with
    | .core => { s with corePend := s.corePend ++ [q] }
    | .cluster => { s with clusterPend := s.clusterPend ++ [q] }.holdOwn q
    | .home => s.performHome [q]

/-! ### Writes that a fetch holds (R328) -/

/-- The first slab of a task's Granary reservation in a cluster (R275). -/
def State.reservationStart (s : State) (cluster task : Nat) : Nat :=
  match (s.clusters.getD cluster default).runs.find? fun r => r.2.2 == .reservation task with
  | some r => r.1
  | none => 0

/-- The key of a byte of a task's Granary reservation. -/
def State.granByte (s : State) (cluster task off : Nat) : Nat :=
  granKey cluster (1024 * s.reservationStart cluster task + off)

/-- Byte ranges of a cluster's Granary that matrix operations in flight have still to fetch (R328), as key and length: those of
the operations that `ops` takes from a context. -/
def matRegions (s : State) (cluster : Nat) (ops : List MatOp → List MatOp) : List (Nat × Nat) :=
  s.agents.zipIdx.flatMap fun (ag, i) =>
    if s.clusterOf i != cluster then [] else
    ((ops ag.tile.matOps).filter (!·.started)).flatMap fun op =>
      let at_ (w : Word) (n : Nat) : List (Nat × Nat) :=
        if w.getLsbD 31 then []
        else [(s.granByte cluster (s.taskOf i) (256 * (w.extractLsb' 0 26).toNat), n)]
      match op.instr with
      | .mmaF64 _ _ _ => at_ op.wordA 8192 ++ at_ op.wordB 8192
      | .mmaBf16 _ _ _ | .mmaF16 _ _ _ | .mmaE4m3 _ _ _ | .mmaE5m2 _ _ _ | .mmaI8 _ _ _ =>
        at_ op.wordA 16384 ++ at_ op.wordB 16384
      | .mmaB1 _ _ _ _ => at_ op.wordA 32768 ++ at_ op.wordB 32768
      | .accld _ _ p => at_ op.wordA (if p = 1#1 then 32768 else 16384)
      | _ => []

/-- Does a write of n bytes from a key on meet such a range? -/
def State.meetsRegion (s : State) (ops : List MatOp → List MatOp) (k n : Nat) : Bool :=
  keyKind k == 2 && (matRegions s (k / 2 ^ 64 % 2 ^ 64) ops).any fun r => decide (r.1 < k + n) && decide (k < r.1 + r.2)

/-- Is a write of n bytes from a key on held by a fetch that is not done (R328)? -/
def State.fetchHolds (s : State) (k n : Nat) : Bool := s.meetsRegion id k n

/-- Is a write of the matrix array held by a fetch (R328): of an operation that is the next of its context? One behind it fetches
only after operations that the array takes later (R327). -/
def State.arrayHeld (s : State) (k n : Nat) : Bool := s.meetsRegion (·.take 1) k n

/-- Does a fetch hold a buffered store of a team (R272, R328)? -/
def State.bufferHeld (s : State) (t : Nat) : Bool :=
  (s.team t).buffer.any fun b => s.fetchHolds b.store.key b.store.bytes.length

/-- Perform the team's buffered SHARED stores at the launch domain, in issue order (R272), each after what its agent can
have seen of its bytes, older buffered stores of the core's other teams included (log 45). -/
def State.drainBuffer (s : State) (t : Nat) : State :=
  let s := (s.team t).buffer.foldl
    (fun (s : State) b =>
      b.stores.foldl (fun (s : State) st => s.replaceBuffered b.agent (fun q => decide (q.order < b.order)) st)
        ((s.clearPath b.agent .home b.store).performHome (b.stores.map fun st => s.pendOf b.agent st false))) s
  s.modTeam t fun t => { t with buffer := [] }

/-- The SHARED stores of an agent that wait for its team's turn. -/
def State.bufferOf (s : State) (a : Nat) : List Buffered := (s.team (s.agent a).team).buffer.filter (·.agent == a)

/-- Is it a team's turn: it holds the Lodestone, and no TKPASS of it is due (R271)? -/
def State.inTurn (s : State) (t : Nat) : Bool :=
  (s.task (s.team t).task).lodestone == some (s.team t).logical && !(s.team t).passDue

/-- Does a buffered store of an agent's core overlap n bytes that the agent is to access at a point beyond the core? It is
performed in its team's turn, and such an access after it (R221, R222, R272; log 45). -/
def State.bufferedBelow (s : State) (a : Nat) (p : Point) (k n : Nat) : Bool :=
  p.forKey k != .core &&
    (s.bufferedAt (s.coreOf a)).any (·.overlaps { key := k, bytes := List.replicate n 0#8, marks := [] })

/-! ### Releases (R223) -/

/-- Has an agent buffered SHARED stores that a release at a point must perform: stores whose point of coherence lies beyond the
core, as that of the Granary does at every level (R220, R223, R272)? -/
def State.owesStores (s : State) (a : Nat) (p : Point) : Bool := (s.bufferOf a).any fun b => p.forKey b.store.key != .core

/-- May a release at a point be performed now? SHARED stores that the agent has buffered are performed in its team's turn, so a
release that must perform some waits for it as TKTAKE does (R223, R272; log 45). -/
def State.mayRelease (s : State) (a : Nat) (p : Point) : Bool :=
  !s.owesStores a p || (s.inTurn (s.agent a).team && !s.bufferHeld (s.agent a).team)

/-- The SHARED stores that an agent has buffered are performed for a release that must perform some. -/
def State.drainFor (s : State) (a : Nat) (p : Point) : State :=
  if s.owesStores a p then s.drainBuffer (s.agent a).team else s

/-- A release (R223): every earlier access of the agent is performed at the point, those that it has buffered included. -/
def State.release (s : State) (a : Nat) (p : Point) : State := (s.drainFor a p).sendAll a p

/-- A release and a refresh at one point (PHASE, R223). -/
def State.phaseAt (s : State) (a : Nat) (p : Point) : State := (s.release a p).refresh a p

/-- A release of PHASE, FENCE or FORK by an agent at a point, with the refresh of agent a's view that follows it when it acquires. -/
def State.fenceAt (s : State) (a : Nat) (r : Nat × Point × Bool) : State :=
  if r.2.2 then (s.release r.1 r.2.1).refresh a r.2.1 else s.release r.1 r.2.1

/-- The releases that an agent waits for, until its team's turn, are performed, once all of them may be (R227). -/
def State.payDue (s : State) (a : Nat) : Option State :=
  let rs := (s.agent a).due
  if rs.all fun r => s.mayRelease r.1 r.2.1 then
    some ((rs.foldl (fun (s : State) r => s.fenceAt a r) s).modAgent a fun ag => { ag with due := [] })
  else none

/-! ### Engines (R225) -/

/-- What an engine operation of an agent reads: the home, with the agent's own earlier accesses on top (R225). In the bytes
of its buffered stores that later accesses of its core have replaced, it reads what the core does. -/
def State.engineMem (s : State) (a : Nat) : Memory :=
  let mine (ps : List Pend) := ps.filter fun p => p.agent == a
  let m := (overlay s.mem (mine s.clusterPend)).copyBytes (s.corePoint (s.coreOf a))
    ((s.bufferOf a).flatMap Buffered.replaced)
  (overlay (m.performAll ((s.bufferOf a).flatMap Buffered.stores)) (mine s.corePend)).performAll (s.agent a).streamed

/-- The bytes of an engine's write as they may appear to loads. -/
def Store.lateBytes (st : Store) : List (Nat × Byte × Option Bool) :=
  st.bytes.zipIdx.map fun p =>
    (st.key + p.2, p.1, (st.marks.find? fun m => m.1 == (st.key + p.2) / 4).map (·.2))

/-- An engine's write lands at the point of a level bound to DEVICE (R225), after every access to its bytes that its issuer
can have made or seen, and with it at the nearer points of the path (R221). From then on the issuer's loads may return it,
and in local memory the loads of its whole team, byte by byte as they appear; until then they read the old bytes (R192;
log 12). -/
def State.engineWrite (s : State) (a : Nat) (st : Store) : State :=
  let s := ((s.clearPath a .home st).supersede a st).performHome [s.pendOf a st false]
  { s with agents := s.agents.zipIdx.map fun (ag, i) =>
      if i == a || keyKind st.key == 1 && ag.team == (s.agent a).team then { ag with late := ag.late ++ st.lateBytes }
      else ag }

/-- One byte of an engine's write as an access. -/
def lateStore (b : Nat × Byte × Option Bool) : Store :=
  { key := b.1, bytes := [b.2.1], marks := match b.2.2 with
      | some v => [(b.1 / 4, v)]
      | none => [] }

/-- Byte n of an agent's list of engine writes appears to its loads (R192, R225); the older ones under its key appear no
more. -/
def State.appear (s : State) (a n : Nat) : State :=
  match (s.agent a).late[n]? with
  | none => s
  | some b =>
    s.modAgent a fun ag =>
      { ag with view := ag.view.perform (lateStore b)
                late := ag.late.zipIdx.filterMap fun (p : (Nat × Byte × Option Bool) × Nat) =>
                  if p.2 ≤ n ∧ p.1.1 = b.1 then none else some p.1 }

end Sys2Proof.Machine
end

