-- ==== Sys2Proof/Machine/Address.lean ====
section
/-! DEFINITION. Layout entries and the addresses they give (R52, R191 to R194, R197), and where an element lies. -/

namespace Sys2Proof.Machine

/-! ### Layout entries -/

/-- An entry of zeros (R52). -/
def Layout.zero : Layout :=
  { base := 0#64, space := 0#8, esize := 0#8, dims := 0#8, mode := 0#8, peer := 0#16, xmask := 0#16,
    extent := List.replicate 4 0#32, stride := List.replicate 4 0#64 }

/-- The entry that 64 bytes hold (R52). -/
def Layout.ofBytes (b : List Byte) : Layout :=
  let n (o k : Nat) := natOfBytes ((b.drop o).take k)
  { base := BitVec.ofNat 64 (n 0 8), space := BitVec.ofNat 8 (n 8 1), esize := BitVec.ofNat 8 (n 9 1),
    dims := BitVec.ofNat 8 (n 10 1), mode := BitVec.ofNat 8 (n 11 1), peer := BitVec.ofNat 16 (n 12 2),
    xmask := BitVec.ofNat 16 (n 14 2),
    extent := (List.range 4).map fun k => BitVec.ofNat 32 (n (16 + 4 * k) 4),
    stride := (List.range 4).map fun k => BitVec.ofNat 64 (n (32 + 8 * k) 8) }

def Layout.nd (l : Layout) : Nat := l.dims.toNat
def Layout.ext (l : Layout) (k : Nat) : Nat := (l.extent.getD k 0#32).toNat
def Layout.str (l : Layout) (k : Nat) : Int := (l.stride.getD k 0#64).toInt
/-- BOUNDS: 0 TRAP, 1 ZERO, 2 CLAMP. -/
def Layout.bounds (l : Layout) : Nat := (l.mode.extractLsb' 0 2).toNat
def Layout.shared (l : Layout) : Bool := l.mode.getLsbD 2
/-- The element size in bytes. -/
def Layout.size (l : Layout) : Nat := 2 ^ l.esize.toNat
def Layout.valid (l : Layout) : Bool := decide (1 ≤ l.nd)
def Layout.isLocal (l : Layout) : Bool := l.space == 1#8
def Layout.isGran (l : Layout) : Bool := l.space == 2#8

/-- The rules of R193 on an image. -/
def Layout.imageOk (l : Layout) : Bool :=
  decide (l.nd ≤ 4) && decide (l.space.toNat ≤ 4) && decide (l.esize.toNat ≤ 4) && decide (l.bounds ≤ 2) &&
    decide (l.mode.extractLsb' 3 5 = 0#5) &&
    (List.range 4).all (fun k => if k < l.nd then l.ext k != 0 else l.ext k == 0 && l.stride.getD k 0#64 == 0#64) &&
    (if l.space = 3#8 then decide (l.peer.toNat < 16384) else l.peer == 0#16) &&
    decide (l.xmask.extractLsb' 3 13 = 0#13) && (l.xmask == 0#16 || l.isLocal || l.isGran) &&
    decide (l.base.toNat % l.size = 0)

/-- Where the coordinates of an element lead (R194). -/
inductive Spot where
  /-- Out of bounds in TRAP mode. -/
  | out
  /-- Absent in ZERO mode. -/
  | absent
  /-- The byte offset or virtual address. -/
  | at (off : Nat)
  deriving DecidableEq, Repr

/-- One coordinate within its extent, or moved or refused by the bounds mode. -/
def Layout.coord (l : Layout) (k : Nat) (x : Int) : Except Spot Int :=
  if x < 0 ∨ (l.ext k : Int) ≤ x then
    match l.bounds with
    | 0 => .error .out
    | 1 => .error .absent
    | _ => .ok (if x < 0 then 0 else (l.ext k : Int) - 1)
  else .ok x

/-- The exact sum of R194 over the first dimensions. -/
def Layout.sum (l : Layout) (xs : List Int) : Nat → Except Spot Int
  | 0 => .ok l.base.toNat
  | k + 1 =>
    match l.sum xs k, l.coord k (xs.getD k 0) with
    | .error e, _ => .error e
    | _, .error e => .error e
    | .ok a, .ok x => .ok (a + x * l.str k)

/-- The swizzle of local and Granary entries (R194). -/
def Layout.swizzle (l : Layout) (off : Nat) : Nat :=
  if l.isLocal || l.isGran then off ^^^ ((off / 128 &&& l.xmask.toNat) * 16) else off

/-- The element address of R194. -/
def Layout.spot (l : Layout) (xs : List Int) : Spot :=
  match l.sum xs l.nd with
  | .error e => e
  | .ok a => .at (l.swizzle (a % 2 ^ 64).toNat)

/-! ### Where an offset lies -/

/-- The local allocation A of a task's teams (R18). -/
def Task.localAlloc (t : Task) : Nat := (t.info.localSize + 1023) / 1024 * 1024

/-- The limits of R192. -/
def Ctx.breaksLimit (c : Ctx) (l : Layout) (off size : Nat) : Bool :=
  (l.isLocal && decide (c.task.localAlloc < off + size)) || (l.isGran && decide (c.task.info.granary < off + size))

/-- A PEER entry that names the own device acts as GLOBAL (R191). -/
def State.isPeer (s : State) (l : Layout) : Bool := l.space == 3#8 && l.peer.toNat != s.devid

/-- The other device that an entry names. -/
def State.peerOf (s : State) (l : Layout) : Option Nat := if s.isPeer l then some l.peer.toNat else none

/-- Does a port that is up lead to a device (R364)? -/
def State.reachable (s : State) (dev : Nat) : Bool := s.ports.any fun p => p.up && p.device == dev

/-- Is some port in service? Without one nothing comes from other devices (R364). -/
def State.linked (s : State) : Bool := s.ports.any (·.up)

/-- Is every port that leads to a device and is up told to stop on a virtual channel: 0 requests, 1 responses, 2 collectives,
3 management (R364)? -/
def State.stoppedTo (s : State) (dev chan : Nat) : Bool :=
  s.reachable dev && (s.ports.filter fun p => p.up && p.device == dev).all fun p => p.stopped.getD chan false

/-- Does no device answer accesses through an entry (R364)? -/
def State.silent (s : State) (l : Layout) : Bool :=
  s.isPeer l && (!s.reachable l.peer.toNat || !(s.peers.any (·.id == l.peer.toNat)))

/-- Are accesses through an entry kept back by a stop signal (R364; log 39)? -/
def State.keptBack (s : State) (l : Layout) : Bool := s.isPeer l && s.stoppedTo l.peer.toNat 0

/-- Perform a release at a point and go on; one that must wait for the team's turn issues again (R223, R272). -/
def Ctx.releasing (c : Ctx) (p : Point) (k : State → Done) : Done :=
  if c.s.mayRelease c.a p then k (c.s.release c.a p) else .hold c.s .polling

/-- PHASE and FENCE: the release is performed at once, or, while it must wait for the team's turn, noted, and the fragment goes
on; later memory instructions of the agent are held until it has been performed (R223, R227, R272; log 45). -/
def Ctx.fence (c : Ctx) (p : Point) (acquires : Bool) : Done :=
  if c.ag.due = [] ∧ c.s.mayRelease c.a p then .retire (c.s.fenceAt c.a (c.a, p, acquires))
  else .retire (c.s.modAgent c.a fun ag => { ag with due := ag.due ++ [(c.a, p, acquires)] })

/-- What becomes of an element access. -/
inductive Where where
  | key (k : Nat)
  | fail (cause : Nat)
  /-- A PEER access that no port carries. -/
  | unanswered
  deriving DecidableEq, Repr

/-- Translation at the target of a PEER access (R350, R365): the table that its OS cores bind to the issuing root region. Its
memory lies as this device's does (log 24). -/
def State.peerTranslate (s : State) (dev space : Nat) (va : DWord) (acc : Access) : Where :=
  match s.peers.find? (·.id == dev) with
  | none => .unanswered
  | some p =>
    if !s.reachable dev then .unanswered
    else if !vaCanonical va then .fail causePage
    else
      match p.roots.find? (·.1 == space) with
      | none => .fail causePage
      | some (_, root) =>
        let v := (va.extractLsb' 0 57).toNat
        match walkFrom s.mem (peerKey dev 0) v 5 root with
        | none => .fail causePage
        | some (level, pte, _) =>
          if !pteU pte || ((acc == .read || acc == .atomic) && !pteR pte) ||
              ((acc == .write || acc == .atomic) && !pteW pte) then .fail causePerm
          else if (match s.dieOfPhys (leafPhys level pte v) with | some d => d != pteHome pte | none => false) then
            .fail causePerm
          else if !pteA pte || ((acc == .write || acc == .atomic) && !pteD pte) then .fail causePage
          else .key (peerKey dev (leafPhys level pte v))

/-- The key of an element, after translation (R191, R198, R350). HOST reaches the window alone. A GLOBAL access whose translation
falls in the window is answered PERM (DESIGN CHOICE: R191 gives PERM for HOST outside the window only; log 5). -/
def State.place (s : State) (team : Nat) (task : Nat) (core : Nat) (l : Layout) (off : Nat) (acc : Access) : Where :=
  let t := s.task task
  let va := BitVec.ofNat 64 off
  if l.isLocal then .key (localKey team off)
  else if l.isGran then .key (s.granByte (clusterOfCore core) task off)
  else if s.isPeer l then s.peerTranslate l.peer.toNat t.space va acc
  else
    match s.translateData t (dieOfCore core) va acc (some core) with
    | .error e => .fail e
    | .ok pa =>
      if l.space = 4#8 then (if s.inWindow pa then .key (physKey pa) else .fail causePerm)
      else if (s.dieOfPhys pa).isSome then .key (physKey pa) else .fail causePerm

def Ctx.place (c : Ctx) (l : Layout) (off : Nat) (acc : Access) : Where :=
  c.s.place c.ag.team c.team.task c.core l off acc

/-- The layout entry that an agent uses (R52, R53). -/
def Ctx.layout (c : Ctx) (n : BitVec 6) : Layout := c.ag.layouts.getD n.toNat Layout.zero

/-- The farthest point that a space has (R191, R204). -/
def Layout.reach (l : Layout) : Point := if l.isLocal then .core else if l.isGran then .cluster else .home

/-! ### Lane accesses (R197, R198) -/

/-- The lanes of x that a test finds. -/
def lanesThat (x : Mask) (f : Nat → Bool) : Mask := maskOf fun i => inMask x i && f i

/-- The coordinates of a lane. -/
def Ctx.coords (c : Ctx) (l : Layout) (vc i : Nat) : List Int :=
  (List.range l.nd).map fun k => (c.ag.word (vc + k) i).toInt

/-- A trap of some lanes at the address of the lowest of them. -/
def Ctx.trapLanes (c : Ctx) (cause : Nat) (m : Mask) (addr : Nat → Nat) (access : Nat) : Done :=
  c.trapAt cause m (BitVec.ofNat 64 (((lowest m).map addr).getD 0)) access

/-- The offset of a lane, when its element is neither out of bounds nor absent. -/
def Spot.offset : Spot → Option Nat
  | .at o => some o
  | _ => none

/-- Do some coordinates lead to an element that is there? -/
def Layout.reaches (l : Layout) (els : List (List Int)) : Bool := els.any fun xs => (l.spot xs).offset.isSome

/-- Does a translation fail? After PEER_TIMEOUT an access that no device answers fails with PERM (R364). -/
def Where.cause : Where → Option Nat
  | .key _ => none
  | .fail e => some e
  | .unanswered => some causePerm

/-- Accesses of an instruction through an entry to another device, when it makes any: kept back, they wait; unanswered, they
wait 100 microseconds and then go on to fault (R364). -/
def Ctx.peerGate (c : Ctx) (l : Layout) (any : Bool) (k : Done) : Done :=
  if c.s.keptBack l && any then .hold c.s .polling
  else if c.s.silent l && any then
    match c.en.hold with
    | .peer since => if since = 0 then k else .hold c.s (.peer since)
    | _ => .hold c.s (.peer ((c.s.dies.getD c.die default).clock + 1))
  else k

/-- The lanes of x whose translation succeeds complete, and those whose translation fails trap (R198): `here` says which
lanes have an element, `w` where it lies, `off` its offset, `peer` the other device that the entry names. -/
def answered (x : Mask) (peer : Option Nat) (here : Nat → Bool) (w : Nat → Where) (off : Nat → Nat) (acc : Access)
    (k : List (Nat × Option Nat) → Option Trap → Done) : Done :=
  let bad := lanesThat x fun i => here i && (w i).cause.isSome
  let good := (lanesOf (x &&& ~~~bad)).map fun i =>
    (i, if here i then (match w i with | .key q => some q | _ => none) else none)
  if bad = 0#32 then k good none
  else
    let low := (lowest bad).getD 0
    k good (some { cause := (w low).cause.getD causePage, mask := bad, addr := BitVec.ofNat 64 (off low)
                   access := acc.code, level := none, partDone := true, peer := peer })

/-- Steps 3 to 7 of R197 in the lanes of x, then translation of every lane (R198). The continuation receives each
lane with its key, absent elements as none, and the mask, cause and address of the lanes whose translation failed. -/
def Ctx.laneAccess (c : Ctx) (x : Mask) (l : Layout) (vc size : Nat) (acc : Access)
    (k : List (Nat × Option Nat) → Option Trap → Done) : Done :=
  if !l.valid || l.size != size || decide (c.n < vc + l.nd) then c.trapAt causeLayout x 0#64 0
  else
    let poisoned := lanesThat x fun i => c.ag.marked vc l.nd i
    if poisoned ≠ 0#32 then c.trapAt causePoison poisoned 0#64 0
    else
      let spot (i : Nat) := l.spot (c.coords l vc i)
      let off (i : Nat) := (spot i).offset.getD 0
      let out := lanesThat x fun i => spot i == .out
      if out ≠ 0#32 then c.trapAt causeLayout out 0#64 0
      else
        let here (i : Nat) := (spot i).offset.isSome
        let beyond := lanesThat x fun i => here i && c.breaksLimit l (off i) size
        if beyond ≠ 0#32 then c.trapLanes causeLocalBounds beyond off 0
        else
          let odd := lanesThat x fun i => here i && off i % size != 0
          if odd ≠ 0#32 then c.trapLanes causeAlign odd off 0
          else
            c.peerGate l ((lanesOf x).any here) <|
              answered x (c.s.peerOf l) here (fun i => c.place l (off i) acc) off acc k

end Sys2Proof.Machine
end

