-- ==== Sys2Proof/Machine/IntLane.lean ====
section
/-! DEFINITION. Integer, bit-field, move and hard-compare instructions of the lane set (R133 to R139, R151 to R154). -/

namespace Sys2Proof.Machine

abbrev Out := Host.Outcome State Fault Refusal

/-! ### The lane functions -/

/-- Shifts by the full 32-bit count (R133). -/
def shlWord (a n : Word) : Word := if n.toNat < 32 then a <<< n.toNat else 0#32
def shrWord (a n : Word) : Word := if n.toNat < 32 then a >>> n.toNat else 0#32
def sarWord (a n : Word) : Word := a.sshiftRight (min n.toNat 31)
def rotWord (a n : Word) : Word := a.rotateLeft (n.toNat % 32)

def minS (a b : Word) : Word := if a.slt b then a else b
def maxS (a b : Word) : Word := if a.slt b then b else a
def minU (a b : Word) : Word := if a.ult b then a else b
def maxU (a b : Word) : Word := if a.ult b then b else a

/-- Bits 63:32 of the signed and unsigned products (R133). -/
def mulHighS (a b : Word) : Word := ((a.signExtend 64) * (b.signExtend 64)).extractLsb' 32 32
def mulHighU (a b : Word) : Word := ((a.zeroExtend 64) * (b.zeroExtend 64)).extractLsb' 32 32

/-- The number of 1 bits, and of leading 0 bits (R134, R155). -/
def popBits {w : Nat} (a : BitVec w) : Nat := ((List.range w).filter fun i => a.getLsbD i).length
def leadBits {w : Nat} (a : BitVec w) : Nat := w - bitLen a.toNat

/-- The control word of BFX and BFI: pos, the length that fits, S (R135). -/
def bfPos (c : Word) : Nat := (c.extractLsb' 0 5).toNat
def bfLen (c : Word) : Nat := min (min (c.extractLsb' 8 6).toNat 32) (32 - bfPos c)

def bfxWord (a c : Word) : Word :=
  let f := (a >>> bfPos c) &&& BitVec.ofNat 32 (2 ^ bfLen c - 1)
  if bfLen c = 0 then 0#32
  else if c.getLsbD 15 && f.getLsbD (bfLen c - 1) then f - BitVec.ofNat 32 (2 ^ bfLen c)
  else f

def bfiWord (a c d : Word) : Word :=
  let m := BitVec.ofNat 32 ((2 ^ bfLen c - 1) * 2 ^ bfPos c)
  (d &&& ~~~m) ||| ((a <<< bfPos c) &&& m)

/-- One byte of BSEL, with bit 7 of the byte below it (R135). -/
def bselByte (a b : Word) (j : Nat) (below : Bool) : Byte :=
  match (b.extractLsb' (3 * j) 3).toNat with
  | 4 => 0x00#8
  | 5 => 0xFF#8
  | 6 => if below then 0xFF#8 else 0x00#8
  | 7 => b.extractLsb' 24 8
  | k => a.extractLsb' (8 * k) 8

def bselWord (a b : Word) : Word :=
  let r0 := bselByte a b 0 (a.getLsbD 31)
  let r1 := bselByte a b 1 (r0.getLsbD 7)
  let r2 := bselByte a b 2 (r1.getLsbD 7)
  let r3 := bselByte a b 3 (r2.getLsbD 7)
  r3 ++ r2 ++ r1 ++ r0

def packWord (a b : Word) : Word := b.extractLsb' 0 16 ++ a.extractLsb' 0 16

def unpkWord (a b : Word) : Word :=
  let i := (b.extractLsb' 0 5).toNat
  let w := match (b.extractLsb' 5 2).toNat with | 0 => 4 | 1 => 8 | 2 => 16 | _ => 1
  if i * w < 32 then (a >>> (i * w)) &&& BitVec.ofNat 32 (2 ^ w - 1) else 0#32

/-- The comparison of a condition code 0 to 9 (R68, R139). -/
def iCond (c : Nat) (a b : Word) : Bool :=
  match c with
  | 0 => a == b
  | 1 => a != b
  | 2 => a.slt b
  | 3 => a.sle b
  | 4 => b.slt a
  | 5 => b.sle a
  | 6 => a.ult b
  | 7 => a.ule b
  | 8 => b.ult a
  | 9 => b.ule a
  | _ => false

/-- One round of Philox-4×32 (R154). -/
def philoxRound (k0 k1 c0 c1 c2 c3 : Word) : Word × Word × Word × Word :=
  let p := (0xD2511F53#64) * c0.zeroExtend 64
  let q := (0xCD9E8D57#64) * c2.zeroExtend 64
  (q.extractLsb' 32 32 ^^^ c1 ^^^ k0, q.extractLsb' 0 32, p.extractLsb' 32 32 ^^^ c3 ^^^ k1, p.extractLsb' 0 32)

/-- The rounds, with the keys bumped before each but the first. -/
def philox : Nat → Word → Word → Word × Word × Word × Word → Word × Word × Word × Word
  | 0, _, _, c => c
  | n + 1, k0, k1, (c0, c1, c2, c3) =>
    philox n (k0 + 0x9E3779B9#32) (k1 + 0xBB67AE85#32) (philoxRound k0 k1 c0 c1 c2 c3)

/-! ### Forms -/

/-- A guarded two-source instruction; the old destination is a third source where it says so. -/
def int2 (s : State) (vd va vb : Reg) (ps : PReg) (useD : Bool) (full : VReg → VReg → Option Shape)
    (f : Word → Word → Word → Word) : Out :=
  onWarp s 1 fun c => c.guarded ps.toNat fun x =>
    c.lane32 x (rn vd) ([(rn va, 1), (rn vb, 1)] ++ (if useD then [(rn vd, 1)] else []))
      (full (c.ag.reg (rn va)) (c.ag.reg (rn vb)))
      (fun i => (f (c.ag.word (rn va) i) (c.ag.word (rn vb) i) (c.ag.word (rn vd) i), 0#6))

/-- A guarded one-source instruction. -/
def int1 (s : State) (vd va : Reg) (ps : PReg) (full : VReg → Option Shape) (f : Word → Word) : Out :=
  onWarp s 1 fun c => c.guarded ps.toNat fun x =>
    c.lane32 x (rn vd) [(rn va, 1)] (full (c.ag.reg (rn va))) (fun i => (f (c.ag.word (rn va) i), 0#6))

/-- A guarded two-source instruction on pairs. -/
def int64 (s : State) (vd va vb : Reg) (ps : PReg) (keeps : Bool) (f : DWord → DWord → DWord) : Out :=
  onWarp s 1 fun c => c.guarded ps.toNat fun x =>
    let uniform := [rn va, rn va + 1, rn vb, rn vb + 1].all fun r => (c.ag.reg r).tag == 0
    let v := f (c.ag.dword (rn va) 0) (c.ag.dword (rn vb) 0)
    c.lane64 x (rn vd) [(rn va, 2), (rn vb, 2)]
      (if keeps && uniform then some (.uniform (v.extractLsb' 0 32), .uniform (v.extractLsb' 32 32)) else none)
      (fun i => (f (c.ag.dword (rn va) i) (c.ag.dword (rn vb) i), 0#6))

/-- An unguarded immediate instruction (R137). -/
def intImm (s : State) (vd va : Reg) (full : VReg → Option Shape) (f : Word → Word) : Out :=
  onWarp s 1 fun c =>
    c.lane32 c.act (rn vd) [(rn va, 1)] (full (c.ag.reg (rn va))) (fun i => (f (c.ag.word (rn va) i), 0#6))

def noShape1 (_ : VReg) : Option Shape := none
def noShape2 (_ _ : VReg) : Option Shape := none

/-! ### R133 -/

def execIadd (vd va vb : Reg) (ps : PReg) (s : State) : Out :=
  int2 s vd va vb ps false (shapeLinear (· + ·)) (fun a b _ => a + b)
def execIsub (vd va vb : Reg) (ps : PReg) (s : State) : Out :=
  int2 s vd va vb ps false (shapeLinear (· - ·)) (fun a b _ => a - b)
/-- IMUL keeps shape when one operand is UNIFORM (R46 rule 2). -/
def shapeMul (a b : VReg) : Option Shape :=
  match b.uniformWord with
  | some m => shapeScaled (· * ·) a (some m)
  | none => shapeScaled (· * ·) b a.uniformWord
def execImul (vd va vb : Reg) (ps : PReg) (s : State) : Out :=
  int2 s vd va vb ps false shapeMul (fun a b _ => a * b)
def execImulhI32 (vd va vb : Reg) (ps : PReg) (s : State) : Out :=
  int2 s vd va vb ps false noShape2 (fun a b _ => mulHighS a b)
def execImulhN32 (vd va vb : Reg) (ps : PReg) (s : State) : Out :=
  int2 s vd va vb ps false noShape2 (fun a b _ => mulHighU a b)
def execImad (vd va vb : Reg) (ps : PReg) (s : State) : Out :=
  int2 s vd va vb ps true noShape2 (fun a b d => a * b + d)
def execIminI32 (vd va vb : Reg) (ps : PReg) (s : State) : Out :=
  int2 s vd va vb ps false noShape2 (fun a b _ => minS a b)
def execIminN32 (vd va vb : Reg) (ps : PReg) (s : State) : Out :=
  int2 s vd va vb ps false noShape2 (fun a b _ => minU a b)
def execImaxI32 (vd va vb : Reg) (ps : PReg) (s : State) : Out :=
  int2 s vd va vb ps false noShape2 (fun a b _ => maxS a b)
def execImaxN32 (vd va vb : Reg) (ps : PReg) (s : State) : Out :=
  int2 s vd va vb ps false noShape2 (fun a b _ => maxU a b)
def execLand (vd va vb : Reg) (ps : PReg) (s : State) : Out :=
  int2 s vd va vb ps false noShape2 (fun a b _ => a &&& b)
def execLor (vd va vb : Reg) (ps : PReg) (s : State) : Out :=
  int2 s vd va vb ps false noShape2 (fun a b _ => a ||| b)
def execLxor (vd va vb : Reg) (ps : PReg) (s : State) : Out :=
  int2 s vd va vb ps false noShape2 (fun a b _ => a ^^^ b)
def execAndn (vd va vb : Reg) (ps : PReg) (s : State) : Out :=
  int2 s vd va vb ps false noShape2 (fun a b _ => a &&& ~~~b)
def execShl (vd va vb : Reg) (ps : PReg) (s : State) : Out :=
  int2 s vd va vb ps false (fun a b => shapeScaled shlWord a b.uniformWord) (fun a b _ => shlWord a b)
def execShrN (vd va vb : Reg) (ps : PReg) (s : State) : Out :=
  int2 s vd va vb ps false noShape2 (fun a b _ => shrWord a b)
def execShrI (vd va vb : Reg) (ps : PReg) (s : State) : Out :=
  int2 s vd va vb ps false noShape2 (fun a b _ => sarWord a b)
def execRot (vd va vb : Reg) (ps : PReg) (s : State) : Out :=
  int2 s vd va vb ps false noShape2 (fun a b _ => rotWord a b)

/-! ### R134, R135 -/

def execPopc (vd va : Reg) (ps : PReg) (s : State) : Out :=
  int1 s vd va ps noShape1 (fun a => BitVec.ofNat 32 (popBits a))
def execClz (vd va : Reg) (ps : PReg) (s : State) : Out :=
  int1 s vd va ps noShape1 (fun a => BitVec.ofNat 32 (leadBits a))
def execBrev (vd va : Reg) (ps : PReg) (s : State) : Out :=
  int1 s vd va ps noShape1 (fun a => a.reverse)
def execBfx (vd va vb : Reg) (ps : PReg) (s : State) : Out :=
  int2 s vd va vb ps false noShape2 (fun a b _ => bfxWord a b)
def execBfi (vd va vb : Reg) (ps : PReg) (s : State) : Out :=
  int2 s vd va vb ps true noShape2 (fun a b d => bfiWord a b d)
def execBsel (vd va vb : Reg) (ps : PReg) (s : State) : Out :=
  int2 s vd va vb ps false noShape2 (fun a b _ => bselWord a b)

/-! ### R136 -/

def execIadd64 (vd va vb : Reg) (ps : PReg) (s : State) : Out := int64 s vd va vb ps true (· + ·)
def execIsub64 (vd va vb : Reg) (ps : PReg) (s : State) : Out := int64 s vd va vb ps true (· - ·)
def execImul64 (vd va vb : Reg) (ps : PReg) (s : State) : Out := int64 s vd va vb ps false (· * ·)

/-! ### R137, R138 -/

def execIaddi (vd va : Reg) (imm : BitVec 10) (s : State) : Out :=
  intImm s vd va (fun a => shapeLinear (· + ·) a ⟨.uniform (imm.signExtend 32), 0#32⟩) (fun a => a + imm.signExtend 32)
def execAndi (vd va : Reg) (imm : BitVec 10) (s : State) : Out :=
  intImm s vd va noShape1 (fun a => a &&& imm.signExtend 32)
def execOri (vd va : Reg) (imm : BitVec 10) (s : State) : Out :=
  intImm s vd va noShape1 (fun a => a ||| imm.signExtend 32)
def execXori (vd va : Reg) (imm : BitVec 10) (s : State) : Out :=
  intImm s vd va noShape1 (fun a => a ^^^ imm.signExtend 32)
def execShli (vd va : Reg) (imm : BitVec 10) (s : State) : Out :=
  intImm s vd va (fun a => shapeScaled shlWord a (some (imm.zeroExtend 32))) (fun a => shlWord a (imm.zeroExtend 32))
def execShriN (vd va : Reg) (imm : BitVec 10) (s : State) : Out :=
  intImm s vd va noShape1 (fun a => shrWord a (imm.zeroExtend 32))
def execShriI (vd va : Reg) (imm : BitVec 10) (s : State) : Out :=
  intImm s vd va noShape1 (fun a => sarWord a (imm.zeroExtend 32))

def execMovi (vd : Reg) (imm : BitVec 17) (s : State) : Out :=
  onWarp s 1 fun c =>
    c.lane32 c.act (rn vd) [] (some (.uniform (imm.signExtend 32))) (fun _ => (imm.signExtend 32, 0#6))
def execMovi32 (vd : Reg) (ps : PReg) (imm : BitVec 32) (s : State) : Out :=
  onWarp s 3 fun c => c.guarded ps.toNat fun x =>
    c.lane32 x (rn vd) [] (some (.uniform imm)) (fun _ => (imm, 0#6))
def execMov (vd va : Reg) (ps : PReg) (s : State) : Out :=
  int1 s vd va ps (fun a => a.affinePair.map fun p => shapeOf p.1 p.2) id

/-! ### R139 -/

/-- The predicate that a hard compare writes (R139). -/
def comparePred (pd : Nat) (t poison : Bool) : Pred := ⟨hardCode t, BitVec.ofNat 8 (2 ^ pd), poison⟩

def execIcmp (cond : BitVec 4) (pd : PReg) (va vb : Reg) (ps : PReg) (s : State) : Out :=
  onWarp s 1 fun c => c.guarded ps.toNat fun x =>
    c.writePred x pd.toNat (fun i => comparePred pd.toNat (iCond cond.toNat (c.ag.word (rn va) i) (c.ag.word (rn vb) i))
      (c.ag.marked (rn va) 1 i || c.ag.marked (rn vb) 1 i)) 0#6
def execIcmpi (cond : BitVec 4) (pd : PReg) (va : Reg) (imm : BitVec 10) (s : State) : Out :=
  onWarp s 1 fun c =>
    c.writePred c.act pd.toNat (fun i => comparePred pd.toNat (iCond cond.toNat (c.ag.word (rn va) i) (imm.signExtend 32))
      (c.ag.marked (rn va) 1 i)) 0#6

/-! ### R151 to R154 -/

def execPack (vd va vb : Reg) (ps : PReg) (s : State) : Out :=
  int2 s vd va vb ps false noShape2 (fun a b _ => packWord a b)
def execUnpk (vd va vb : Reg) (ps : PReg) (s : State) : Out :=
  int2 s vd va vb ps false noShape2 (fun a b _ => unpkWord a b)

def execShape (vd va : Reg) (ps : PReg) (s : State) : Out :=
  onWarp s 1 fun c => c.guarded ps.toNat fun x =>
    let t := BitVec.ofNat 32 (c.ag.reg (rn va)).tag
    c.lane32 x (rn vd) [(rn va, 1)] (some (.uniform t)) (fun _ => (t, 0#6))

def execMovp (vd : Reg) (pa : PReg) (sel : BitVec 7) (ps : PReg) (s : State) : Out :=
  onWarp s 1 fun c => c.guarded ps.toNat fun x =>
    c.writeLanes x
      [out32 (rn vd) none
        (fun i =>
          let p := c.ag.pred pa.toNat i
          match sel.toNat with
          | 0 => p.code.zeroExtend 32
          | 1 => (p.lin ++ p.code).zeroExtend 32
          | _ => if p.holds then 1#32 else 0#32)
        (fun i => (c.ag.pred pa.toNat i).poison)] 0#6

def execRand (vd va vb : Reg) (ps : PReg) (s : State) : Out :=
  onWarp s 1 fun c => c.guarded ps.toNat fun x =>
    let r (i : Nat) := philox 10 (c.ag.word (rn va) i) (c.ag.word (rn va + 1) i)
      (c.ag.word (rn vb) i, c.ag.word (rn vb + 1) i, c.ag.word (rn vb + 2) i, c.ag.word (rn vb + 3) i)
    let mark (i : Nat) := c.ag.marked (rn va) 2 i || c.ag.marked (rn vb) 4 i
    c.writeLanes x
      [out32 (rn vd) none (fun i => (r i).1) mark, out32 (rn vd + 1) none (fun i => (r i).2.1) mark,
       out32 (rn vd + 2) none (fun i => (r i).2.2.1) mark, out32 (rn vd + 3) none (fun i => (r i).2.2.2) mark] 0#6

end Sys2Proof.Machine
end

