-- ==== Sys2Proof/Machine/MemLane.lean ====
section
/-! DEFINITION. Loads, stores, the compacting store, atomics and CAS, tag lookup (R197 to R207). -/

namespace Sys2Proof.Machine

/-- A completed access whose translation failed in some lanes traps in them (R198). -/
def Done.withTrap (d : Done) (t : Option Trap) : Done :=
  match d, t with
  | .retire s, some t => .trap s t
  | d, _ => d

/-- The key of a lane, if it has one. -/
def keyOf (good : List (Nat × Option Nat)) (i : Nat) : Option Nat := ((good.find? (·.1 == i)).map (·.2)).join

/-- The lanes of a list. -/
def goodMask (good : List (Nat × Option Nat)) : Mask := maskOf fun i => good.any (·.1 == i)

/-- The words of a load of n bytes, low word first: values and marks (R199, R201). -/
def loadWord (m : Memory) (k n j : Nat) : Word := BitVec.ofNat 32 (m.readNat (k + 4 * j) (min n 4))
def loadMark (m : Memory) (k j : Nat) : Bool := m.marked (k + 4 * j)

/-- The number of registers that an access of n bytes uses. -/
def regsOfSize (n : Nat) : Nat := (n + 3) / 4

/-- A load of n bytes (R197 to R201). -/
def load (s : State) (n : Nat) (vd vc : Reg) (lay : BitVec 6) (ps : PReg) : Out :=
  onWarp s 1 fun c => c.guarded ps.toNat fun x =>
    if x = 0#32 then .retire c.s
    else if (regRun (rn vd) (regsOfSize n)).any fun r => decide (c.g ≤ r) then c.trapAll causeShape
    else
      c.laneAccess x (c.layout lay) (rn vc) n .read fun good t =>
        (c.writeLanes (goodMask good)
          ((List.range (regsOfSize n)).map fun j =>
            out32 (rn vd + j) none
              (fun i => match keyOf good i with | some k => loadWord c.ag.view k n j | none => 0#32)
              (fun i => match keyOf good i with | some k => loadMark c.ag.view k j | none => false)) 0#6).withTrap t

def execLd8 (vd vc : Reg) (lay : BitVec 6) (_hint : BitVec 1) (ps : PReg) (s : State) : Out := load s 1 vd vc lay ps
def execLd16 (vd vc : Reg) (lay : BitVec 6) (_hint : BitVec 1) (ps : PReg) (s : State) : Out := load s 2 vd vc lay ps
def execLd32 (vd vc : Reg) (lay : BitVec 6) (_hint : BitVec 1) (ps : PReg) (s : State) : Out := load s 4 vd vc lay ps
def execLd64 (vd vc : Reg) (lay : BitVec 6) (_hint : BitVec 1) (ps : PReg) (s : State) : Out := load s 8 vd vc lay ps
def execLd128 (vd vc : Reg) (lay : BitVec 6) (_hint : BitVec 1) (ps : PReg) (s : State) : Out := load s 16 vd vc lay ps

/-! ### Stores -/

/-- The accesses of a lane's store of n bytes: one, or one for each 8-byte half (R200, R201). -/
def laneStores (ag : Agent) (vs n k i : Nat) : List Store :=
  let bytes := (List.range (regsOfSize n)).flatMap fun j => bytesOfNat 4 (ag.word (vs + j) i).toNat
  let marks := (List.range (regsOfSize n)).map fun j => (ag.reg (vs + j)).marked i
  if n = 16 then
    [storeOf k 8 (bytes.take 8) (marks.take 2), storeOf (k + 8) 8 (bytes.drop 8) (marks.drop 2)]
  else [storeOf k n bytes marks]

def Ctx.deterministic (c : Ctx) : Bool := c.task.deterministic

/-- The entries of the buffer of SHARED stores (R272). -/
def bufferEntries : Nat := 256

/-- Is it the issuing team's turn (R271)? -/
def Ctx.holdsToken (c : Ctx) : Bool := c.s.inTurn c.ag.team

/-- Issue a plain store through an entry: buffered when the entry is SHARED in deterministic mode (R202, R272). -/
def Ctx.storeThrough (c : Ctx) (l : Layout) (s : State) (st : Store) : State :=
  if l.shared && c.deterministic then s.bufferStore c.a st else s.issueStore c.a st

/-- Store the lanes' data: in increasing lane number, so the highest lane stands (R200). -/
def Ctx.storeLanes (c : Ctx) (l : Layout) (vs n : Nat) (good : List (Nat × Option Nat)) : State :=
  good.foldl
    (fun s p => match p.2 with
      | none => s
      | some k => (laneStores c.ag vs n k p.1).foldl (c.storeThrough l) s) c.s

/-- The entries of the buffer that a lane's store of n bytes takes: one for each of its accesses (log 45). -/
def entriesOf (n : Nat) : Nat := if n = 16 then 2 else 1

/-- A SHARED store in deterministic mode that finds no room in the buffer for its n accesses waits, as TKTAKE does, for the
team's turn; in the turn the buffer drains first (R272). -/
def Ctx.withRoom (c : Ctx) (l : Layout) (n : Nat) (k : Ctx → Done) : Done :=
  if l.shared && c.deterministic && decide (bufferEntries < c.team.buffer.length + n) then
    if (c.holdsToken || c.team.buffer == []) && !c.s.bufferHeld c.ag.team then k { c with s := c.s.drainBuffer c.ag.team }
    else .hold c.s .polling
  else k c

/-- A store of n bytes (R197 to R202). -/
def store (s : State) (n : Nat) (vs vc : Reg) (lay : BitVec 6) (ps : PReg) : Out :=
  onWarp s 1 fun c => c.guarded ps.toNat fun x =>
    if x = 0#32 then .retire c.s
    else
      let l := c.layout lay
      c.laneAccess x l (rn vc) n .write fun good t =>
        if good.any fun p => p.2.any fun k => c.s.fetchHolds k n then .hold c.s .polling
        else c.withRoom l (entriesOf n * (good.filter (·.2.isSome)).length) fun c =>
          (Done.retire (c.storeLanes l (rn vs) n good)).withTrap t

def execSt8 (vs vc : Reg) (lay : BitVec 6) (_hint : BitVec 1) (ps : PReg) (s : State) : Out := store s 1 vs vc lay ps
def execSt16 (vs vc : Reg) (lay : BitVec 6) (_hint : BitVec 1) (ps : PReg) (s : State) : Out := store s 2 vs vc lay ps
def execSt32 (vs vc : Reg) (lay : BitVec 6) (_hint : BitVec 1) (ps : PReg) (s : State) : Out := store s 4 vs vc lay ps
def execSt64 (vs vc : Reg) (lay : BitVec 6) (_hint : BitVec 1) (ps : PReg) (s : State) : Out := store s 8 vs vc lay ps
def execSt128 (vs vc : Reg) (lay : BitVec 6) (_hint : BitVec 1) (ps : PReg) (s : State) : Out := store s 16 vs vc lay ps

/-! ### CSTORE (R205) -/

/-- One element of CSTORE at a position: absent, stored at a key, held, or a trap cause with its address. -/
inductive Place1 where
  | skip
  | put (k : Nat)
  | wait
  | fail (cause : Nat) (addr : Nat) (access : Nat)
  | unanswered
  deriving DecidableEq, Repr

/-- R194, R192, alignment and translation of one position (R205), for an access of n bytes. -/
def Ctx.place1 (c : Ctx) (l : Layout) (xs : List Int) (n : Nat) (acc : Access) : Place1 :=
  match l.spot xs with
  | .out => .fail causeLayout 0 0
  | .absent => .skip
  | .at off =>
    if c.breaksLimit l off n then .fail causeLocalBounds off 0
    else if off % n ≠ 0 then .fail causeAlign off 0
    else
      match c.place l off acc with
      | .key k => if acc == .write && c.s.fetchHolds k n then .wait else .put k
      | .fail e => .fail e off acc.code
      | .unanswered => .unanswered

/-- Store element after element; the lanes still to store are those of the list. -/
def Ctx.cstoreRun (c : Ctx) (l : Layout) (vs : Nat) (base : List Int) : List Nat → Word → State → Done
  | [], pos, s => .retire (s.modAgent c.a fun ag => ag.setReg (vs + 1) (VReg.ofWord pos false))
  | i :: rest, pos, s =>
    let here := fun (cause addr access : Nat) =>
      Done.trap (s.modAgent c.a fun ag => ag.setReg (vs + 1) (VReg.ofWord pos false))
        { cause := cause, mask := maskOf fun j => (i :: rest).contains j, addr := BitVec.ofNat 64 addr,
          access := access, level := none, partDone := true, peer := c.s.peerOf l }
    match ({ c with s := s }).place1 l (base.modify 0 (· + (pos.toNat : Int))) 4 .write with
    | .skip => c.cstoreRun l vs base rest (pos + 1#32) s
    | .put k =>
      let st := storeOf k 4 (bytesOfNat 4 (c.ag.word vs i).toNat) [(c.ag.reg vs).marked i]
      c.cstoreRun l vs base rest (pos + 1#32) (c.storeThrough l s st)
    | .wait => .hold c.s .polling
    | .fail cause addr access => here cause addr access
    | .unanswered => here causePerm ((l.spot (base.modify 0 (· + (pos.toNat : Int)))).offset.getD 0) 1

/-- CSTORE. The position register is looked at after the LAYOUT step of R197, with the coordinates (DEDUCED: R205 leaves that
order open; log 13). With no passing lane it is still read and written back, with its mark: no lane takes a POISON trap (R197,
R205 with n = 0; log 13). -/
def execCstore (vs vc : Reg) (lay : BitVec 6) (_hint : BitVec 1) (ps : PReg) (s : State) : Out :=
  onWarp s 1 fun c => c.guarded ps.toNat fun x =>
    let l := c.layout lay
    let els := lanesOf x
    if x ≠ 0#32 ∧ (!l.valid || l.size != 4 || decide (c.n < rn vc + l.nd)) then c.trapAt causeLayout x 0#64 0
    else
      c.sources (regRun (rn vc) (if x = 0#32 then 0 else l.nd) ++ [rn vs + 1]) fun ws p =>
        let pos := ws.getLastD 0#32
        if x = 0#32 then .retire (c.upd fun ag => ag.setReg (rn vs + 1) (VReg.ofWord pos p))
        else if p then c.trapAt causePoison x 0#64 0
        else
          let base := ws.dropLast.map BitVec.toInt
          let at_ := (List.range els.length).map fun j => base.modify 0 (· + ((pos + BitVec.ofNat 32 j).toNat : Int))
          c.peerGate l (l.reaches at_) <| c.withRoom l els.length fun c => c.cstoreRun l (rn vs) base els pos c.s

/-! ### Atomics (R203, R204, R224) -/

/-- The new value of an atomic operation code at width w (R203). -/
def atomNew {w : Nat} (f : Fmt) (op : Nat) (o b : BitVec w) : BitVec w :=
  match op with
  | 1 => o + b
  | 2 => o &&& b
  | 3 => o ||| b
  | 4 => o ^^^ b
  | 5 => b
  | 6 => if b.slt o then b else o
  | 7 => if o.slt b then b else o
  | 8 => if b.ult o then b else o
  | 9 => if o.ult b then b else o
  | 10 => if b.ule o then 0#w else o + 1#w
  | 11 => if o = 0#w ∨ b.ult o then b else o - 1#w
  | _ => BitVec.ofNat w (fAdd f rne false o.toNat b.toNat).1

/-- One lane of an atomic: the old value and its mark, and the state after it. -/
def State.atomicOne (s : State) (a : Nat) (p : Point) (k n : Nat) (f : Nat → Bool → Nat × Bool) : State × Nat × Bool :=
  let s := s.settleBytes a k n p
  let m := s.pointMem a p
  let old := m.readNat k n
  let mark := m.anyMarked k n
  let (new, mark') := f old mark
  (s.writeAtPoint a p (storeOf k n (bytesOfNat n new) (List.replicate (n / 4) mark')), old, mark)

/-- The lanes in increasing number, each seeing the one before (R204). -/
def atomicRun (a : Nat) (p : Point) (n : Nat) (f : Nat → Nat → Bool → Nat × Bool) :
    List (Nat × Option Nat) → State → State × List (Nat × Nat × Bool)
  | [], s => (s, [])
  | (_, none) :: rest, s => atomicRun a p n f rest s
  | (i, some k) :: rest, s =>
    let (s, old, mark) := s.atomicOne a p k n (f i)
    let (s, outs) := atomicRun a p n f rest s
    (s, (i, old, mark) :: outs)

/-- An atomic or CAS of n bytes: `f` gives a lane's new value and mark from the old ones (R197 to R204, R223). One that follows the
token waits for the team's turn; one beyond the core waits for SHARED stores to its bytes that a team of the core has buffered
(R221, R272; log 45). -/
def atomic (s : State) (n : Nat) (vd : Reg) (ps : PReg) (vc : Reg) (lay : BitVec 6) (lv : BitVec 4) (ord : BitVec 2)
    (f : Ctx → Nat → Nat → Bool → Nat × Bool) : Out :=
  onWarp s 2 fun c => c.withLevel lv.toNat <| c.guarded ps.toNat fun x =>
    if x = 0#32 then .retire c.s
    else if (regRun (rn vd) (n / 4)).any fun r => decide (c.g ≤ r) then c.trapAll causeShape
    else
      let l := c.layout lay
      c.laneAccess x l (rn vc) n .atomic fun good t =>
        let p := (pointOf true (c.phys lv.toNat)).min l.reach
        let below (s : State) : Bool := good.any fun q => q.2.any fun k => s.bufferedBelow c.a p k n
        let mine := c.holdsToken && !c.s.bufferHeld c.ag.team
        let turn := c.deterministic && (l.shared || p != .core)
        let lp := pointOf true (c.phys lv.toNat)
        if turn && !mine || ord.getLsbD 1 && !c.s.mayRelease c.a lp then .hold c.s .polling
        else if good.any fun q => q.2.any fun k => c.s.fetchHolds k n then .hold c.s .polling
        else
          let s := if turn || c.deterministic && mine && below c.s then c.s.drainBuffer c.ag.team else c.s
          if below s then .hold s .polling else
          let s := if ord.getLsbD 1 then s.release c.a lp else s
          let (s, outs) := atomicRun c.a p n (f c) good s
          let s := if ord.getLsbD 0 then s.refresh c.a lp else s
          let get (i : Nat) := (outs.find? (·.1 == i)).map (·.2)
          (({ c with s := s }).writeLanes (goodMask good)
            ((List.range (n / 4)).map fun j =>
              out32 (rn vd + j) none
                (fun i => match get i with | some r => BitVec.ofNat 32 (r.1 / 2 ^ (32 * j)) | none => 0#32)
                (fun i => match get i with | some r => r.2 | none => false)) 0#6).withTrap t

def execAtom32 (vd va : Reg) (ps : PReg) (vc : Reg) (lay : BitVec 6) (lv : BitVec 4) (op : BitVec 5) (ord : BitVec 2)
    (s : State) : Out :=
  atomic s 4 vd ps vc lay lv ord fun c i o m =>
    ((atomNew fp32 op.toNat (BitVec.ofNat 32 o) (c.ag.word (rn va) i)).toNat,
      c.ag.marked (rn va) 1 i || (op != 5#5 && m))
def execAtom64 (vd va : Reg) (ps : PReg) (vc : Reg) (lay : BitVec 6) (lv : BitVec 4) (op : BitVec 5) (ord : BitVec 2)
    (s : State) : Out :=
  atomic s 8 vd ps vc lay lv ord fun c i o m =>
    ((atomNew fp64 op.toNat (BitVec.ofNat 64 o) (c.ag.dword (rn va) i)).toNat,
      c.ag.marked (rn va) 2 i || (op != 5#5 && m))
def execCas32 (vd va vb : Reg) (ps : PReg) (vc : Reg) (lay : BitVec 6) (lv : BitVec 4) (ord : BitVec 2)
    (s : State) : Out :=
  atomic s 4 vd ps vc lay lv ord fun c i o m =>
    (if o = (c.ag.word (rn vb) i).toNat then (c.ag.word (rn va) i).toNat else o,
      m || c.ag.marked (rn va) 1 i || c.ag.marked (rn vb) 1 i)
def execCas64 (vd va vb : Reg) (ps : PReg) (vc : Reg) (lay : BitVec 6) (lv : BitVec 4) (ord : BitVec 2)
    (s : State) : Out :=
  atomic s 8 vd ps vc lay lv ord fun c i o m =>
    (if o = (c.ag.dword (rn vb) i).toNat then (c.ag.dword (rn va) i).toNat else o,
      m || c.ag.marked (rn va) 2 i || c.ag.marked (rn vb) 2 i)

/-! ### LOOKUP (R207) -/

/-- The word that LOOKUP writes for a key. -/
def lookupWord (tags : List Tag) (key : Word) : Word × Bool :=
  let hits := tags.filter fun t => t.state != .invalid && t.key == key
  match hits.foldl (fun (b : Option Tag) t => match b with
      | none => some t
      | some u => if t.start < u.start then some t else some u) none with
  | none => (0xFFFFFFFF#32, false)
  | some t => if t.state = .ready then (BitVec.ofNat 32 t.start, true) else (0xFFFFFFFE#32, false)

/-- A READY result acquires the writes of the fill (R225): the agent's view is refreshed. -/
def execLookup (vd va : Reg) (ps : PReg) (s : State) : Out :=
  onWarp s 1 fun c => c.guarded ps.toNat fun x =>
    let r (i : Nat) := lookupWord c.team.tags (c.ag.word (rn va) i)
    (c.writeLanes x
      [out32 (rn vd) none (fun i => (r i).1) (fun i => c.ag.marked (rn va) 1 i)] 0#6).map fun s =>
        if (lanesOf x).any fun i => (r i).2 then s.refresh c.a .home else s

end Sys2Proof.Machine
end

