-- ==== Sys2Proof/Machine/FpLane.lean ====
section
/-! DEFINITION. Floating-point instructions of the lane set, conversions and blends (R140 to R150, R250, R251). -/

namespace Sys2Proof.Machine

/-! ### Forms -/

/-- An FP function on codes under a rounding mode and SAT. -/
abbrev FpFun := Mode → Bool → List Nat → Rounded

def word32 (r : Rounded) : Word × Flags := (BitVec.ofNat 32 r.1, r.2)
def word64 (r : Rounded) : DWord × Flags := (BitVec.ofNat 64 r.1, r.2)

/-- A guarded FP32 instruction of the given sources. -/
def fp32Lane (s : State) (vd : Reg) (rs : List Reg) (ps : PReg) (f : FpFun) : Out :=
  onWarp s 1 fun c => c.guarded ps.toNat fun x =>
    c.lane32 x (rn vd) (rs.map fun r => (rn r, 1)) none
      (fun i => word32 (f c.ag.sregs.rm c.ag.sregs.sat (rs.map fun r => (c.ag.word (rn r) i).toNat)))

/-- A guarded FP64 instruction of the given source pairs. -/
def fp64Lane (s : State) (vd : Reg) (rs : List Reg) (ps : PReg) (f : FpFun) : Out :=
  onWarp s 1 fun c => c.guarded ps.toNat fun x =>
    c.lane64 x (rn vd) (rs.map fun r => (rn r, 2)) none
      (fun i => word64 (f c.ag.sregs.rm c.ag.sregs.sat (rs.map fun r => (c.ag.dword (rn r) i).toNat)))

/-- Element k of a list of codes. -/
def arg (xs : List Nat) (k : Nat) : Nat := xs.getD k 0

/-- Both 16-bit elements of a word (R109, R147). -/
def packed2 (f : List Nat → Rounded) (xs : List Nat) : Rounded :=
  let lo := f (xs.map (· % 65536))
  let hi := f (xs.map (· / 65536))
  (hi.1 * 65536 + lo.1, lo.2 ||| hi.2)

/-! ### Compares (R140) -/

/-- The flags of a compare (R140, R245). -/
def compareFlags (f : Fmt) (a b : Nat) : Flags := readFlags [f.val a, f.val b]

def execFcmp32 (cond : BitVec 4) (pd : PReg) (va vb : Reg) (ps : PReg) (s : State) : Out :=
  onWarp s 1 fun c => c.guarded ps.toNat fun x =>
    let a (i : Nat) := (c.ag.word (rn va) i).toNat
    let b (i : Nat) := (c.ag.word (rn vb) i).toNat
    c.writePred x pd.toNat (fun i => comparePred pd.toNat (fCond cond.toNat (fp32.val (a i)) (fp32.val (b i)))
      (c.ag.marked (rn va) 1 i || c.ag.marked (rn vb) 1 i)) (laneFlags x fun i => compareFlags fp32 (a i) (b i))
def execFcmp64 (cond : BitVec 4) (pd : PReg) (va vb : Reg) (ps : PReg) (s : State) : Out :=
  onWarp s 1 fun c => c.guarded ps.toNat fun x =>
    let a (i : Nat) := (c.ag.dword (rn va) i).toNat
    let b (i : Nat) := (c.ag.dword (rn vb) i).toNat
    c.writePred x pd.toNat (fun i => comparePred pd.toNat (fCond cond.toNat (fp64.val (a i)) (fp64.val (b i)))
      (c.ag.marked (rn va) 2 i || c.ag.marked (rn vb) 2 i)) (laneFlags x fun i => compareFlags fp64 (a i) (b i))

/-! ### Arithmetic (R141, R142, R144, R146, R147) -/

def execFadd (vd va vb : Reg) (ps : PReg) (s : State) : Out :=
  fp32Lane s vd [va, vb] ps fun m sat xs => fAdd fp32 m sat (arg xs 0) (arg xs 1)
def execFsub (vd va vb : Reg) (ps : PReg) (s : State) : Out :=
  fp32Lane s vd [va, vb] ps fun m sat xs => fSub fp32 m sat (arg xs 0) (arg xs 1)
def execFmul (vd va vb : Reg) (ps : PReg) (s : State) : Out :=
  fp32Lane s vd [va, vb] ps fun m sat xs => fMul fp32 m sat (arg xs 0) (arg xs 1)
def execFfma (vd va vb : Reg) (ps : PReg) (s : State) : Out :=
  fp32Lane s vd [va, vb, vd] ps fun m sat xs => fFma fp32 m sat (arg xs 0) (arg xs 1) (arg xs 2)
def execFmin (vd va vb : Reg) (ps : PReg) (s : State) : Out :=
  fp32Lane s vd [va, vb] ps fun _ _ xs => fMinMax fp32 false (arg xs 0) (arg xs 1)
def execFmax (vd va vb : Reg) (ps : PReg) (s : State) : Out :=
  fp32Lane s vd [va, vb] ps fun _ _ xs => fMinMax fp32 true (arg xs 0) (arg xs 1)
def execFdiv (vd va vb : Reg) (ps : PReg) (s : State) : Out :=
  fp32Lane s vd [va, vb] ps fun m sat xs => fDiv fp32 m sat (arg xs 0) (arg xs 1)
def execFrcp (vd va : Reg) (ps : PReg) (s : State) : Out :=
  fp32Lane s vd [va] ps fun m sat xs => fRcp fp32 m sat (arg xs 0)
def execFrsq (vd va : Reg) (ps : PReg) (s : State) : Out :=
  fp32Lane s vd [va] ps fun m _ xs => fRsq fp32 m (arg xs 0)
def execFsqrt (vd va : Reg) (ps : PReg) (s : State) : Out :=
  fp32Lane s vd [va] ps fun m _ xs => fSqrt fp32 m (arg xs 0)
def execDadd (vd va vb : Reg) (ps : PReg) (s : State) : Out :=
  fp64Lane s vd [va, vb] ps fun m sat xs => fAdd fp64 m sat (arg xs 0) (arg xs 1)
def execDsub (vd va vb : Reg) (ps : PReg) (s : State) : Out :=
  fp64Lane s vd [va, vb] ps fun m sat xs => fSub fp64 m sat (arg xs 0) (arg xs 1)
def execDmul (vd va vb : Reg) (ps : PReg) (s : State) : Out :=
  fp64Lane s vd [va, vb] ps fun m sat xs => fMul fp64 m sat (arg xs 0) (arg xs 1)
def execDfma (vd va vb : Reg) (ps : PReg) (s : State) : Out :=
  fp64Lane s vd [va, vb, vd] ps fun m sat xs => fFma fp64 m sat (arg xs 0) (arg xs 1) (arg xs 2)
def execDmin (vd va vb : Reg) (ps : PReg) (s : State) : Out :=
  fp64Lane s vd [va, vb] ps fun _ _ xs => fMinMax fp64 false (arg xs 0) (arg xs 1)
def execDmax (vd va vb : Reg) (ps : PReg) (s : State) : Out :=
  fp64Lane s vd [va, vb] ps fun _ _ xs => fMinMax fp64 true (arg xs 0) (arg xs 1)
def execDdiv (vd va vb : Reg) (ps : PReg) (s : State) : Out :=
  fp64Lane s vd [va, vb] ps fun m sat xs => fDiv fp64 m sat (arg xs 0) (arg xs 1)
def execDrcp (vd va : Reg) (ps : PReg) (s : State) : Out :=
  fp64Lane s vd [va] ps fun m sat xs => fRcp fp64 m sat (arg xs 0)
def execDrsq (vd va : Reg) (ps : PReg) (s : State) : Out :=
  fp64Lane s vd [va] ps fun m _ xs => fRsq fp64 m (arg xs 0)
def execDsqrt (vd va : Reg) (ps : PReg) (s : State) : Out :=
  fp64Lane s vd [va] ps fun m _ xs => fSqrt fp64 m (arg xs 0)
def execFexp2 (vd va : Reg) (ps : PReg) (s : State) : Out :=
  fp32Lane s vd [va] ps fun m sat xs => fExp2 fp32 m sat (arg xs 0)
def execFlog2 (vd va : Reg) (ps : PReg) (s : State) : Out :=
  fp32Lane s vd [va] ps fun m _ xs => fLog2 fp32 m (arg xs 0)
def execFsigm (vd va : Reg) (ps : PReg) (s : State) : Out :=
  fp32Lane s vd [va] ps fun m _ xs => fSigm fp32 m (arg xs 0)
def execFscalb (vd va vb : Reg) (ps : PReg) (s : State) : Out :=
  fp32Lane s vd [va, vb] ps fun m sat xs => fScalb fp32 m sat (arg xs 0) (BitVec.ofNat 32 (arg xs 1)).toInt
def execHadd2 (vd va vb : Reg) (ps : PReg) (s : State) : Out :=
  fp32Lane s vd [va, vb] ps fun m sat xs => packed2 (fun ys => fAdd fp16 m sat (arg ys 0) (arg ys 1)) xs
def execHfma2 (vd va vb : Reg) (ps : PReg) (s : State) : Out :=
  fp32Lane s vd [va, vb, vd] ps fun m sat xs => packed2 (fun ys => fFma fp16 m sat (arg ys 0) (arg ys 1) (arg ys 2)) xs
def execBadd2 (vd va vb : Reg) (ps : PReg) (s : State) : Out :=
  fp32Lane s vd [va, vb] ps fun m sat xs => packed2 (fun ys => fAdd bf16 m sat (arg ys 0) (arg ys 1)) xs
def execBfma2 (vd va vb : Reg) (ps : PReg) (s : State) : Out :=
  fp32Lane s vd [va, vb, vd] ps fun m sat xs => packed2 (fun ys => fFma bf16 m sat (arg ys 0) (arg ys 1) (arg ys 2)) xs

/-- DSCALB takes its count from a single register (R146). -/
def execDscalb (vd va vb : Reg) (ps : PReg) (s : State) : Out :=
  onWarp s 1 fun c => c.guarded ps.toNat fun x =>
    c.lane64 x (rn vd) [(rn va, 2), (rn vb, 1)] none
      (fun i => word64 (fScalb fp64 c.ag.sregs.rm c.ag.sregs.sat (c.ag.dword (rn va) i).toNat (c.ag.word (rn vb) i).toInt))

/-- The sign operation of FNEGABS (R143). -/
def negabs (sel : Nat) (a : Word) : Word :=
  match sel with
  | 1 => a ^^^ 0x80000000#32
  | 2 => a &&& 0x7FFFFFFF#32
  | _ => a ||| 0x80000000#32

def execFnegabs (vd va : Reg) (sel : BitVec 2) (ps : PReg) (s : State) : Out :=
  int1 s vd va ps noShape1 (negabs sel.toNat)

def execFclass (vd va : Reg) (ps : PReg) (s : State) : Out :=
  int1 s vd va ps noShape1 (fun a => BitVec.ofNat 32 (fClass fp32 a.toNat))
def execDclass (vd va : Reg) (ps : PReg) (s : State) : Out :=
  onWarp s 1 fun c => c.guarded ps.toNat fun x =>
    c.lane32 x (rn vd) [(rn va, 2)] none
      (fun i => (BitVec.ofNat 32 (fClass fp64 (c.ag.dword (rn va) i).toNat), 0#6))

/-! ### Conversions (R148 to R150) -/

/-- The FP format of an index (R148). -/
def fmtOf (i : Nat) : Fmt :=
  match i with
  | 0 => fp64 | 1 => fp32 | 2 => fp16 | 3 => bf16 | 4 => e4m3 | 5 => e5m2 | _ => e2m1

/-- The width and signedness of an integer format index (R148, R113). -/
def intWidth (i : Nat) : Nat := 8 * 2 ^ (i / 2)
def intSigned (i : Nat) : Bool := i % 2 == 0
def intLow (i : Nat) : Int := if intSigned i then -(2 ^ (intWidth i - 1) : Nat) else 0
def intHigh (i : Nat) : Int := if intSigned i then (2 ^ (intWidth i - 1) : Nat) - 1 else (2 ^ intWidth i : Nat) - 1

/-- The value of an integer element (R149). -/
def intVal (i : Nat) (v : DWord) : Int :=
  let u := v.toNat % 2 ^ intWidth i
  if intSigned i && decide (2 ^ (intWidth i - 1) ≤ u) then (u : Int) - (2 ^ intWidth i : Nat) else u

/-- The result of a conversion: its 64 bits and its flags (R148, R149). -/
def cvtResult (k : BitVec 7) (rm : Mode) (sat : Bool) (v : DWord) : DWord × Flags :=
  if k.getLsbD 6 then
    let ii := (k.extractLsb' 2 3).toNat
    let f := if k.getLsbD 1 then fp32 else fp64
    if k.getLsbD 5 then
      let n := intVal ii v
      word64 (roundFin f rm sat (decide (n < 0)) n.natAbs 0 false)
    else
      let x := f.val (v.toNat % 2 ^ f.width)
      let r := roundInt (intLow ii) (intHigh ii) (if k.getLsbD 0 then rz else rm) x
      (BitVec.ofInt 64 r.1, r.2 ||| readFlags [x])
  else
    let d := fmtOf (k.extractLsb' 3 3).toNat
    let f := fmtOf (k.extractLsb' 0 3).toNat
    let x := f.val (v.toNat % 2 ^ f.width)
    word64 ((roundVal d rm sat x).withReads [x])

def execCvt (vd va k : BitVec 7) (ps : PReg) (s : State) : Out :=
  onWarp s 1 fun c => c.guarded ps.toNat fun x =>
    let n := if cvtSrc64 k then 2 else 1
    let src (i : Nat) : DWord := if cvtSrc64 k then c.ag.dword (rn va) i else (c.ag.word (rn va) i).zeroExtend 64
    let r (i : Nat) := cvtResult k c.ag.sregs.rm c.ag.sregs.sat (src i)
    if cvtDst64 k then c.lane64 x (rn vd) [(rn va, n)] none r
    else c.lane32 x (rn vd) [(rn va, n)] none (fun i => ((r i).1.extractLsb' 0 32, (r i).2))

/-- CVTS into a format (R150). -/
def cvtsTo (f : Fmt) (s : State) (vd va vb : Reg) (ps : PReg) : Out :=
  onWarp s 1 fun c => c.guarded ps.toNat fun x =>
    c.lane32 x (rn vd) [(rn va, 1), (rn vb, 1)] none
      (fun i =>
        let v := fp32.val (c.ag.word (rn va) i).toNat
        word32 ((sRound f c.ag.sregs.sat v (c.ag.word (rn vb) i).toNat).withReads [v]))

def execCvtsF16 (vd va vb : Reg) (ps : PReg) (s : State) : Out := cvtsTo fp16 s vd va vb ps
def execCvtsBf16 (vd va vb : Reg) (ps : PReg) (s : State) : Out := cvtsTo bf16 s vd va vb ps
def execCvtsE4m3 (vd va vb : Reg) (ps : PReg) (s : State) : Out := cvtsTo e4m3 s vd va vb ps
def execCvtsE5m2 (vd va vb : Reg) (ps : PReg) (s : State) : Out := cvtsTo e5m2 s vd va vb ps
def execCvtsE2m1 (vd va vb : Reg) (ps : PReg) (s : State) : Out := cvtsTo e2m1 s vd va vb ps

/-! ### Blends (R250, R251) -/

/-- RoundTo of an exact rational num · 2^e / den, with the sign of a zero given. -/
def roundRatio (f : Fmt) (mode : Mode) (sat zeroNeg : Bool) (num : Dyadic) (den : Nat) : Rounded :=
  let k := f.mbits + 4 + bitLen den
  let m := num.m.natAbs * 2 ^ k
  roundFin f mode sat (if num.m = 0 then zeroNeg else decide (num.m < 0)) (m / den) (num.e - k) (m % den != 0)

/-- One element of SELB: the result and the flags (R250, R251). -/
def blend (f : Fmt) (mode : Mode) (sat : Bool) (c : Nat) (a b : Nat) : Rounded :=
  let x := f.val a
  let y := f.val b
  if c = 65535 then (a, flagIf x.nonFinite flagNF)
  else if c = 0 then (b, flagIf y.nonFinite flagNF)
  else
    (match x, y with
     | .nan _, _ => roundNan f
     | _, .nan _ => roundNan f
     | .inf p, .inf q => if p = q then roundInf f p else invalid f
     | .inf p, _ => roundInf f p
     | _, .inf q => roundInf f q
     | .fin p _ _, .fin q _ _ =>
       roundRatio f mode sat (zeroSign mode p q)
         ((Dyadic.mul ⟨c, 0⟩ x.dyadic).add (Dyadic.mul ⟨(65535 - c : Nat), 0⟩ y.dyadic)) 65535).withReads [x, y]

/-- The poison of a blended lane: the predicate's, and that of the words the lane reads (R251). -/
def blendMark (p : Pred) (ma mb : Bool) : Bool :=
  p.poison || (if p.code = 65535#16 then ma else if p.code = 0#16 then mb else ma || mb)

/-- The shape of a full write: that of MOV when the predicate is P7 (R251). -/
def blendShape (pk : Nat) (v : VReg) : Option Shape :=
  if pk = 7 then v.affinePair.map fun p => shapeOf p.1 p.2 else none

def selb32 (g : Mode → Bool → Nat → Nat → Nat → Rounded) (s : State) (vd va vb : Reg) (pk : PReg) : Out :=
  onWarp s 1 fun c =>
    let r (i : Nat) := g c.ag.sregs.rm c.ag.sregs.sat (c.ag.pred pk.toNat i).code.toNat (c.ag.word (rn va) i).toNat
      (c.ag.word (rn vb) i).toNat
    c.writeLanes c.act
      [out32 (rn vd) (blendShape pk.toNat (c.ag.reg (rn va))) (fun i => BitVec.ofNat 32 (r i).1)
        (fun i => blendMark (c.ag.pred pk.toNat i) (c.ag.marked (rn va) 1 i) (c.ag.marked (rn vb) 1 i))]
      (laneFlags c.act fun i => (r i).2)

def execSelbF32 (vd va vb : Reg) (pk : PReg) (s : State) : Out := selb32 (blend fp32) s vd va vb pk
def execSelbBf16x2 (vd va vb : Reg) (pk : PReg) (s : State) : Out :=
  selb32 (fun m sat c a b => packed2 (fun ys => blend bf16 m sat c (arg ys 0) (arg ys 1)) [a, b]) s vd va vb pk
def execSelbF64 (vd va vb : Reg) (pk : PReg) (s : State) : Out :=
  onWarp s 1 fun c =>
    let r (i : Nat) := blend fp64 c.ag.sregs.rm c.ag.sregs.sat (c.ag.pred pk.toNat i).code.toNat
      (c.ag.dword (rn va) i).toNat (c.ag.dword (rn vb) i).toNat
    let mark (i : Nat) := blendMark (c.ag.pred pk.toNat i) (c.ag.marked (rn va) 2 i) (c.ag.marked (rn vb) 2 i)
    c.writeLanes c.act
      [out32 (rn vd) (blendShape pk.toNat (c.ag.reg (rn va))) (fun i => (BitVec.ofNat 64 (r i).1).extractLsb' 0 32) mark,
       out32 (rn vd + 1) (blendShape pk.toNat (c.ag.reg (rn va + 1)))
         (fun i => (BitVec.ofNat 64 (r i).1).extractLsb' 32 32) mark]
      (laneFlags c.act fun i => (r i).2)

end Sys2Proof.Machine
end

