-- ==== Sys2Proof/Machine/Predicates.lean ====
section
/-! DEFINITION. Probability predicates (R240 to R254). -/

namespace Sys2Proof.Machine

/-- The effective temperature and the flags of reading it (R242): an FP32 value, where 0 stands for temperature zero. -/
def effTemp (t : Word) : FVal × Flags :=
  match fp32.val t.toNat with
  | .nan _ => (.fin false 0 0, flagNV ||| flagNF)
  | .inf true => (.fin false 0 0, flagNV ||| flagNF)
  | .inf false => (.inf false, flagNF)
  | .fin n m e => if m = 0 then (.fin false 0 0, 0#6) else if n then (.fin false 0 0, flagNV) else (.fin false m e, 0#6)

/-- Fl32 of a value that raises no flag. -/
def fl32 (r : Rounded) : FVal := fp32.val r.1

/-- The argument x of R244 from the operands and a temperature that is not zero. -/
def softArg (a b t : FVal) : FVal :=
  let d : FVal := if FVal.eq a b then .fin false 0 0 else fl32 (addVal fp32 rne false a b.neg)
  match t, d with
  | .inf _, .inf n => .inf n
  | .inf _, _ => .fin false 0 0
  | _, .inf n => .inf n
  | .fin _ tm te, .fin n m e => if m = 0 then .fin n 0 0 else fl32 (divFin fp32 rne false n m e tm te)
  | _, _ => .fin false 0 0

/-- The code of a soft compare (R244). -/
def softCode (cond : Nat) (a b t : FVal) : Nat :=
  let (a, b, cond) := if cond = 2 then (b, a, 4) else if cond = 3 then (b, a, 5) else (a, b, cond)
  if a.isNan || b.isNan then (if cond = 1 then 65535 else 0)
  else if t.isZero then (if fCond cond a b then 65535 else 0)
  else
    let x := softArg a b t
    match cond with
    | 0 => codeGauss x
    | 1 => 65535 - codeGauss x
    | _ => codeSig x

/-- A soft compare of values read by a function (R243 to R245). -/
def pcmp (s : State) (f : Fmt) (n : Nat) (rd : Agent → Nat → Nat → Nat) (cond : BitVec 4) (pd : PReg) (va vb : Reg)
    (ps : PReg) : Out :=
  onWarp s 1 fun c => c.guarded ps.toNat fun x =>
    let t := effTemp c.ag.sregs.temp
    let a (i : Nat) := rd c.ag (rn va) i
    let b (i : Nat) := rd c.ag (rn vb) i
    c.writePred x pd.toNat
      (fun i => ⟨BitVec.ofNat 16 (softCode cond.toNat (f.val (a i)) (f.val (b i)) t.1), BitVec.ofNat 8 (2 ^ pd.toNat),
        c.ag.marked (rn va) n i || c.ag.marked (rn vb) n i⟩)
      (laneFlags x fun i => compareFlags f (a i) (b i) ||| t.2)

def execPcmp32 (cond : BitVec 4) (pd : PReg) (va vb : Reg) (ps : PReg) (s : State) : Out :=
  pcmp s fp32 1 (fun ag r i => (ag.word r i).toNat) cond pd va vb ps
def execPcmp64 (cond : BitVec 4) (pd : PReg) (va vb : Reg) (ps : PReg) (s : State) : Out :=
  pcmp s fp64 2 (fun ag r i => (ag.dword r i).toNat) cond pd va vb ps

/-- The code of PLOG (R246, R247). -/
def plogCode (func : Nat) (a b : Nat) : Nat :=
  match func with
  | 0 => nearestEven (a * b) 65535
  | 1 => 65535 - nearestEven ((65535 - a) * (65535 - b)) 65535
  | 2 => nearestEven (a * (65535 - b) + b * (65535 - a)) 65535
  | 3 => 65535 - a
  | 4 => min a b
  | 5 => max a b
  | _ => a

/-- Does PLOG read a second source? -/
def plogBinary (func : Nat) : Bool := func != 3 && func != 6

/-- Do the inputs of an AND or OR overlap (R247)? -/
def plogOverlap (func : Nat) (a b : Pred) : Bool := decide (func ≤ 1) && a.lin &&& b.lin != 0#8

/-- One lane of PLOG. -/
def plogLane (func : Nat) (depMode : Bool) (a b : Pred) : Pred :=
  let f := if depMode && plogOverlap func a b then (if func = 0 then 4 else 5) else func
  ⟨BitVec.ofNat 16 (plogCode f a.code.toNat b.code.toNat),
   if plogBinary func then a.lin ||| b.lin else a.lin, a.poison || (plogBinary func && b.poison)⟩

def execPlog (pd pa pb : PReg) (func : BitVec 5) (ps : PReg) (s : State) : Out :=
  onWarp s 1 fun c => c.guarded ps.toNat fun x =>
    let dep := (lanesOf x).any fun i => plogOverlap func.toNat (c.ag.pred pa.toNat i) (c.ag.pred pb.toNat i)
    (c.writePred x pd.toNat
      (fun i => plogLane func.toNat c.ag.sregs.depMode (c.ag.pred pa.toNat i) (c.ag.pred pb.toNat i)) 0#6).map fun s =>
      if dep then s.modAgent c.a fun ag => { ag with sregs := ag.sregs.setDep } else s

def execPconst (pd : PReg) (imm : BitVec 16) (ps : PReg) (s : State) : Out :=
  onWarp s 1 fun c => c.guarded ps.toNat fun x => c.writePred x pd.toNat (fun _ => ⟨imm, 0#8, false⟩) 0#6

/-- COLLAPSE of a code against a draw (R249). -/
def collapseHolds (code : Nat) (r : Nat) : Bool := decide (r * 65535 / 2 ^ 32 < code)

def execCollapse (pd pa : PReg) (vb : Reg) (ps : PReg) (s : State) : Out :=
  onWarp s 1 fun c => c.guarded ps.toNat fun x =>
    c.writePred x pd.toNat (fun i =>
      let p := c.ag.pred pa.toNat i
      ⟨hardCode (collapseHolds p.code.toNat (c.ag.word (rn vb) i).toNat), p.lin, p.poison || c.ag.marked (rn vb) 1 i⟩) 0#6

/-- PGRAD.cmp (R252). -/
def gradCmp (sat : Bool) (code : Nat) (t : FVal) : Rounded :=
  match t with
  | .fin _ m e =>
    if m = 0 ∨ code = 0 ∨ code = 65535 then (0, 0#6)
    else roundRatio fp32 rne sat false ⟨(code * (65535 - code) : Nat), -e⟩ (65535 * 65535 * m)
  | _ => (0, 0#6)

def execPgrad (vd : Reg) (pa : PReg) (sel : BitVec 7) (ps : PReg) (s : State) : Out :=
  onWarp s 1 fun c => c.guarded ps.toNat fun x =>
    let t := effTemp c.ag.sregs.temp
    let code (i : Nat) := (c.ag.pred pa.toNat i).code.toNat
    let r (i : Nat) : Rounded :=
      if sel = 0#7 then ((gradCmp c.ag.sregs.sat (code i) t.1).1, (gradCmp c.ag.sregs.sat (code i) t.1).2 ||| t.2)
      else ((roundRatio fp32 rne false false ⟨code i, 0⟩ 65535).1, 0#6)
    c.writeLanes x [out32 (rn vd) none (fun i => BitVec.ofNat 32 (r i).1) (fun i => (c.ag.pred pa.toNat i).poison)]
      (laneFlags x fun i => (r i).2)

def execPsum (vd : Reg) (pa ps : PReg) (s : State) : Out :=
  onWarp s 1 fun c => c.guarded ps.toNat fun x =>
    let total := (lanesOf x).foldl (fun n i => n + (c.ag.pred pa.toNat i).code.toNat) 0
    let v := BitVec.ofNat 32 (roundRatio fp32 rne false false ⟨total, 0⟩ 65535).1
    let mark := (lanesOf x).any fun i => (c.ag.pred pa.toNat i).poison
    c.writeLanes x [out32 (rn vd) (some (.uniform v)) (fun _ => v) (fun _ => mark)] 0#6

def execPquery (vd : Reg) (pa : PReg) (sel : BitVec 7) (ps : PReg) (s : State) : Out :=
  onWarp s 1 fun c => c.guarded ps.toNat fun x =>
    c.writeLanes x
      [out32 (rn vd) none
        (fun i =>
          let p := c.ag.pred pa.toNat i
          match sel.toNat with
          | 0 => p.lin.zeroExtend 32
          | 1 => if p.fractional then 1#32 else 0#32
          | _ => if p.poison then 1#32 else 0#32)
        (fun i => decide (sel.toNat ≤ 1) && (c.ag.pred pa.toNat i).poison)] 0#6

end Sys2Proof.Machine
end

