-- ==== Sys2Proof/Machine/WarpWide.lean ====
section
/-! DEFINITION. Warp-wide lane instructions (R174, R176 to R184). -/

namespace Sys2Proof.Machine

/-! ### The operations of R174 -/

/-- A value of a reduction: its bits, the flags raised so far, and its mark. -/
abbrev RedVal := DWord × Flags × Bool

/-- One application of an operation code to values of 32 bits, or 64 for add.f64 (R124, R174). -/
def redBits (op : Nat) (a b : DWord) : Nat × Flags :=
  let x : Word := a.truncate 32
  let y : Word := b.truncate 32
  match op with
  | 0 => ((x + y).toNat, 0#6)
  | 1 => fAdd fp32 rne false x.toNat y.toNat
  | 2 => fAdd fp64 rne false a.toNat b.toNat
  | 3 => ((minS x y).toNat, 0#6)
  | 4 => ((maxS x y).toNat, 0#6)
  | 5 => fMinMax fp32 true x.toNat y.toNat
  | 6 => ((x &&& y).toNat, 0#6)
  | _ => ((x ||| y).toNat, 0#6)

/-- An operation on values with their flags and marks. -/
def redOp (op : Nat) (a b : RedVal) : RedVal :=
  let r := redBits op a.1 b.1
  (BitVec.ofNat 64 r.1, a.2.1 ||| b.2.1 ||| r.2, a.2.2 || b.2.2)

/-- The identity of an operation (R174). -/
def redIdentity (op : Nat) : DWord :=
  match op with
  | 3 => 0x7FFFFFFF#64
  | 4 => 0x80000000#64
  | 5 => 0xFF800000#64
  | 6 => 0xFFFFFFFF#64
  | _ => 0#64

/-- Tree (R124) over positions, absent ones as none; the identity when every position is absent. -/
def redTree (op : Nat) (xs : List (Option RedVal)) : RedVal :=
  (treeReduce (redOp op) 17 xs).getD (redIdentity op, 0#6, false)

/-- Registers per value of an operation. -/
def redRegs (op : Nat) : Nat := if op = 2 then 2 else 1

/-- Lane j's value of va for an operation. -/
def Agent.redLane (ag : Agent) (op r j : Nat) : RedVal :=
  (if op = 2 then ag.dword r j else (ag.word r j).zeroExtend 64, 0#6, ag.marked r (redRegs op) j)

/-! ### The shared form (R176) -/

/-- A word for every active lane with its mark, UNIFORM when every lane is written and the description says so. -/
def Ctx.wideWrite (c : Ctx) (vd : Reg) (uniform : Bool) (f : Nat → Word) (mark : Nat → Bool) (fl : Flags) : Done :=
  c.writeLanes c.act [out32 (rn vd) (if uniform then some (.uniform (f 0)) else none) f mark] fl

/-- Is a register UNIFORM? -/
def Agent.isUniform (ag : Agent) (r : Reg) : Bool := (ag.reg (rn r)).tag == 0

/-- The members of lane i that have not exited: A_i (R177). -/
def Ctx.present (c : Ctx) (vb : Reg) (i : Nat) : Mask := c.members vb i &&& ~~~c.ag.exited

/-! ### LMASK, XLANE (R177, R178) -/

/-- The lanes of A_i whose predicate holds: B_i. -/
def Ctx.holders (c : Ctx) (pa : PReg) (vb : Reg) (i : Nat) : Mask :=
  maskOf fun j => inMask (c.present vb i) j && (c.ag.pred pa.toNat j).holds

def lmaskWord (k : Nat) (a b : Mask) : Word :=
  match k with
  | 0 => b
  | 1 => BitVec.ofNat 32 (popcount b)
  | 2 => BitVec.ofNat 32 ((lowest b).getD 32)
  | _ => if b = 0#32 then 0#32 else if b = a then 2#32 else 1#32

def execLmask (vd : Reg) (pa : PReg) (vb : Reg) (k : BitVec 3) (s : State) : Out :=
  onWarp s 1 fun c =>
    c.withMemberExit vb <| c.wideWrite vd (c.ag.isUniform vb)
      (fun i => lmaskWord k.toNat (c.present vb i) (c.holders pa vb i))
      (fun i => c.ag.marked (rn vb) 1 i ||
        (lanesOf (c.present vb i)).any fun j => (c.ag.pred pa.toNat j).poison) 0#6

/-- The source lane of XLANE (R178). -/
def xlaneSource (k : Nat) (v : Word) (i : Nat) : Nat :=
  let d := v.toNat % 32
  match k with
  | 0 => d
  | 1 => (i + d) % 32
  | 2 =>
    let n := 2 ^ min 5 (v.extractLsb' 5 3).toNat
    i - i % n + d % n
  | _ => i ^^^ d

def execXlane (vd va vb : Reg) (k : BitVec 3) (s : State) : Out :=
  onWarp s 1 fun c =>
    let src (i : Nat) := xlaneSource k.toNat (c.ag.word (rn vb) i) i
    c.wideWrite vd (k == 0#3 && c.ag.isUniform vb) (fun i => c.ag.peek (rn va) (src i))
      (fun i => c.ag.marked (rn vb) 1 i || c.ag.peekMark (rn va) 1 (src i)) 0#6

/-! ### REDUX, SCAN (R179, R180) -/

/-- REDUX in lane i, over the members up to a last lane. -/
def Ctx.reduxLane (c : Ctx) (op : Nat) (va vb : Reg) (last i : Nat) : RedVal :=
  redTree op (laneList.map fun j =>
    if inMask (c.present vb i) j && decide (j ≤ last) then some (c.ag.redLane op (rn va) j) else none)

/-- The destinations of REDUX and SCAN: a word, or a pair for add.f64. -/
def redOuts (op : Nat) (d : Nat) (uniform : Bool) (f : Nat → DWord) (mark : Nat → Bool) : List LaneOut :=
  (List.range (redRegs op)).map fun j =>
    let w (i : Nat) : Word := (f i).extractLsb' (32 * j) 32
    out32 (d + j) (if uniform then some (.uniform (w 0)) else none) w mark

def execRedux (vd va vb : Reg) (op : BitVec 3) (s : State) : Out :=
  onWarp s 1 fun c =>
    let r (i : Nat) := c.reduxLane op.toNat va vb 31 i
    c.withMemberExit vb <| c.writeLanes c.act
      (redOuts op.toNat (rn vd) (c.ag.isUniform vb) (fun i => (r i).1) fun i => (r i).2.2 || c.ag.marked (rn vb) 1 i)
      (laneFlags c.act fun i => (r i).2.1)

def execScan (vd va vb : Reg) (op : BitVec 3) (s : State) : Out :=
  onWarp s 1 fun c =>
    let r (i : Nat) := c.reduxLane op.toNat va vb i i
    c.withMemberExit vb <| c.writeLanes c.act
      (redOuts op.toNat (rn vd) false (fun i => (r i).1) fun i => (r i).2.2 || c.ag.marked (rn vb) 1 i)
      (laneFlags c.act fun i => (r i).2.1)

/-! ### MATCH, ELECT (R181, R182) -/

def execMatchLanes (vd va vb : Reg) (k : BitVec 3) (s : State) : Out :=
  onWarp s 1 fun c =>
    let n := if k = 1#3 then 2 else 1
    let same (i j : Nat) : Bool :=
      if n = 2 then c.ag.dword (rn va) i == c.ag.dword (rn va) j else c.ag.word (rn va) i == c.ag.word (rn va) j
    c.withMemberExit vb <| c.wideWrite vd false
      (fun i => maskOf fun j => inMask (c.present vb i) j && same i j)
      (fun i => c.ag.marked (rn vb) 1 i || c.ag.marked (rn va) n i ||
        (lanesOf (c.present vb i)).any fun j => c.ag.marked (rn va) n j) 0#6

/-- The elected lane of R182: the lowest member that is active. -/
def Ctx.elected (c : Ctx) (vb : Reg) (i : Nat) : Option Nat := lowest (c.members vb i &&& c.act)

def execElect (vd vb : Reg) (k : BitVec 3) (s : State) : Out :=
  onWarp s 1 fun c =>
    c.withMemberExit vb <| c.wideWrite vd false
      (fun i =>
        if k = 0#3 then (if c.elected vb i = some i then 1#32 else 0#32)
        else BitVec.ofNat 32 ((c.elected vb i).getD 32))
      (fun i => c.ag.marked (rn vb) 1 i) 0#6

/-! ### REBAL, WSORT (R183, R184) -/

/-- The count of lane j, at most 2^27, 0 for an exited lane. -/
def Ctx.rebalCount (c : Ctx) (va : Reg) (j : Nat) : Nat := min (c.ag.peek (rn va) j).toNat (2 ^ 27)

/-- The lane and item that position g falls on, walking the counts of the lanes. -/
def rebalFind : List Nat → Nat → Nat → Option (Nat × Nat)
  | [], _, _ => none
  | n :: ns, j, g => if g < n then some (j, g) else rebalFind ns (j + 1) (g - n)

def execRebal (vd va vb : Reg) (s : State) : Out :=
  onWarp s 1 fun c =>
    let counts := laneList.map (c.rebalCount va)
    let mark := laneList.any fun j => c.ag.peekMark (rn va) 1 j
    c.wideWrite vd false
      (fun i =>
        match rebalFind counts 0 ((c.ag.word (rn vb) i).toNat * 32 + i) with
        | none => 0xFFFFFFFF#32
        | some (j, item) => BitVec.ofNat 32 (item * 32 + j))
      (fun i => mark || c.ag.marked (rn vb) 1 i) 0#6

/-- Does lane i stand before lane j in the order of WSORT: lanes that have not exited by key, then the others, each by
lane number? -/
def Agent.sortsBefore (ag : Agent) (va : Reg) (i j : Nat) : Bool :=
  match inMask ag.exited i, inMask ag.exited j with
  | false, true => true
  | true, false => false
  | true, true => decide (i < j)
  | false, false =>
    (ag.word (rn va) i).ult (ag.word (rn va) j) || (ag.word (rn va) i == ag.word (rn va) j && decide (i < j))

/-- The position of lane i. -/
def Agent.sortRank (ag : Agent) (va : Reg) (i : Nat) : Nat := (laneList.filter fun j => ag.sortsBefore va j i).length

def execWsort (vd va : Reg) (k : BitVec 3) (s : State) : Out :=
  onWarp s 1 fun c =>
    let lanes := laneList.map fun i => (i, c.ag.sortRank va i)
    let src (p : Nat) : Nat := ((lanes.find? (·.2 == p)).map (·.1)).getD 0
    let mark := laneList.any fun j => c.ag.peekMark (rn va) 1 j
    c.wideWrite vd false
      (fun i =>
        match k.toNat with
        | 0 => BitVec.ofNat 32 (src i)
        | 1 => BitVec.ofNat 32 (c.ag.sortRank va i)
        | _ => c.ag.peek (rn va) (src i))
      (fun _ => mark) 0#6

end Sys2Proof.Machine
end

