-- ==== Sys2Proof/Machine/Waits.lean ====
section
/-! DEFINITION. The thread tree as a task binds it (R10, R168), and wait instances: arrival, completion, release
(R170 to R175, R125, R126). -/

namespace Sys2Proof.Machine

/-! ### The tree (R10, R15, R168) -/

/-- The product of the fanouts of the levels whose code a test accepts. -/
def fans (ls : List BoundLevel) (p : Nat → Bool) : Nat := ls.foldl (fun n l => if p l.phys then n * l.fan else n) 1

def codeLane (p : Nat) : Bool := p == 0
def codeWarp (p : Nat) : Bool := p == 1
def codeTeam (p : Nat) : Bool := decide (2 ≤ p)

/-- The levels that the program declared; implicit ones have fanout 1 (R15). -/
def Task.declared (t : Task) : List BoundLevel := t.binding.filter (·.declared)

/-- Warps of a team (R17), teams of a task (R19). -/
def Task.warps (t : Task) : Nat := fans t.binding codeWarp
def Task.teams (t : Task) : Nat := fans t.binding codeTeam

/-- The linear identifier of a thread at level l (R168 .lin), from its team's logical identifier, its warp's number and
its lane. -/
def Task.lin (t : Task) (l team warp lane : Nat) : Nat :=
  let upper := t.declared.take (l + 1)
  let lower := t.declared.drop (l + 1)
  let p := (t.level l).phys
  if codeTeam p then team / fans lower codeTeam
  else if codeWarp p then team * fans upper codeWarp + warp / fans lower codeWarp
  else (team * fans upper codeWarp + warp) * fans upper codeLane + lane / fans lower codeLane

/-- The index of a thread's level-l node within its parent (R10, R168 .idx). -/
def Task.idx (t : Task) (l team warp lane : Nat) : Nat := t.lin l team warp lane % (t.level l).fan

/-- The number of a thread among all of the task, its logical position (R125). -/
def Task.position (t : Task) (team warp lane : Nat) : Nat := t.lin (t.declared.length - 1) team warp lane

/-- The lanes of a warp that lie in a node of level l. -/
def Task.nodeLanes (t : Task) (l node team warp : Nat) : Mask := maskOf fun i => t.lin l team warp i == node

/-- The warps of a team, by agent number. -/
def State.warpsOf (s : State) (team : Nat) : List (Nat × Agent) :=
  (s.agents.zipIdx.filter fun p => p.1.team == team && p.1.kind == .warp).map fun p => (p.2, p.1)

/-- The teams of a task, by number. -/
def State.teamsOf (s : State) (task : Nat) : List (Nat × Team) :=
  (s.teams.zipIdx.filter fun p => p.1.task == task).map fun p => (p.2, p.1)

/-! ### Arrival -/

/-- The lanes of an agent that have issued in the current generation. -/
def Instance.lanesOfAgent (x : Instance) (a : Nat) : Mask :=
  match x.arrivals.find? (·.1 == a) with
  | some p => p.2
  | none => 0#32

/-- Has a warp arrived: has every lane of a mask that has not exited issued (R170)? -/
def Instance.hasArrived (x : Instance) (a : Nat) (ag : Agent) (m : Mask) : Bool :=
  m &&& ~~~(x.lanesOfAgent a ||| ag.exited) == 0#32

/-- Has a warp arrived by issuing? -/
def Instance.cameBy (x : Instance) (a : Nat) (ag : Agent) : Bool :=
  x.hasArrived a ag allLanes && x.lanesOfAgent a &&& ~~~ag.exited != 0#32

def InstKind.level : InstKind → Nat
  | .bar _ => 0
  | .tbar l => l
  | .coll l _ => l

/-- The point at which completion orders memory: CORE for BAR, L for TBAR, none for COLL (R171, R172, R175). -/
def Instance.point (x : Instance) (t : Task) : Option Point :=
  match x.kind with
  | .bar _ => some .core
  | .tbar l => some (pointOf true (t.level l).phys)
  | .coll _ _ => none

/-- The count that the first warp to arrive sets: the one that the fragment which issued last read (R171, log 20). -/
def Instance.firstCount (x : Instance) (warps : List (Nat × Agent)) : Option Nat :=
  match warps.find? fun p => x.cameBy p.1 p.2 with
  | none => none
  | some p => (x.offers.filter (·.1 == p.1)).getLast?.map fun o => o.2.2.1.toNat

/-- A warp's contribution when it arrives: what the fragment of its lowest lane read (R175). -/
def State.contribution (s : State) (x : Instance) (a : Nat) : Option Contribution :=
  let ag := s.agent a
  let tm := s.team ag.team
  match lowest (~~~ag.exited) with
  | none => none
  | some low =>
    match (x.offers.filter fun o => o.1 == a && inMask o.2.1 low).getLast? with
    | none => none
    | some o => some { agent := some a, position := (s.task x.task).position tm.logical ag.number low,
                       value := o.2.2.1, poison := o.2.2.2 }

/-- Does the node of an instance reach beyond this device: is its level bound to RACK or SYSTEM (R365)? -/
def State.isWide (s : State) (x : Instance) : Bool :=
  match x.kind with
  | .bar _ => false
  | k => decide (6 ≤ ((s.task x.task).level k.level).phys)

/-- The contributions of warps that have just arrived. -/
def State.newContributions (s : State) (x : Instance) : List Contribution :=
  x.arrivals.filterMap fun p =>
    if x.contributions.any (·.agent == some p.1) || !x.cameBy p.1 (s.agent p.1) then none else s.contribution x p.1

/-- Record the count, and the contributions of warps that have just arrived; at a TBAR they say to other devices who has. -/
def State.noteArrivals (s : State) (x : Instance) : Instance :=
  match x.kind with
  | .bar _ => if x.count.isSome then x else { x with count := x.firstCount (s.warpsOf x.node) }
  | .tbar _ => if s.isWide x then { x with contributions := x.contributions ++ s.newContributions x } else x
  | .coll _ _ => { x with contributions := x.contributions ++ s.newContributions x }

/-! ### The collective channel (R364, R365) -/

/-- The rack of a device; racks are numbered, and their devices in them, from 0 on (log 24). -/
def rackOf : List Nat → Nat → Nat
  | [], _ => 0
  | n :: rest, d => if d < n then 0 else rackOf rest (d - n) + 1

/-- The messages that a stop signal on the collective channel does not keep back go out. -/
def State.sendWaiting (s : State) : State :=
  let stays (m : CollMessage) : Bool := !s.reachable m.device || s.stoppedTo m.device 2
  { s with collQueue := s.collQueue.filter stays, collSent := s.collSent ++ s.collQueue.filter (!stays ·) }

/-- A contribution as a message to a device. -/
def Contribution.message (c : Contribution) (x : Instance) (d : Nat) : CollMessage :=
  { device := d, task := x.task, kind := x.kind, node := x.node, position := c.position, value := c.value
    poison := c.poison }

/-- What the warps of this device contribute to an instance goes to the other devices of its node (R365). -/
def State.sendArrivals (s : State) (x : Instance) (cs : List Contribution) : State :=
  let t := s.task x.task
  let there := t.devices.filter fun d =>
    (t.level x.kind.level).phys != 6 || rackOf s.racks d == rackOf s.racks s.systemId
  if !s.isWide x then s
  else
    ({ s with collQueue := s.collQueue ++ cs.flatMap fun c => there.map (c.message x) } : State).sendWaiting

/-! ### Completion -/

/-- Has a warp retired, or have all its lanes exited? -/
def Agent.gone (ag : Agent) : Bool := ag.phase == .retired || ag.exited == allLanes

/-- The teams of other devices that lie in the node of an instance and have not retired (R365, R366). -/
def Task.awayIn (t : Task) (x : Instance) : List Away :=
  if codeTeam (t.level x.kind.level).phys then
    t.away.filter fun w => !w.retired && t.lin x.kind.level w.logical 0 0 == x.node
  else []

/-- Has a warp of such a team arrived, by the position of its contribution? -/
def Instance.cameFrom (x : Instance) (t : Task) (logical warp : Nat) : Bool :=
  x.contributions.any fun c => c.agent == none && c.position / Config.lanes == logical * t.warps + warp

/-- Have the warps of other devices in the node arrived? One that has retired counts as arrived (R170). -/
def State.awayCame (s : State) (x : Instance) : Bool :=
  let t := s.task x.task
  (t.awayIn x).all fun w => (List.range t.warps).all fun n => w.warpsGone.contains n || x.cameFrom t w.logical n

/-- Is the instance complete (R170 to R172, R175)? Its release waits for SHARED stores that an arrived warp has buffered (R272). -/
def State.isComplete (s : State) (x : Instance) : Bool :=
  let t := s.task x.task
  x.arrivals != [] &&
    match x.kind with
    | .bar _ =>
      let warps := s.warpsOf x.node
      x.arrivals.all (fun p => (s.agent p.1).phase == .saved || s.mayRelease p.1 .core) &&
      match x.count with
      | none => false
      | some n =>
        if 1 ≤ n ∧ n ≤ t.warps then decide (n ≤ (warps.filter fun p => x.cameBy p.1 p.2).length)
        else warps.all fun p => p.2.gone || x.hasArrived p.1 p.2 allLanes
    | k =>
      (x.point t).all (fun pt => x.arrivals.all fun p => (s.agent p.1).phase == .saved || s.mayRelease p.1 pt) &&
      s.awayCame x &&
      (s.teamsOf x.task).all fun p =>
        (List.range t.warps).all fun w =>
          let m := t.nodeLanes k.level x.node p.2.logical w
          m == 0#32 || (p.2.phase != .undispatched &&
            (s.warpsOf p.1).all fun q => q.2.number != w || q.2.gone || x.hasArrived q.1 q.2 m)

/-! ### Results of a collective (R125, R126, R175) -/

/-- The reduction of the contributions under a node, level by level in child order; `fs` holds the fanouts below it. -/
def reduceNode (op : Nat) : List (Nat × RedVal) → List Nat → Nat → Option RedVal
  | cs, [], base => (cs.find? (·.1 == base)).map (·.2)
  | cs, f :: rest, base =>
    let width := rest.foldl (· * ·) 1
    let mine := cs.filter fun c => c.1 / (f * width) == base
    if mine = [] then none
    else treeReduce (redOp op) 17 ((List.range f).map fun i => reduceNode op mine rest (base * f + i))

/-- The contribution at the lowest position, or 0 (R175). -/
def broadcastOf (cs : List (Nat × RedVal)) : RedVal :=
  match cs.foldl (fun (b : Option (Nat × RedVal)) c => match b with
      | none => some c
      | some u => if c.1 < u.1 then some c else some u) none with
  | none => (0#64, 0#6, false)
  | some c => c.2

/-- The result for the warp at a position: reduce, iscan, xscan, bcast by bits 4:3 of ctl. -/
def collResult (t : Task) (x : Instance) (ctl pos : Nat) : RedVal :=
  let op := ctl % 8
  let cs := x.contributions.map fun c => (c.position, (c.value, (0#6 : BitVec 6), c.poison))
  let over_ (cs : List (Nat × RedVal)) : RedVal :=
    (reduceNode op cs ((t.declared.drop (x.kind.level + 1)).map (·.fan)) x.node).getD (redIdentity op, 0#6, false)
  match ctl / 8 with
  | 0 => over_ cs
  | 1 => over_ (cs.filter fun c => c.1 ≤ pos)
  | 2 => over_ (cs.filter fun c => c.1 < pos)
  | _ => broadcastOf cs

/-- What an arrived warp receives; nothing but for COLL. -/
def State.resultFor (s : State) (x : Instance) (a : Nat) : RedVal :=
  match x.kind with
  | .coll _ ctl =>
    match x.contributions.find? (·.agent == some a) with
    | some c => collResult (s.task x.task) x ctl c.position
    | none => (0#64, 0#6, false)
  | _ => (0#64, 0#6, false)

/-! ### Release -/

/-- A fragment that waits for instance i. -/
def Entry.awaits (en : Entry) (i : Nat) : Bool :=
  match en.hold with
  | .barrier is _ => is.contains i
  | _ => false

/-- Release a fragment from instance i: it goes on once it waits for no other. -/
def Entry.releaseFrom (i : Nat) (en : Entry) : Entry :=
  match en.hold with
  | .barrier is d =>
    if is.contains i then (if is.erase i = [] then en.advance 1 else { en with hold := .barrier (is.erase i) d }) else en
  | _ => en

/-- Write a result to the destination that a wait named. -/
def Agent.writeResult (ag : Agent) (dest : Option (Nat × Bool)) (r : RedVal) : Agent :=
  match dest with
  | none => ag
  | some (d, false) => ag.writeWords d r.2.2 [r.1.extractLsb' 0 32]
  | some (d, true) => ag.writeWords d r.2.2 (pairWords r.1)

/-- The lanes of an agent that wait for instance i, also those that a handler keeps frozen. -/
def Agent.waitingLanes (ag : Agent) (i : Nat) : Mask :=
  ((ag.entries ++ ag.frames.flatMap (·.entries)).filter (·.awaits i)).foldl (fun m en => m ||| en.mask) 0#32

/-- What a complete instance owes to the lanes that have arrived and do not wait: those of a saved team, and those of a resumed one
that has not issued its wait again (R173). -/
def State.owedTo (s : State) (i : Nat) (x : Instance) : List Owed :=
  x.arrivals.filterMap fun p =>
    let r := s.resultFor x p.1
    let lanes := p.2 &&& ~~~(s.agent p.1).waitingLanes i &&& ~~~(s.agent p.1).exited
    if lanes = 0#32 then none
    else some { agent := p.1, lanes := lanes, value := r.1, poison := r.2.2, flags := r.2.1 }

/-- The destination that a fragment waits with. -/
def Entry.dest (en : Entry) : Option (Nat × Bool) :=
  match en.hold with
  | .barrier _ d => d
  | _ => none

/-- A warp comes to use the team's layout table (R53). -/
def State.adoptLayouts (s : State) (a : Nat) : State :=
  s.modAgent a fun ag => { ag with layouts := (s.team ag.team).layouts }

/-- Release an agent's fragments from instance i, also those a handler keeps frozen, with their results. -/
def State.releaseAgent (s : State) (i a : Nat) (r : RedVal) : State :=
  let ag := s.agent a
  let waiting := (ag.entries ++ ag.frames.flatMap (·.entries)).filter (·.awaits i)
  if waiting = [] then s else
  let ag := waiting.foldl (fun ag en => ag.writeResult en.dest r) ag
  let ag := { ag with entries := ag.entries.map (·.releaseFrom i)
                      frames := ag.frames.map fun f => { f with entries := f.entries.map (·.releaseFrom i) }
                      sregs := ag.sregs.raise r.2.1 }
  let s := s.modAgent a fun _ => ag
  ((waiting.filter fun en => (en.releaseFrom i).hold == .ready).foldl
    (fun (s : State) en => s.countAt a en.pc) s).boundary a

/-- The memory order of completion for one agent: the refresh, and the team's layout entries (R53, R171, R172). -/
def State.completionView (s : State) (x : Instance) (a : Nat) : State :=
  match x.point (s.task x.task) with
  | none => s
  | some p =>
    let s := s.refresh a p
    match x.kind with
    | .tbar l => if codeTeam ((s.task x.task).level l).phys then s.adoptLayouts a else s
    | _ => s.adoptLayouts a

/-- An instance completes: every earlier access of the arrived warps is performed at its point, then every view is
refreshed, and every waiting fragment is released at one instruction boundary (R170 to R175). -/
def State.finishInstance (s : State) (i : Nat) (x : Instance) : State :=
  let here := x.arrivals.filter fun p => (s.agent p.1).phase != .saved
  let owed := s.owedTo i x
  let results := here.map fun p => (p.1, s.resultFor x p.1)
  let s := match x.point (s.task x.task) with
    | some pt => here.foldl (fun (s : State) p => s.release p.1 pt) s
    | none => s
  let s := here.foldl (fun (s : State) p => s.completionView x p.1) s
  let x' := { x with arrivals := [], offers := [], count := none, contributions := [], owes := x.owes ++ owed }
  let s := { s with instances := s.instances.set i x' }
  results.foldl (fun (s : State) p => s.releaseAgent i p.1 p.2) s

/-- Look at one instance after a change. -/
def State.settleInstance (s : State) (i : Nat) : State :=
  match s.instances[i]? with
  | none => s
  | some x =>
    let s := s.sendArrivals x (s.newContributions x)
    let x := s.noteArrivals x
    if s.isComplete x then s.finishInstance i x else { s with instances := s.instances.set i x }

/-- Look at every instance of a task after arrivals, exits or retirements (R170). -/
def State.settleWaits (s : State) (task : Nat) : State :=
  (List.range s.instances.length).foldl
    (fun (s : State) i => if (s.instances.getD i default).task = task then s.settleInstance i else s) s

/-! ### Issuing a wait -/

/-- The number of an instance, made if it is new. -/
def State.instanceOf (s : State) (task : Nat) (k : InstKind) (node : Nat) : State × Nat :=
  match s.instances.findIdx? fun x => x.task == task && x.kind == k && x.node == node with
  | some i => (s, i)
  | none =>
    ({ s with instances := s.instances ++
        [{ task := task, kind := k, node := node, arrivals := [], offers := [], count := none, contributions := [],
           owes := [] }] }, s.instances.length)

/-- Add lanes to what has arrived. -/
def addArrival (l : List (Nat × Mask)) (a : Nat) (m : Mask) : List (Nat × Mask) :=
  if l.any (·.1 == a) then l.map fun p => if p.1 = a then (a, p.2 ||| m) else p else l ++ [(a, m)]

/-- What an instance answers to lanes that issue: an owed release, or that they wait; an arrival already recorded is not
counted twice (R173). -/
def Instance.answer (x : Instance) (a : Nat) (m : Mask) (v : DWord) (p : Bool) : Instance × Option Owed :=
  match x.owes.find? fun o => o.agent == a && m &&& ~~~o.lanes == 0#32 with
  | some o =>
    let left := x.owes.map fun q => if q = o then { q with lanes := q.lanes &&& ~~~m } else q
    ({ x with owes := left.filter (·.lanes != 0#32) }, some o)
  | none =>
    if m &&& ~~~(x.lanesOfAgent a) = 0#32 then (x, none)
    else ({ x with arrivals := addArrival x.arrivals a m, offers := x.offers ++ [(a, m, v, p)] }, none)

/-- Issue a wait on nodes with the lanes of each: the instances that hold it, the state, and what an owed release
gives. -/
def Ctx.arriveAll (c : Ctx) (k : InstKind) (v : DWord) (p : Bool) :
    List (Nat × Mask) → State → State × List Nat × Option Owed
  | [], s => (s, [], none)
  | (node, m) :: rest, s =>
    let (s, i) := s.instanceOf c.team.task k node
    let (x, o) := (s.instances.getD i default).answer c.a m v p
    let s := { s with instances := s.instances.set i x }
    let s := if o.isSome then s.completionView x c.a else s
    let (s, is, o') := c.arriveAll k v p rest s
    (s, if o.isSome then is else i :: is, if o.isSome then o else o')

/-- Issue a wait (R170, R173): the fragment waits for the instances, or goes on at once when they have completed. -/
def Ctx.waitOn (c : Ctx) (k : InstKind) (nodes : List (Nat × Mask)) (dest : Option (Nat × Bool)) (v : DWord)
    (p : Bool) : Done :=
  match c.arriveAll k v p nodes c.s with
  | (s, [], o) =>
    .retire (match o with
      | none => s
      | some o => s.modAgent c.a fun ag =>
          let ag := ag.writeResult dest (o.value, o.flags, o.poison)
          { ag with sregs := ag.sregs.raise o.flags })
  | (s, is, _) =>
    .arrived ((s.modEntry c.a c.e fun en => { en with hold := .barrier is dest }).settleWaits c.team.task)

end Sys2Proof.Machine
end

