-- ==== Sys2Proof/Machine/Life.lean ====
section
/-! DEFINITION. The ends of things: a handler whose lanes have all exited (R343), warps, sequencer contexts, teams and
tasks (R32 to R35, R279, R347), the Lodestone (R271), and the termination of a task (R340). -/

namespace Sys2Proof.Machine

/-- End every handler whose entry lanes have all exited (R343): it ends as if TRET had run with an empty mask. -/
def Agent.popHandlers (ag : Agent) : List Frame → Agent
  | [] => ag
  | f :: rest =>
    if f.lanes &&& ~~~ag.exited = 0#32 then (ag.returnWith f 0#32).settle.popHandlers rest else ag

/-! ### The Lodestone (R271) -/

/-- The lowest of a list of logical identifiers. -/
def lowestOf (l : List Nat) : Option Nat :=
  l.foldl (fun b n => match b with
    | none => some n
    | some m => some (min m n)) none

/-- The team after a holder: the next higher identifier that has not retired, or the lowest, on this device or another. -/
def State.nextHolder (s : State) (task h : Nat) : Option Nat :=
  let live := (((s.teamsOf task).filter fun p => p.2.phase != .retired).map fun p => p.2.logical) ++
    ((s.task task).away.filter fun w => !w.retired).map (·.logical)
  match lowestOf (live.filter fun n => decide (h < n)) with
  | some n => some n
  | none => lowestOf live

/-- Pass the token on from a team that holds it: its buffer drains first, and passing releases at the launch domain
(R223, R226, R271, R272). -/
def State.passLodestone (s : State) (team : Nat) : State :=
  let tm := s.team team
  if (s.task tm.task).lodestone = some tm.logical then
    let s := s.drainBuffer team
    let agents := (List.range s.agents.length).filter fun a => (s.agent a).team == team
    let s := agents.foldl (fun (s : State) a => s.sendAll a .home) s
    (s.modTeam team fun t => { t with passDue := false }).modTask tm.task fun t =>
      { t with lodestone := s.nextHolder tm.task tm.logical }
  else s

/-! ### Clusters (R275, R316) -/

/-- Does some team of a task reside in a cluster? -/
def State.resides (s : State) (task cluster : Nat) : Bool :=
  (s.teamsOf task).any fun p =>
    (p.2.phase == .resident || p.2.phase == .suspended) && clusterOfCore p.2.core == cluster

/-- When no team of a task lies in a cluster any more, its reservation falls free (R275). -/
def State.leaveCluster (s : State) (task cluster : Nat) : State :=
  if s.resides task cluster then s
  else s.modCluster cluster fun c => { c with runs := c.runs.filter (·.2.2 != .reservation task) }

/-- When the last of the teams for which a task has come to hold the slots of a cluster retires, they fall free. A team that was
preempted or moved away counts until it retires (R316; log 29). -/
def State.freeSlots (s : State) (task : Nat) : State :=
  { s with clusters := s.clusters.zipIdx.map fun (c, n) =>
      if c.slotHolder == some task && !(s.teamsOf task).any fun p => p.2.phase != .retired && p.2.slotsIn.contains n then
        { c with slotHolder := none }
      else c }

/-! ### Retirement -/

/-- A retired task's status stays with its mailbox (R363). -/
def State.noteStatus (s : State) (task : Nat) : State :=
  match (s.task task).launcher with
  | .mailbox mb =>
    { s with mailboxes := s.mailboxes.modify mb fun m =>
        { m with retirements := m.retirements + 1
                 statuses := m.statuses ++ [((s.task task).id, m.retirements + 1, false)] } }
  | _ => s

/-- A task retires (R35). -/
def State.retireTask (s : State) (task : Nat) : State :=
  (s.modTask task fun t => { t with phase := .retired }).noteStatus task

/-- A task whose teams have all retired, those on other devices included, retires (R35). -/
def State.settleTask (s : State) (task : Nat) : State :=
  if (s.task task).phase != .retired && ((s.teamsOf task).all fun p => p.2.phase == .retired) &&
      (s.task task).away.all (·.retired) then s.retireTask task
  else s

/-- Have all warps of a team retired, all its copies completed, all its sequencer programs halted (R34)? -/
def State.teamDone (s : State) (team : Nat) : Bool :=
  (s.agents.filter fun ag => ag.team == team).all fun ag => ag.phase == .retired && ag.copyOps.isEmpty

/-- May a team retire: it is done, and its buffered stores have been performed, or can be in its turn (R34, R226, R272; log 19)? -/
def State.mayRetire (s : State) (team : Nat) : Bool :=
  let tm := s.team team
  (tm.phase == .resident || tm.phase == .suspended) && s.teamDone team &&
    (tm.buffer == [] || ((s.task tm.task).lodestone == some tm.logical && !s.bufferHeld team))

/-- A team retires: it releases at the launch domain, and gives back its core, its share of the cluster and the Lodestone
(R34, R223, R271). -/
def State.retireTeam (s : State) (team : Nat) : State :=
  let tm := s.team team
  let s := s.drainBuffer team
  let agents := (List.range s.agents.length).filter fun a => (s.agent a).team == team
  let s := agents.foldl (fun (s : State) a => s.sendAll a .home) s
  let s := s.modTeam team fun t => { t with phase := .retired, preemptReq := false }
  let s := s.passLodestone team
  (((s.leaveCluster tm.task (clusterOfCore tm.core)).freeSlots tm.task).settleWaits tm.task).settleTask tm.task

/-- The team of this device that holds a task's Lodestone. -/
def State.holderTeam (s : State) (task : Nat) : Option Nat :=
  ((s.teamsOf task).find? fun p => (s.task task).lodestone == some p.2.logical).map (·.1)

/-- Retire a team that may, and then the teams that the Lodestone reaches and that have waited for it to retire. -/
def State.settleTurns : Nat → Nat → State → State
  | 0, _, s => s
  | n + 1, team, s =>
    if s.mayRetire team then
      let s' := s.retireTeam team
      match s'.holderTeam (s.team team).task with
      | some h => State.settleTurns n h s'
      | none => s'
    else s

/-- A team that is done retires (R34). -/
def State.settleTeam (s : State) (team : Nat) : State := State.settleTurns (s.teams.length + 1) team s

/-- After the Lodestone of a task has moved, its holder retires if it has only waited for that, and waits that its turn lets
complete do so. -/
def State.settleHolder (s : State) (task : Nat) : State :=
  match s.holderTeam task with
  | some h => (s.settleTeam h).settleWaits task
  | none => s

/-- Has a team a fault that is not resolved: in a handler, or at the OS cores (R271)? -/
def State.faulted (s : State) (team : Nat) : Bool :=
  s.agents.any fun ag => ag.team == team && (ag.frames != [] || match ag.phase with
    | .stopped _ _ => true
    | _ => false)

/-- Once the faults of a team are resolved, a TKPASS that came meanwhile passes the Lodestone (R226, R271). -/
def State.settlePass (s : State) (team : Nat) : State :=
  if (s.team team).passDue && !s.faulted team && !s.bufferHeld team then
    (s.passLodestone team).settleHolder (s.team team).task
  else s

/-- Have all operations of an agent's engines completed? -/
def Agent.enginesIdle (ag : Agent) : Bool := ag.copyOps.isEmpty && ag.tile.ops.isEmpty && ag.tile.matOps.isEmpty

/-- A halted context whose operations have completed becomes free, and its handles' runs are released (R279, R347). -/
def State.settleContext (s : State) (a : Nat) : State :=
  let ag := s.agent a
  if ag.phase = .halting ∧ ag.enginesIdle then
    let s := s.modCluster (s.clusterOf a) fun c => { c with runs := c.runs.filter (·.2.2 != .handle a) }
    (s.modAgent a fun ag => { ag with phase := .retired }).settleTeam ag.team
  else s

/-- After an operation of an agent's engines completes. -/
def State.settleAgent (s : State) (a : Nat) : State :=
  match (s.agent a).phase with
  | .halting => s.settleContext a
  | .retired => s.settleTeam (s.agent a).team
  | _ => s

/-- After lanes of a warp have exited: handlers end, joins and deferrals settle, a warp without lanes retires, wait
instances and the team are looked at again (R32, R33, R170, R343). -/
def State.afterExit (s : State) (a : Nat) : State :=
  let s := s.modAgent a fun ag =>
    let ag := ag.settle.popHandlers ag.frames
    { ag with phase := if ag.exited = allLanes then .retired else ag.phase }
  ((s.settleWaits (s.taskOf a)).settlePass (s.agent a).team).settleTeam (s.agent a).team

/-! ### Termination (R340) -/

def arrGen (w : DWord) : Nat := (w.extractLsb' 57 7).toNat
def arrErr (w : DWord) : Bool := w.getLsbD 56
def arrCount (w : DWord) : Nat := (w.extractLsb' 28 28).toNat

/-- May the table of block b be read (R334)? -/
def tableArrived (w : DWord) (gen b : Nat) : Bool := arrGen w != gen || decide (16 * (b + 1) ≤ arrCount w)

/-- Has a task been terminated (R340)? -/
def Task.terminated (t : Task) : Bool := t.status == 3 && t.cause != 0

/-- May an expansion finish: has it read every table that it waits for (R334)? -/
def CopyOp.tablesReady (op : CopyOp) : Bool :=
  match op.kind with
  | .cpyx 7 _ _ _ true _ => decide (op.count / 128 ≤ op.tables.length) || op.tables.contains []
  | _ => true

/-- Can a copy go on: it has the tables that it waits for, or the next one has arrived (R334)? -/
def State.copyGoes (s : State) (op : CopyOp) : Bool :=
  op.tablesReady ||
    match op.kind, op.tableArrival with
    | .cpyx _ _ _ _ _ gen, some k => tableArrived (s.mem.read64 k) gen op.tables.length
    | _, _ => false

/-- The copies of a team of a terminated task that wait for a table which nothing in flight can bring any more are dropped: no
copy of the team goes on (R334, R340; log 33). -/
def State.dropStuck (s : State) (team : Nat) : State :=
  if (s.agents.any fun ag => ag.team == team && ag.copyOps.any s.copyGoes) then s
  else { s with agents := s.agents.map fun (ag : Agent) => if ag.team = team then { ag with copyOps := [] } else ag }

/-- Stop an agent for good. Accesses and operations already issued go on. -/
def Agent.stop (ag : Agent) : Agent :=
  match ag.kind with
  | .warp => { ag with phase := .retired, exited := allLanes, frames := [], entries := [] }
  | _ => if ag.phase = .retired then ag else { ag with phase := .halting, frames := [], entries := [] }

/-- Terminate a task: every agent stops, buffered stores are discarded, its handles, teams and the task itself retire
once the work in flight has completed (R226, R340). -/
def State.terminateTask (s : State) (task cause : Nat) : State :=
  if (s.task task).phase = .retired ∨ (s.task task).terminated then s else
  let ours (team : Nat) : Bool := (s.team team).task == task
  let s := { s with agents := s.agents.map fun (ag : Agent) => if ours ag.team then ag.stop else ag
                    teams := s.teams.map fun (tm : Team) =>
                      if tm.task = task then
                        { tm with buffer := []
                                  phase := if tm.phase = TeamPhase.undispatched then .retired else tm.phase
                                  joins := tm.joins.map fun (j : Join) =>
                                    { j with result := some (j.result.getD cause) } }
                      else tm }
  let s := s.modTask task fun t => { t with status := 3, cause := cause }
  let s := (List.range s.teams.length).foldl (fun (s : State) t => if (s.team t).task = task then s.dropStuck t else s) s
  let s := (List.range s.agents.length).foldl
    (fun (s : State) a => if (s.taskOf a) = task then s.settleContext a else s) s
  ((List.range s.teams.length).foldl
    (fun (s : State) t => if (s.team t).task = task then s.settleTeam t else s) s).settleTask task

/-- After a copy of an agent has completed: in a terminated team the copies that nothing can bring on any more go with it
(R340). -/
def State.afterCopy (s : State) (a : Nat) : State :=
  if (s.task (s.taskOf a)).terminated then
    let team := (s.agent a).team
    ((List.range s.agents.length).foldl
      (fun (s : State) b => if (s.agent b).team = team then s.settleContext b else s) (s.dropStuck team)).settleTeam team
  else s.settleAgent a

end Sys2Proof.Machine
end

