-- ==== Sys2Proof/Machine/Control.lean ====
section
/-! DEFINITION. Branches, calls, exit, widening, yielding, tree queries, traps and special registers (R158 to R169, R189,
R342, R343). -/

namespace Sys2Proof.Machine

/-! ### Moving the program counter (R66, R158) -/

/-- The target of an offset in words. -/
def Ctx.target (c : Ctx) (off : BitVec 21) : DWord := c.en.pc + (off.signExtend 64 <<< 2)

/-- The address of the next instruction, for an instruction of one word. -/
def Ctx.nextPc (c : Ctx) : DWord := c.en.pc + 4#64

/-- The fragment goes to an address. -/
def Entry.goto (en : Entry) (pc : DWord) : Entry := { en with pc := pc, hold := .ready, redo := none }

/-- The state with the issuing entry changed. -/
def Ctx.setEntry (c : Ctx) (f : Entry → Entry) : State := c.s.modEntry c.a c.e f

def Ctx.jump (c : Ctx) (pc : DWord) : Done := .placed (c.setEntry (·.goto pc))

/-! ### Divergence (R24, R25, R162) -/

/-- X of R24: the pending reconvergence address, else the entry's own. -/
def Entry.joinAt (en : Entry) : Option DWord :=
  match en.pending with
  | some x => some x
  | none => en.reconv

/-- A new running entry of a divergence. -/
def Entry.child (en : Entry) (e : Nat) (m : Mask) (pc : DWord) : Entry :=
  { Entry.start pc m with reconv := en.joinAt, parent := some e, stack := en.stack }

/-- The two lowest free entries. -/
def freePair (es : List Entry) : Option (Nat × Nat) :=
  match (es.zipIdx.filter fun p => p.1.kind == .free).map (·.2) with
  | i :: j :: _ => some (i, j)
  | _ => none

/-- Diverge into two new entries (R24). -/
def Agent.split (ag : Agent) (e i j : Nat) (t n : Mask) (target next : DWord) : Agent :=
  let en := ag.entry e
  let join := { en with kind := .join, pc := en.joinAt.getD en.pc, arrived := 0#32, hold := .ready, redo := none }
  { ag with entries := ((ag.entries.set e join).set i (en.child e t target)).set j (en.child e n next) }

/-- Diverge by a deferral record (R25). -/
def Entry.defer (en : Entry) (t n : Mask) (target next : DWord) : Entry :=
  let r : Deferral :=
    { resume := next, deferred := n, full := t ||| n, target := en.joinAt, stack := en.stack, phase := false }
  { en.goto target with mask := t, records := r :: en.records }

/-- A branch whose lanes disagree. -/
def Ctx.diverge (c : Ctx) (t n : Mask) (target : DWord) : Done :=
  match if 0 < c.ag.wide.depth then none else freePair c.ag.entries with
  | some (i, j) => .placed (c.upd fun ag => ag.split c.e i j t n target c.nextPc)
  | none => .placed (c.setEntry fun en => en.defer t n target c.nextPc)

def execBra (off : BitVec 21) (ps : PReg) (s : State) : Out :=
  onWarp s 1 fun c => c.guarded ps.toNat fun t =>
    let n := c.act &&& ~~~t
    if n = 0#32 then c.jump (c.target off)
    else if t = 0#32 then .retire c.s
    else c.diverge t n (c.target off)

def execBru (ps : PReg) (off : BitVec 21) (s : State) : Out :=
  onWarp s 1 fun c =>
    match c.guarded ps.toNat fun _ => .retire c.s with
    | .retire s' =>
      let t := c.guardHolds ps.toNat
      if t = c.act then ({ c with s := s' }).jump (c.target off)
      else if t = 0#32 then .retire s'
      else c.trapAll causeBru
    | d => d

def execJmp (t : BitVec 3) (off : BitVec 21) (s : State) : Out :=
  onAny s 1 fun c =>
    if t = 7#3 then c.jump (c.target off)
    else c.params [t.toNat] fun ws => if ws.getD 0 0#32 ≠ 0#32 then c.jump (c.target off) else .retire c.s

/-! ### CALL, RET, RECONV, EXIT (R163 to R165) -/

def execCall (off : BitVec 21) (s : State) : Out :=
  onAny s 1 fun c =>
    if Config.maxStack ≤ c.en.stack.length then c.illegal
    else .placed (c.setEntry fun en => { en.goto (c.target off) with stack := c.nextPc :: en.stack })

def execRet (s : State) : Out :=
  onAny s 1 fun c =>
    match c.en.stack with
    | [] => c.illegal
    | pc :: rest => .placed (c.setEntry fun en => { en.goto pc with stack := rest })

def execReconv (off : BitVec 21) (s : State) : Out :=
  onWarp s 1 fun c => .retire (c.setEntry fun en => { en with pending := some (c.target off) })

/-- Lanes exit: they leave the warp, and the rest of the fragment goes on (R32, R165). -/
def Ctx.exitLanes (c : Ctx) (x : Mask) : State :=
  (c.upd fun ag => { ag.modEntry c.e (·.goto c.nextPc) with exited := ag.exited ||| x }).afterExit c.a

def execExit (ps : PReg) (s : State) : Out :=
  onWarp s 1 fun c =>
    match c.guarded ps.toNat fun x => if x = 0#32 then .retire c.s else .placed c.s with
    | .placed s' => .placed (({ c with s := s' }).exitLanes (c.guardHolds ps.toNat))
    | d => d

/-! ### WIDE, ENDWIDE (R166) -/

/-- W: every lane that has not exited and is not in a handler, or the handler's own lanes. -/
def Agent.wideLanes (ag : Agent) : Mask :=
  match ag.frames with
  | [] => ~~~ag.exited
  | f :: _ => f.lanes &&& ~~~ag.exited

def execWide (s : State) : Out :=
  onWarp s 1 fun c =>
    let w := c.ag.wide
    if w.depth = 0 then
      .retire (c.upd fun ag =>
        { ag.modEntry c.e (fun en => { en with mask := ag.wideLanes }) with
          wide := { depth := 1, entry := c.e, saved := c.en.mask, lanes := ag.wideLanes
                    records := c.en.records.length } })
    else if w.depth < Config.maxWide then .retire (c.upd fun ag => { ag with wide := { w with depth := w.depth + 1 } })
    else c.illegal

def execEndwide (s : State) : Out :=
  onWarp s 1 fun c =>
    let w := c.ag.wide
    if w.depth = 0 then c.illegal
    else if 1 < w.depth then .retire (c.upd fun ag => { ag with wide := { w with depth := w.depth - 1 } })
    else if c.en.records.length ≤ w.records ∧ c.en.mask = w.lanes &&& ~~~c.ag.exited then
      .retire (c.upd fun ag =>
        { ag.modEntry c.e (fun en => { en with mask := w.saved &&& ~~~ag.exited }) with wide := Wide.none })
    else c.illegal

/-! ### YIELD, NOP (R167) -/

/-- Is an entry a ready fragment (R27)? -/
def Entry.ready (en : Entry) : Bool := en.kind == .running && en.hold == .ready

/-- Does an agent have such a fragment? -/
def Agent.anyReady (ag : Agent) : Bool := ag.phase == .active && ag.entries.any Entry.ready

/-- The entry number that stands for any fragment of an agent. -/
def anyEntry : Nat := Config.splitEntries

/-- Do two agents share a warp pipe, or a sequencer (R1, R167)? -/
def State.sharesPipe (s : State) (a b : Nat) : Bool :=
  (s.agent a).kind == (s.agent b).kind &&
    (if (s.agent a).kind = .warp then s.coreOf a == s.coreOf b && decide (Config.warpPipe a = Config.warpPipe b)
     else s.clusterOf a == s.clusterOf b)

/-- What must issue before a fragment that yields does (R167). -/
def Ctx.yieldsTo (c : Ctx) : List (Nat × Nat) :=
  let own := (c.ag.entries.zipIdx.filter fun p => p.2 != c.e && p.1.ready).map fun p => (c.a, p.2)
  let others := (c.s.agents.zipIdx.filter fun p => p.2 != c.a && p.1.anyReady && c.s.sharesPipe c.a p.2).map
    fun p => (p.2, anyEntry)
  own ++ others

/-- YIELD holds its fragment until the others have issued; when it issues again it completes (R95, R167). -/
def execYield (s : State) : Out :=
  onAny s 1 fun c =>
    if c.en.hold = .yielded ∨ c.yieldsTo = [] then .retire c.s
    else .hold (c.setEntry fun en => { en with owed := c.yieldsTo }) .yielded

def execNop (s : State) : Out := onAny s 1 fun c => .retire c.s

/-! ### Tree queries (R168, R169) -/

/-- The value of ID in a lane; a sequencer reads the forking team's indices, and 0 at the levels below CORE. An .lin number above
2^32 - 1 is taken modulo 2^32 (DEDUCED: R168 names no other value; log 16). -/
def Ctx.idValue (c : Ctx) (l : Nat) (lin : Bool) (i : Nat) : Word :=
  let t := c.task
  let warp := if c.isWarp then c.ag.number else 0
  let lane := if c.isWarp then i else 0
  BitVec.ofNat 32 (if lin then t.lin l c.team.logical warp lane else t.idx l c.team.logical warp lane)

/-- The declared levels bound to LANE. -/
def Task.laneLevels (t : Task) : List Nat :=
  (List.range t.declared.length).filter fun l => (t.level l).phys == 0

/-- Is ID AFFINE at a level: the LANE level nearest the leaf, for .lin or when it is the only one (R168)? -/
def Task.idAffine (t : Task) (l : Nat) (lin : Bool) : Bool :=
  t.laneLevels.getLast? == some l && (lin || t.laneLevels.length == 1)

def execLevelId (lv : BitVec 4) (vd : Reg) (k : BitVec 6) (s : State) : Out :=
  onAny s 1 fun c => c.withLevel lv.toNat <|
    let l := lv.toNat
    let v := c.idValue l (k == 1#6)
    let put (sh : Shape) : Done := .retire (c.upd fun ag => ag.setReg (rn vd) ⟨sh, 0#32⟩)
    if !c.isWarp || c.phys l != 0 then put (.uniform (v 0))
    else if c.task.idAffine l (k == 1#6) then put (.affine (v 0) 1#32)
    else if c.g ≤ rn vd then c.trapAll causeShape
    else put (.general (laneList.map v))

/-- The product of the fanouts of levels 0 to l, saturating (R169). -/
def Task.count (t : Task) (l : Nat) : Nat := min 0xFFFFFFFF (fans (t.declared.take (l + 1)) fun _ => true)

def execLevelSize (lv : BitVec 4) (vd : Reg) (k : BitVec 6) (s : State) : Out :=
  onAny s 1 fun c => c.withLevel lv.toNat <|
    c.retireWords (rn vd) false
      [BitVec.ofNat 32 (if k = 0#6 then (c.task.level lv.toNat).fan else c.task.count lv.toNat)]

/-! ### TRAP, TRET (R342, R343) -/

def execTrap (imm : BitVec 9) (s : State) : Out :=
  onAny s 1 fun c => c.trapAt causeSoftware c.act (imm.zeroExtend 64) 0

/-- A cause that TRAP.esc raises as it stands: listed, and not WATCHDOG (R335, R342). -/
def escapes (cause : Nat) : Bool := (1 ≤ cause && cause ≤ 0x19) && !(cause ∈ [0x0E, 0x0F, 0x18])

/-- TRAP.esc. A trap of a PEER access that it passes on is one of that device still (R365, R369). -/
def execTrapEsc (s : State) : Out :=
  onAny s 1 fun c =>
    if c.ag.frames = [] then c.priv
    else
      let v := c.ag.sregs.faultinfo
      let m := faultMask v &&& c.act
      .trap c.s
        { cause := if escapes (faultCause v) then faultCause v else causeSoftware
          mask := if m = 0#32 then c.act else m, addr := faultAddr v, access := faultAccess v, level := faultLevel v
          partDone := false, stale := faultStale v
          peer := (c.ag.frames.head?.bind (·.peer)).bind fun q => if q.2 = faultAddr v then some q.1 else none }

/-- Does more remain of a handler's split table than one entry with its lanes (R343)? -/
def Agent.tretDiverged (ag : Agent) (en : Entry) (f : Frame) : Bool :=
  decide (1 < (ag.entries.filter fun x => x.kind != .free).length) || ag.entries.any (fun x => x.records != []) ||
    decide (0 < ag.wide.depth) || en.mask != f.lanes &&& ~~~ag.exited

def execTret (s : State) : Out :=
  onAny s 1 fun c =>
    match c.ag.frames with
    | [] => c.priv
    | f :: _ =>
      if c.ag.tretDiverged c.en f then c.trapAll causeTretDiverged
      else .placed ((c.upd fun ag => ag.returnWith f (faultMask ag.sregs.faultinfo &&& f.lanes &&& ~~~ag.exited)).settlePass
        c.ag.team)

/-! ### MFSR, MTSR (R56, R189) -/

/-- WSTAT.DEFER (R60): the records of the split table, 31 where a WIDE bracket over an older record brings them to 32 (DESIGN CHOICE:
R25 says that the demand never exceeds 31; log 15). -/
def Agent.deferCount (ag : Agent) : Nat := min 31 ((ag.entries.map fun en => en.records.length).foldl (· + ·) 0)

/-- WSTAT (R60). In a fault handler DEFER counts the records of the handler's own split table, and not those of the table that R337
saved (DESIGN CHOICE: R60 says held by the warp and does not name that table; log 15). -/
def Ctx.wstat (c : Ctx) : Word :=
  let defers := c.ag.deferCount
  let frags := (c.ag.entries.filter fun en => en.kind == .running).length
  (BitVec.ofNat 32 defers <<< 19) ||| (BitVec.ofNat 32 frags <<< 12) |||
    (if c.team.preemptReq then 4#32 else 0#32) ||| (if c.ag.frames = [] then 0#32 else 2#32) |||
    (if c.ag.sregs.memberExit then 1#32 else 0#32)

/-- CAPCORE, CAPCLUS and CAPDIE (R63). -/
def CoreUnit.capcore (u : CoreUnit) : DWord :=
  BitVec.ofNat 64 (u.copies * 2 ^ 43 + u.tags * 2 ^ 32 + u.barriers * 2 ^ 24 + u.localKib * 2 ^ 13 + u.warps * 2 ^ 6 +
    u.regbanks)

def ClusterUnit.capclus (u : ClusterUnit) : Word :=
  BitVec.ofNat 32 (u.grankib * 2 ^ 16 + u.cpyctx * 2 ^ 11 + u.array * 2 ^ 10 + u.winnowers * 2 ^ 8 + u.seqctx * 2 ^ 4 +
    u.cores)

def State.capdie (s : State) (d : Nat) : DWord :=
  let u := s.dies.getD d default
  let dies := (s.dies.filter (·.enabled)).length
  BitVec.ofNat 64 (s.devid * 2 ^ 48 + u.walkers * 2 ^ 40 + u.cachemib * 2 ^ 32 + u.dramgib * 2 ^ 24 + u.layers * 2 ^ 16 +
    u.spareclus * 2 ^ 10 + dies * 2 ^ 5 + u.clusters)

/-- The words of a special register, low word first. On a sequencer context, which lies on no core, CAPCORE reads the core of the team
that forked it (DESIGN CHOICE: R56 says only the core hosting the reader; log 15). -/
def Ctx.special (c : Ctx) (sr : Nat) : List Word :=
  match sr with
  | 0x00 => [c.ag.sregs.fpcsr]
  | 0x01 => [c.ag.sregs.temp]
  | 0x02 => [c.ag.sregs.pstat]
  | 0x03 => [c.wstat]
  | 0x04 => [c.ag.sregs.trcc]
  | 0x05 => pairWords c.ag.sregs.trct
  | 0x06 => (List.range 4).map fun j => c.ag.sregs.faultinfo.extractLsb' (32 * j) 32
  | 0x08 => pairWords (c.s.cores.getD c.core default).capcore
  | 0x09 => [(c.s.clusters.getD c.cluster default).capclus]
  | _ => pairWords (c.s.capdie c.die)

/-- The agents that may name a special register (R56). -/
def Ctx.withSpecial (c : Ctx) (sr : Nat) (k : Done) : Done :=
  if sr = 0x03 then (if c.isWarp then k else c.illegal)
  else if sr = 0x04 ∨ sr = 0x05 then
    match c.ag.kind with
    | .warp => c.seqOnly
    | .copySeq => c.illegal
    | .tileSeq => k
  else k

def execMfsr (vd : Reg) (sr : BitVec 10) (s : State) : Out :=
  onAny s 1 fun c => c.withSpecial sr.toNat <| c.retireWords (rn vd) false (c.special sr.toNat)

/-- A write of a special register; reserved and read-only fields stay as they are (R6, R56 to R62). -/
def SRegs.write (r : SRegs) (isWarp : Bool) (sr : Nat) (ws : List Word) : SRegs :=
  let w := ws.getD 0 0#32
  match sr with
  | 0x00 => { r with fpcsr := w &&& fpcsrMask }
  | 0x01 => { r with temp := w }
  | 0x02 => { r with pstat := w &&& pstatMask }
  | 0x03 => { r with memberExit := w.getLsbD 0 }
  | 0x04 => { r with trcc := trccStored w }
  | 0x05 => { r with trct := pairOf ws 0 }
  | _ => { r with faultinfo := faultinfoStored isWarp (pairOf ws 2 ++ pairOf ws 0) }

def execMtsr (va : Reg) (sr : BitVec 10) (s : State) : Out :=
  onAny s 1 fun c => c.withSpecial sr.toNat <|
    c.params (regRun (rn va) ((srWords sr).getD 1)) fun ws =>
      .retire (c.upd fun ag => { ag with sregs := ag.sregs.write c.isWarp sr.toNat ws })

end Sys2Proof.Machine
end

