-- ==== Sys2Proof/Machine/Sync.lean ====
section
/-! DEFINITION. Barriers and collectives (R171, R172, R175), fences (R227 to R229), deterministic turns (R187, R188),
layout instructions (R195, R196), usage counters (R218), TLBINV, CLOCK, PGMAP and the SYSC instruction (R344 to R348). -/

namespace Sys2Proof.Machine

/-- The point of a level for the issuing agent (R220). -/
def Ctx.pointAt (c : Ctx) (lv : BitVec 4) : Point := pointOf c.isWarp (c.phys lv.toNat)

/-! ### BAR, TBAR, COLL

SHARED stores that the warp has buffered, and that the completion of BAR or TBAR must perform, are performed in its team's turn
before it arrives (R171, R172, R272; log 45). -/

/-- The MEMBER check: a handler cannot wait for lanes that it freezes (R171, R335). -/
def Ctx.outsideHandler (c : Ctx) (k : Done) : Done := if c.ag.frames = [] then k else c.trapAll causeMember

/-- The node of a level and the issuing lanes that lie in it; a level bound to LANE may have several (R172). -/
def Ctx.nodesAt (c : Ctx) (l : Nat) : List (Nat × Mask) :=
  let node (i : Nat) := c.task.lin l c.team.logical c.ag.number i
  let ns := ((lanesOf c.act).map node).eraseDups
  ns.map fun n => (n, maskOf fun i => inMask c.act i && node i == n)

def execBar (va : Reg) (n : BitVec 6) (s : State) : Out :=
  onWarp s 1 fun c => c.outsideHandler <| c.params [rn va] fun ws =>
    if (c.s.cores.getD c.core default).barriers ≤ n.toNat then c.illegal
    else if !c.s.mayRelease c.a .core then .hold c.s .polling
    else { c with s := c.s.drainFor c.a .core }.waitOn (.bar n.toNat) [(c.ag.team, c.act)] none ((ws.getD 0 0#32).zeroExtend 64) false

def execTbar (lv : BitVec 4) (s : State) : Out :=
  onWarp s 1 fun c => c.withLevel lv.toNat <| c.outsideHandler <|
    if !c.s.mayRelease c.a (c.pointAt lv) then .hold c.s .polling
    else { c with s := c.s.drainFor c.a (c.pointAt lv) }.waitOn (.tbar lv.toNat) (c.nodesAt lv.toNat) none 0#64 false

/-- A contribution is data: its mark goes to the result. LEVEL comes before SHAPE (R125, R175; log 22). -/
def execColl (lv : BitVec 4) (vd va : Reg) (k : BitVec 2) (op : BitVec 3) (s : State) : Out :=
  onWarp s 1 fun c => c.withLevel lv.toNat <| c.outsideHandler <|
    if c.phys lv.toNat = 0 then c.levelTrap lv.toNat
    else c.sources (regRun (rn va) (redRegs op.toNat)) fun ws p =>
      c.waitOn (.coll lv.toNat (k.toNat * 8 + op.toNat)) (c.nodesAt lv.toNat) (some (rn vd, op == 2#3)) (pairOf ws 0) p

/-! ### Fences -/

def execPhase (lv : BitVec 4) (s : State) : Out :=
  onAny s 1 fun c => c.withLevel lv.toNat <| c.fence (c.pointAt lv) true
def execFenceAr (lv : BitVec 4) (s : State) : Out :=
  onAny s 1 fun c => c.withLevel lv.toNat <| c.fence (c.pointAt lv) true
def execFenceRel (lv : BitVec 4) (s : State) : Out :=
  onAny s 1 fun c => c.withLevel lv.toNat <| c.fence (c.pointAt lv) false
def execFenceAcq (lv : BitVec 4) (s : State) : Out :=
  onAny s 1 fun c => c.withLevel lv.toNat <| .retire (c.s.refresh c.a (c.pointAt lv))

/-- The dies whose agents a node of a level holds: the issuer's own, or all of them from DEVICE on (log 23). -/
def Ctx.nodeDies (c : Ctx) (lv : BitVec 4) : List Nat :=
  if c.phys lv.toNat ≤ 4 then [c.die] else List.range c.s.dies.length

/-- The cores whose agents a node below DIE holds: those of its teams, or the issuer's own for a node within a team. -/
def Ctx.nodeCores (c : Ctx) (lv : BitVec 4) : Option (List Nat) :=
  let l := lv.toNat
  if 4 ≤ c.phys l then none
  else if codeTeam (c.phys l) then
    some (((c.s.teamsOf c.team.task).filter fun p =>
      c.task.lin l p.2.logical 0 0 == c.task.lin l c.team.logical 0 0).map (·.2.core))
  else some [c.core]

/-- Walks of some dies come to read every entry that PGMAP has written (R228, R345; log 6). -/
def State.seeEntries (s : State) (dies : List Nat) : State :=
  { s with unseen := s.unseen.filter fun p => !dies.contains p.1 }

/-- Page tables are read at the home (R231), so the stores are performed there, whatever the level; walks of the node then read every
entry as it stands there, so that no cached non-leaf entry older than it serves them (R228, R239; log 6). TLB entries stay. -/
def execTfence (lv : BitVec 4) (s : State) : Out :=
  onAny s 1 fun c => c.withLevel lv.toNat <| c.releasing .home fun s =>
    if s.invs.any fun v => v.agent == c.a && v.dies.any (c.nodeDies lv).contains then .hold s .polling
    else .retire ((s.seeEntries (c.nodeDies lv)).dropWalks (fun w => (c.nodeDies lv).contains w.die && s.staleWalk w) (c.nodeCores lv))

/-- Does an agent lie in the issuer's node of a level? -/
def Ctx.sameNode (c : Ctx) (l : Nat) (b : Nat) : Bool :=
  let tm := c.s.team (c.s.agent b).team
  tm.task == c.team.task &&
    (if codeTeam (c.phys l) then c.task.lin l tm.logical 0 0 == c.task.lin l c.team.logical 0 0
     else (c.s.agent b).team == c.ag.team)

/-- Code is fetched from the home, so the stores are performed there (R229). -/
def execIfence (lv : BitVec 4) (s : State) : Out :=
  onAny s 1 fun c => c.withLevel lv.toNat <| c.releasing .home fun s =>
    .retire { s with fetched := s.fetched.filter fun f => !c.sameNode lv.toNat f.agent }

/-! ### Deterministic turns -/

/-- Is the team's logical clock no greater than that of any non-retired team of the launch, on this device or another
(R187)? -/
def Ctx.clockLeast (c : Ctx) : Bool :=
  ((c.s.teamsOf c.team.task).all fun p => p.2.phase == .retired || c.team.clock.ule p.2.clock) &&
    c.task.away.all fun w => w.retired || c.team.clock.ule w.clock

def execDsync (s : State) : Out :=
  onWarp s 1 fun c => if c.task.deterministic && !c.clockLeast then .hold c.s .polling else .retire c.s

/-- The buffered stores of the team are performed before TKTAKE completes, and it acquires (R188, R223, R272). -/
def execTktake (s : State) : Out :=
  onWarp s 1 fun c =>
    if !c.task.deterministic then .retire c.s
    else if c.s.inTurn c.ag.team ∧ c.s.bufferHeld c.ag.team = false then
      .retire ((c.s.drainBuffer c.ag.team).refresh c.a .home)
    else .hold c.s .polling

/-- TKPASS. While the team has a fault in a handler it keeps the token: the turn ends then, and the token passes once the fault is
resolved (R226, R271; log 19). -/
def execTkpass (s : State) : Out :=
  onWarp s 1 fun c =>
    if !c.task.deterministic || !c.s.inTurn c.ag.team then .retire c.s
    else if c.s.faulted c.ag.team then .retire (c.s.modTeam c.ag.team fun t => { t with passDue := true })
    else if c.s.bufferHeld c.ag.team then .hold c.s .polling
    else .retire ((c.s.passLodestone c.ag.team).settleHolder c.team.task)

/-! ### LAYOUT, LAYQ -/

/-- A GLOBAL entry of bytes, for the addresses that LAYOUT and the like take. -/
def Layout.global : Layout := { Layout.zero with dims := 1#8 }

/-- Write an entry of the issuing agent's table, and of its team's (R52, R53). -/
def Ctx.setLayout (c : Ctx) (s : State) (n : BitVec 6) (l : Layout) : State :=
  let s := s.modAgent c.a fun ag => { ag with layouts := ag.layouts.setIfInBounds n.toNat l }
  if c.isWarp then s.modTeam c.ag.team fun t => { t with layouts := t.layouts.setIfInBounds n.toNat l } else s

def execLayout (va : Reg) (lay : BitVec 6) (s : State) : Out :=
  onAny s 1 fun c => c.params (regRun (rn va) 2) fun ws =>
    let addr := pairOf ws 0
    if addr.toNat % 64 ≠ 0 then c.trapAt causeAlign c.act addr 0
    else
      match c.place Layout.global addr.toNat .read with
      | .fail e => c.trapAt e c.act addr 0
      | .unanswered => c.trapAt causePerm c.act addr 0
      | .key k =>
        let l := Layout.ofBytes (c.ag.loadBytes k 64)
        if c.ag.view.anyMarked k 64 then c.trapAll causePoison
        else if !l.imageOk then c.trapAll causeLayout
        else .retire (c.setLayout c.s lay l)

def execLayoutInv (lay : BitVec 6) (s : State) : Out :=
  onAny s 1 fun c => .retire (c.setLayout c.s lay Layout.zero)

/-- What LAYQ reads (R196). -/
def Layout.query (l : Layout) (k : Nat) : List Word :=
  if k < 4 then [l.extent.getD k 0#32]
  else if k < 8 then pairWords (l.stride.getD (k - 4) 0#64)
  else if k = 8 then pairWords l.base
  else if k = 9 then [l.mode ++ l.dims ++ l.esize ++ l.space]
  else [l.xmask ++ l.peer]

def execLayq (va : Reg) (lay : BitVec 6) (k : BitVec 4) (s : State) : Out :=
  onAny s 1 fun c => c.retireWords (rn va) false ((c.layout lay).query k.toNat)

/-! ### Usage counters (R218) -/

def State.counter (s : State) (i : Nat) : DWord :=
  match s.counters.find? (·.1 == i) with
  | some p => p.2
  | none => 0#64

/-- Set a counter; one that is 0 is not listed, and the numbers rise. -/
def setCounter : List (Nat × DWord) → Nat → DWord → List (Nat × DWord)
  | [], i, v => if v = 0#64 then [] else [(i, v)]
  | p :: rest, i, v =>
    if i < p.1 then (if v = 0#64 then p :: rest else (i, v) :: p :: rest)
    else if i = p.1 then (if v = 0#64 then rest else (i, v) :: rest)
    else p :: setCounter rest i v

/-- CINC is one of the atomics of its warp, and performed after the earlier ones (R224, R232). As an atomic of the device's scope it
waits for the team's turn in deterministic mode (DEDUCED from R218, R226 and R272, which take the scope from R204; log 45). -/
def execCinc (va vb : Reg) (s : State) : Out :=
  onAny s 1 fun c => c.params [rn va, rn vb] fun ws =>
    if c.task.deterministic && !c.s.inTurn c.ag.team then .hold c.s .polling else
    let i := (ws.getD 0 0#32).toNat % 65536
    .retire { c.s.settleAtomics c.a with counters := setCounter c.s.counters i (c.s.counter i + (ws.getD 1 0#32).zeroExtend 64) }

def execCrd (vd va : Reg) (s : State) : Out :=
  onAny s 1 fun c => c.params [rn va] fun ws =>
    c.retireWords (rn vd) false (pairWords (c.s.counter ((ws.getD 0 0#32).toNat % 65536)))

/-! ### TLBINV, CLOCK (R346, R348) -/

/-- A TLBINV starts; it completes by TLBINV_COMPLETE. -/
def Ctx.startInv (c : Ctx) (lv : BitVec 4) (va : Option DWord) : Done :=
  let v : TlbInv := { agent := c.a, space := c.task.space, dies := c.nodeDies lv, va := va, cores := c.nodeCores lv }
  .retire { c.s with invs := c.s.invs ++ [v] }

def execTlbinv (lv : BitVec 4) (va : Reg) (s : State) : Out :=
  onAny s 1 fun c => c.withLevel lv.toNat <| c.params (regRun (rn va) 2) fun ws => c.startInv lv (some (pairOf ws 0))

def execTlbinvAll (lv : BitVec 4) (s : State) : Out :=
  onAny s 1 fun c => c.withLevel lv.toNat <| c.startInv lv none

def State.clockOf (s : State) (die : Nat) : Nat := (s.dies.getD die default).clock

def execClock (vd : Reg) (s : State) : Out :=
  onAny s 1 fun c => c.retireWords (rn vd) false (pairWords (BitVec.ofNat 64 (c.s.clockOf c.die)))

/-! ### PGMAP (R345) -/

/-- Glean pages that a region block of a space holds. -/
def State.pagesOf (s : State) (space : Nat) (va : DWord) : List Nat :=
  match s.pagesUsed.find? fun p => p.1 == space && p.2.1 == va with
  | some p => p.2.2
  | none => []

/-- Is the PAGES budget of a region of the chain used up? -/
def State.pagesSpent (s : State) (t : Task) : Bool :=
  t.chain.any fun r => r.pages != 0 && decide (r.pages ≤ (s.pagesOf t.space r.va).length)

/-- Charge a page to a region. -/
def chargePage (l : List (Nat × DWord × List Nat)) (space : Nat) (va : DWord) (page : Nat) :
    List (Nat × DWord × List Nat) :=
  if l.any fun p => p.1 == space && p.2.1 == va then
    l.map fun p => if p.1 = space ∧ p.2.1 = va then (p.1, p.2.1, p.2.2 ++ [page]) else p
  else l ++ [(space, va, [page])]

/-- A page of zeros without marks, by its number among all keys. -/
def Memory.zeroPage (m : Memory) (page : Nat) : Memory :=
  m.clear (4096 * page) 4096

/-- The number among all keys of a page of this device, or of another one. -/
def pageNumber (dev : Option Nat) (page : Nat) : Nat := baseOf dev / 4096 + page

/-- The entry that maps a page of the glean pool (R345, R351). -/
def poolEntry (old : DWord) (page : Nat) : DWord :=
  (old &&& ((3#64 <<< 54) ||| (1#64 <<< 56) ||| (1#64 <<< 58))) ||| (1#64 <<< 59) ||| (BitVec.ofNat 64 page <<< 10) |||
    0xD7#64

/-- A leaf that PGMAP writes for an agent of a die: walks of the other dies may still read it as it was (R345). -/
def State.hideEntry (s : State) (die slot : Nat) (old : DWord) : State :=
  { s with unseen := s.unseen ++ ((List.range s.dies.length).filter (· != die)).map fun d => (d, slot, old) }

/-- Walks of a die read the entry of a VA as it stands at its home from now on, and reach it by no cached entry older than its home
(R345). -/
def State.seeEntry (s : State) (die space va slot : Nat) : State :=
  { s.dropWalks (fun w => w.die == die && w.space == space && w.leadsTo va && s.staleWalk w) none with
    unseen := s.unseen.filter fun p => p.1 != die || p.2.1 != slot }

/-- The step of PGMAP for a VA in the table that this device, or another one, binds to a task's space: the status (R345, R369).
A page is charged to the task's region and its ancestors. -/
def State.mapAt (s : State) (dev : Option Nat) (die task : Nat) (va : DWord) : State × Nat :=
  let t := s.task task
  match (if vaCanonical va then s.rootAt dev t.space else none) with
  | none => (s, 4)
  | some root =>
    let v := (va.extractLsb' 0 57).toNat
    match walkToLeafSlot s.mem (baseOf dev) v 5 root with
    | none => (s, 4)
    | some at_ =>
      let slot := baseOf dev + at_
      let e := s.mem.read64 slot
      if !pteV e && !pteZeroTouch e then (s, 4)
      else if pteV e then (s.seeEntry die t.space v slot, 1)
      else if s.pagesSpent t then (s, 3)
      else
        match s.poolAt dev (pteHome e) with
        | [] => (s, 2)
        | page :: _ =>
          let n := pageNumber dev page
          let s := (s.modPool dev (pteHome e) List.tail).modMem fun m =>
            (m.zeroPage n).writeBytes slot (bytesOfNat 8 (poolEntry e page).toNat)
          ({ (s.seeEntry die t.space v slot).hideEntry die slot e with
              pagesUsed := t.chain.foldl (fun l r => chargePage l t.space r.va n) s.pagesUsed
              pageSlots := s.pageSlots ++ [(n, slot)] }, 0)

/-- The one atomic step of PGMAP by an agent of a die for a VA in a task's table: the status (R345). It is made at the home,
and walks that the die begins afterwards read what it wrote or found. -/
def State.mapPage (s : State) (die task : Nat) (va : DWord) : State × Nat := s.mapAt none die task va

def execPgmap (vd va : Reg) (s : State) : Out :=
  onAny s 1 fun c =>
    if c.ag.frames = [] then c.priv
    else c.params (regRun (rn va) 2) fun ws =>
      let r := c.s.mapPage c.die c.team.task (pairOf ws 0)
      .retire (r.1.modAgent c.a fun ag => ag.writeWords (rn vd) false [BitVec.ofNat 32 r.2])

/-! ### SYSC (R344) -/

/-- The deadline that a die holds for a task (R265). -/
def Task.deadlineOn (t : Task) (die : Nat) : DWord :=
  match t.deadlines.find? (·.1 == die) with
  | some p => p.2
  | none => ((t.deadlines.find? (·.1 == t.issuingDie)).map (·.2)).getD (BitVec.allOnes 64)

/-- Services from 16 on act as a PHASE at the launch domain when they issue and when they return. -/
def execSysc (vd va : Reg) (n : BitVec 10) (s : State) : Out :=
  onAny s 1 fun c =>
    match n.toNat with
    | 0 => c.retireWords (rn vd) false (pairWords c.task.args)
    | 1 => c.retireWords (rn vd) false (pairWords ((c.task.chain.head?.map (·.va)).getD 0#64))
    | 2 => c.retireWords (rn vd) false (pairWords (c.task.deadlineOn c.die))
    | m =>
      if m < 16 then c.illegal
      else c.params (regRun (rn va) 2) fun ws => c.releasing .home fun s =>
        .hold (s.refresh c.a .home) (.service m (pairOf ws 0) (rn vd))

end Sys2Proof.Machine
end

