-- ==== Sys2Proof/Machine/Arrival.lean ====
section
/-! DEFINITION. Arrival words (R55, R214), the tag table (R206, R208), timelines (R54, R212), codebook loads (R330). -/

namespace Sys2Proof.Machine

/-! ### Arrival words (R55) -/

def arrTarget (w : DWord) : Nat := (w.extractLsb' 0 28).toNat

def arrWord (gen : Nat) (err : Bool) (count target : Nat) : DWord :=
  BitVec.ofNat 7 gen ++ BitVec.ofBool err ++ BitVec.ofNat 28 count ++ BitVec.ofNat 28 target

/-- The largest count of an arrival word. -/
def arrMax : Nat := 2 ^ 28 - 1

/-- Arrive (R55); where COUNT + n passes the field, COUNT is left at the top and ERR is set (R214), and an armed word, which then has
reached its target, goes to its next generation all the same (DEDUCED from R55; log 17). `err` is an ERR that the arrival itself
sets (R211, R333). -/
def arrive (w : DWord) (n : Nat) (err : Bool) : DWord :=
  let sum := arrCount w + n
  let t := arrTarget w
  let full := decide (t ≠ 0 ∧ t ≤ sum)
  let beyond := decide (arrMax < sum)
  arrWord (if full then (arrGen w + 1) % 128 else arrGen w) (arrErr w || err || beyond || (full && decide (t < sum)))
    (if beyond then arrMax else if full then sum - t else sum) t

/-- An arrival step of an engine on the word at a key: one atomic step at the core (R55), a write like its others (R225). -/
def State.arriveAt (s : State) (a k n : Nat) (err : Bool) : State :=
  let s := s.settleBytes a k 8 .core
  s.engineWrite a { key := k, bytes := bytesOfNat 8 (arrive (s.mem.read64 k) n err).toNat, marks := [] }

/-- The same by an instruction: its own agent sees it at once (R222). A mark of the word is not read and stays (log 17). -/
def State.arriveOwn (s : State) (a k : Nat) (w : DWord) : State :=
  s.writeAtPoint a .core { key := k, bytes := bytesOfNat 8 w.toNat, marks := [] }

/-- Steps 3 to 7 of R197 on an arrival word Ln[Va...] with the operand in vb: it must exist in every bounds mode (R214).
The continuation receives its key and the operand. -/
def Ctx.arrivalWord (c : Ctx) (va vb : Reg) (lay : BitVec 6) (k : Nat → Word → Done) : Done :=
  let l := { c.layout lay with mode := 0#8 }
  if !l.valid || !l.isLocal || l.size != 8 || decide (c.n < rn va + l.nd) then c.trapAll causeLayout
  else c.params (regRun (rn va) l.nd ++ [rn vb]) fun ws =>
    match (l.spot (ws.dropLast.map BitVec.toInt)).offset with
    | none => c.trapAll causeLayout
    | some off =>
      if c.breaksLimit l off 8 then c.trapAt causeLocalBounds c.act (BitVec.ofNat 64 off) 0
      else if off % 8 ≠ 0 then c.trapAt causeAlign c.act (BitVec.ofNat 64 off) 0
      else k (localKey c.ag.team off) (ws.getLastD 0#32)

/-- AEXPECT sets TARGET and arrives with 0 in one step. -/
def execAexpect (va vb : Reg) (lay : BitVec 6) (s : State) : Out :=
  onAny s 1 fun c => c.arrivalWord va vb lay fun k v =>
    let s := c.s.settleBytes c.a k 8 .core
    let w := s.mem.read64 k
    .retire (s.arriveOwn c.a k
      (arrive (arrWord (arrGen w) (arrErr w) (arrCount w) (v.extractLsb' 0 28).toNat) 0 false))

/-- AARRIVE releases at CORE, then arrives. -/
def execAarrive (va vb : Reg) (lay : BitVec 6) (s : State) : Out :=
  onAny s 1 fun c => c.arrivalWord va vb lay fun k v =>
    if arrMax < v.toNat then c.trapAll causeArriveOvf
    else c.releasing (pointOf c.isWarp 2) fun s =>
      let s := s.settleBytes c.a k 8 .core
      .retire (s.arriveOwn c.a k (arrive (s.mem.read64 k) v.toNat false))

/-- AWAIT waits until GEN has moved, acquires, and traps if ERR is 1. -/
def execAwait (va vb : Reg) (lay : BitVec 6) (s : State) : Out :=
  onAny s 1 fun c => c.arrivalWord va vb lay fun k v =>
    let w := c.s.mem.read64 k
    if arrGen w = (v.extractLsb' 0 7).toNat then .hold c.s .polling
    else
      let c' := { c with s := c.s.refresh c.a .home }
      if arrErr w then c'.trapAll causeArriveOvf else .retire c'.s

/-! ### Timelines (R54, R212) -/

/-- What a timeline reads when `issued` operations have been numbered and some are in flight. -/
def timelineOf (issued : Nat) (inFlight : List Nat) : Nat :=
  match lowestOf inFlight with
  | some n => n - 1
  | none => issued

def Agent.copyTimeline (ag : Agent) : Nat := timelineOf ag.copyIssued (ag.copyOps.map (·.num))
def TileCtx.winnowerTimeline (t : TileCtx) : Nat := timelineOf t.issued (t.ops.map (·.num))
def TileCtx.matrixTimeline (t : TileCtx) : Nat := t.committed - t.batches.length

/-- The numbers committed on the timeline of an engine code, and what it reads; none for a code that the agent lacks. -/
def Agent.engine (ag : Agent) (code : Nat) : Option (Nat × Nat) :=
  match code with
  | 0 => some (ag.copyIssued, ag.copyTimeline)
  | 1 => if ag.kind = .tileSeq then some (ag.tile.committed, ag.tile.matrixTimeline) else none
  | 2 => if ag.kind = .tileSeq then some (ag.tile.issued, ag.tile.winnowerTimeline) else none
  | _ => none

def execTlwait (va vb : Reg) (s : State) : Out :=
  onAny s 1 fun c => c.params (rn va :: regRun (rn vb) 2) fun ws =>
    let n := (pairOf ws 1).toNat
    match c.ag.engine (ws.getD 0 0#32).toNat with
    | none => c.illegal
    | some (issued, reads) =>
      if issued < n then c.illegal
      else if n ≤ reads then .retire (c.s.refresh c.a .home)
      else .hold c.s .polling

/-! ### The tag table (R206, R208) -/

/-- Tag entries that a team sees. -/
def Ctx.tagCount (c : Ctx) : Nat := min (c.task.localAlloc / 1024) (c.s.cores.getD c.core default).tags

/-- Does a run cover one of n slots from s on? -/
def Tag.touches (t : Tag) (s n : Nat) : Bool := decide (t.start < s + n) && decide (s < t.start + t.length)

/-- Remove every run that covers one of n slots from s on. -/
def clearTags (l : List Tag) (s n : Nat) : List Tag := l.filter fun t => !t.touches s n

/-- A slot number must lie within the team's range (R206). For a run that begins within it and ends beyond, ADDR is the offset of
the first slot out of range (DEDUCED: R206 gives ADDR for one slot; log 18). -/
def Ctx.slotsOk (c : Ctx) (s n : Nat) (k : Done) : Done :=
  if s + n ≤ c.tagCount then k
  else c.trapAt causeLocalBounds c.act (BitVec.ofNat 64 (1024 * max s c.tagCount)) 0

def execTagset (va vb : Reg) (s : State) : Out :=
  onAny s 1 fun c => c.params [rn va, rn vb] fun ws =>
    let slot := (ws.getD 0 0#32).toNat
    let tag : Tag := { start := slot, state := .ready, key := ws.getD 1 0#32, length := 1, filler := none }
    c.slotsOk slot 1 <| .retire (c.s.modTeam c.ag.team fun t => { t with tags := clearTags t.tags slot 1 ++ [tag] })

def execTagclr (va : Reg) (s : State) : Out :=
  onAny s 1 fun c => c.params [rn va] fun ws =>
    let slot := (ws.getD 0 0#32).toNat
    c.slotsOk slot 1 <| .retire (c.s.modTeam c.ag.team fun t => { t with tags := clearTags t.tags slot 1 })

/-! ### PREF (R217), CBLOAD (R330) -/

/-- A prefetch changes no architectural state. -/
def execPref (_va : Reg) (_lay : BitVec 6) (_hint : BitVec 4) (s : State) : Out := onAny s 1 fun c => .retire c.s

/-- The failure of an element, as cause, address and access. -/
def Place1.failure : Place1 → Option (Nat × Nat × Nat)
  | .fail cause addr access => some (cause, addr, access)
  | _ => none

/-- The first failure in the order of R197 and R198: bounds, LOCAL_BOUNDS, ALIGN, then translation. -/
def firstFailure (ps : List Place1) : Option (Nat × Nat × Nat) :=
  let fs := ps.filterMap Place1.failure
  match fs.find? (·.1 == causeLayout), fs.find? (·.1 == causeLocalBounds), fs.find? (·.1 == causeAlign) with
  | some f, _, _ => some f
  | none, some f, _ => some f
  | none, none, some f => some f
  | none, none, none => fs.head?

/-- An entry of a codebook table with its mark; an absent element gives 0. -/
def Place1.entry (m : Memory) : Place1 → Word × Bool
  | .put k => (BitVec.ofNat 32 (m.readNat k 2), m.anyMarked k 2)
  | _ => (0#32, false)

def execCbload (va : Reg) (lay : BitVec 6) (k : BitVec 3) (s : State) : Out :=
  onAny s 1 fun c =>
    let l := c.layout lay
    if !l.valid || l.size != 2 || decide (c.n < rn va + l.nd) then c.trapAll causeLayout
    else c.params (regRun (rn va) l.nd) fun ws =>
      let xs := ws.map BitVec.toInt
      c.peerGate l (l.reaches ((List.range 16).map fun (e : Nat) => xs.modify 0 (· + (e : Int)))) <|
      let ps := (List.range 16).map fun (e : Nat) =>
        let at_ := xs.modify 0 (· + (e : Int))
        match c.place1 l at_ 2 .read with
        | .unanswered => Place1.fail causePerm ((l.spot at_).offset.getD 0) 0
        | p => p
      match firstFailure ps with
      | some (cause, addr, access) =>
        .trap c.s { cause := cause, mask := c.act, addr := BitVec.ofNat 64 addr, access := access, level := none
                    partDone := false, peer := c.s.peerOf l }
      | none =>
        let m := c.s.engineMem c.a
        .retire (c.upd fun ag => { ag with codebooks := ag.codebooks.set k.toNat (ps.map (Place1.entry m)) })

end Sys2Proof.Machine
end

