-- ==== Sys2Proof/Machine/Copies.lean ====
section
/-! DEFINITION. Asynchronous copies, fills and format expansion (R209 to R213, R331 to R334). -/

namespace Sys2Proof.Machine

/-! ### Elements -/

/-- Where the bytes of an element lie, or why it fails (R211). -/
inductive ElemAt where
  | absent
  | bytes (ks : List Nat)
  | fail
  deriving DecidableEq, Repr, Inhabited

/-- The limits of R192 for an agent's task. -/
def Task.breaksLimit (t : Task) (l : Layout) (off size : Nat) : Bool :=
  (l.isLocal && decide (t.localAlloc < off + size)) || (l.isGran && decide (t.info.granary < off + size))

/-- The keys of consecutive offsets, each placed on its own. -/
def State.placeBytes (s : State) (a : Nat) (l : Layout) (acc : Access) : List Nat → Option (List Nat)
  | [] => some []
  | o :: os =>
    match s.place (s.agent a).team (s.taskOf a) (s.coreOf a) l o acc, s.placeBytes a l acc os with
    | .key k, some ks => some (k :: ks)
    | _, _ => none

/-- An element of an agent's operation: R194, R192, then translation. A copy asks for no alignment (R210, R211). -/
def State.elementAt (s : State) (a : Nat) (l : Layout) (xs : List Int) (acc : Access) : ElemAt :=
  match l.spot xs with
  | .out => .fail
  | .absent => .absent
  | .at off =>
    if (s.task (s.taskOf a)).breaksLimit l off l.size then .fail
    else if off % l.size = 0 then
      match s.place (s.agent a).team (s.taskOf a) (s.coreOf a) l off acc with
      | .key k => .bytes ((List.range l.size).map (k + ·))
      | _ => .fail
    else
      match s.placeBytes a l acc ((List.range l.size).map (off + ·)) with
      | some ks => .bytes ks
      | none => .fail

/-- The bytes of an element with their marks; an absent one reads 0, unpoisoned. -/
def ElemAt.read (m : Memory) (size : Nat) : ElemAt → List (Byte × Bool)
  | .bytes ks => ks.map fun k => (m.read k, m.marked k)
  | _ => List.replicate size (0#8, false)

def elemNat (d : List (Byte × Bool)) : Nat := natOfBytes (d.map (·.1))
def elemMark (d : List (Byte × Bool)) : Bool := d.any (·.2)

/-- The accesses that write an element. -/
def elemStores (ks : List Nat) (d : List (Byte × Bool)) : List Store :=
  let k0 := ks.headD 0
  if ks = (List.range d.length).map (k0 + ·) ∧ k0 % d.length = 0 then
    [storeOf k0 d.length (d.map (·.1))
      ((List.range ((d.length + 3) / 4)).map fun j => elemMark ((d.drop (4 * j)).take 4))]
  else (ks.zip d).map fun p => storeOf p.1 1 [p.2.1] [p.2.2]

/-- Write an element for an engine; none when a matrix operation's fetch holds the write (R328). It is never buffered, SHARED
entry or not (R202; log 45). -/
def State.writeElem (s : State) (a : Nat) (e : ElemAt) (d : List (Byte × Bool)) : Option State :=
  match e with
  | .bytes ks =>
    if ks.any (s.fetchHolds · 1) then none
    else some ((elemStores ks d).foldl (fun (s : State) st => s.engineWrite a st) s)
  | _ => some s

/-! ### The walk (R210) -/

/-- Advance a walk by one step from dimension k on. -/
def Layout.step (l : Layout) : Nat → List Int → List Int
  | _, [] => []
  | _, [x] => [x + 1]
  | k, x :: rest => if x + 1 = l.ext k then 0 :: l.step (k + 1) rest else (x + 1) :: rest

/-- The outcome of a run of elements: it may be held, or end at an element that fails. -/
inductive RunEnd where
  | held
  | done (s : State) (failed : Bool)

/-- The coordinates in O of element i: those of the walk, or moved by an index; none when the index cannot be used (R210,
R211). -/
def State.copyOther (s : State) (op : CopyOp) (a : Nat) (m : Memory) (i : Nat) (o : List Int) : Option (List Int) :=
  match op.kind with
  | .gather | .scatter =>
    match s.elementAt a op.index [op.indexFrom + i] .read with
    | .fail => none
    | e => if elemMark (e.read m 4) then none else some (op.otherFrom.modify 0 (· + (elemNat (e.read m 4) : Int)))
  | _ => some o

/-- Move element i; `m` is memory as the copy reads it, w the walked position, o the position in O. -/
def State.copyElem (s : State) (op : CopyOp) (a : Nat) (m : Memory) (i : Nat) (w o : List Int) : RunEnd :=
  match s.copyOther op a m i o with
  | none => .done s true
  | some other =>
    let (src, dst) := match op.kind with
      | .scatter => (s.elementAt a op.walked w .read, s.elementAt a op.other other .write)
      | _ => (s.elementAt a op.other other .read, s.elementAt a op.walked w .write)
    if src = .fail ∨ dst = .fail then .done s true
    else
      match s.writeElem a dst (src.read m op.walked.size) with
      | none => .held
      | some s => .done s false

/-- Move elements one by one, up to one that fails. -/
def State.copyRun (op : CopyOp) (a : Nat) (m : Memory) : Nat → Nat → List Int → List Int → State → RunEnd
  | 0, _, _, _, s => .done s false
  | n + 1, i, w, o, s =>
    match s.copyElem op a m i w o with
    | .held => .held
    | .done s true => .done s true
    | .done s false => s.copyRun op a m n (i + 1) (op.walked.step 0 w) (op.other.step 0 o)

/-! ### Format expansion (R110 to R112, R331, R333) -/

/-- Bits of an element of the source. -/
def srcBits (sfmt : Nat) : Nat := match sfmt with | 2 | 5 | 6 => 4 | 7 => 3 | _ => 8
def blockSize (sfmt : Nat) : Nat := match sfmt with | 0 | 1 => 32 | 2 => 16 | 7 => 128 | _ => 1
/-- Does the format use X? -/
def usesX (sfmt : Nat) : Bool := decide (sfmt ≤ 2) || sfmt == 7
/-- The ESIZE of X and of the destination. -/
def xEsize (sfmt : Nat) : Nat := if sfmt = 7 then 4 else 0
def dstEsize (dfmt : Nat) : Nat := match dfmt with | 0 => 3 | 1 => 2 | 2 | 3 => 1 | _ => 0

/-- The value of a code (R104, R106): a BF16 table entry for the codebooks. -/
def codeVal (sfmt : Nat) (extra : BitVec 16) (table : List (Word × Bool)) (code : Nat) : FVal :=
  match sfmt with
  | 0 | 3 => e4m3.val code
  | 1 | 4 => e5m2.val code
  | 2 | 5 => if code = 8 then bf16.val extra.toNat else e2m1.val code
  | _ => bf16.val (table.getD code (0#32, false)).1.toNat

/-- A value times a power of two. -/
def FVal.scale (v : FVal) (k : Int) : FVal :=
  match v with
  | .fin n m e => .fin n m (e + k)
  | v => v

/-- The value of an element in its block: a scale code of 0xFF makes it NaN (R110, R111). -/
def scaled (v : FVal) (scale : Option Nat) : FVal :=
  match scale with
  | none => v
  | some 255 => .nan false
  | some k => v.scale ((k : Int) - 127)

/-- The code of a value in the target, of at most 8 bytes (R333): INT8 saturates, B1 tests for greater than 0. -/
def expandCode (dfmt : Nat) (v : FVal) : Nat :=
  match dfmt with
  | 0 => (roundVal fp64 rne false v).1
  | 1 => (roundVal fp32 rne false v).1
  | 2 => (roundVal bf16 rne false v).1
  | 3 => (roundVal fp16 rne false v).1
  | 4 => (roundVal e4m3 rne false v).1
  | 5 => (roundVal e5m2 rne false v).1
  | 6 => ((roundInt (-128) 127 rne v).1 % 256).toNat
  | _ => if FVal.lt (.fin false 0 0) v then 1 else 0

/-- A byte of the source stream: none when it fails. -/
def State.sourceByte (s : State) (op : CopyOp) (a : Nat) (m : Memory) (j : Nat) : Option (Nat × Bool) :=
  match s.elementAt a op.other (op.otherFrom.modify 0 (· + (j : Int))) .read with
  | .fail => none
  | e => let d := e.read m 1; some (elemNat d, elemMark d)

/-- The code of element i, packed under R109, with its mark. -/
def State.sourceCode (s : State) (op : CopyOp) (a : Nat) (m : Memory) (w i : Nat) : Option (Nat × Bool) :=
  let bit := i * w
  match s.sourceByte op a m (bit / 8) with
  | none => none
  | some (b0, p0) =>
    if bit % 8 + w ≤ 8 then some (b0 / 2 ^ (bit % 8) % 2 ^ w, p0)
    else (s.sourceByte op a m (bit / 8 + 1)).map fun b1 => ((b0 + 256 * b1.1) / 2 ^ (bit % 8) % 2 ^ w, p0 || b1.2)

/-- The eight entries that an ESIZE 4 element of X holds. -/
def tableOf (d : List (Byte × Bool)) : List (Word × Bool) :=
  (List.range 8).map fun e =>
    let x := (d.drop (2 * e)).take 2
    (BitVec.ofNat 32 (elemNat x), elemMark x)

/-- What X gives a block: the scale code and mark, or the table; none when it fails. -/
def State.blockData (s : State) (op : CopyOp) (a : Nat) (m : Memory) (sfmt : Nat) (waits : Bool) (b : Nat) :
    Option (Option Nat × Bool × List (Word × Bool)) :=
  if !usesX sfmt then some (none, false, [])
  else if waits then
    match op.tables[b]? with
    | some [] => none
    | some t => some (none, false, t)
    | none => none
  else
    match s.elementAt a op.index [op.indexFrom + b] .read with
    | .fail => none
    | e =>
      let d := e.read m op.index.size
      if sfmt = 7 then some (none, false, tableOf d) else some (some (elemNat d), elemMark d, [])

/-- Element i expanded: its code in the target, its mark, and whether its scale code is 0xFF. -/
def State.expand (s : State) (op : CopyOp) (a : Nat) (m : Memory) (i : Nat) : Option (Nat × Bool × Bool) :=
  match op.kind with
  | .cpyx sfmt dfmt extra table tarr _ =>
    match s.sourceCode op a m (srcBits sfmt) i, s.blockData op a m sfmt (tarr && sfmt == 7) (i / blockSize sfmt) with
    | some (code, p), some (scale, px, blockTable) =>
      let t := if sfmt = 7 then blockTable else table
      let pt := decide (6 ≤ sfmt) && (t.getD code (0#32, false)).2
      some (expandCode dfmt (scaled (codeVal sfmt extra t code) scale), p || px || pt, scale == some 255)
    | _, _ => none
  | _ => none

/-- Elements of the source that one destination element takes. -/
def perDest (dfmt : Nat) : Nat := if dfmt = 7 then 8 else 1

/-- A destination element: the value, its mark, whether a scale code was 0xFF; none when a source element fails. -/
def State.expandDest (s : State) (op : CopyOp) (a : Nat) (m : Memory) (dfmt : Nat) (j : Nat) : Option (Nat × Bool × Bool) :=
  (List.range (perDest dfmt)).foldl (fun acc b =>
    match acc, s.expand op a m (j * perDest dfmt + b) with
    | some (v, p, x), some (v', p', x') => some (v + v' * 2 ^ b, p || p', x || x')
    | _, _ => none) (some (0, false, false))

/-- The outcome of an expansion, with whether a scale code of 0xFF was met. -/
inductive ExpandEnd where
  | held
  | done (s : State) (failed bad : Bool)

/-- Write destination element j. -/
def State.expandElem (s : State) (op : CopyOp) (a : Nat) (m : Memory) (dfmt j : Nat) (w : List Int) (bad : Bool) :
    ExpandEnd :=
  match s.expandDest op a m dfmt j, s.elementAt a op.walked w .write with
  | none, _ => .done s true bad
  | _, .fail => .done s true bad
  | some (v, p, x), dst =>
    match s.writeElem a dst ((bytesOfNat op.walked.size v).map fun b => (b, p)) with
    | none => .held
    | some s => .done s false (bad || x)

/-- Write destination elements one by one, up to one that fails. -/
def State.expandRun (op : CopyOp) (a : Nat) (m : Memory) (dfmt : Nat) :
    Nat → Nat → List Int → Bool → State → ExpandEnd
  | 0, _, _, bad, s => .done s false bad
  | n + 1, j, w, bad, s =>
    match s.expandElem op a m dfmt j w bad with
    | .held => .held
    | .done s true bad => .done s true bad
    | .done s false bad => s.expandRun op a m dfmt n (j + 1) (op.walked.step 0 w) bad

/-! ### Completion (R210, R211) -/

/-- Bytes that a copy arrives. -/
def CopyOp.amount (op : CopyOp) : Nat :=
  match op.kind with
  | .cpyx _ dfmt _ _ _ _ => if dfmt = 7 then op.count / 8 else op.count * 2 ^ dstEsize dfmt
  | _ => op.count * op.walked.size

/-- A fill's run becomes READY, or INVALID when the fill failed; a cleared run stays so (R208, R209). -/
def fillDone (l : List Tag) (filler : Nat × Nat) (failed : Bool) : List Tag :=
  if failed then l.filter fun t => t.filler != some filler
  else l.map fun t => if t.filler = some filler then { t with state := .ready, filler := none } else t

/-- A copy has written its elements: it arrives, counts a failure, settles its run, and leaves its timeline. -/
def State.copyEnd (s : State) (a : Nat) (op : CopyOp) (failed bad : Bool) : State :=
  let s := if failed then s.countFault (s.dieOf a) (s.task (s.taskOf a)) else s
  let s := match op.arrival with
    | some k => s.arriveAt a k op.amount (failed || bad)
    | none => s
  let s := match op.kind with
    | .fill _ _ => s.modTeam (s.agent a).team fun t => { t with tags := fillDone t.tags (a, op.num) failed }
    | _ => s
  (s.modAgent a fun ag => { ag with copyOps := ag.copyOps.filter (·.num != op.num) }).afterCopy a

/-- The operation numbered `num` of an agent's copy context, changed. -/
def State.modCopy (s : State) (a num : Nat) (f : CopyOp → CopyOp) : State :=
  s.modAgent a fun ag => { ag with copyOps := ag.copyOps.map fun (o : CopyOp) => if o.num = num then f o else o }

/-- The destination elements of a copy. -/
def CopyOp.total (op : CopyOp) : Nat :=
  match op.kind with
  | .cpyx _ dfmt _ _ _ _ => op.count / perDest dfmt
  | _ => op.count

/-- How a copy in flight ends when it writes what it has still to write: none while a write is held (R328). -/
def State.copyOutcome (s : State) (a : Nat) (op : CopyOp) : Option State :=
  match op.kind with
  | .cpyx _ dfmt _ _ _ _ =>
    match s.expandRun op a (s.engineMem a) dfmt (op.total - op.done) op.done op.walkAt op.bad with
    | .held => none
    | .done t failed bad => some (t.copyEnd a op failed bad)
  | _ =>
    match s.copyRun op a (s.engineMem a) (op.total - op.done) op.done op.walkAt op.otherAt with
    | .held => none
    | .done t failed => some (t.copyEnd a op failed false)

/-- A copy that accesses another device through one of some entries waits while a stop signal keeps its accesses back, and 100
microseconds while no device answers (R364): the state in which it waits. -/
def State.entryGate (s : State) (a : Nat) (op : CopyOp) (ls : List Layout) : Option State :=
  let clock := (s.dies.getD (s.dieOf a) default).clock
  if ls.any s.keptBack then some s
  else if ls.any s.silent then
    if op.since = 0 then some (s.modCopy a op.num fun o => { o with since := clock + 1 })
    else if clock < op.since - 1 + Config.peerTimeout then some s
    else none
  else none

/-- The same for the elements of a copy. -/
def State.copyGate (s : State) (a : Nat) (op : CopyOp) : Option State := s.entryGate a op [op.walked, op.other, op.index]

/-- COPY_COMPLETE: a copy in flight writes its remaining elements and completes. -/
def execCopyComplete (agent num : Nat) (s : State) : Out :=
  .next <|
    match (s.agent agent).copyOps.find? (·.num == num) with
    | none => s
    | some op =>
      if !op.tablesReady then s
      else
        match s.copyGate agent op with
        | some t => t
        | none => (s.copyOutcome agent op).getD s

/-- A copy in flight writes its next element before it completes (R192, R225, R334); one that would fail stays for the
end. -/
def State.landCopy (s : State) (a num : Nat) : State :=
  match (s.agent a).copyOps.find? (·.num == num) with
  | none => s
  | some op =>
    if op.total ≤ op.done ∨ (s.copyGate a op).isSome then s
    else
      let next (t : State) (bad : Bool) : State := t.modCopy a num fun o =>
        { o with done := o.done + 1, walkAt := o.walked.step 0 o.walkAt, otherAt := o.other.step 0 o.otherAt, bad := bad }
      match op.kind with
      | .cpyx _ dfmt _ _ _ _ =>
        match s.expandElem op a (s.engineMem a) dfmt op.done op.walkAt op.bad with
        | .done t false bad => next t bad
        | _ => s
      | _ =>
        match s.copyElem op a (s.engineMem a) op.done op.walkAt op.otherAt with
        | .done t false => next t false
        | _ => s

/-- The memory that the reading of a table acquires, as AWAIT does: the home with the accesses of the agent's core on
top (R225, R334). -/
def State.acquired (s : State) (a : Nat) : Memory := (s.pull (s.coreOf a) (s.clusterOf a) .home).corePoint (s.coreOf a)

/-- The table of block b as it stands in memory; the empty list when its element fails. -/
def State.tableAt (s : State) (a : Nat) (op : CopyOp) (b : Nat) : List (Word × Bool) :=
  match s.elementAt a op.index [op.indexFrom + b] .read with
  | .fail => []
  | e => tableOf (e.read (s.acquired a) op.index.size)

/-- CPYX_TABLE_READ: the engine reads the table of the next block, with the writes that were released to its arrival. -/
def execCpyxTableRead (agent num : Nat) (s : State) : Out :=
  .next <|
    match (s.agent agent).copyOps.find? (·.num == num) with
    | none => s
    | some op =>
      match op.kind, op.tableArrival with
      | .cpyx 7 _ _ _ true gen, some k =>
        let b := op.tables.length
        if b < op.count / 128 && tableArrived (s.mem.read64 k) gen b then
          match s.entryGate agent op [op.index] with
          | some t => t
          | none =>
            let t := s.tableAt agent op b
            s.modCopy agent num fun o => { o with tables := o.tables ++ [t] }
        else s
      | _, _ => s

/-! ### Issue (R209, R210, R331, R332) -/

/-- Copies and fills in flight on a core. -/
def State.copiesOn (s : State) (core : Nat) : Nat :=
  (s.agents.map fun ag => if (s.team ag.team).core = core then ag.copyOps.length else 0).foldl (· + ·) 0

/-- Put a copy on the issuer's timeline: it waits for a place among the core's copies; one without elements completes at
once. -/
def Ctx.startCopy (c : Ctx) (s : State) (op : CopyOp) : Done :=
  let op := { op with num := c.ag.copyIssued + 1, walkAt := op.walkFrom, otherAt := op.otherFrom }
  let s' := s.modAgent c.a fun ag => { ag with copyIssued := op.num, copyOps := ag.copyOps ++ [op] }
  if op.count = 0 then .retire (s'.copyEnd c.a op false false)
  else if (c.s.cores.getD c.core default).copies ≤ c.s.copiesOn c.core then .hold c.s .polling
  else .retire s'

/-- An arrival word named by a copy block: its key, or a trap (R210). A misaligned one traps ALIGN, as R214 does for an
instruction's (DEDUCED: R210 names only R194 and R192; log 18). -/
def Ctx.copyArrival (c : Ctx) (use : Bool) (lay : BitVec 6) (w : Word) (k : Option Nat → Done) : Done :=
  if !use then k none
  else
    let l := { c.layout lay with mode := 0#8 }
    match (l.spot [w.toInt]).offset with
    | none => c.trapAll causeLayout
    | some off =>
      if c.breaksLimit l off 8 then c.trapAt causeLocalBounds c.act (BitVec.ofNat 64 off) 0
      else if off % 8 ≠ 0 then c.trapAt causeAlign c.act (BitVec.ofNat 64 off) 0
      else k (some (localKey c.ag.team off))

/-- Is an entry a 1-D LOCAL one with ESIZE 3? -/
def Layout.arrivalOk (l : Layout) : Bool := l.nd == 1 && l.isLocal && l.esize == 3#8

/-- Is an entry 1-D with a given ESIZE? -/
def Layout.lineOk (l : Layout) (esize : Nat) : Bool := l.nd == 1 && l.esize.toNat == esize

/-- Fields of the first register of a copy block. -/
def blkOther (w : Word) : BitVec 6 := w.extractLsb' 0 6
def blkIndex (w : Word) : BitVec 6 := w.extractLsb' 6 6
def blkArr (w : Word) : Bool := w.getLsbD 12
def blkArrLayout (w : Word) : BitVec 6 := w.extractLsb' 13 6
def blkTarr (w : Word) : Bool := w.getLsbD 19
def blkTarrLayout (w : Word) : BitVec 6 := w.extractLsb' 20 6

/-- CPY, GATHER, SCATTER: the checks of R210, then the copy with everything it names captured (R213). X is checked for GATHER and
SCATTER, which read it (DESIGN CHOICE: the list of R210 names no instruction; log 18). -/
def copyIssue (kind : CopyKind) (va vb : Reg) (lay : BitVec 6) (s : State) : Out :=
  onAny s 1 fun c => c.sources (regRun (rn vb) 8) fun bs _ =>
    let w0 := bs.getD 0 0#32
    let n := c.layout lay
    let o := c.layout (blkOther w0)
    let x := c.layout (blkIndex w0)
    let count := (bs.getD 1 0#32).toNat
    if !n.valid || !o.valid || n.esize != o.esize || decide (c.n < rn va + n.nd) ||
        (kind != .cpy && !x.lineOk 2) || (blkArr w0 && !(c.layout (blkArrLayout w0)).arrivalOk) ||
        decide (arrMax < count * n.size) then c.trapAll causeLayout
    else c.params (regRun (rn va) n.nd ++ regRun (rn vb) 8) fun ws =>
      c.copyArrival (blkArr w0) (blkArrLayout w0) (bs.getD 2 0#32) fun arr =>
        c.startCopy c.s
          { num := 0, kind := kind, walked := n, walkFrom := (ws.take n.nd).map BitVec.toInt, other := o
            otherFrom := ((bs.drop 4).take o.nd).map BitVec.toInt, index := x, indexFrom := (bs.getD 3 0#32).toInt
            count := count, arrival := arr, tableArrival := none, tables := [] }

def execCpy (va vb : Reg) (lay : BitVec 6) (s : State) : Out := copyIssue .cpy va vb lay s
def execGather (va vb : Reg) (lay : BitVec 6) (s : State) : Out := copyIssue .gather va vb lay s
def execScatter (va vb : Reg) (lay : BitVec 6) (s : State) : Out := copyIssue .scatter va vb lay s

/-- Do fills of the team that are in flight write any of n slots from s on (R209)? -/
def State.filling (s : State) (team slot n : Nat) : Bool :=
  s.agents.any fun ag => ag.team == team && ag.copyOps.any fun op =>
    match op.kind with
    | .fill s0 n0 => decide (s0 < slot + n) && decide (slot < s0 + n0)
    | _ => false

/-- The slots of a fill as a LOCAL entry of the source's element size. -/
def slotLayout (esize : Byte) (slot slots : Nat) : Layout :=
  { Layout.zero with
    base := BitVec.ofNat 64 (1024 * slot), space := 1#8, esize := esize, dims := 1#8
    extent := [BitVec.ofNat 32 (1024 * slots / 2 ^ esize.toNat), 0#32, 0#32, 0#32]
    stride := [BitVec.ofNat 64 (2 ^ esize.toNat), 0#64, 0#64, 0#64] }

def execFill (va vb : Reg) (lay : BitVec 6) (k : BitVec 4) (s : State) : Out :=
  onAny s 1 fun c =>
    let slots := k.toNat + 1
    let n := c.layout lay
    if !n.valid || decide (c.n < rn vb + n.nd) then c.trapAll causeLayout
    else c.params (regRun (rn va) 2 ++ regRun (rn vb) n.nd) fun ws =>
      let slot := (ws.getD 0 0#32).toNat
      c.slotsOk slot slots <|
        if (c.team.tags.any fun t => t.state == .pending && t.touches slot slots) ||
            c.s.filling c.ag.team slot slots then .hold c.s .polling
        else
          let tag : Tag := { start := slot, state := .pending, key := ws.getD 1 0#32, length := slots
                             filler := some (c.a, c.ag.copyIssued + 1) }
          let s := c.s.modTeam c.ag.team fun t => { t with tags := clearTags t.tags slot slots ++ [tag] }
          c.startCopy s
            { num := 0, kind := .fill slot slots, walked := slotLayout n.esize slot slots, walkFrom := [0], other := n
              otherFrom := (ws.drop 2).map BitVec.toInt, index := Layout.zero, indexFrom := 0
              count := 1024 * slots / n.size, arrival := none, tableArrival := none, tables := [] }

/-- The OPFORMAT conditions of R332. -/
def cpyxBad (bs : List Word) : Bool :=
  let f := bs.getD 3 0#32
  let sfmt := (f.extractLsb' 0 4).toNat
  let dfmt := (f.extractLsb' 4 4).toNat
  let count := (bs.getD 1 0#32).toNat
  decide (8 ≤ sfmt) || decide (8 ≤ dfmt) || f.extractLsb' 11 5 != 0#5 || (bs.getD 0 0#32).extractLsb' 26 6 != 0#6 ||
    (bs.getD 7 0#32).extractLsb' 7 25 != 0#25 || count % blockSize sfmt != 0 || (dfmt == 7 && count % 8 != 0) ||
    decide (arrMax < if dfmt = 7 then count / 8 else count * 2 ^ dstEsize dfmt)

/-- The LAYOUT conditions of R332. -/
def Ctx.cpyxLayouts (c : Ctx) (va : Reg) (n : Layout) (bs : List Word) : Bool :=
  let w0 := bs.getD 0 0#32
  let f := bs.getD 3 0#32
  let sfmt := (f.extractLsb' 0 4).toNat
  let dfmt := (f.extractLsb' 4 4).toNat
  n.valid && (n.isLocal || n.isGran) && decide (rn va + n.nd ≤ c.n) &&
    (decide (8 ≤ dfmt) || n.esize.toNat == dstEsize dfmt) && (c.layout (blkOther w0)).lineOk 0 &&
    (!usesX sfmt || (c.layout (blkIndex w0)).lineOk (xEsize sfmt)) &&
    (!blkArr w0 || (c.layout (blkArrLayout w0)).arrivalOk) && (!blkTarr w0 || (c.layout (blkTarrLayout w0)).arrivalOk)

/-- CPYX. The OPFORMAT conditions are tested after those of R210 (DESIGN CHOICE: R332 gives no order among them; log 18). -/
def execCpyx (va vb : Reg) (lay : BitVec 6) (s : State) : Out :=
  onAny s 1 fun c => c.sources (regRun (rn vb) 8) fun bs _ =>
    let w0 := bs.getD 0 0#32
    let f := bs.getD 3 0#32
    let n := c.layout lay
    if !c.cpyxLayouts va n bs then c.trapAll causeLayout
    else c.params (regRun (rn va) n.nd ++ regRun (rn vb) 8) fun ws =>
      c.copyArrival (blkArr w0) (blkArrLayout w0) (bs.getD 2 0#32) fun arr =>
        c.copyArrival (blkTarr w0) (blkTarrLayout w0) (bs.getD 6 0#32) fun tarr =>
          if cpyxBad bs then c.trapAt causeOpformat 1#32 0#64 0
          else
            c.startCopy c.s
              { num := 0
                kind := .cpyx (f.extractLsb' 0 4).toNat (f.extractLsb' 4 4).toNat (f.extractLsb' 16 16)
                  (c.ag.codebooks.getD (f.extractLsb' 8 3).toNat []) (blkTarr w0) ((bs.getD 7 0#32).extractLsb' 0 7).toNat
                walked := n, walkFrom := (ws.take n.nd).map BitVec.toInt, other := c.layout (blkOther w0)
                otherFrom := [(bs.getD 4 0#32).toInt], index := c.layout (blkIndex w0)
                indexFrom := (bs.getD 5 0#32).toInt, count := (bs.getD 1 0#32).toNat, arrival := arr
                tableArrival := tarr, tables := [] }

end Sys2Proof.Machine
end

