-- ==== Sys2Proof/Machine/Streams.lean ====
section
/-! DEFINITION. Indirect streams (R215, R216). -/

namespace Sys2Proof.Machine

/-- Stream m of an agent. -/
def Agent.stream (ag : Agent) (m : Nat) : Stream := ag.streams.getD m default

def State.setStream (s : State) (a m : Nat) (f : Stream → Stream) : State :=
  s.modAgent a fun ag => { ag with streams := ag.streams.modify m f }

/-- Where an element of a stream lies. -/
inductive StreamAt where
  /-- Its key, none when it is absent, and whether its index is poisoned. -/
  | here (k : Option Nat) (poison : Bool)
  /-- A poisoned index forms an address that fails: there is no trap and no place (R215). -/
  | lost
  | wait
  | fail (cause addr access : Nat) (peer : Option Nat)
  deriving DecidableEq, Repr

/-- The index of element i with its mark, read by the stream unit. -/
def Ctx.streamIndex (c : Ctx) (x : Stream) (i : Nat) : Except (Nat × Nat × Nat) (Nat × Bool) :=
  let at_ := [x.start + i]
  match c.place1 x.index at_ 4 .read with
  | .put k => let m := c.s.engineMem c.a; .ok (m.readNat k 4, m.anyMarked k 4)
  | .fail cause addr access => .error (cause, addr, access)
  | .unanswered => .error (causePerm, (x.index.spot at_).offset.getD 0, 0)
  | _ => .ok (0, false)

/-- Element i of a stream: entry n at (coordinate 0 + X[s + i], coordinate 1, …). A poisoned index takes no trap, whatever its
bits address (R215). -/
def Ctx.streamElem (c : Ctx) (x : Stream) (i : Nat) : StreamAt :=
  let acc : Access := if x.write then .write else .read
  match c.streamIndex x i with
  | .error (cause, addr, access) => .fail cause addr access (c.s.peerOf x.index)
  | .ok (idx, p) =>
    let at_ := x.coords.modify 0 (· + (idx : Int))
    match c.place1 x.entry at_ x.entry.size acc with
    | .put k => .here (some k) p
    | .skip => .here none p
    | .wait => .wait
    | .fail cause addr access => if p then .lost else .fail cause addr access (c.s.peerOf x.entry)
    | .unanswered =>
      if p then .lost else .fail causePerm ((x.entry.spot at_).offset.getD 0) acc.code (c.s.peerOf x.entry)

/-- Does an access by n lanes go beyond the count, name a stream never set up, or one of the other direction? -/
def Stream.refuses (x : Stream) (write : Bool) (n : Nat) : Bool :=
  !x.setUp || x.write != write || decide (x.count < x.next + n)

/-- The trap of the lanes that an element which fails leaves undone (R198, R216). -/
def streamTrap (rest : List Nat) (cause addr access : Nat) (peer : Option Nat) : Trap :=
  { cause := cause, mask := maskOf fun j => rest.contains j, addr := BitVec.ofNat 64 addr, access := access
    level := none, partDone := true, peer := peer }

/-- A stream instruction whose entries name another device waits as R364 gives. -/
def Ctx.streamGate (c : Ctx) (x : Stream) (k : Done) : Done := c.peerGate x.index true (c.peerGate x.entry true k)

/-! ### SETUPIS -/

/-- SETUPIS. The bits of its block that name nothing are not read (R215; log 18). -/
def execSetupis (va vb : Reg) (lay : BitVec 6) (k : BitVec 4) (s : State) : Out :=
  onAny s 1 fun c => c.sources (regRun (rn vb) 4) fun bs _ =>
    let m := (k.extractLsb' 0 3).toNat
    let n := c.layout lay
    let x := c.layout (blkOther (bs.getD 0 0#32))
    if !n.valid || decide (2 < n.esize.toNat) || decide (c.n < rn va + n.nd) || !x.lineOk 2 then c.trapAll causeLayout
    else c.params (regRun (rn va) n.nd ++ regRun (rn vb) 4) fun ws =>
      let old := c.ag.stream m
      if old.write && old.fifo != [] then .hold c.s .polling
      else
        .retire (c.s.setStream c.a m fun _ =>
          { setUp := true, write := k.getLsbD 3, entry := n, index := x, coords := (ws.take n.nd).map BitVec.toInt
            start := (bs.getD 1 0#32).toInt, count := (bs.getD 2 0#32).toNat, next := 0, fifo := [] })

/-! ### SPOP -/

/-- The word of a lost element: a free value (log 49). -/
def State.lostWord (s : State) (i : Nat) : Word := Config.streamElement s.freshNo i

/-- Take elements for lanes one by one: what each lane receives, the stream after it, and the trap that ends it. An element
without a place gives the word that stands with it. -/
def Ctx.popRun (c : Ctx) : List Nat → Stream → List (Nat × Word × Bool) → List (Nat × Word × Bool) × Stream × Option Trap
  | [], x, outs => (outs, x, none)
  | i :: rest, x, outs =>
    let get (k : Option Nat) (w : Word) (p : Bool) : Nat × Word × Bool :=
      match k with
      | some k => (i, loadWord c.ag.view k x.entry.size 0, p || loadMark c.ag.view k 0)
      | none => (i, w, p)
    match x.fifo with
    | (k, w, p) :: more => c.popRun rest { x with fifo := more, next := x.next + 1 } (outs ++ [get k w p])
    | [] =>
      match c.streamElem x x.next with
      | .here k p => c.popRun rest { x with next := x.next + 1 } (outs ++ [get k 0#32 p])
      | .lost => c.popRun rest { x with next := x.next + 1 } (outs ++ [get none (c.s.lostWord x.next) true])
      | .wait => (outs, x, none)
      | .fail cause addr access peer => (outs, x, some (streamTrap (i :: rest) cause addr access peer))

/-- SPOP. SHAPE of vd comes before the STREAM check (DESIGN CHOICE: R81 and R216 give no order between them; log 18). -/
def execSpop (vd m : Reg) (ps : PReg) (s : State) : Out :=
  onWarp s 1 fun c => c.guarded ps.toNat fun x =>
    let st := c.ag.stream m.toNat
    if x = 0#32 then .retire c.s
    else if c.g ≤ rn vd then c.trapAll causeShape
    else if st.refuses false (popcount x) then c.trapAt causeStream x 0#64 0
    else c.streamGate st <|
      let (outs, st', t) := c.popRun (lanesOf x) st []
      let fresh := if (List.range outs.length).any fun n => st.fifo.length ≤ n && c.streamElem st (st.next + n) == .lost then 1 else 0
      let get (i : Nat) := ((outs.find? (·.1 == i)).map (·.2)).getD (0#32, false)
      (({ c with s := { c.s.setStream c.a m.toNat fun _ => st' with freshNo := c.s.freshNo + fresh } }).writeLanes (maskOf fun i => outs.any (·.1 == i))
        [out32 (rn vd) none (fun i => (get i).1) (fun i => (get i).2)] 0#6).withTrap t

/-! ### SPUSH -/

/-- Supply elements lane by lane; none when a matrix operation's fetch holds one of the writes (R328). -/
def Ctx.pushRun (c : Ctx) (m va : Nat) : List Nat → State → Option (State × Option Trap)
  | [], s => some (s, none)
  | i :: rest, s =>
    let x := (s.agent c.a).stream m
    match ({ c with s := s }).streamElem x x.next with
    | .wait => none
    | .fail cause addr access peer => some (s, some (streamTrap (i :: rest) cause addr access peer))
    | .here none _ | .lost => c.pushRun m va rest (s.setStream c.a m fun x => { x with next := x.next + 1 })
    | .here (some k) p =>
      let p := p || (c.ag.reg va).marked i
      let st := storeOf k x.entry.size (bytesOfNat 4 (c.ag.word va i).toNat) [p]
      let s :=
        if x.entry.shared && c.deterministic then c.storeThrough x.entry s st
        else (((s.drainOver c.a st).supersede c.a st).showStore c.a st).setStream c.a m fun x =>
          { x with fifo := x.fifo ++ [(some k, c.ag.word va i, p)] }
      c.pushRun m va rest (s.setStream c.a m fun x => { x with next := x.next + 1 })

def execSpush (va m : Reg) (ps : PReg) (s : State) : Out :=
  onWarp s 1 fun c => c.guarded ps.toNat fun x =>
    let st := c.ag.stream m.toNat
    if x = 0#32 then .retire c.s
    else if st.refuses true (popcount x) then c.trapAt causeStream x 0#64 0
    else c.streamGate st <| c.withRoom st.entry (popcount x) fun c =>
      match c.pushRun m.toNat (rn va) (lanesOf x) c.s with
      | none => .hold c.s .polling
      | some (s, t) => (Done.retire s).withTrap t

/-! ### The stream unit -/

/-- An agent's own context, for what its engines do at no instruction. -/
def State.ctxOf (s : State) (a : Nat) : Ctx :=
  let ag := s.agent a
  let t := s.team ag.team
  { s := s, a := a, e := 0, ag := ag, en := default, team := t, task := s.task t.task, act := 0#32 }

/-- STREAM_FETCH: the unit takes the next element of a read stream into its FIFO; one that would fault stays for SPOP. -/
def execStreamFetch (agent stream : Nat) (s : State) : Out :=
  .next <|
    let x := (s.agent agent).stream stream
    let i := x.next + x.fifo.length
    if x.setUp && !x.write && decide (i < x.count) && !s.keptBack x.entry && !s.keptBack x.index then
      match (s.ctxOf agent).streamElem x i with
      | .here k p => s.setStream agent stream fun x => { x with fifo := x.fifo ++ [(k, 0#32, p)] }
      | .lost =>
        { s.setStream agent stream fun x => { x with fifo := x.fifo ++ [(none, s.lostWord i, true)] } with freshNo := s.freshNo + 1 }
      | _ => s
    else s

/-- STREAM_STORE: the unit stores the oldest element of a write stream; it joins the stores of its agent. -/
def execStreamStore (agent stream : Nat) (s : State) : Out :=
  .next <|
    let x := (s.agent agent).stream stream
    match x.setUp && x.write, x.fifo with
    | true, (some k, w, p) :: rest =>
      if s.fetchHolds k x.entry.size || s.keptBack x.entry then s
      else
        let st := storeOf k x.entry.size (bytesOfNat 4 w.toNat) [p]
        let s := s.setStream agent stream fun x => { x with fifo := rest }
        if keyKind k = 1 then s.performMem st else { s with corePend := s.corePend ++ [s.pendOf agent st false] }
    | true, (none, _, _) :: rest => s.setStream agent stream fun x => { x with fifo := rest }
    | _, _ => s

end Sys2Proof.Machine
end

