-- ==== Sys2Proof/Machine/Matrix.lean ====
section
/-! DEFINITION. The matrix array: MMA, ACC operations and COMMIT (R316 to R328). -/

namespace Sys2Proof.Machine

/-! ### Types of operation (R319, R321, R324, R325) -/

/-- What an MMA multiplies: K, the bits of an element, the format of its values (none for integers), the number of
slots that an operand with SRC = 1 spans, and the codes of DCVT that it accepts. -/
structure MatType where
  k : Nat
  bits : Nat
  fmt : Option Fmt
  slots : Nat
  codes : List Nat

def matType : Instr → Option MatType
  | .mmaF64 _ _ _ => some ⟨16, 64, some fp64, 1, [0, 1]⟩
  | .mmaBf16 _ _ _ => some ⟨128, 16, some bf16, 2, [2, 3]⟩
  | .mmaF16 _ _ _ => some ⟨128, 16, some fp16, 2, [4, 5]⟩
  | .mmaE4m3 _ _ _ => some ⟨256, 8, some e4m3, 4, [6, 7]⟩
  | .mmaE5m2 _ _ _ => some ⟨256, 8, some e5m2, 4, [8, 9]⟩
  | .mmaI8 _ _ _ => some ⟨256, 8, none, 4, [10]⟩
  | .mmaB1 _ _ _ _ => some ⟨4096, 1, none, 0, []⟩
  | _ => none

/-- The target format and rounding mode of a down-conversion code; none for I8. -/
def dcvtTarget (code : Nat) : Option (Fmt × Mode) :=
  match code with
  | 0 | 1 => some (fp64, rne)
  | 2 => some (bf16, rne)
  | 3 => some (bf16, rz)
  | 4 => some (fp16, rne)
  | 5 => some (fp16, rz)
  | 6 => some (e4m3, rne)
  | 7 => some (e4m3, rz)
  | 8 => some (e5m2, rne)
  | 9 => some (e5m2, rz)
  | _ => none

/-- The size in bytes of a converted element. -/
def dcvtSize (code : Nat) : Nat :=
  match dcvtTarget code with
  | some (f, _) => f.width / 8
  | none => 1

/-- The size of a slot word that a code reads: 8 for a pair. -/
def dcvtSource (code : Nat) : Nat := if code = 0 then 8 else 4

/-- The value of an I32 word. -/
def FVal.ofInt (v : Int) : FVal := .fin (decide (v < 0)) v.natAbs 0

/-- The down-converter (R319). -/
def dcvt (code w : Nat) : Rounded :=
  match dcvtTarget code with
  | some (f, m) =>
    let v := (if code = 0 then fp64 else fp32).val w
    (roundVal f m false v).withReads [v]
  | none =>
    let r := roundInt (-128) 127 rne (FVal.ofInt (BitVec.ofNat 32 w).toInt)
    ((r.1 % 256).toNat, r.2)

/-! ### Operand words (R318) -/

def owSlots (w : Word) : Bool := w.getLsbD 31
def owColumn (w : Word) : Bool := w.getLsbD 30
def owCode (w : Word) : Nat := (w.extractLsb' 26 4).toNat
def owStart (w : Word) : Nat := 256 * (w.extractLsb' 0 26).toNat
def owSlot (w : Word) : Nat := (w.extractLsb' 0 6).toNat
def owQuarter (w : Word) : Nat := (w.extractLsb' 6 2).toNat

/-- A conflict of ORDER = 1 with the width of an element in bits (R320). -/
def orderBad (w : Word) (bits : Nat) : Bool := owColumn w && decide (8 * bits % 128 ≠ 0)

/-- OPFORMAT for a word that names a region (R320). -/
def regionBad (w : Word) (bits : Nat) : Bool := owSlots w || owCode w != 0 || orderBad w bits

/-- OPFORMAT for an operand of an MMA (R320). -/
def MatType.bad (t : MatType) (w : Word) : Bool :=
  if owSlots w then
    orderBad w t.bits || !t.codes.contains (owCode w) || w.extractLsb' 8 18 != 0#18 ||
      (owQuarter w != 0 && t.bits != 64) || owSlot w % t.slots != 0 || decide (64 < owSlot w + t.slots) ||
      (owCode w == 0 && owSlot w % 2 != 0)
  else regionBad w t.bits

/-- The size of an operand region in bytes. -/
def MatType.region (t : MatType) : Nat := 64 * t.k * t.bits / 8

/-- Slots that an operand word reads. -/
def MatType.reads (t : MatType) (w : Word) : List Nat :=
  if owSlots w then regRun (owSlot w) (if owCode w = 0 then 2 else t.slots) else []

/-- The slots that an operation touches (R317). -/
def touched (i : Instr) (wa wb : Word) : List Nat :=
  match i with
  | .mmaF64 _ _ d => regRun d.toNat 2 ++ ((matType i).map fun t => t.reads wa ++ t.reads wb).getD []
  | .mmaBf16 _ _ d | .mmaF16 _ _ d | .mmaE4m3 _ _ d | .mmaE5m2 _ _ d | .mmaI8 _ _ d | .mmaB1 _ _ d _ =>
    d.toNat :: ((matType i).map fun t => t.reads wa ++ t.reads wb).getD []
  | .accz d n => regRun d.toNat (n.toNat + 1)
  | .accld _ d p | .accst _ d p => regRun d.toNat (p.toNat + 1)
  | .acccvt _ d k => regRun d.toNat (if k = 0#4 then 2 else 1)
  | _ => []

/-! ### Slots and regions in memory -/

/-- The key of accumulator slot n: the slots follow the pool of the cluster (R275, R316). -/
def State.slotKey (s : State) (cluster n : Nat) : Nat :=
  granKey cluster (1024 * ((s.clusters.getD cluster default).grankib - 1024) + Config.slotBytes * n)

/-- Element number idx of w bytes of a slot, with its mark. -/
def State.slotElem (s : State) (cluster slot w idx : Nat) : Nat × Bool :=
  let k := s.slotKey cluster slot + w * idx
  (s.mem.readNat k w, s.mem.anyMarked k w)

/-- The Granary byte of a logical byte of a region (R318). -/
def regionByte (start o : Nat) : Nat := (start + o) ^^^ (((start + o) / 128 % 8) * 16)

/-- The key of a logical byte of a region. -/
def State.regionKey (s : State) (cluster task start o : Nat) : Nat := s.granByte cluster task (regionByte start o)

/-- The number of an element in the logical order of a region. -/
def ordIndex (column : Bool) (cols r k : Nat) : Nat := if column then k * 64 + r else r * cols + k

/-- Element number idx of a region of elements of so many bits, with its mark. -/
def State.regionElem (s : State) (m : Memory) (cluster task start bits idx : Nat) : Nat × Bool :=
  let bit := idx * bits
  let k := s.regionKey cluster task start (bit / 8)
  if bits < 8 then ((m.read k).toNat / 2 ^ (bit % 8) % 2 ^ bits, m.marked k)
  else (m.readNat k (bits / 8), m.anyMarked k (bits / 8))

/-- The rows of an operand with its marks, and the flags of the down-converter (R318, R319). -/
def State.operand (s : State) (a : Nat) (t : MatType) (w : Word) : List (List (Nat × Bool)) × Flags :=
  let cluster := s.clusterOf a
  if owSlots w then
    let elem (r k : Nat) : Nat × Bool × Flags :=
      let k' := if t.bits = 64 then 16 * owQuarter w + k else k % 64
      let (i, j) := if owColumn w then (k', r) else (r, k')
      let (v, p) := s.slotElem cluster (owSlot w + k / 64) (dcvtSource (owCode w)) (64 * i + j)
      let q := dcvt (owCode w) v
      (q.1, p, q.2)
    let rows := (List.range 64).map fun r => (List.range t.k).map fun k => elem r k
    (rows.map fun row => row.map fun e => (e.1, e.2.1), rows.foldl (fun f row => row.foldl (fun f e => f ||| e.2.2) f) 0#6)
  else
    let m := s.engineMem a
    ((List.range 64).map fun r => (List.range t.k).map fun k =>
      s.regionElem m cluster (s.taskOf a) (owStart w) t.bits (ordIndex (owColumn w) t.k r k), 0#6)

/-! ### Sums (R121 to R123) -/

/-- Products in groups of 8. -/
def groups8 {α : Type} : Nat → List α → List (List α)
  | 0, _ => []
  | n + 1, l => if l.isEmpty then [] else l.take 8 :: groups8 n (l.drop 8)

/-- The rounded exact sum of one group (R122). -/
def groupSum (f : Fmt) (ps : List (Nat × Nat)) : Rounded :=
  let vs := ps.map fun p => (f.val p.1, f.val p.2)
  let reads := readFlags (vs.flatMap fun v => [v.1, v.2])
  let prods := vs.map fun v => mulVal v.1 v.2
  let r : Rounded :=
    if prods.any Option.isNone then invalid fp32
    else
      let xs := prods.map fun p => p.getD (.nan false)
      if xs.any FVal.isNan then roundNan fp32
      else if xs.contains (.inf true) && xs.contains (.inf false) then invalid fp32
      else if xs.contains (.inf true) then roundInf fp32 true
      else if xs.contains (.inf false) then roundInf fp32 false
      else roundDyadic fp32 rne false (xs.all fun x => x.isNeg && x.isZero)
        (xs.foldl (fun d x => d.add x.dyadic) ⟨0, 0⟩)
  (r.1, r.2 ||| reads)

/-- The sum of R122 from an accumulator word. -/
def groupedFrom (f : Fmt) : List (List (Nat × Nat)) → Nat → Flags → Rounded
  | [], acc, fl => (acc, fl)
  | g :: rest, acc, fl =>
    let t := groupSum f g
    let x := fp32.val acc
    let r := addVal fp32 rne false x (fp32.val t.1)
    groupedFrom f rest r.1 (fl ||| t.2 ||| r.2 ||| readFlags [x])

/-- The sum of the integer types, wrapping (R123). -/
def intFrom (f : Nat → Nat → Int) (ps : List (Nat × Nat)) (acc : Nat) : Nat :=
  ((ps.foldl (fun (n : Int) (p : Nat × Nat) => n + f p.1 p.2) (acc : Int)) % 2 ^ 32).toNat

/-- A signed byte. -/
def byteInt (n : Nat) : Int := (BitVec.ofNat 8 n).toInt

/-- The new accumulator word (R322). -/
def matSum (i : Instr) (ps : List (Nat × Nat)) (acc : Nat) : Rounded :=
  match i with
  | .mmaF64 _ _ _ => dotFrom ps acc 0#6
  | .mmaBf16 _ _ _ => groupedFrom bf16 (groups8 ps.length ps) acc 0#6
  | .mmaF16 _ _ _ => groupedFrom fp16 (groups8 ps.length ps) acc 0#6
  | .mmaE4m3 _ _ _ => groupedFrom e4m3 (groups8 ps.length ps) acc 0#6
  | .mmaE5m2 _ _ _ => groupedFrom e5m2 (groups8 ps.length ps) acc 0#6
  | .mmaB1 _ _ _ k => (intFrom (fun a b => ((if k = 1#1 then a * b else (a + b) % 2 : Nat) : Int)) ps acc, 0#6)
  | _ => (intFrom (fun a b => byteInt a * byteInt b) ps acc, 0#6)

/-! ### Issue (R317, R320, R327) -/

/-- Does an operation of another context of the cluster touch one of these slots (R317)? -/
def State.slotsBusy (s : State) (a : Nat) (slots : List Nat) : Bool :=
  s.agents.zipIdx.any fun p => p.2 != a && s.clusterOf p.2 == s.clusterOf a &&
    p.1.tile.matOps.any fun op => (touched op.instr op.wordA op.wordB).any slots.contains

/-- A region with SRC = 0 that extends beyond the reservation (R192, R320). -/
def Ctx.beyondB (c : Ctx) (w : Word) (size : Nat) : Bool := !owSlots w && decide (c.task.info.granary < owStart w + size)

/-- Stores of the cluster's cores that are on their way to bytes which an operation has yet to fetch are performed as it
issues, so that its fetch meets each of them whole (R328; log 33). -/
def State.clearRegions (s : State) (cluster : Nat) : State :=
  let s := (List.range s.agents.length).foldl
    (fun (s : State) i =>
      if s.clusterOf i == cluster && (s.agent i).streamed.any (fun st => s.fetchHolds st.key st.bytes.length) then
        s.drainStreams i
      else s) s
  s.toCluster fun q => q.cluster == cluster && s.fetchHolds q.store.key q.store.bytes.length

/-- Steps 2 to 4 of R320, then the operation joins its matrix context: each word comes with whether its format is bad
and with the size of its region. When both regions extend beyond B, ADDR is that of the first word's (DESIGN CHOICE: R320 names no order
of the regions; log 33). -/
def Ctx.issueMat (c : Ctx) (i : Instr) (words : List (Word × Bool × Nat)) : Done :=
  if words.any (·.2.1) then c.trapAll causeOpformat
  else
    match words.find? fun w => c.beyondB w.1 w.2.2 with
    | some w => c.trapAt causeLocalBounds c.act (BitVec.ofNat 64 (owStart w.1)) 0
    | none =>
      let wa := (words.getD 0 (0#32, false, 0)).1
      let wb := (words.getD 1 (0#32, false, 0)).1
      if c.s.slotsBusy c.a (touched i wa wb) then c.trapAll causeAccBusy
      else
        let op : MatOp := { instr := i, order := c.s.seq, wordA := wa, wordB := wb, started := false
                            opA := [], opB := [], flags := 0#6 }
        let s := c.s.modAgent c.a fun ag => { ag with tile := { ag.tile with matOps := ag.tile.matOps ++ [op] } }
        .retire ({ s with seq := s.seq + 1 }.clearRegions c.cluster)

/-- An MMA. -/
def mma (i : Instr) (va vb : Reg) (s : State) : Out :=
  onTile s 1 fun c => c.params [rn va, rn vb] fun ws =>
    match matType i with
    | none => c.illegal
    | some t => c.issueMat i (ws.map fun w => (w, t.bad w, t.region))

def execMmaF64 (va vb : Reg) (slot : BitVec 6) (s : State) : Out := mma (.mmaF64 va vb slot) va vb s
def execMmaBf16 (va vb : Reg) (slot : BitVec 6) (s : State) : Out := mma (.mmaBf16 va vb slot) va vb s
def execMmaF16 (va vb : Reg) (slot : BitVec 6) (s : State) : Out := mma (.mmaF16 va vb slot) va vb s
def execMmaE4m3 (va vb : Reg) (slot : BitVec 6) (s : State) : Out := mma (.mmaE4m3 va vb slot) va vb s
def execMmaE5m2 (va vb : Reg) (slot : BitVec 6) (s : State) : Out := mma (.mmaE5m2 va vb slot) va vb s
def execMmaB1 (va vb : Reg) (slot : BitVec 6) (k : BitVec 1) (s : State) : Out := mma (.mmaB1 va vb slot k) va vb s
def execMmaI8 (va vb : Reg) (slot : BitVec 6) (s : State) : Out := mma (.mmaI8 va vb slot) va vb s

def execAccz (slot : BitVec 6) (n : BitVec 4) (s : State) : Out := onTile s 1 fun c => c.issueMat (.accz slot n) []

/-- ACCLD and ACCST: a region of 4,096 words or FP64 values. -/
def accMove (i : Instr) (va : Reg) (pair : BitVec 1) (s : State) : Out :=
  onTile s 1 fun c => c.params [rn va] fun ws =>
    let w := ws.getD 0 0#32
    let bits := if pair = 1#1 then 64 else 32
    c.issueMat i [(w, regionBad w bits, 512 * bits)]

def execAccld (va : Reg) (slot : BitVec 6) (pair : BitVec 1) (s : State) : Out := accMove (.accld va slot pair) va pair s
def execAccst (va : Reg) (slot : BitVec 6) (pair : BitVec 1) (s : State) : Out := accMove (.accst va slot pair) va pair s

def execAcccvt (va : Reg) (slot : BitVec 6) (k : BitVec 4) (s : State) : Out :=
  onTile s 1 fun c => c.params [rn va] fun ws =>
    let w := ws.getD 0 0#32
    let size := dcvtSize k.toNat
    c.issueMat (.acccvt va slot k) [(w, regionBad w (8 * size), 4096 * size)]

/-- Drop the batches whose operations have all completed. -/
def closeBatches (l : List Nat) : List Nat := l.dropWhile (· == 0)

/-- COMMIT closes the open batch and gives it the next number (R326). -/
def TileCtx.commit (t : TileCtx) : TileCtx :=
  let opened := t.matOps.length - t.batches.foldl (· + ·) 0
  { t with batches := closeBatches (t.batches ++ [opened]), committed := t.committed + 1 }

def execCommit (vd : Reg) (s : State) : Out :=
  onTile s 1 fun c =>
    .retire (c.upd fun ag =>
      { ag with tile := ag.tile.commit }.writeWords (rn vd) false
        (pairWords (BitVec.ofNat 64 (ag.tile.committed + 1))))

/-! ### The array (R322 to R328) -/

/-- Does the array come to an operation: is every operation that the cluster's contexts gave the array before it done
(R327)? -/
def State.arrayReaches (s : State) (cluster order : Nat) : Bool :=
  s.agents.zipIdx.all fun p => s.clusterOf p.2 != cluster ||
    (p.1.tile.matOps.all (fun op => decide (order ≤ op.order)) &&
      p.1.tile.ops.all (fun op => op.unit != .array || decide (order ≤ op.order)))

/-- The operands that an operation fetches. -/
def State.fetchOps (s : State) (a : Nat) (op : MatOp) : MatOp :=
  match op.instr, matType op.instr with
  | _, some t =>
    let x := s.operand a t op.wordA
    let y := s.operand a t op.wordB
    { op with opA := x.1, opB := y.1, flags := x.2 ||| y.2, started := true }
  | .accld _ _ p, none =>
    let w := p.toNat + 1
    let m := s.engineMem a
    { op with
      started := true
      opA := (List.range 64).map fun i => (List.range (64 * w)).map fun j =>
        s.regionElem m (s.clusterOf a) (s.taskOf a) (owStart op.wordA) 32
          (w * ordIndex (owColumn op.wordA) 64 i (j / w) + j % w) }
  | _, none => { op with started := true }

def State.setMatOps (s : State) (a : Nat) (f : TileCtx → TileCtx) : State :=
  s.modAgent a fun ag => { ag with tile := f ag.tile }

/-- Teams of a cluster that a fetch has kept from passing the Lodestone or from retiring, their buffered stores being held, do so now
(R34, R271, R328). -/
def State.settleHeld (s : State) (cluster : Nat) : State :=
  (List.range s.teams.length).foldl
    (fun (s : State) t => if clusterOfCore (s.team t).core = cluster ∧ (s.team t).buffer ≠ [] then (s.settlePass t).settleTeam t
      else s) s

/-- MMA_OP_START: the context's next operation fetches its operands, all earlier operations of the context being done. A fetch may
come before the array is through with other contexts (R327, R328; log 33). -/
def execMmaOpStart (agent : Nat) (s : State) : Out :=
  .next <|
    match (s.agent agent).tile.matOps with
    | [] => s
    | op :: rest =>
      if op.started then s
      else (s.setMatOps agent fun t => { t with matOps := s.fetchOps agent op :: rest }).settleHeld (s.clusterOf agent)

/-- A run of elements of w bytes with their marks as one access. -/
def elemsStore (key w : Nat) (es : List (Nat × Bool)) : Store :=
  { key := key
    bytes := es.flatMap fun e => bytesOfNat w e.1
    marks := es.zipIdx.flatMap fun (e, i) => (List.range (w / 4)).map fun j => ((key + w * i) / 4 + j, e.2) }

/-- Write a region: elements of e bytes in logical order, word by word (R318, R322). -/
def State.regionStores (s : State) (a start e : Nat) (es : List (Nat × Bool)) : List Store :=
  let bytes := es.flatMap fun x => (bytesOfNat e x.1).map fun b => (b, x.2)
  (List.range (bytes.length / 4)).map fun w =>
    let four := (bytes.drop (4 * w)).take 4
    storeOf (s.regionKey (s.clusterOf a) (s.taskOf a) start (4 * w)) 4 (four.map (·.1)) [four.any (·.2)]

/-- The place in row order of place n in the logical order of a region. -/
def placeInOrder (column : Bool) (n : Nat) : Nat := if column then 64 * (n % 64) + n / 64 else n

/-- The elements of a slot or pair in the logical order of a region. -/
def State.slotInOrder (s : State) (cluster slot w : Nat) (column : Bool) : List (Nat × Bool) :=
  (List.range 4096).map fun n => s.slotElem cluster slot w (placeInOrder column n)

/-- The words of a slot, or of a pair with w = 2, in the logical order of a region. -/
def State.slotWords (s : State) (cluster slot w : Nat) (column : Bool) : List (Nat × Bool) :=
  (List.range (4096 * w)).map fun n => s.slotElem cluster slot 4 (w * placeInOrder column (n / w) + n % w)

/-- The new words of an accumulator with their marks, and the flags (R322). -/
def State.matResult (s : State) (a : Nat) (op : MatOp) (slot w : Nat) : List (Nat × Bool) × Flags :=
  let cell (row col : List (Nat × Bool)) (idx : Nat) : Nat × Bool × Flags :=
    let old := s.slotElem (s.clusterOf a) slot w idx
    let r := matSum op.instr ((row.zip col).map fun p => (p.1.1, p.2.1)) old.1
    (r.1, old.2 || row.any (·.2) || col.any (·.2), r.2)
  let cells := op.opA.zipIdx.flatMap fun row => op.opB.zipIdx.map fun col => cell row.1 col.1 (64 * row.2 + col.2)
  (cells.map fun x => (x.1, x.2.1), cells.foldl (fun f x => f ||| x.2.2) 0#6)

/-- What an operation writes, and its flags (R322 to R325). -/
def State.matWrites (s : State) (a : Nat) (op : MatOp) : List Store × Flags :=
  let cluster := s.clusterOf a
  let acc (slot : BitVec 6) (w : Nat) : List Store × Flags :=
    let r := s.matResult a op slot.toNat w
    ([elemsStore (s.slotKey cluster slot.toNat) w r.1], op.flags ||| r.2)
  match op.instr with
  | .mmaF64 _ _ d => acc d 8
  | .mmaBf16 _ _ d | .mmaF16 _ _ d | .mmaE4m3 _ _ d | .mmaE5m2 _ _ d | .mmaI8 _ _ d | .mmaB1 _ _ d _ => acc d 4
  | .accz d n =>
    ([elemsStore (s.slotKey cluster d.toNat) 4 (List.replicate (4096 * (n.toNat + 1)) (0, false))], 0#6)
  | .accld _ d _ => ([elemsStore (s.slotKey cluster d.toNat) 4 op.opA.flatten], 0#6)
  | .accst _ d p =>
    (s.regionStores a (owStart op.wordA) 4 (s.slotWords cluster d.toNat (p.toNat + 1) (owColumn op.wordA)), 0#6)
  | .acccvt _ d k =>
    let src := s.slotInOrder cluster d.toNat (dcvtSource k.toNat) (owColumn op.wordA)
    let res := src.map fun e => (dcvt k.toNat e.1, e.2)
    (s.regionStores a (owStart op.wordA) (dcvtSize k.toNat) (res.map fun r => (r.1.1, r.2)),
      res.foldl (fun f r => f ||| r.1.2) 0#6)
  | _ => ([], 0#6)

/-- Does an operation write a region of the Granary, where its context's loads may see it (R225), and not slots? -/
def writesRegion : Instr → Bool
  | .accst _ _ _ | .acccvt _ _ _ => true
  | _ => false

/-- One access of a matrix operation to the Granary. -/
def State.matWrite (s : State) (a : Nat) (op : MatOp) (st : Store) : State :=
  if writesRegion op.instr then s.engineWrite a st else s.performMem st

/-- Does the array run an operation whose operands are fetched (R327)? -/
def State.matRuns (s : State) (a : Nat) (op : MatOp) : Bool := op.started && s.arrayReaches (s.clusterOf a) op.order

/-- An operation that the array runs writes the next word of its region (R192, R225). -/
def State.landMat (s : State) (a : Nat) : State :=
  match (s.agent a).tile.matOps with
  | [] => s
  | op :: rest =>
    match (if s.matRuns a op && writesRegion op.instr then (s.matWrites a op).1[op.done]? else none) with
    | none => s
    | some st => if s.arrayHeld st.key st.bytes.length then s else
      (s.matWrite a op st).setMatOps a fun t => { t with matOps := { op with done := op.done + 1 } :: rest }

/-- The first operation of a context leaves its open batch or the oldest committed one. -/
def TileCtx.popMat (t : TileCtx) : TileCtx :=
  { t with matOps := t.matOps.tail
           batches := closeBatches (match t.batches with
             | [] => []
             | n :: rest => (n - 1) :: rest) }

/-- MMA_OP_COMPLETE: the operation writes what is left of its words and merges its flags. A fetch of another context that is not
done holds the words that it is to read (R328). -/
def execMmaOpComplete (agent : Nat) (s : State) : Out :=
  .next <|
    match (s.agent agent).tile.matOps with
    | [] => s
    | op :: _ =>
      let (sts, fl) := s.matWrites agent op
      if !s.matRuns agent op || (sts.drop op.done).any fun st => s.arrayHeld st.key st.bytes.length then s
      else
        let s := (sts.drop op.done).foldl (fun (s : State) st => s.matWrite agent op st) s
        (s.modAgent agent fun ag => { ag with tile := ag.tile.popMat, sregs := ag.sregs.raise fl }).settleAgent agent

end Sys2Proof.Machine
end

