-- ==== Sys2Proof/Machine/Sequencer.lean ====
section
/-! DEFINITION. Agents at their start (R45 to R52, R274, R330), and sequencer programs: FORK, RDV, HALT (R185, R186,
R347). -/

namespace Sys2Proof.Machine

/-! ### A new agent -/

/-- A ZERO handle (R51, R274). -/
def Handle.zero : Handle := { kind := 0, f32 := false, rank := 0, cap := 0, slab := 0, psn := false }

/-- A stream never set up (R215). -/
def Stream.none : Stream :=
  { setUp := false, write := false, entry := Layout.zero, index := Layout.zero, coords := [], start := 0, count := 0
    next := 0, fifo := [] }

def TileCtx.start : TileCtx :=
  { handles := Vector.replicate 32 Handle.zero, issued := 0, ops := [], matOps := [], batches := []
    committed := 0, statusRegs := [] }

/-- An agent at its start: registers UNIFORM 0, predicates 0, one entry with the given lanes at the given address. -/
def Agent.fresh (kind : AgentKind) (team number : Nat) (pc : DWord) (m : Mask) (sect : Nat) (layouts : Vector Layout 64) :
    Agent :=
  { kind := kind, team := team, number := number, phase := .active
    regs := Vector.replicate 128 VReg.zero
    preds := Vector.replicate 7 (Vector.replicate 32 Pred.zero)
    entries := startEntries kind pc m
    exited := ~~~m, wide := Wide.none, frames := [], sregs := SRegs.start, layouts := layouts
    view := Memory.empty, late := [], copyIssued := 0, copyOps := []
    codebooks := List.replicate 8 (List.replicate 16 (0#32, false))
    streams := List.replicate 8 Stream.none, tile := TileCtx.start, sect := sect }

/-! ### FORK -/

/-- File offset and size of a section of a code object (R92). -/
def CodeInfo.sectionAt (i : CodeInfo) (kind : Nat) : Option (Nat × Nat) := (i.sections.find? (·.1 == kind)).map (·.2)

/-- The contexts of a kind that a cluster has (R63). -/
def ClusterUnit.contexts (u : ClusterUnit) (k : AgentKind) : Nat := if k = .tileSeq then u.seqctx else u.cpyctx

/-- Numbers of the contexts of a kind in a cluster that programs hold; a saved program holds none (R354). -/
def State.contextsHeld (s : State) (cluster : Nat) (k : AgentKind) : List Nat :=
  (s.agents.zipIdx.filter fun p =>
    p.1.kind == k && s.clusterOf p.2 == cluster && p.1.phase != .retired && p.1.phase != .saved).map (·.1.number)

/-- The lowest free context of a kind in a cluster (log 47). -/
def State.freeContext (s : State) (cluster : Nat) (k : AgentKind) : Option Nat :=
  (List.range ((s.clusters.getD cluster default).contexts k)).find? fun n => !(s.contextsHeld cluster k).contains n

/-- Start a sequencer program (R185), the forker's release being done but for what `due` says of it: the state and the join id. -/
def Ctx.startProgram (c : Ctx) (k : AgentKind) (sect number : Nat) (pc : DWord) (vals : List (Word × Bool))
    (due : List (Nat × Point × Bool)) (s : State) : State × Nat :=
  let id := c.team.joins.length + 1
  let b := s.agents.length
  let ag := Agent.fresh k c.ag.team number pc 1#32 sect (Vector.replicate 64 Layout.zero)
  let ag := { ag with regs := Vector.ofFn fun i => (vals[i.val]?).elim VReg.zero fun v => VReg.ofWord v.1 v.2, due := due }
  let s := { s with agents := s.agents ++ [ag] }
  let s := s.modTeam c.ag.team fun t =>
    { t with joins := t.joins ++ [{ id := id, agent := b, result := none, consumed := false }] }
  (s.refresh b .cluster, id)

/-- FORK on one of the two sequencers. The checks come in this order: SHAPE of every register that it reads, POISON of vb, ILLEGAL of the
entry (DESIGN CHOICE: R185 gives none; log 14). It releases at CORE whether or not a context is free; the sequencers lie at the cluster,
so the stores are performed there (log 11). It never waits (R185): SHARED stores that it must release before the team's turn stay
buffered, where they count for the new program's loads already (R222, R272), and the program's memory instructions wait until they have
been performed (DEDUCED from R185, R223 and R272; log 45). -/
def fork (k : AgentKind) (sect : Nat) (vd va vb : Reg) (s : State) : Out :=
  onAny s 1 fun c =>
    match c.ag.ureads (rn vb :: regRun (rn va) 8) with
    | none => c.trapAll causeShape
    | some xs =>
      let (off, p) := xs.headD (0#32, false)
      if p then c.trapAll causePoison
      else
        match c.task.info.sectionAt sect with
        | none => c.illegal
        | some (start, size) =>
          if off.toNat % 4 ≠ 0 ∨ size ≤ off.toNat then c.illegal
          else
            let now := c.s.mayRelease c.a .core
            let s := (if now then c.s.drainFor c.a .core else c.s).sendAll c.a .cluster
            match s.freeContext c.cluster k with
            | none => .retire (s.modAgent c.a fun ag => ag.writeWords (rn vd) false [0#32, 1#32])
            | some n =>
              let pc := c.task.code + BitVec.ofNat 64 (start + off.toNat)
              let (s, id) := c.startProgram k sect n pc xs.tail (if now then [] else [(c.a, .core, true)]) s
              .retire (s.modAgent c.a fun ag => ag.writeWords (rn vd) false [BitVec.ofNat 32 id, 0#32])

def execForkTile (vd va vb : Reg) (s : State) : Out := fork .tileSeq 1 vd va vb s
def execForkCopy (vd va vb : Reg) (s : State) : Out := fork .copySeq 2 vd va vb s

/-! ### RDV -/

/-- Mark a join id consumed. -/
def State.consume (s : State) (team id : Nat) : State :=
  s.modTeam team fun t =>
    { t with joins := t.joins.map fun (j : Join) => if j.id = id then { j with consumed := true } else j }

def execRdv (vd va : Reg) (s : State) : Out :=
  onAny s 1 fun c => c.params [rn va] fun ws =>
    let id := (ws.getD 0 0#32).toNat
    match c.team.joins.find? fun j => j.id == id && !j.consumed with
    | none => c.retireWords (rn vd) false [0xFFFFFFFF#32]
    | some j =>
      match j.result with
      | none => .hold c.s (.rdv id (rn vd))
      | some r =>
        let s := (c.s.consume c.ag.team id).refresh c.a .home
        .retire (s.modAgent c.a fun ag => ag.writeWords (rn vd) false [BitVec.ofNat 32 r])

/-- The register of an entry that waits for a join id. -/
def Entry.rdvDest (id : Nat) (en : Entry) : Option Nat :=
  match en.hold with
  | .rdv n d => if n = id then some d else none
  | _ => none

/-- A fragment released from its RDV. -/
def Entry.rdvGo (id : Nat) (en : Entry) : Entry := if (en.rdvDest id).isSome then en.advance 1 else en

/-- Release an agent's fragments that wait for a join id, also those a handler keeps frozen. -/
def State.releaseRdv (s : State) (id r a : Nat) : State :=
  let ag := s.agent a
  let waiting := (ag.entries ++ ag.frames.flatMap (·.entries)).filter fun en => (en.rdvDest id).isSome
  let dests := waiting.filterMap (·.rdvDest id)
  if dests = [] then s
  else
    let s := (s.refresh a .home).modAgent a fun ag =>
      let ag := dests.foldl (fun ag d => ag.writeWords d false [BitVec.ofNat 32 r]) ag
      { ag with entries := ag.entries.map (·.rdvGo id)
                frames := ag.frames.map fun f => { f with entries := f.entries.map (·.rdvGo id) } }
    (waiting.foldl (fun (s : State) en => s.countAt a en.pc) s).boundary a

/-- Does some fragment of an agent wait for a join id? -/
def Agent.waitsRdv (ag : Agent) (id : Nat) : Bool :=
  (ag.entries ++ ag.frames.flatMap (·.entries)).any fun en => (en.rdvDest id).isSome

/-- A program ends with a result: every RDV that waits receives it, and the id is then consumed (R186). -/
def State.endJoin (s : State) (team id r : Nat) : State :=
  let waiting := (List.range s.agents.length).filter fun a =>
    (s.agent a).team == team && (s.agent a).phase != .saved && (s.agent a).waitsRdv id
  let s := s.modTeam team fun t =>
    { t with joins := t.joins.map fun (j : Join) =>
        if j.id = id then { j with result := some r, consumed := waiting != [] } else j }
  waiting.foldl (fun (s : State) a => s.releaseRdv id r a) s

/-! ### HALT -/

def execHalt (s : State) : Out :=
  onAny s 1 fun c =>
    if c.isWarp then c.illegal
    else
      let s := c.s.sendAll c.a .cluster
      let s := s.modAgent c.a fun ag =>
        { ag with phase := .halting
                  tile := if ag.kind = .tileSeq ∧ ag.tile.batches.foldl (· + ·) 0 < ag.tile.matOps.length then ag.tile.commit
                          else ag.tile }
      let s := match c.team.joins.find? (·.agent == c.a) with
        | some j => s.endJoin c.ag.team j.id 0
        | none => s
      .arrived (s.settleContext c.a)

end Sys2Proof.Machine
end

