-- ==== Sys2Proof/Machine/Sha3.lean ====
section
/-! DEFINITION. SHA3-256 (R372 to R374), the hash of FIPS 202: the manual names it and gives no algorithm (log 10). -/

namespace Sys2Proof.Machine

/-- A lane of the permutation's state: word x + 5y. -/
def lane64 (a : List DWord) (x y : Nat) : DWord := a.getD (x % 5 + 5 * (y % 5)) 0#64

/-- The 25 words that a function of x and y gives. -/
def lanes25 (f : Nat → Nat → DWord) : List DWord := (List.range 25).map fun i => f (i % 5) (i / 5)

/-- The rotation of lane (x, y), word x + 5y. -/
def rhoTable : List Nat :=
  [0, 1, 62, 28, 27, 36, 44, 6, 55, 20, 3, 10, 43, 25, 39, 41, 45, 15, 21, 8, 18, 2, 61, 56, 14]

/-- The round constants. -/
def iotaTable : List DWord :=
  [0x0000000000000001#64, 0x0000000000008082#64, 0x800000000000808A#64, 0x8000000080008000#64,
   0x000000000000808B#64, 0x0000000080000001#64, 0x8000000080008081#64, 0x8000000000008009#64,
   0x000000000000008A#64, 0x0000000000000088#64, 0x0000000080008009#64, 0x000000008000000A#64,
   0x000000008000808B#64, 0x800000000000008B#64, 0x8000000000008089#64, 0x8000000000008003#64,
   0x8000000000008002#64, 0x8000000000000080#64, 0x000000000000800A#64, 0x800000008000000A#64,
   0x8000000080008081#64, 0x8000000000008080#64, 0x0000000080000001#64, 0x8000000080008008#64]

/-- One round. -/
def keccakRound (a : List DWord) (rc : DWord) : List DWord :=
  let par := (List.range 5).map fun x => (List.range 5).foldl (fun w y => w ^^^ lane64 a x y) 0#64
  let d (x : Nat) : DWord := par.getD ((x + 4) % 5) 0#64 ^^^ (par.getD ((x + 1) % 5) 0#64).rotateLeft 1
  let t := lanes25 fun x y => lane64 a x y ^^^ d x
  let b := lanes25 fun x y =>
    let sx := (x + 3 * y) % 5
    (lane64 t sx x).rotateLeft (rhoTable.getD (sx + 5 * x) 0)
  let c := lanes25 fun x y => lane64 b x y ^^^ (~~~(lane64 b (x + 1) y) &&& lane64 b (x + 2) y)
  c.modify 0 (· ^^^ rc)

def keccak (a : List DWord) : List DWord := iotaTable.foldl keccakRound a

/-- A word of 8 bytes, lowest first. -/
def word8 (b : List Byte) : DWord := (b.take 8).foldr (fun x w => (w <<< 8) ||| x.zeroExtend 64) 0#64

/-- Absorb blocks of 136 bytes; `fuel` is the number of blocks. -/
def absorb : Nat → List Byte → List DWord → List DWord
  | 0, _, a => a
  | n + 1, b, a =>
    absorb n (b.drop 136)
      (keccak (a.zipIdx.map fun (w, i) => if i < 17 then w ^^^ word8 ((b.drop (8 * i)).take 8) else w))

/-- The message padded to whole blocks. -/
def pad136 (m : List Byte) : List Byte :=
  let k := 136 - m.length % 136
  m ++ (if k = 1 then [0x86#8] else [0x06#8] ++ List.replicate (k - 2) 0#8 ++ [0x80#8])

/-- SHA3-256. -/
def sha3 (m : List Byte) : List Byte :=
  let p := pad136 m
  let a := absorb (p.length / 136) p (List.replicate 25 0#64)
  (a.take 4).flatMap fun w => (List.range 8).map fun i => w.extractLsb' (8 * i) 8

end Sys2Proof.Machine
end

