-- ==== Sys2Proof/Machine/Bind.lean ====
section
/-! DEFINITION. What the Helm reads to accept a launch: packets (R258), code objects (R259, R374), region chains (R36,
R37, R40), and the binder (R12, R15 to R19). -/

namespace Sys2Proof.Machine

/-! ### Reads by the Helm and the kernel -/

/-- The key of a byte as the Helm or the kernel reaches it: through the table alone, and only where memory lies. -/
def State.helmKey (s : State) (die space : Nat) (va : DWord) (acc : Access) (core : Option Nat := none) :
    Except Nat Nat :=
  match s.translate die space va acc core with
  | .error e => .error e
  | .ok pa => if (s.dieOfPhys pa).isSome || s.inWindow pa then .ok (physKey pa) else .error causePerm

/-- n bytes from a VA on with their marks: none when one of them cannot be read. -/
def State.readVa (s : State) (die space : Nat) (va : DWord) : Nat → Option (List (Byte × Bool))
  | 0 => some []
  | n + 1 =>
    match s.helmKey die space va .read, s.readVa die space (va + 1#64) n with
    | .ok k, some bs => some ((s.mem.read k, s.mem.marked k) :: bs)
    | _, _ => none

/-- Bytes that can be read and carry no mark. -/
def State.readClean (s : State) (die space : Nat) (va : DWord) (n : Nat) : Option (List Byte) :=
  match s.readVa die space va n with
  | some bs => if bs.any (·.2) then none else some (bs.map (·.1))
  | none => none

/-- A field of n bytes at an offset. -/
def fieldOf (b : List Byte) (off n : Nat) : Nat := natOfBytes ((b.drop off).take n)

/-- Are n bytes from an offset on zero? -/
def zeros (b : List Byte) (off n : Nat) : Bool := fieldOf b off n == 0

/-! ### Launch packets (R258) -/

structure Packet where
  code : DWord
  entry : Nat
  coresident : Bool
  abandon : Bool
  system : Bool
  pk : List Nat
  region : DWord
  deadline : DWord
  args : DWord
  ranges : List Range
  wellFormed : Bool
  deriving DecidableEq, Repr, Inhabited

/-- The k-th range of a packet. -/
def packetRange (b : List Byte) (k : Nat) : Range :=
  let lo := BitVec.ofNat 64 (fieldOf b (0x60 + 12 * k) 8)
  { mode := (lo.extractLsb' 62 2).toNat, start := (lo.extractLsb' 0 57).signExtend 64
    length := fieldOf b (0x68 + 12 * k) 4 }

/-- The format rules of a range. -/
def packetRangeOk (b : List Byte) (k : Nat) : Bool :=
  let r := packetRange b k
  fieldOf b (0x60 + 12 * k) 8 / 2 ^ 57 % 32 == 0 &&
    (if r.mode = 0 then r.start == 0#64 && r.length == 0 else r.length != 0)

/-- The packet that 192 bytes hold. -/
def Packet.ofBytes (b : List Byte) : Packet :=
  let flags := fieldOf b 0x0C 4
  { code := BitVec.ofNat 64 (fieldOf b 0 8), entry := fieldOf b 8 4
    coresident := flags % 2 == 1, abandon := flags / 2 % 2 == 1, system := flags / 4 % 2 == 1
    pk := (List.range 16).map fun i => fieldOf b (0x10 + 2 * i) 2
    region := BitVec.ofNat 64 (fieldOf b 0x30 8), deadline := BitVec.ofNat 64 (fieldOf b 0x38 8)
    args := BitVec.ofNat 64 (fieldOf b 0x40 8)
    ranges := ((List.range 8).map (packetRange b)).filter (·.mode != 0)
    wellFormed := decide (flags < 8) && zeros b 0x48 24 && (List.range 8).all (packetRangeOk b) }

/-! ### Code objects (R92, R259) -/

/-- A code object as the Helm reads it: what it keeps, where the signature stands, and where the object ends. -/
structure CodeObject where
  info : CodeInfo
  sigOff : Nat
  sigLen : Nat
  size : Nat
  deriving DecidableEq, Repr, Inhabited

/-- Do two ranges of bytes share a byte? -/
def meets (a b : Nat × Nat) : Bool := decide (a.1 < b.1 + b.2) && decide (b.1 < a.1 + a.2) && a.2 != 0 && b.2 != 0

/-- Does some pair of a list share a byte? -/
def anyMeet : List (Nat × Nat) → Bool
  | [] => false
  | a :: rest => rest.any (meets a) || anyMeet rest

/-- A name of 16 bytes: not empty, and padded with NULs to its end. -/
def nameOk (b : List Byte) : Bool :=
  b.headD 0#8 != 0#8 && b.getLastD 1#8 == 0#8 && (b.dropWhile (· != 0#8)).all (· == 0#8)

/-- The record of level i. -/
def treeRecord (t : List Byte) (i : Nat) : List Byte := (t.drop (4 + 20 * i)).take 20

/-- The rules of R259 on tree records. -/
def treeOk (t : List Byte) (d : Nat) : Bool :=
  let rs := (List.range d).map (treeRecord t)
  let names := rs.map (·.take 16)
  rs.all (fun r => zeros r 19 1 && (decide (fieldOf r 18 1 ≤ 7) || fieldOf r 18 1 == 0xFF) && nameOk (r.take 16)) &&
    names.eraseDups.length == names.length

def treeOf (t : List Byte) (d : Nat) : List TreeLevel :=
  (List.range d).map fun i =>
    let r := treeRecord t i
    { fan := fieldOf r 16 2, phys := if fieldOf r 18 1 = 0xFF then 8 else fieldOf r 18 1 }

/-- The section entries of a table: kind, file offset, size. -/
def sectionsOf (b : List Byte) (n : Nat) : List (Nat × Nat × Nat) :=
  (List.range n).map fun i => (fieldOf b (24 * i) 1, fieldOf b (24 * i + 8) 8, fieldOf b (24 * i + 16) 8)

/-- The rules of R259 on section entries. -/
def sectionsOk (b : List Byte) (n : Nat) : Bool :=
  let secs := sectionsOf b n
  (List.range n).all (fun i => zeros b (24 * i + 1) 7) && secs.all (fun x => decide (x.1 ≤ 6)) &&
    (secs.map (·.1)).eraseDups.length == n && secs.any fun x => x.1 == 0 && x.2.2 != 0

/-- The rules of R259 on the 128 bytes of a header. -/
def headerOk (h : List Byte) : Bool :=
  fieldOf h 0 4 == 0x58444E47 && fieldOf h 4 2 == 1 && zeros h 0x34 76 && decide (1 ≤ fieldOf h 6 1) &&
    decide (fieldOf h 6 1 ≤ 128) && decide (fieldOf h 7 1 ≤ fieldOf h 6 1) && fieldOf h 0x0C 4 % 256 == 0

/-- Read a code object (R259): none when the launch faults with REGION. -/
def State.readCode (s : State) (die space : Nat) (code : DWord) : Option CodeObject :=
  if code.toNat % 64 ≠ 0 then none
  else
    match s.readClean die space code 128 with
    | none => none
    | some h =>
      let treeOff := fieldOf h 0x10 4
      let nsect := fieldOf h 0x18 4
      if !headerOk h || decide (7 < nsect) then none
      else
        match s.readClean die space (code + BitVec.ofNat 64 treeOff) 4,
          s.readClean die space (code + BitVec.ofNat 64 (fieldOf h 0x14 4)) (24 * nsect) with
        | some t4, some sb =>
          let d := fieldOf t4 0 1
          let known := decide (1 ≤ d ∧ d ≤ 16)
          match s.readClean die space (code + BitVec.ofNat 64 treeOff) (if known then 4 + 20 * d else 4) with
          | none => none
          | some t =>
            let secs := sectionsOf sb nsect
            let sigOff := fieldOf h 0x2C 4
            let sigLen := fieldOf h 0x30 4
            let parts : List (Nat × Nat) :=
              [(0, 128), (treeOff, t.length), (fieldOf h 0x14 4, 24 * nsect), (fieldOf h 0x1C 4, 64 * fieldOf h 0x20 4),
               (fieldOf h 0x24 4, 16 * fieldOf h 0x28 4), (sigOff, if sigOff = 0 then 0 else sigLen)]
            let files := (secs.filter (·.1 != 5)).map (·.2)
            let localSize := ((secs.find? (·.1 == 5)).map (·.2.2)).getD 0
            if !sectionsOk sb nsect || (known && !treeOk t d) || anyMeet files ||
                files.any (fun f => parts.any (meets f)) || fieldOf h 8 4 != localSize then none
            else
              some
                { info := { regsN := fieldOf h 6 1, regsG := fieldOf h 7 1, localSize := fieldOf h 8 4
                            granary := fieldOf h 0x0C 4, tree := if known then treeOf t d else [], sections := secs }
                  sigOff := sigOff, sigLen := sigLen
                  size := (parts ++ files).foldl (fun n p => max n (p.1 + p.2)) 0 }
        | _, _ => none

/-- Bytes of an object with a range read as zero. -/
def blank (b : List Byte) (off n : Nat) : List Byte :=
  b.zipIdx.map fun (x, i) => if off ≤ i ∧ i < off + n then 0#8 else x

/-- The signature of a code object verifies against a key registered for the root region (R374). A signed byte that cannot be read or is
poisoned makes it fail (DESIGN CHOICE: R374 and R259 give none for bytes outside the header and the tables; log 10). -/
def State.signed (s : State) (die space : Nat) (code : DWord) (o : CodeObject) : Bool :=
  if o.sigOff = 0 || o.sigLen != 2420 then false
  else
    match s.readClean die space code o.size with
    | none => false
    | some b =>
      let sig := (b.drop o.sigOff).take 2420
      let msg := sha3 (blank (blank b 0x2C 8) o.sigOff 2420)
      (s.spaces[space]?).any fun sp => sp.keys.any fun k => Config.mlDsaVerify k msg sig

/-! ### Region chains (R36, R37, R40) -/

/-- A block as it stands: its own fields, its parent, its OVERRIDE. -/
def blockOf (va : DWord) (b : List Byte) : Region × DWord × Word :=
  let flags := fieldOf b 0x25 1
  ({ va := va, cores := fieldOf b 8 4, pages := fieldOf b 0x0C 4, localBytes := fieldOf b 0x10 8
     granary := fieldOf b 0x18 8, slabs := fieldOf b 0x20 4, prio := fieldOf b 0x24 1
     preemptible := flags % 2 == 1, deterministic := flags / 2 % 2 == 1, reqsign := flags / 4 % 2 == 1
     handler := BitVec.ofNat 64 (fieldOf b 0x28 8), watchdog := fieldOf b 0x30 8, qlimit := fieldOf b 0x4C 4 },
   BitVec.ofNat 64 (fieldOf b 0 8), BitVec.ofNat 32 (fieldOf b 0x48 4))

/-- The reserved bits of a block are zero. -/
def blockOk (b : List Byte) : Bool :=
  decide (fieldOf b 0x24 1 < 8) && decide (fieldOf b 0x25 1 < 8) && zeros b 0x26 2 && decide (fieldOf b 0x48 4 < 4096) &&
    zeros b 0x50 176

/-- Is a block mapped readable and writable to the launcher? A page with D = 0 counts as writable, and one with A = 0 as not mapped,
so that the launch faults with REGION (DESIGN CHOICE: R40 names neither bit; log 24). -/
def State.blockMapped (s : State) (die space : Nat) (va : DWord) : Bool :=
  match s.helmKey die space va .read, s.helmKey die space va .write with
  | .ok _, .ok _ => true
  | .ok _, .error e => e == causePage
  | .error _, _ => false

/-- The blocks from a region up to its root: none when one is invalid, or a seventeenth is reached. R40
does not refuse a poisoned word: its stored bits are read. -/
def State.readChain (s : State) (die space : Nat) : Nat → DWord → Option (List (Region × Word))
  | 0, _ => none
  | n + 1, va =>
    if va.toNat % 256 ≠ 0 || !s.blockMapped die space va then none
    else
      match s.readVa die space va 256 with
      | none => none
      | some bm =>
        let b := bm.map (·.1)
        if !blockOk b then none
        else
          let (r, parent, ov) := blockOf va b
          if parent = 0#64 then some [(r, ov)]
          else (s.readChain die space n parent).map fun rest => (r, ov) :: rest

/-- A budget never exceeds the parent's; 0 is no limit. -/
def capBudget (v parent : Nat) : Nat := if parent ≠ 0 ∧ (v = 0 ∨ parent < v) then parent else v

/-- The effective values of a block under its parent's (R37). -/
def Region.under (r : Region) (ov : Word) (p : Region) : Region :=
  let pick {α : Type} (bit : Nat) (own up : α) : α := if ov.getLsbD bit then own else up
  { va := r.va
    cores := capBudget (pick 0 r.cores p.cores) p.cores
    pages := capBudget (pick 1 r.pages p.pages) p.pages
    localBytes := capBudget (pick 2 r.localBytes p.localBytes) p.localBytes
    granary := capBudget (pick 3 r.granary p.granary) p.granary
    slabs := capBudget (pick 4 r.slabs p.slabs) p.slabs
    prio := pick 5 r.prio p.prio
    preemptible := pick 6 r.preemptible p.preemptible
    deterministic := pick 7 r.deterministic p.deterministic
    reqsign := pick 8 r.reqsign p.reqsign
    handler := pick 9 r.handler p.handler
    watchdog := pick 10 r.watchdog p.watchdog
    qlimit := pick 11 r.qlimit p.qlimit }

/-- The chain with effective values, the root last. -/
def effective : List (Region × Word) → List Region
  | [] => []
  | (r, ov) :: rest =>
    match effective rest with
    | [] => [r]
    | p :: up => r.under ov p :: p :: up

/-- QLIMIT as it acts (R36). -/
def Region.queue (r : Region) : Nat := if r.qlimit = 0 then 256 else min 4096 r.qlimit

/-! ### Capacities (R11, R12) -/

/-- Is a core enabled with its cluster and die? -/
def State.coreEnabled (s : State) (c : Nat) : Bool :=
  (s.cores.getD c default).enabled && (s.clusters.getD (clusterOfCore c) default).enabled &&
    (s.dies.getD (dieOfCore c) default).enabled

def dieOfCluster (c : Nat) : Nat := c / Config.clustersPerDie

/-- The enabled cores, and the enabled clusters, of the device. -/
def State.liveCores (s : State) : List Nat := (List.range s.cores.length).filter s.coreEnabled
def State.liveClusters (s : State) : List Nat :=
  (List.range s.clusters.length).filter fun c =>
    (s.clusters.getD c default).enabled && (s.dies.getD (dieOfCluster c) default).enabled
def State.liveDies (s : State) : List Nat := (List.range s.dies.length).filter fun d => (s.dies.getD d default).enabled

def sumOf (l : List Nat) : Nat := l.foldl (· + ·) 0
def maxOf (l : List Nat) : Nat := l.foldl max 0

/-- Enabled instances of level c within a set of cores, clusters and dies of the device. -/
def State.unitCount (s : State) (c : Nat) (cores clusters dies : List Nat) : Nat :=
  match c with
  | 0 => 32 * sumOf (cores.map fun k => (s.cores.getD k default).warps)
  | 1 => sumOf (cores.map fun k => (s.cores.getD k default).warps)
  | 2 => cores.length
  | 3 => clusters.length
  | 4 => dies.length
  | _ => 1

/-- The devices within one instance of a level of the system configuration (R11): the fullest rack, or all of them. -/
def State.devices (s : State) (q : Nat) : Nat := if q ≤ 5 then 1 else if q = 6 then maxOf s.racks else sumOf s.racks

/-- Cap(c, q) (R12). Other devices count as this one does (log 24). -/
def State.cap (s : State) (c q : Nat) : Nat :=
  if c = q then 1
  else
    match q with
    | 1 => 32
    | 2 => maxOf (s.liveCores.map fun k => s.unitCount c [k] [] [])
    | 3 => maxOf (s.liveClusters.map fun k => s.unitCount c (s.liveCores.filter (clusterOfCore · == k)) [k] [])
    | 4 => maxOf (s.liveDies.map fun d =>
        s.unitCount c (s.liveCores.filter (dieOfCore · == d)) (s.liveClusters.filter (dieOfCluster · == d)) [d])
    | 5 => s.unitCount c s.liveCores s.liveClusters s.liveDies
    | _ => if c = 6 then s.racks.length else s.devices q * s.unitCount c s.liveCores s.liveClusters s.liveDies

/-! ### The binder (R15 to R19) -/

/-- Launch faults (R16). -/
def lfOrder : Nat := 0x40
def lfFanout : Nat := 0x41
def lfLanes : Nat := 0x42
def lfRegs : Nat := 0x43
def lfLocal : Nat := 0x44
def lfGranary : Nat := 0x45
def lfCoresident : Nat := 0x46
def lfTree : Nat := 0x47
def lfSignature : Nat := 0x48
def lfRegion : Nat := 0x49

/-- BIND_ORDER: an explicit code exceeds the one above it, or the domain. -/
def orderOk : List TreeLevel → Nat → Bool
  | [], _ => true
  | l :: rest, top => if l.phys = 8 then orderOk rest top else decide (l.phys ≤ top) && orderOk rest l.phys

/-- The product of the fanouts of resolved levels with a code. -/
def fanOf (ls : List (Nat × Option Nat)) (c : Nat) : Nat := ls.foldl (fun n l => if l.2 = some c then n * l.1 else n) 1

/-- Resolve the levels from the leaf to the root: those that remain, nearest the leaf first, and those resolved. -/
def State.resolve (s : State) (d : Nat) : List (Nat × Nat) → List (Nat × Option Nat) → Nat → List (Nat × Option Nat)
  | [], acc, _ => acc
  | (fan, ph) :: rest, acc, below =>
    if ph ≠ 8 then s.resolve d rest ((fan, some ph) :: acc) ph
    else
      let above := ((rest.find? (·.2 != 8)).map (·.2)).getD d
      let fits (c : Nat) : Bool :=
        let m := fan * fanOf acc c
        if c = 0 then decide (m ≤ 32) else if c = above then true else decide (m ≤ s.cap c above)
      match (List.range 8).find? fun c => decide (below ≤ c) && decide (c ≤ above) && fits c with
      | some c => s.resolve d rest ((fan, some c) :: acc) c
      | none => s.resolve d rest ((fan, none) :: acc) below

/-- Put an implicit level of fanout 1 just above the first level with a lower code. -/
def insertLevel (c : Nat) (ls : List BoundLevel) : List BoundLevel :=
  if ls.any (·.phys == c) then ls
  else (ls.takeWhile fun l => decide (c ≤ l.phys)) ++ [⟨1, c, false⟩] ++ ls.dropWhile fun l => decide (c ≤ l.phys)

/-- The run checks: `q` is the code just above, and the list starts a run. -/
def State.runsOk (s : State) : Nat → List BoundLevel → Nat → Bool
  | 0, _, _ => true
  | n + 1, ls, q =>
    match ls with
    | [] => true
    | l :: _ =>
      let run := ls.takeWhile (·.phys == l.phys)
      (l.phys == 0 || decide (run.foldl (fun n x => n * x.fan) 1 ≤ s.cap l.phys q)) &&
        s.runsOk n (ls.drop run.length) l.phys

/-- W of R17. -/
def CodeInfo.warpBytes (i : CodeInfo) : Nat := (128 * i.regsG + 8 * (i.regsN - i.regsG) + 255) / 256 * 256

/-- Has a code object a non-empty section of a kind? -/
def CodeInfo.has (i : CodeInfo) (kind : Nat) : Bool := i.sections.any fun x => x.1 == kind && x.2.2 != 0

/-- A cluster serves a task (R18). -/
def ClusterUnit.serves (u : ClusterUnit) (i : CodeInfo) : Bool :=
  decide (i.granary ≤ 1024 * (u.grankib - 1024)) &&
    (!i.has 1 || (decide (1 ≤ u.seqctx) && decide (1 ≤ u.winnowers) && u.array == 1)) &&
    (!i.has 2 || decide (1 ≤ u.cpyctx))

/-- A of R18. -/
def CodeInfo.localAlloc (i : CodeInfo) : Nat := (i.localSize + 1023) / 1024 * 1024

/-- A core meets R17, R18 and the warp condition of R20. -/
def State.coreFits (s : State) (c : Nat) (i : CodeInfo) (warps : Nat) : Bool :=
  let u := s.cores.getD c default
  decide (warps * i.warpBytes ≤ 16384 * u.regbanks) && decide (i.localAlloc ≤ 1024 * u.localKib) &&
    decide (warps ≤ u.warps) && (s.clusters.getD (clusterOfCore c) default).serves i

/-- K of R19. -/
def State.clusterNodes (s : State) (b : List BoundLevel) : Nat :=
  let up := fans b fun p => decide (2 < p)
  if b.any (·.phys == 3) then up
  else up * ((fans b (· == 2) + s.cap 2 3 - 1) / max 1 (s.cap 2 3))

/-- R17 to R19, in that order, for a domain; other devices have as many fitting cores as this one (log 24). -/
def State.budgetChecks (s : State) (i : CodeInfo) (domain : Nat) (r : Region) (coresident : Bool) (b : List BoundLevel) :
    Option Nat :=
  let w := fans b codeWarp
  let t := fans b codeTeam
  let a := i.localAlloc
  if !s.liveCores.any fun c => decide (w * i.warpBytes ≤ 16384 * (s.cores.getD c default).regbanks) then some lfRegs
  else if (!s.liveCores.any fun c => decide (a ≤ 1024 * (s.cores.getD c default).localKib)) ||
      (r.localBytes != 0 && decide (r.localBytes < a)) then some lfLocal
  else if (!s.liveClusters.any fun c => (s.clusters.getD c default).serves i) ||
      (r.granary != 0 && decide (r.granary < i.granary)) then some lfGranary
  else if coresident &&
      ((r.cores != 0 && decide (r.cores < t)) || (r.localBytes != 0 && decide (r.localBytes < t * a)) ||
        (r.granary != 0 && decide (r.granary < i.granary * s.clusterNodes b)) ||
        decide (s.devices domain * (s.liveCores.filter fun c => s.coreFits c i w).length < t)) then some lfCoresident
  else none

/-- Bind (R15): the bound levels, root first, or the launch fault. -/
def State.bind (s : State) (i : CodeInfo) (pk : List Nat) (domain : Nat) (r : Region) (coresident : Bool) :
    Except Nat (List BoundLevel) :=
  let d := i.tree.length
  let fanAt := i.tree.zipIdx.map fun (l, k) => (if l.fan = 0 then pk.getD k 0 else l.fan, l.phys)
  if d = 0 ∨ 16 < d ∨ (pk.drop d).any (· != 0) ∨
      i.tree.zipIdx.any (fun (l, k) => l.fan != 0 && pk.getD k 0 != 0 && pk.getD k 0 != l.fan) then .error lfTree
  else if !orderOk i.tree domain then .error lfOrder
  else
    let ls := s.resolve domain fanAt.reverse [] 0
    if fanOf ls 0 ≠ 32 ∨ ls.all (·.2 != some 0) then .error lfLanes
    else if ls.any fun l => l.1 == 0 || l.2.isNone then .error lfFanout
    else
      let b := ls.map fun l => (⟨l.1, l.2.getD 0, true⟩ : BoundLevel)
      let b := insertLevel 1 (insertLevel 2 b)
      if !s.runsOk b.length b domain then .error lfFanout
      else
        match s.budgetChecks i domain r coresident b with
        | some f => .error f
        | none => .ok b

end Sys2Proof.Machine
end

