-- ==== Sys2Proof/Machine/Launch.lean ====
section
/-! DEFINITION. Launches: acceptance (R14, R16, R260, R261, R264, R265), TWAIT and the status word (R262, R263). -/

namespace Sys2Proof.Machine

/-! ### Acceptance -/

/-- Who launches: the launcher and the id it will know the task by, the space and die through which the Helm reads, the
launching task. -/
structure LaunchBy where
  launcher : Launcher
  id : Nat
  space : Nat
  die : Nat
  parent : Option Nat
  deriving DecidableEq, Repr, Inhabited

/-- The tasks that launched a task, and theirs in turn. -/
def State.ancestors (s : State) : Nat → Option Nat → List Nat
  | 0, _ => []
  | n + 1, p =>
    match p with
    | none => []
    | some t =>
      t :: s.ancestors n (match (s.task t).launcher with
        | .task u => some u
        | _ => none)

/-- Do two ranges share a byte, and does one of them write (R264)? -/
def Range.conflicts (a b : Range) : Bool :=
  decide (a.start.toNat < b.start.toNat + b.length) && decide (b.start.toNat < a.start.toNat + a.length) &&
    a.length != 0 && b.length != 0 && (decide (2 ≤ a.mode) || decide (2 ≤ b.mode))

/-- Is a task of the region that a space and a block's VA name? -/
def Task.inRegion (t : Task) (space : Nat) (va : DWord) : Bool :=
  t.space == space && (t.chain.head?.map (·.va)) == some va

/-- The tasks in flight that a new task of a region depends on (R264). -/
def State.dependsOn (s : State) (space : Nat) (va : DWord) (ranges : List Range) (up : List Nat) : List Nat :=
  (s.tasks.zipIdx.filter fun p =>
    p.1.phase != .retired && p.1.inRegion space va && !up.contains p.2 &&
      ranges.any fun r => p.1.ranges.any r.conflicts).map (·.2)

/-- The undispatched tasks of a region (R36 QLIMIT). -/
def State.queued (s : State) (space : Nat) (va : DWord) : Nat :=
  (s.tasks.filter fun t => t.phase == .queued && t.inRegion space va).length

/-- A team that has not been dispatched. -/
def Team.fresh (task logical core : Nat) : Team :=
  { task := task, logical := logical, phase := .undispatched, core := core, placed := false
    layouts := Vector.replicate 64 Layout.zero, tags := [], joins := [], clock := 0#64, buffer := []
    preemptReq := false, passedPoint := false, saved := [] }

/-- The first core of a die. -/
def firstCore (die : Nat) : Nat := die * (Config.coresPerCluster * Config.clustersPerDie)

/-- The checks of R16 on a packet: a launch fault, or the bound task. -/
def State.check (s : State) (by_ : LaunchBy) (p : Packet) : Except Nat Task :=
  let os := by_.parent.isNone
  match s.readChain by_.die by_.space 16 p.region, s.readCode by_.die by_.space p.code with
  | some blocks, some o =>
    let chain := effective blocks
    let r := chain.headD default
    let within := match by_.parent with
      | none => true
      | some t => match (s.task t).chain.head? with
        | some own => chain.any (·.va == own.va)
        | none => false
    let text := (o.info.sectionAt 0).getD (0, 0)
    if !p.wellFormed || (!os && p.system) || !within || p.entry % 4 != 0 || decide (text.2 ≤ p.entry) then .error lfRegion
    else if r.reqsign && !s.signed by_.die by_.space p.code o then .error lfSignature
    else
      let domain := if p.system then 7 else 5
      match s.bind o.info p.pk domain r (p.coresident || r.deterministic) with
      | .error f => .error f
      | .ok b =>
        .ok
          { launcher := by_.launcher, id := by_.id, space := by_.space, code := p.code, info := o.info, entry := p.entry
            coresident := p.coresident || r.deterministic, abandon := p.abandon, system := p.system, domain := domain
            pk := p.pk, binding := b, args := p.args, ranges := p.ranges, chain := chain, issuingDie := by_.die
            deadlines := [(by_.die, p.deadline)], order := s.seq
            deps := s.dependsOn by_.space p.region p.ranges (s.ancestors s.tasks.length by_.parent)
            phase := .queued, overdue := false, status := 0, cause := 0, began := none, extents := []
            lodestone := none, nextChild := 1 }
  | _, _ => .error lfRegion

/-- The teams of a task that run on this device: all of them, or the share of a SYSTEM launch (log 26). -/
def Task.here (t : Task) (share : List Nat) : List Nat :=
  if t.system then (List.range t.teams).filter share.contains else List.range t.teams

/-- The teams of a SYSTEM launch that the other devices run. -/
def Task.elsewhere (t : Task) (here : List Nat) : List Away :=
  ((List.range t.teams).filter fun k => !here.contains k).map fun k => { logical := k, clock := 0#64, retired := false }

/-- Enqueue a bound task with its teams. -/
def State.enqueue (s : State) (t : Task) (share : List Nat) : State :=
  let n := s.tasks.length
  { s with tasks := s.tasks ++ [{ t with away := t.elsewhere (t.here share) }], seq := s.seq + 1
           teams := s.teams ++ (t.here share).map fun k => Team.fresh n k (firstCore t.issuingDie) }

/-- What a launch answers: the id and 0, or 0 with 1 (FULL) or a launch fault (R260). -/
def State.accept (s : State) (by_ : LaunchBy) (packet : List Byte) (share : List Nat) : State × Nat × Nat :=
  let p := Packet.ofBytes packet
  match s.check by_ p with
  | .error f => (s, 0, f)
  | .ok t =>
    if (t.chain.headD default).queue ≤ s.queued by_.space p.region then (s, 0, 1) else (s.enqueue t share, by_.id, 0)

/-! ### LAUNCH (R260) -/

/-- The key or the cause of the first byte of a packet that cannot be read. -/
def State.packetFault (s : State) (die space : Nat) (va : DWord) : Option Nat :=
  match s.helmKey die space va .read, s.helmKey die space (va + 191#64) .read with
  | .error e, _ => some e
  | _, .error e => some e
  | _, _ => none

def execLaunch (vd va : Reg) (s : State) : Out :=
  onAny s 1 fun c => c.params (regRun (rn va) 2) fun ws =>
    let addr := pairOf ws 0
    if addr.toNat % 64 ≠ 0 then c.trapAt causeAlign c.act addr 0
    else
      match c.s.packetFault c.die c.task.space addr with
      | some e => c.trapAt e c.act addr 0
      | none => c.releasing .home fun s =>
        match s.readClean c.die c.task.space addr 192 with
        | none => c.trapAll causePoison
        | some b =>
          let by_ : LaunchBy :=
            { launcher := .task c.team.task, id := c.task.nextChild, space := c.task.space, die := c.die
              parent := some c.team.task }
          let (s, id, code) := s.accept by_ b []
          let s := if id = 0 then s else s.modTask c.team.task fun t => { t with nextChild := t.nextChild + 1 }
          .retire (s.modAgent c.a fun ag => ag.writeWords (rn vd) false [BitVec.ofNat 32 id, BitVec.ofNat 32 code])

/-! ### TWAIT (R262, R263) -/

/-- The status word of a retired task. -/
def Task.statusWord (t : Task) : Word :=
  BitVec.ofNat 32 ((if t.overdue then 65536 else 0) + 256 * (t.cause % 256) + t.status % 256)

/-- The task that a task knows by an id. -/
def State.childOf (s : State) (task id : Nat) : Option Task :=
  s.tasks.find? fun t => t.launcher == .task task && t.id == id

def execTwait (vd va : Reg) (s : State) : Out :=
  onAny s 1 fun c => c.params [rn va] fun ws =>
    match c.s.childOf c.team.task (ws.getD 0 0#32).toNat with
    | none => c.retireWords (rn vd) false [0xFFFFFFFF#32]
    | some t => if t.phase = .retired then c.retireWords (rn vd) false [t.statusWord] else .hold c.s .polling

def execTwaitPoll (vd va : Reg) (s : State) : Out :=
  onAny s 1 fun c => c.params [rn va] fun ws =>
    match c.s.childOf c.team.task (ws.getD 0 0#32).toNat with
    | none => c.retireWords (rn vd) false [0xFFFFFFFF#32]
    | some t => c.retireWords (rn vd) false [if t.phase = .retired then t.statusWord else 0xFFFFFFFE#32]

end Sys2Proof.Machine
end

