-- ==== Sys2Proof/Machine/TileNum.lean ====
section
/-! DEFINITION. The arithmetic of tiles (R283 to R287, R292, R300 to R314) on FP64 codes: dot products, Householder QR,
rank rounding, products, factorisations, solves. -/

namespace Sys2Proof.Machine

/-! ### Fl64 (R283, R292) -/

/-- An FP64 code with the flags of every step that led to it. -/
abbrev Fl := Nat × Flags

def Fl.zero : Fl := (0, 0#6)
def Fl.one : Fl := (1023 * 2 ^ 52, 0#6)
/-- A stored value. -/
def Fl.of (code : Nat) : Fl := (code, 0#6)
/-- Negation is exact. -/
def flNeg (a : Fl) : Fl := ((a.1 + 2 ^ 63) % 2 ^ 64, a.2)
/-- One rounded step of two values. -/
def flStep (f : Nat → Nat → Rounded) (a b : Fl) : Fl := let r := f a.1 b.1; (r.1, a.2 ||| b.2 ||| r.2)
def flAdd (a b : Fl) : Fl := flStep (fAdd fp64 rne false) a b
def flSub (a b : Fl) : Fl := flStep (fSub fp64 rne false) a b
def flMul (a b : Fl) : Fl := flStep (fMul fp64 rne false) a b
def flDiv (a b : Fl) : Fl := flStep (fDiv fp64 rne false) a b
def flSqrt (a : Fl) : Fl := let r := fSqrt fp64 rne a.1; (r.1, a.2 ||| r.2)
/-- Fl64(a · b + s). -/
def flFma (a b s : Fl) : Fl := let r := fma64 a.1 b.1 s.1; (r.1, a.2 ||| b.2 ||| s.2 ||| r.2)

/-- Fl64(a · b + c · d), rounded once. -/
def fl2 (a b c d : Fl) : Fl :=
  let vs := [a, b, c, d].map fun x => fp64.val x.1
  let r : Rounded :=
    match mulVal (fp64.val a.1) (fp64.val b.1), mulVal (fp64.val c.1) (fp64.val d.1) with
    | some x, some y => addVal fp64 rne false x y
    | _, _ => invalid fp64
  (r.1, a.2 ||| b.2 ||| c.2 ||| d.2 ||| r.2 ||| readFlags vs)

/-- Dot of two lists of values from s on (R283). -/
def dotFl : List Fl → List Fl → Fl → Fl
  | x :: xs, y :: ys, s => dotFl xs ys (flFma x y s)
  | _, _, s => s

def dot0 (x y : List Fl) : Fl := dotFl x y Fl.zero

def Fl.val (a : Fl) : FVal := fp64.val a.1
def Fl.isZero (a : Fl) : Bool := a.val.isZero
def Fl.isNan (a : Fl) : Bool := a.val.isNan
/-- a < b, false for a NaN. -/
def flLt (a b : Fl) : Bool := !a.isNan && !b.isNan && FVal.lt a.val b.val
/-- a ≥ 0, with −0; false for a NaN. -/
def Fl.nonneg (a : Fl) : Bool := !a.isNan && (a.isZero || !a.val.isNeg)
def flAbs (a : Fl) : Fl := (a.1 % 2 ^ 63, a.2)

/-- The flags of all values of a matrix. -/
def flagsOf (m : List (List Fl)) : Flags := m.foldl (fun f c => c.foldl (fun f x => f ||| x.2) f) 0#6

/-- Element i of a vector, element (i, j) of a matrix given as a list of lists. -/
def at1 (x : List Fl) (i : Nat) : Fl := x.getD i Fl.zero
def at2 (m : List (List Fl)) (i j : Nat) : Fl := at1 (m.getD i []) j

/-- The transpose of a matrix with n entries in each list. -/
def turn (n : Nat) (m : List (List Fl)) : List (List Fl) := (List.range n).map fun i => m.map fun c => at1 c i

/-- The first m columns of the n×n identity. -/
def eye (m n : Nat) : List (List Fl) :=
  (List.range m).map fun j => (List.range n).map fun i => if i = j then Fl.one else Fl.zero

/-! ### Householder QR (R284) -/

/-- A reflector: v from row j on, tau, beta, and row j of R right of the diagonal. -/
structure Reflector where
  v : List Fl
  tau : Fl
  beta : Fl
  row : List Fl

/-- Apply a reflector to the rows from j on of a column. -/
def reflect (j : Nat) (v : List Fl) (tau : Fl) (c : List Fl) : List Fl :=
  let y := c.drop j
  let w := flMul tau (dot0 v y)
  c.take j ++ List.zipWith (fun vi yi => flFma (flNeg w) vi yi) v y

/-- The reflectors of columns j on. -/
def reflectors : Nat → List (List Fl) → Nat → List Reflector
  | 0, _, _ => []
  | n + 1, cols, j =>
    match cols with
    | [] => []
    | c :: rest =>
      let x := c.drop j
      let nrm := flSqrt (dot0 x x)
      if nrm.isZero then
        ⟨[], (0, nrm.2), Fl.zero, rest.map fun k => at1 k j⟩ :: reflectors n rest (j + 1)
      else
        let wjj := at1 x 0
        let beta := if wjj.nonneg then flNeg nrm else nrm
        let v0 := flSub wjj beta
        let tau := flDiv (flSub beta wjj) beta
        let v := Fl.one :: x.tail.map fun w => flDiv w v0
        let rest := rest.map (reflect j v tau)
        ⟨v, tau, beta, rest.map fun k => at1 k j⟩ :: reflectors n rest (j + 1)

/-- HQR(W, m): the columns of Q, the rows of R, and every flag raised. -/
def hqr (cols : List (List Fl)) : List (List Fl) × List (List Fl) × Flags :=
  let m := cols.length
  let hs := (reflectors m cols 0).zipIdx
  let q := hs.foldr (fun h q => if h.1.tau.isZero then q else q.map (reflect h.2 h.1.v h.1.tau)) (eye m 64)
  let rows := hs.map fun h => List.replicate h.2 Fl.zero ++ [h.1.beta] ++ h.1.row
  let neg (j : Nat) : Bool := flLt (at2 rows j j) Fl.zero
  let flip (ms : List (List Fl)) : List (List Fl) := ms.zipIdx.map fun (c, j) => if neg j then c.map flNeg else c
  (flip q, flip rows, flagsOf q ||| flagsOf rows ||| flagsOf (hs.map fun h => h.1.tau :: h.1.v))

/-! ### One-sided Jacobi (R285 step 3) -/

/-- 2^−52 · m, exact. -/
def epsOf (m : Nat) : Fl := Fl.of (roundFin fp64 rne false false m (-52) false).1
def twoTo500 : Fl := Fl.of ((1023 + 500) * 2 ^ 52)
def Fl.two : Fl := Fl.of (1024 * 2 ^ 52)

/-- Columns of G and of Y, the flags so far, and whether a pair was rotated. -/
structure Jacobi where
  g : List (List Fl)
  y : List (List Fl)
  flags : Flags
  rotated : Bool

/-- Rotate columns p and q of a matrix. -/
def rotate (c s : Fl) (m : List (List Fl)) (p q : Nat) : List (List Fl) :=
  let a := m.getD p []
  let b := m.getD q []
  (m.set p (List.zipWith (fun x y => fl2 c x (flNeg s) y) a b)).set q (List.zipWith (fun x y => fl2 s x c y) a b)

/-- One pair of a sweep. sgn of R285 compares values, so sgn(-0) is +1 (DEDUCED; log 34). -/
def Jacobi.pair (eps : Fl) (st : Jacobi) (p q : Nat) : Jacobi :=
  let gp := st.g.getD p []
  let gq := st.g.getD q []
  let a := dot0 gp gp
  let b := dot0 gq gq
  let g := dot0 gp gq
  let bound := flMul eps (flSqrt (flMul a b))
  let st := { st with flags := st.flags ||| g.2 ||| bound.2 }
  if flLt bound (flAbs g) then
    let z := flDiv (flSub b a) (flMul Fl.two g)
    let t :=
      if flLt twoTo500 (flAbs z) then flDiv Fl.one (flMul Fl.two z)
      else flDiv (if z.nonneg then Fl.one else flNeg Fl.one) (flAdd (flAbs z) (flSqrt (flFma z z Fl.one)))
    let c := flDiv Fl.one (flSqrt (flFma t t Fl.one))
    let s := flMul c t
    let gs := rotate c s st.g p q
    let ys := rotate c s st.y p q
    { g := gs, y := ys, rotated := true
      flags := st.flags ||| s.2 ||| flagsOf [gs.getD p [], gs.getD q [], ys.getD p [], ys.getD q []] }
  else st

/-- One sweep, cyclic by rows. -/
def Jacobi.sweep (m : Nat) (st : Jacobi) : Jacobi :=
  (List.range m).foldl
    (fun st p => (List.range (m - 1 - p)).foldl (fun (st : Jacobi) i => st.pair (epsOf m) p (p + 1 + i)) st)
    { st with rotated := false }

/-- Up to n sweeps, until one rotates nothing. -/
def Jacobi.run (m : Nat) : Nat → Jacobi → Jacobi
  | 0, st => st
  | n + 1, st =>
    let st := st.sweep m
    if st.rotated then st.run m n else st

/-! ### Rank rounding (R282 to R287) -/

/-- Insert a column number into a list in descending order of value, after its equals. -/
def insertSig (sig : Nat → Fl) (j : Nat) : List Nat → List Nat
  | [] => [j]
  | k :: rest => if flLt (sig k) (sig j) then j :: k :: rest else k :: insertSig sig j rest

/-- The stable descending order (R285 step 4). -/
def sortSig (sig : Nat → Fl) (m : Nat) : List Nat := (List.range m).foldl (fun l j => insertSig sig j l) []

/-- The tails from the last value up: tail[0] first (R285 step 5). -/
def tails : List Fl → List Fl
  | [] => [Fl.zero]
  | s :: rest => let t := tails rest; flFma s s (at1 t 0) :: t

/-- TOL as it acts (R283), and NV when it is a NaN or negative. -/
def tolOf (trct : Nat) : Fl × Flags :=
  match fp64.val trct with
  | .nan _ => (Fl.zero, flagNV)
  | .inf true => (Fl.zero, flagNV)
  | .fin true m _ => (Fl.zero, if m = 0 then 0#6 else flagNV)
  | _ => (Fl.of trct, 0#6)

/-- r of step 6. -/
def rankFor (tail : List Fl) (tol : Fl) (abs_ : Bool) : Nat :=
  if (at1 tail 0).isZero then 0
  else
    let t2 := flMul tol tol
    let thr := if abs_ then t2 else flMul t2 (at1 tail 0)
    tail.findIdx fun t => !flLt thr t

/-- The value of a finished rounding: the tile and its flags. -/
inductive Tile where
  | zero
  | dense (rows : List (List Fl))
  | low (u v : List (List Fl))

/-- The lowest index of a largest magnitude. -/
def argmax (x : List Fl) : Nat :=
  let big := x.foldl (fun b y => if flLt b (flAbs y) then flAbs y else b) Fl.zero
  x.findIdx fun y => !flLt (flAbs y) big

/-- Column j of U' and V' (R286). -/
def outColumn (qu qv : List (List Fl)) (g y : List Fl) : List Fl × List Fl :=
  let u := (turn 64 qu).map fun row => dot0 row g
  let v := (turn 64 qv).map fun row => dot0 row y
  if flLt (at1 u (argmax u)) Fl.zero then (u.map flNeg, v.map flNeg) else (u, v)

/-- The DENSE result of R282 from factors. -/
def densify (u v : List (List Fl)) : List (List Fl) :=
  let vr := turn 64 v
  (turn 64 u).map fun x => vr.map fun y => dot0 x y

/-- What a rounding gives: the tile with FP64 values, its flags, CAPPED, DENSIFIED. -/
structure RoundOut where
  tile : Tile
  flags : Flags
  capped : Bool
  densified : Bool

/-- The rounding of factors, or of a dense tile (`dense` holds its rows; u and v are then not used). `keep` is for a dense
input: above CAP it stays DENSE (R282, R303). The fallback of R287 for a dense input forms R282's result from the factors U :=
tile and V := I (log 34). With a non-finite input the result is the fallback's, and OF is still that of steps 1 to 5 (DEDUCED: R287
does not say whether they run; log 34). NV is set by a NaN among the elements of the input, not by one that steps 1 to 5 form from an
Inf and read again (DESIGN CHOICE: R287 says when a NaN was read; log 34). -/
def rankRound (trcc : Word) (trct : DWord) (dense : Option (List (List Fl))) (u v : List (List Fl)) : RoundOut :=
  let (tol, ft) := tolOf trct.toNat
  let inputs := match dense with
    | some rows => rows
    | none => u ++ v
  let bad (f : Flags) : RoundOut :=
    let given := match dense with
      | some rows => densify (turn 64 rows) (eye 64 64)
      | none => densify u v
    { tile := .dense given, capped := false, densified := false
      flags := ft ||| flagNF ||| (f &&& flagOF) ||| flagIf (inputs.any fun c => c.any Fl.isNan) flagNV }
  let (qu, ru, fu) := hqr (match dense with
    | some rows => turn 64 rows
    | none => u)
  let m := ru.length
  let (qv, rv, fv) := match dense with
    | some _ => (eye 64 64, eye 64 64, 0#6)
    | none => hqr v
  let g0 := (List.range m).map fun j => ru.map fun row => dot0 row (rv.getD j [])
  let st := Jacobi.run m (trccSweeps trcc)
    { g := g0, y := eye m m, flags := fu ||| fv ||| flagsOf g0, rotated := false }
  let sigs := st.g.map fun c => flSqrt (dot0 c c)
  let ord := sortSig (at1 sigs) m
  let tail := tails (ord.map (at1 sigs))
  let f := st.flags ||| flagsOf [sigs, tail]
  if inputs.any (fun c => c.any fun x => x.val.nonFinite) || f &&& flagNF != 0#6 then bad f
  else
    let r := rankFor tail tol (trccAbs trcc)
    if dense.isSome && decide (trccCap trcc < r) then
      { tile := .dense inputs, flags := ft, capped := false, densified := false }
    else
      let r' := min r (trccCap trcc)
      if r' = 0 then { tile := .zero, flags := ft, capped := decide (trccCap trcc < r), densified := false }
      else
        let cols := (ord.take r').map fun k => outColumn qu qv (st.g.getD k []) (st.y.getD k [])
        let u' := cols.map (·.1)
        let v' := cols.map (·.2)
        let f8 := flagsOf u' ||| flagsOf v'
        if f8 &&& flagNF != 0#6 then bad (f ||| f8)
        else { tile := .low u' v', flags := ft, capped := decide (trccCap trcc < r), densified := false }

/-- Factors of m columns: rounded, or densified when m is above 64 (R281, R282). -/
def roundFactors (trcc : Word) (trct : DWord) (u v : List (List Fl)) : RoundOut :=
  if u.length ≤ 64 then rankRound trcc trct none u v
  else
    let rows := densify u v
    if trccCompress trcc then { rankRound trcc trct (some rows) [] [] with densified := true }
    else { tile := .dense rows, flags := 0#6, capped := false, densified := true }

/-! ### Factorisations and solves (R310, R311, R313) -/

/-- Column j of TCHOL on the rows of L so far: none when it fails, with the flags. A diagonal element that fails at column 0, which no
step has read, raises none, NaN or not (DESIGN CHOICE: R310 names no flag of the comparison; log 34). -/
def cholColumn (a : List (List Fl)) (j : Nat) (l : List (List Fl)) : Option (List (List Fl)) × Flags :=
  let lj := l.getD j []
  let d := lj.foldl (fun s x => flFma (flNeg x) x s) (at2 a j j)
  if flLt Fl.zero d then
    let p := flSqrt d
    (some (l.zipIdx.map fun (row, i) =>
      if i < j then row
      else if i = j then row ++ [p]
      else row ++ [flDiv (dotFl (row.map flNeg) lj (at2 a i j)) p]), d.2)
  else (none, d.2)

/-- TCHOL: the rows of L, or the column that fails; with every flag raised. -/
def chol (a : List (List Fl)) : Nat → Nat → List (List Fl) → Flags → Except Nat (List (List Fl)) × Flags
  | 0, _, l, f => (.ok l, f ||| flagsOf l)
  | n + 1, j, l, f =>
    match cholColumn a j l with
    | (none, f') => (.error j, f ||| f' ||| flagsOf l)
    | (some l', f') => chol a n (j + 1) l' (f ||| f')

/-- The magnitude by which TLU picks a pivot: a NaN counts as +Inf. -/
def pivotKey (a : Fl) : Nat := if a.isNan then fp64.infCode else a.1 % 2 ^ 63

/-- Column j of W, from row 0 down: W[i][j] with the earlier columns eliminated. -/
def luColumn (j : Nat) : List (List Fl) → Nat → List Fl → List Fl
  | [], _, acc => acc
  | row :: rest, i, acc =>
    luColumn j rest (i + 1) (acc ++ [dotFl ((row.take (min i j)).map flNeg) acc (at1 row j)])

/-- The row of the pivot. -/
def luPivot (col : List Fl) (j : Nat) : Nat :=
  ((List.range (col.length - j)).map (j + ·)).foldl
    (fun b i => if pivotKey (at1 col b) < pivotKey (at1 col i) then i else b) j

/-- Exchange two entries of a list. -/
def exchange {α : Type} (d : α) (l : List α) (p q : Nat) : List α := (l.set p (l.getD q d)).set q (l.getD p d)

/-- TLU: W, the pivots, the first zero pivot, the flags. -/
def lu : Nat → Nat → List (List Fl) → List Nat → Option Nat → Flags → List (List Fl) × List Nat × Option Nat × Flags
  | 0, _, w, piv, first, f => (w, piv, first, f ||| flagsOf w)
  | n + 1, j, w, piv, first, f =>
    let col := luColumn j w 0 []
    let p := luPivot col j
    let w := exchange [] (w.zipIdx.map fun (row, i) => row.set j (at1 col i)) p j
    let d := at2 w j j
    let f := f ||| flagsOf [col]
    if d.isZero then lu n (j + 1) w (piv ++ [p]) (first.or (some j)) f
    else
      let w := w.zipIdx.map fun (row, i) => if j < i then row.set j (flDiv (at1 row j) d) else row
      lu n (j + 1) w (piv ++ [p]) first f

/-- Subst with a lower-triangular matrix given by rows: forward from row i; `x` holds what is solved, in order. -/
def substLower (unit : Bool) : List (List Fl) → Nat → List Fl → List Fl → List Fl
  | [], _, _, x => x
  | row :: rest, i, b, x =>
    let s := dotFl ((row.take i).map flNeg) x (at1 b i)
    substLower unit rest (i + 1) b (x ++ [if unit then s else flDiv s (at1 row i)])

/-- Subst with an upper-triangular matrix: backward; `x` holds the solved values of rows i on. -/
def substUpper (unit : Bool) (rows : List (List Fl)) : Nat → List Fl → List Fl → List Fl
  | 0, _, x => x
  | i + 1, b, x =>
    let row := rows.getD i []
    let s := dotFl ((row.drop (i + 1)).map flNeg) x (at1 b i)
    substUpper unit rows i b ((if unit then s else flDiv s (at1 row i)) :: x)

/-- Subst(M, b) (R313). -/
def subst (lower unit : Bool) (m : List (List Fl)) (b : List Fl) : List Fl :=
  if lower then substLower unit m 0 b [] else substUpper unit m m.length b []

/-! ### TNORM (R304) -/

/-- The square of the Frobenius norm. -/
def normSq : Tile → Fl
  | .zero => Fl.zero
  | .dense rows => rows.foldl (fun s row => row.foldl (fun s x => flFma x x s) s) Fl.zero
  | .low u v =>
    let s := u.zipIdx.foldl (fun s p => u.zipIdx.foldl (fun s q =>
      flFma (dot0 p.1 q.1) (dot0 (v.getD p.2 []) (v.getD q.2 [])) s) s) Fl.zero
    if flLt s Fl.zero then (0, s.2) else s

end Sys2Proof.Machine
end

