-- ==== Sys2Proof/Machine/Tiles.lean ====
section
/-! DEFINITION. Tile handles, slabs, placement, and how a tile operation is issued (R273 to R279, R290, R291, R298). -/

namespace Sys2Proof.Machine

/-! ### Handles and storage (R273, R274) -/

/-- Slabs that a handle holds. -/
def Handle.slabs (h : Handle) : Nat :=
  match h.kind with
  | 1 => if h.f32 then 16 else 32
  | 2 => if h.f32 then h.cap / 2 else h.cap
  | _ => 0

/-- The word of R274. -/
def Handle.word (h : Handle) : DWord :=
  BitVec.ofNat 64 (h.slabs * 2 ^ 48 + (if h.slabs = 0 then 0 else h.slab) * 2 ^ 32 + h.cap * 2 ^ 16 + h.rank * 16 +
    (if h.psn then 8 else 0) + (if h.f32 then 4 else 0) + h.kind)

/-- The size of an element. -/
def elemSize (f32 : Bool) : Nat := if f32 then 4 else 8

/-- The key of the first byte of a handle's run. -/
def Handle.base (h : Handle) (cluster : Nat) : Nat := granKey cluster (1024 * h.slab)

/-- n stored words from a key on, with their marks. -/
def Memory.elems (m : Memory) (k e n : Nat) : List (Nat × Bool) :=
  (List.range n).map fun i => (m.readNat (k + e * i) e, m.anyMarked (k + e * i) e)

/-- The stored words that a handle's tile consists of: rows of a DENSE tile, columns of U and then of V. -/
def State.tileRaw (s : State) (cluster : Nat) (h : Handle) : List (Nat × Bool) :=
  let e := elemSize h.f32
  let k := h.base cluster
  match h.kind with
  | 1 => s.mem.elems k e 4096
  | 2 => s.mem.elems k e (64 * h.rank) ++ s.mem.elems (k + 64 * h.cap * e) e (64 * h.rank)
  | _ => []

/-- An FP32 code widened exactly (R108); a signalling NaN stays one. -/
def widen32 (code : Nat) : Nat :=
  match fp32.val code with
  | .nan true => fp64.infCode + 1
  | v => (roundVal fp64 rne false v).1

/-- A stored word as FP64. -/
def widened (f32 : Bool) (code : Nat) : Fl := Fl.of (if f32 then widen32 code else code)

/-- A list cut into lists of n. -/
def chunk {α : Type} (n : Nat) : Nat → List α → List (List α)
  | 0, _ => []
  | k + 1, l => l.take n :: chunk n k (l.drop n)

/-- The tile of stored words (R292). -/
def tileOf (h : Handle) (raw : List (Nat × Bool)) : Tile :=
  let xs := raw.map fun w => widened h.f32 w.1
  match h.kind with
  | 1 => .dense (chunk 64 64 xs)
  | 2 => .low (chunk 64 h.rank xs) (chunk 64 h.rank (xs.drop (64 * h.rank)))
  | _ => .zero

/-- The accesses that store a value in a handle's run, with the marks of the whole run (R280). -/
def storesOf (cluster : Nat) (h : Handle) (v : TileValue) : List Store :=
  let e := elemSize h.f32
  let k := h.base cluster
  let plain (k : Nat) (ws : List Nat) : Store := { key := k, bytes := ws.flatMap (bytesOfNat e), marks := [] }
  let run : Store :=
    { key := k, bytes := [], marks := (List.range (256 * h.slabs)).map fun i => (k / 4 + i, v.poison) }
  match v.kind with
  | 1 => [plain k v.words, run]
  | 2 => [plain k (v.words.take (64 * v.rank)), plain (k + 64 * h.cap * e) (v.words.drop (64 * v.rank)), run]
  | _ => []

/-! ### Slab runs (R275, R276) -/

/-- Slabs of the pool. -/
def ClusterUnit.pool (u : ClusterUnit) : Nat := u.grankib - 1024

/-- The lowest-numbered run of n free slabs. -/
def ClusterUnit.findRun (u : ClusterUnit) (n : Nat) : Option Nat :=
  let starts := 0 :: u.runs.map fun r => r.1 + r.2.1
  lowestOf (starts.filter fun p =>
    decide (p + n ≤ u.pool) && u.runs.all fun r => decide (p + n ≤ r.1) || decide (r.1 + r.2.1 ≤ p))

/-- Slabs that the handles of a region's sequencer programs hold on the device (R275). -/
def State.slabsHeld (s : State) (space : Nat) (va : DWord) : Nat :=
  sumOf (s.clusters.flatMap fun u => u.runs.map fun r =>
    match r.2.2 with
    | .handle a =>
      let t := s.task (s.taskOf a)
      if t.space == space && t.chain.any (·.va == va) then r.2.1 else 0
    | .reservation _ => 0)

/-- Would n more slabs exceed an effective SLABS budget of the chain? -/
def State.overQuota (s : State) (t : Task) (n : Nat) : Bool :=
  t.chain.any fun r => r.slabs != 0 && decide (r.slabs < s.slabsHeld t.space r.va + n)

/-- Take a run of n slabs for a handle of an agent; none when there is none or a budget forbids it. -/
def State.takeRun (s : State) (a n : Nat) : Option (State × Nat) :=
  let cl := s.clusterOf a
  match (s.clusters.getD cl default).findRun n with
  | none => none
  | some p =>
    if s.overQuota (s.task (s.taskOf a)) n then none
    else some (s.modCluster cl fun u => { u with runs := u.runs ++ [(p, n, .handle a)] }, p)

/-- Give a run back. -/
def State.releaseRun (s : State) (a start n : Nat) : State :=
  s.modCluster (s.clusterOf a) fun u => { u with runs := u.runs.filter fun r => r != (start, n, .handle a) }

def Agent.handle (ag : Agent) (h : Nat) : Handle := ag.tile.handles.getD h Handle.zero

def State.setHandle (s : State) (a h : Nat) (v : Handle) : State :=
  s.modAgent a fun ag => { ag with tile := { ag.tile with handles := ag.tile.handles.setIfInBounds h v } }

/-- A result that asks for a place: destination, kind, whether FP32, rank. -/
abbrev Want := Nat × Nat × Bool × Nat

/-- A destination with its storage: the handle, its word, the run released at completion. -/
abbrev Placed := Nat × Handle × (Nat × Nat)

/-- Place one result (R276). -/
def State.place1At (s : State) (a : Nat) (w : Want) : Option (State × Placed) :=
  let (hd, kind, f32, r) := w
  let h := (s.agent a).handle hd
  if kind = 0 then
    let h' := { Handle.zero with f32 := f32 }
    some (s.setHandle a hd h', hd, h', (h.slab, h.slabs))
  else if h.kind = kind ∧ h.f32 = f32 ∧ (kind = 1 ∨ r ≤ h.cap) then
    let h' := { h with rank := r }
    some (s.setHandle a hd h', hd, h', (0, 0))
  else
    let c := if f32 then r + r % 2 else r
    let h' : Handle := { kind := kind, f32 := f32, rank := r, cap := if kind = 2 then c else 0, slab := 0, psn := false }
    match s.takeRun a h'.slabs with
    | none => none
    | some (s, p) =>
      let h' := { h' with slab := p }
      some (s.setHandle a hd h', hd, h', (h.slab, h.slabs))

/-- Place all the results of an instruction, or none (R306). -/
def State.placeAll (s : State) (a : Nat) : List Want → Option (State × List Placed)
  | [] => some (s, [])
  | w :: ws =>
    match s.place1At a w with
    | none => none
    | some (s, p) => (s.placeAll a ws).map fun r => (r.1, p :: r.2)

/-! ### Which handles an instruction reads and writes (R279) -/

def tileReads : Instr → List Nat
  | .tslab h _ | .tstore h _ _ | .tlrst h _ _ | .tscal h _ | .tinfo h _ | .tnorm h _ _ | .tchol h _ | .tlu h _ _
  | .tmv h _ _ _ => [h.toNat]
  | .tadd _ a b _ | .tmul _ a b _ _ | .ttrsm _ a b _ => [a.toNat, b.toNat]
  | .tround _ a | .tcomp _ a | .tdense _ a _ | .tqr _ a _ | .tqrR _ a => [a.toNat]
  | .tgemm _ a b c _ _ _ => [a.toNat, b.toNat, c.toNat]
  | .tfree h => [h.toNat]
  | _ => []

def tileWrites : Instr → List Nat
  | .tnew h _ | .tnewImm h _ _ | .tfree h | .tslab h _ | .tload h _ _ _ | .tlrld h _ _ _ | .tscal h _ | .tchol h _
  | .tlu h _ _ => [h.toNat]
  | .tadd d _ _ _ | .tmul d _ _ _ _ | .tround d _ | .tcomp d _ | .tdense d _ _ | .tgemm d _ _ _ _ _ _ | .tqrR d _
  | .ttrsm d _ _ _ => [d.toNat]
  | .tqr d _ q => [d.toNat, q.toNat]
  | _ => []

/-- Must an instruction wait for operations of its context (R279)? -/
def TileCtx.hazard (t : TileCtx) (i : Instr) : Bool :=
  t.ops.any fun op =>
    (tileWrites op.instr).any (tileReads i).contains ||
      (!op.started && (tileReads op.instr).any (tileWrites i).contains)

/-- A tile instruction: it waits for its handles, then runs (R79, R279). -/
def onHandles (s : State) (i : Instr) (k : Ctx → Done) : Host.Outcome State Fault Refusal :=
  onTile s 1 fun c => if c.ag.tile.hazard i then .hold c.s .polling else k c

/-! ### Issue (R290, R291) -/

def Ctx.tileKind (c : Ctx) : Done := c.trapAll causeTileKind
def Ctx.slabEmpty (c : Ctx) : Done := c.trapAll causeSlabEmpty

/-- A new operation, numbered next on the Winnower timeline. -/
def Ctx.newOp (c : Ctx) (i : Instr) (params : List Word) (keys : List (Option Nat)) (srcs : List Handle)
    (u : TileUnit) : TileOp :=
  { num := c.ag.tile.issued + 1, instr := i, order := c.s.seq, params := params, trcc := c.ag.sregs.trcc
    trct := c.ag.sregs.trct, keys := keys, srcs := srcs, unit := u, started := false, allocated := true, dests := []
    results := [], elems := [], status := 0#32, flags := 0#6, capped := false, densified := false }

/-- Append an operation; `numbered` counts it on the timeline. -/
def State.pushOp (s : State) (a : Nat) (op : TileOp) (numbered : Bool) : State :=
  { s with seq := s.seq + 1 }.modAgent a fun ag =>
    { ag with tile := { ag.tile with ops := ag.tile.ops ++ [op]
                                     issued := if numbered then ag.tile.issued + 1 else ag.tile.issued } }

/-- An operation whose result kinds are known at issue: placed, numbered, on its way (R276). -/
def Ctx.issueKnown (c : Ctx) (op : TileOp) (wants : List Want) : Done :=
  match c.s.placeAll c.a wants with
  | none => c.slabEmpty
  | some (s, ps) => .retire (s.pushOp c.a { op with dests := ps } true)

/-- An operation that rounds: the context waits for its allocation point (R277). -/
def Ctx.issueRounding (c : Ctx) (op : TileOp) : Done :=
  .hold (c.s.pushOp c.a { op with allocated := false } false) .allocation

/-- Either, by the wants that are known. -/
def Ctx.issueOp (c : Ctx) (op : TileOp) : Option (List Want) → Done
  | some ws => c.issueKnown op ws
  | none => c.issueRounding op

/-! ### Memory elements (R298) -/

/-- The address of an element whatever its bounds. -/
def Layout.rawAt (l : Layout) (xs : List Int) : Nat :=
  l.swizzle (((List.range l.nd).foldl (fun (a : Int) k => a + xs.getD k 0 * l.str k) l.base.toNat) % 2 ^ 64).toNat

/-- One element: its key, none when it is absent, or a cause with the address. -/
def Ctx.tileElem (c : Ctx) (l : Layout) (acc : Access) (xs : List Int) : Except (Nat × Nat) (Option Nat) :=
  match l.spot xs with
  | .out => .error (causeLayout, l.rawAt xs)
  | .absent => .ok none
  | .at off =>
    if c.breaksLimit l off l.size then .error (causeLocalBounds, off)
    else if off % l.size ≠ 0 then .error (causeAlign, off)
    else
      match c.place l off acc with
      | .key k => .ok (some k)
      | .fail e => .error (e, off)
      | .unanswered => .error (causePerm, off)

/-- The elements in order: their keys, or the first failure. -/
def Ctx.tileElems (c : Ctx) (l : Layout) (acc : Access) : List (List Int) → Except (Nat × Nat) (List (Option Nat))
  | [] => .ok []
  | xs :: rest =>
    match c.tileElem l acc xs with
    | .error e => .error e
    | .ok k => (c.tileElems l acc rest).map (k :: ·)

/-- Step 5 of R290: the entry's own checks, then its elements. -/
def Ctx.withElems (c : Ctx) (l : Layout) (ok : Bool) (acc : Access) (els : List (List Int))
    (k : List (Option Nat) → Done) : Done :=
  if !ok then c.trapAt causeLayout c.act 0#64 acc.code
  else c.peerGate l (l.reaches els) <|
    match c.tileElems l acc els with
    | .error (cause, addr) =>
      .trap c.s { cause := cause, mask := c.act, addr := BitVec.ofNat 64 addr, access := acc.code, level := none
                  partDone := false, peer := c.s.peerOf l }
    | .ok ks => k ks

/-- A coordinate moved by n, modulo 2^32, as I32. -/
def stepCoord (w : Word) (n : Nat) : Int := (w + BitVec.ofNat 32 n).toInt

/-- Coordinates of the elements of a tile, row by row. -/
def gridCoords (ws : List Word) : List (List Int) :=
  (List.range 4096).map fun n =>
    stepCoord (ws.getD 0 0#32) (n % 64) :: stepCoord (ws.getD 1 0#32) (n / 64) :: (ws.drop 2).map BitVec.toInt

/-- Coordinates of n elements along the first dimension. -/
def lineCoords (ws : List Word) (n : Nat) : List (List Int) :=
  (List.range n).map fun e => stepCoord (ws.getD 0 0#32) e :: (ws.drop 1).map BitVec.toInt

/-- Step 1 of R290 for a run of registers from r on: the entry's coordinates and `extra` registers. -/
def Ctx.withRun (c : Ctx) (lay : BitVec 6) (r extra : Nat) (k : Layout → Done) : Done :=
  let l := c.layout lay
  if !l.valid || decide (c.n < r + l.nd + extra) then c.trapAll causeLayout else k l

/-- Does an entry's ESIZE fit an element size? -/
def Layout.fits (l : Layout) (f32 : Bool) (dims : Nat) : Bool := decide (dims ≤ l.nd) && l.size == elemSize f32

end Sys2Proof.Machine
end

