-- ==== Sys2Proof/Machine/Save.lean ====
section
/-! DEFINITION. Preemption points (R95, R96), the save record of an agent and its restoration (R353 to R355), and
TEAM_SAVE_COMPLETE. -/

namespace Sys2Proof.Machine

abbrev SaveOut := Host.Outcome State Fault Refusal

/-! ### The side table of points (R95, R96) -/

/-- A listed point: is it a wait instruction, which registers, predicates or handles are live there. -/
structure PPoint where
  wait : Bool
  vmask : BitVec 128
  ph : Word
  deriving DecidableEq, Repr, Inhabited

/-- The entry of `.preempt` for a word of a section. In a table that breaks R96 the last of several entries for one point counts,
reserved bits are ignored, and so are bytes after the last whole entry (DESIGN CHOICE: R259 refuses no such table; log 32). -/
def pointAmong (b : List Byte) (sect word : Nat) : Nat → Option PPoint
  | 0 => none
  | n + 1 =>
    let e := b.drop (24 * n)
    let k := fieldOf e 20 4
    if k / 256 = word ∧ k % 4 = sect then
      some { wait := k / 4 % 2 == 1, vmask := BitVec.ofNat 128 (fieldOf e 0 16), ph := BitVec.ofNat 32 (fieldOf e 16 4) }
    else pointAmong b sect word n

/-- The point listed at an address of the code that an agent runs, by the side table as it stands in home memory now: poisoned
words are read as their stored bits, and a table that cannot be read lists no point (R95, R96; log 32). -/
def State.pointAt (s : State) (a : Nat) (pc : DWord) : Option PPoint :=
  let t := s.task (s.taskOf a)
  let sect := (s.agent a).sect
  match t.info.sectionAt 6, t.info.sectionAt sect with
  | some (off, size), some (start, len) =>
    let at_ := (pc - (t.code + BitVec.ofNat 64 start)).toNat
    if len ≤ at_ then none
    else
      match s.readVa (s.dieOf a) t.space (t.code + BitVec.ofNat 64 off) size with
      | none => none
      | some b => pointAmong (b.map (·.1)) sect (at_ / 4) (size / 24)
  | _, _ => none

/-- Is a fragment at a point where it may stop? One held by anything but a wait instruction completes that instruction
first. -/
def State.atPoint (s : State) (a : Nat) (en : Entry) : Bool :=
  match s.pointAt a en.pc with
  | none => false
  | some p =>
    match en.hold with
    | .ready => en.redo.isNone
    | .polling | .yielded | .rdv _ _ | .barrier _ _ => p.wait
    | _ => false

/-- Does a pending request stop a fragment before it issues (R95, R339, R353)? Inside a WIDE bracket, whose fragment alone
issues (R166), it goes on until every other fragment is at a point. -/
def State.stopsAt (s : State) (a : Nat) (en : Entry) : Bool :=
  let ag := s.agent a
  (s.team ag.team).preemptReq && ag.frames == [] && s.atPoint a en &&
    (ag.wide.depth == 0 || ag.entries.zipIdx.all fun p =>
      p.2 == ag.wide.entry || p.1.kind != .running || s.atPoint a p.1)

/-- Has a team completed an instruction at a listed point since it was last resumed (R267)? -/
def State.hasPassed (s : State) (team : Nat) : Bool :=
  (s.team team).passedPoint || (s.team team).left.any fun p => (s.pointAt p.1 p.2).isSome

/-- Note whether the instructions that an agent's team has completed passed a listed point (R267). -/
def State.passPoint (s : State) (a : Nat) : State :=
  let n := (s.agent a).team
  if (s.team n).left = [] then s else s.modTeam n fun t => { t with passedPoint := s.hasPassed n, left := [] }

/-! ### Records (R354, R355) -/

/-- The addresses at which an agent's live state is taken. -/
def Entry.saveAddrs (en : Entry) : List DWord :=
  match en.kind with
  | .free => []
  | _ => en.pc :: en.records.flatMap fun r => r.resume :: r.target.toList

/-- What is live at any of an agent's addresses. -/
def State.liveAt (s : State) (a : Nat) : BitVec 128 × Word :=
  ((s.agent a).entries.flatMap Entry.saveAddrs).foldl (fun (m : BitVec 128 × Word) pc =>
    match s.pointAt a pc with
    | some p => (m.1 ||| p.vmask, m.2 ||| p.ph)
    | none => m) (0#128, 0#32)

/-- A vector record. -/
def VReg.record (r : Nat) (v : VReg) : List Byte :=
  bytesOfNat 1 v.tag ++ bytesOfNat 1 r ++ [0#8, 0#8] ++ bytesOfNat 4 v.poison.toNat ++
    match v.shape with
    | .uniform w => bytesOfNat 4 w.toNat
    | .affine b s => bytesOfNat 4 b.toNat ++ bytesOfNat 4 s.toNat
    | .general _ => laneList.flatMap fun i => bytesOfNat 4 (v.lane i).toNat

/-- A predicate record. -/
def predRecord (p : Nat) (ag : Agent) : List Byte :=
  bytesOfNat 4 p ++ laneList.flatMap fun i =>
    let x := ag.pred p i
    bytesOfNat 4 (x.code.toNat + 2 ^ 16 * x.lin.toNat + if x.poison then 2 ^ 24 else 0)

/-- A handle record. -/
def Handle.record (n : Nat) (h : Handle) : List Byte := bytesOfNat 8 n ++ bytesOfNat 8 h.word.toNat

/-- WSTAT as a save header holds it, at depth 0 with a request pending (R60). -/
def Agent.wstatSaved (ag : Agent) : Nat :=
  2 ^ 19 * ag.deferCount +
    2 ^ 12 * (ag.entries.filter fun en => en.kind == .running).length + 4 + if ag.sregs.memberExit then 1 else 0

/-- The save record of an agent. -/
def State.saveRecord (s : State) (a : Nat) : SaveRecord :=
  let ag := s.agent a
  let live := s.liveAt a
  let vecs := ((List.range 128).filter fun r => live.1.getLsbD r).map fun r => (ag.reg r).record r
  let warp := ag.kind == .warp
  let preds :=
    if warp then ((List.range 7).filter fun p => live.2.getLsbD p).map fun p => predRecord p ag else []
  let handles :=
    if warp then [] else ((List.range 32).filter fun h => live.2.getLsbD h).map fun h => (ag.tile.handles.getD h Handle.zero).record h
  let kind := match ag.kind with
    | .warp => 0
    | .tileSeq => 1
    | .copySeq => 2
  { agent := a
    header := bytesOfNat 2 vecs.length ++ bytesOfNat 1 preds.length ++ bytesOfNat 1 kind ++
      bytesOfNat 4 ag.sregs.fpcsr.toNat ++ bytesOfNat 4 ag.sregs.temp.toNat ++ bytesOfNat 4 ag.sregs.pstat.toNat ++
      bytesOfNat 8 (if warp then ag.wstatSaved else 0) ++ bytesOfNat 8 (if warp then 0 else ag.sregs.trct.toNat) ++
      bytesOfNat 4 (if warp then 0 else ag.sregs.trcc.toNat) ++ List.replicate 28 0#8
    entries := ag.entries.map fun (en : Entry) => { en with hold := .ready, owed := [], given := 0, passed := 0 }
    wide := ag.wide, exited := ag.exited, vecs := vecs, preds := preds, handles := handles }

/-! ### Saving a team (R353) -/

/-- Has an agent of a requested team stopped, with nothing outstanding? The copies and fills of one that has exited complete
first (R206, R353). -/
def State.agentStopped (s : State) (a : Nat) : Bool :=
  let ag := s.agent a
  ag.enginesIdle &&
    (ag.phase == .retired ||
      (ag.phase == .active && ag.frames == [] && ag.entries.all fun en => en.kind != .running || s.atPoint a en))

/-- The agents of a team. -/
def State.agentsOf (s : State) (team : Nat) : List Nat :=
  (List.range s.agents.length).filter fun a => (s.agent a).team == team

/-- The instances that have released some lanes of a fragment which still waits for others: those lanes are released at once
when the same wait issues again (R173). -/
def State.keepReleases (s : State) (a : Nat) : State :=
  let ag := s.agent a
  let tm := s.team ag.team
  ag.entries.foldl
    (fun (s : State) en =>
      match en.hold with
      | .barrier (i :: is) _ =>
        let w := s.instances.getD i default
        { s with instances := s.instances.zipIdx.map fun (x, n) =>
            let m := en.mask &&& (s.task x.task).nodeLanes x.kind.level x.node tm.logical ag.number
            if !(i :: is).contains n && x.task == w.task && x.kind == w.kind && m != 0#32 then
              { x with owes := x.owes ++ [{ agent := a, lanes := m, value := 0#64, poison := false, flags := 0#6 }] }
            else x }
      | _ => s) s

/-- TEAM_SAVE_COMPLETE: a requested team whose agents have all stopped performs its stores, is saved, and frees its
core (R226, R267, R353). -/
def execTeamSaveComplete (team : Nat) (s : State) : SaveOut :=
  .next <|
    let tm := s.team team
    let agents := s.agentsOf team
    if tm.phase != .resident || !tm.preemptReq || !agents.all s.agentStopped then s
    else
      let live := agents.filter fun a => (s.agent a).phase != .retired
      let records := live.map s.saveRecord
      let s := agents.foldl (fun (s : State) a => s.sendAll a .home) s
      let s := live.foldl State.keepReleases s
      let s := live.foldl (fun (s : State) a => s.modAgent a fun ag =>
        { ag with phase := .saved, entries := ag.entries.map fun (en : Entry) => { en with hold := .ready, owed := [] } }) s
      s.modTeam team fun t => { t with phase := .suspended, saved := records, preemptReq := false }

/-! ### Restoring a team (R354, R355) -/

/-- A register whose record is damaged: UNIFORM 0 with every mark set. -/
def VReg.lost : VReg := ⟨.uniform 0#32, allLanes⟩

/-- Read a vector record: the register, its value, and whether the record is sound. A number that does not exist is taken modulo
128 (DESIGN CHOICE: R355 does not say which register such a record restores; log 32). -/
def readVec (live : BitVec 128) (b : List Byte) : Nat × VReg × Bool :=
  let tag := fieldOf b 0 1
  let r := fieldOf b 1 1
  let word (o : Nat) : Word := BitVec.ofNat 32 (fieldOf b o 4)
  if 3 ≤ tag ∨ fieldOf b 2 2 ≠ 0 ∨ 128 ≤ r ∨ !live.getLsbD r then (r % 128, VReg.lost, false)
  else
    let shape := match tag with
      | 0 => .uniform (word 8)
      | 1 => .affine (word 8) (word 12)
      | _ => .general (laneList.map fun i => word (8 + 4 * i))
    (r, ⟨shape, word 4⟩, true)

/-- Read a predicate record. A number that does not exist is taken modulo 7 (DESIGN CHOICE, as for vectors; log 32). -/
def readPred (live : Word) (b : List Byte) : Nat × List Pred × Bool :=
  let p := fieldOf b 0 1
  let w (i : Nat) : Nat := fieldOf b (4 + 4 * i) 4
  if 7 ≤ p ∨ fieldOf b 1 3 ≠ 0 ∨ !live.getLsbD p ∨ laneList.any (fun i => decide (2 ^ 25 ≤ w i)) then
    (p % 7, List.replicate 32 ⟨0#16, 0#8, true⟩, false)
  else (p, laneList.map fun i => ⟨BitVec.ofNat 16 (w i), BitVec.ofNat 8 (w i / 2 ^ 16), w i / 2 ^ 24 % 2 == 1⟩, true)

/-- The handle of a word of R274. -/
def Handle.ofWord (w : Nat) : Handle :=
  { kind := w % 4, f32 := w / 4 % 2 == 1, rank := w / 16 % 128, cap := w / 2 ^ 16 % 64, slab := w / 2 ^ 32 % 2 ^ 14
    psn := w / 8 % 2 == 1 }

/-- Read a handle record. A damaged one restores the ZERO handle without a mark, and a number that does not exist is taken modulo 32
(DESIGN CHOICE: UNIFORM 0 with 32 marks, which R355 gives, is no value of a handle; log 32). -/
def readHandle (live : Word) (b : List Byte) : Nat × Handle × Bool :=
  let h := fieldOf b 0 8
  let x := Handle.ofWord (fieldOf b 8 8)
  if 32 ≤ h ∨ !live.getLsbD h ∨ x.word.toNat ≠ fieldOf b 8 8 ∨ x.kind = 3 then (h % 32, Handle.zero, false) else (h, x, true)

/-- The special registers that a save header restores; FAULTINFO stays with the device. -/
def SRegs.ofHeader (warp : Bool) (h : List Byte) (r : SRegs) : SRegs :=
  { fpcsr := BitVec.ofNat 32 (fieldOf h 4 4), temp := BitVec.ofNat 32 (fieldOf h 8 4)
    pstat := BitVec.ofNat 32 (fieldOf h 12 4), memberExit := if warp then fieldOf h 16 1 % 2 == 1 else r.memberExit
    trct := if warp then r.trct else BitVec.ofNat 64 (fieldOf h 24 8)
    trcc := if warp then r.trcc else BitVec.ofNat 32 (fieldOf h 32 4), faultinfo := r.faultinfo }

/-- A handle with PSN as its storage now has it: some word of the run is poisoned (R274). -/
def State.freshPsn (s : State) (a : Nat) (h : Handle) : Handle :=
  { h with psn := h.psn || s.mem.anyMarked (h.base (s.clusterOf a)) (1024 * h.slabs) }

/-- Restore an agent from its save record. However many of its records are damaged, one machine-check record goes out (DESIGN CHOICE:
R355 does not say whether each sends its own; log 32). The releases that it waited for are performed by then (R226). -/
def State.restoreAgent (s : State) (r : SaveRecord) : State :=
  let live := s.liveAt r.agent
  let vecs := r.vecs.map (readVec live.1)
  let preds := r.preds.map (readPred live.2)
  let handles := r.handles.map (readHandle live.2)
  let s := s.modAgent r.agent fun ag =>
    { ag with
      phase := .active
      regs := vecs.foldl (fun (l : Vector VReg 128) v => l.setIfInBounds v.1 v.2.1) (Vector.replicate 128 VReg.zero)
      preds := preds.foldl (fun (l : Vector (Vector Pred 32) 7) p => l.setIfInBounds p.1 (Vector.ofFn fun i => p.2.1.getD i.val Pred.zero))
        (Vector.replicate 7 (Vector.replicate 32 Pred.zero))
      entries := r.entries, wide := r.wide, exited := r.exited, due := []
      sregs := SRegs.ofHeader (ag.kind == .warp) r.header ag.sregs
      tile := { ag.tile with
        handles := handles.foldl (fun (l : Vector Handle 32) h => l.setIfInBounds h.1 (s.freshPsn r.agent h.2.1))
          ag.tile.handles } }
  if vecs.all (·.2.2) && preds.all (·.2.2) && handles.all (·.2.2) then s else s.report (.saveRecord r.agent)

/-- The suspended teams of a task in the order of their turns, the holder of the Lodestone first. -/
def State.turnOrder (s : State) (task : Nat) : List Nat :=
  let h := (s.task task).lodestone.getD 0
  let ts := (s.teamsOf task).filter fun p => p.2.phase == .suspended
  ((ts.filter fun p => decide (h ≤ p.2.logical)) ++ ts.filter fun p => decide (p.2.logical < h)).map (·.1)

/-- Before teams of a task resume or migrate, every store that they have buffered is performed at the launch domain, team after team
in the order of their turns (R226; DESIGN CHOICE against R272, by which those of a team that does not hold the Lodestone would wait for
its turn, while the holder is stopped with it; log 45). -/
def State.drainStopped (s : State) (task : Nat) : State := (s.turnOrder task).foldl State.drainBuffer s

/-- Does a fetch hold a store that a stopped team of a task has buffered (R328)? Its teams resume after that fetch (log 45). -/
def State.stoppedHeld (s : State) (task : Nat) : Bool := (s.turnOrder task).any s.bufferHeld

/-- A suspended team resumes on a core (R226, R267): its buffered stores are performed, its agents are restored, each program on a
free context of its cluster, and every view is refreshed. -/
def State.resumeTeam (s : State) (team core : Nat) : State :=
  let records := (s.team team).saved
  let s := s.drainStopped (s.team team).task
  let s := s.modTeam team fun t =>
    { t with phase := .resident, core := core, saved := [], preemptReq := false, passedPoint := false, left := []
             stays := false }
  let s := records.foldl (fun (s : State) r =>
    let k := (s.agent r.agent).kind
    let s := if k = .warp then s
      else match s.freeContext (clusterOfCore core) k with
        | some n => s.modAgent r.agent fun ag => { ag with number := n }
        | none => s
    s.restoreAgent r) s
  records.foldl (fun (s : State) r => s.refresh r.agent .home) s

/-- Does a cluster have free contexts for the programs of a suspended team? -/
def State.contextsFree (s : State) (team cluster : Nat) : Bool :=
  [AgentKind.tileSeq, AgentKind.copySeq].all fun k =>
    decide (((s.team team).saved.filter fun r => (s.agent r.agent).kind == k).length +
      (s.contextsHeld cluster k).length ≤ (s.clusters.getD cluster default).contexts k)

end Sys2Proof.Machine
end

