-- ==== Sys2Proof/Machine/Helm.lean ====
section
/-! DEFINITION. The Helm after acceptance: deadlines (R265), placement (R14, R17 to R21, R269), extents (R269), dispatch and
resumption (R266), requests for preemption (R267), migration (R268), the watchdog (R340, R341). -/

namespace Sys2Proof.Machine

abbrev HelmOut := Host.Outcome State Fault Refusal

/-! ### Deadlines (R265) -/

/-- off(a→b) of two dies. -/
def State.offset (s : State) (a b : Nat) : Int := (s.dies.getD a default).offsets.getD b 0

/-- A task's deadline rewritten for die b on a placement from die a; the issuing die keeps its value, and a deadline of
all ones is never rewritten. -/
def State.rewriteDeadline (s : State) (task a b : Nat) : State :=
  let t := s.task task
  let d := t.deadlineOn a
  if a = b ∨ b = t.issuingDie ∨ d = BitVec.allOnes 64 then s
  else s.modTask task fun t =>
    { t with deadlines := t.deadlines.filter (·.1 != b) ++ [(b, BitVec.ofInt 64 (d.toNat + s.offset a b))] }

/-- Does a die hold undispatched teams of a task? -/
def State.holdsUndispatched (s : State) (die task : Nat) : Bool :=
  (s.teamsOf task).any fun p => p.2.phase == .undispatched && dieOfCore p.2.core == die

/-- Has an unstarted, unmarked task's deadline passed on a die that holds its teams? -/
def State.deadlinePassed (s : State) (die task : Nat) : Bool :=
  let t := s.task task
  t.phase == .queued && !t.overdue && s.holdsUndispatched die task && t.deadlineOn die != BitVec.allOnes 64 &&
    decide ((t.deadlineOn die).toNat < s.clockOf die)

/-- A task retires without running, or without its remaining teams. -/
def State.retireUnrun (s : State) (task status : Nat) : State :=
  let s := { s with teams := s.teams.map fun (tm : Team) =>
    if tm.task = task ∧ tm.phase = TeamPhase.undispatched then { tm with phase := .retired } else tm }
  ((s.modTask task fun t => { t with status := status, cause := 0 }).settleWaits task).settleTask task

/-- A deadline passes: the task is marked overdue, MISSED counts it once, and under ABANDON it retires (R265). -/
def State.markOverdue (s : State) (die task : Nat) : State :=
  if !s.deadlinePassed die task then s
  else
    let s := s.modTask task fun t => { t with overdue := true }
    let t := s.task task
    let s := match t.chain.head? with
      | some r => s.addRegionCounter die t.space r.va missedOffset 1
      | none => s
    if t.abandon then s.retireUnrun task 2 else s

/-- DEADLINE_PASS. -/
def execDeadlinePass (die task : Nat) (s : State) : HelmOut := .next (s.markOverdue die task)

/-! ### Room (R17 to R21, R38, R275, R316) -/

/-- The resident teams of a core. -/
def State.residentsOn (s : State) (core : Nat) : List Team :=
  s.teams.filter fun t => t.phase == .resident && t.core == core

/-- The warps of a core that hold a slot. -/
def State.warpsOn (s : State) (core : Nat) : List Agent :=
  s.agents.filter fun ag => ag.kind == .warp && ag.phase != .retired &&
    (s.team ag.team).phase == .resident && (s.team ag.team).core == core

/-- Does a unit hold a core whose teams must leave it before it changes (R375)? -/
def unitCovers (u : SpareUnit) (core : Nat) : Bool :=
  match u with
  | .cluster die n => clusterOfCore core == die * Config.clustersPerDie + n
  | .registerBank c => c == core
  | _ => false

/-- Has the service routine stopped dispatch to a core (R375)? -/
def State.closed (s : State) (core : Nat) : Bool := s.closing.any fun u => unitCovers u core

/-- A task's deadline on a die: the value that the die holds, or would hold (R265). -/
def State.deadlineAt (s : State) (task die : Nat) : Nat :=
  let t := s.task task
  let d := t.deadlineOn die
  if t.deadlines.any (·.1 == die) ∨ d = BitVec.allOnes 64 then d.toNat
  else (BitVec.ofInt 64 (d.toNat + s.offset t.issuingDie die)).toNat

/-- Does task a come before task b on a die (R266)? -/
def State.before (s : State) (die a b : Nat) : Bool :=
  let (x, y) := (s.task a, s.task b)
  let (dx, dy) := (s.deadlineAt a die, s.deadlineAt b die)
  let (px, py) := ((x.chain.headD default).prio, (y.chain.headD default).prio)
  decide (dx < dy) || (dx == dy && (decide (py < px) || (px == py && decide (x.order < y.order))))

/-- Is a core kept for another task, for which its team was asked to stop? A task that comes earlier in the order of R266 is
served before that one (R266, R267). -/
def State.claimed (s : State) (core task : Nat) : Bool :=
  s.tasks.zipIdx.any fun (t, i) =>
    i != task && t.phase != .retired && t.claims.contains core && !s.before (dieOfCore core) task i

/-- Has a core room for a team of a task, whether or not it is in service? `bytes` are those of its register banks. -/
def State.roomOn (s : State) (core task bytes : Nat) : Bool :=
  let u := s.cores.getD core default
  let t := s.task task
  let ws := s.warpsOn core
  !s.closed core && !s.claimed core task && decide (ws.length + t.warps ≤ u.warps) &&
    decide (sumOf (ws.map fun ag => (s.task (s.team ag.team).task).info.warpBytes) + t.warps * t.info.warpBytes ≤
      bytes) &&
    decide (sumOf ((s.residentsOn core).map fun tm => (s.task tm.task).info.localAlloc) + t.info.localAlloc ≤
      1024 * u.localKib) &&
    (s.residentsOn core).all (·.task != task)

/-- Slabs of a task's Granary reservation. -/
def CodeInfo.reservation (i : CodeInfo) : Nat := (i.granary + 1023) / 1024

/-- Has a cluster the task's reservation, or a run for it, and its slots when it needs them? -/
def State.clusterRoom (s : State) (cluster task : Nat) : Bool :=
  let u := s.clusters.getD cluster default
  let i := (s.task task).info
  (i.granary == 0 || u.runs.any (·.2.2 == .reservation task) || (u.findRun i.reservation).isSome) &&
    (!i.has 1 || u.slotHolder.all (· == task))

/-- Cores, local bytes and Granary bytes that a region's tasks hold. -/
def State.regionHolds (s : State) (space : Nat) (va : DWord) : Nat × Nat × Nat :=
  let ours (t : Task) : Bool := t.space == space && t.chain.any (·.va == va)
  let res := s.teams.filter fun tm => tm.phase == .resident && ours (s.task tm.task)
  (res.length, sumOf (res.map fun tm => (s.task tm.task).info.localAlloc),
    sumOf (s.clusters.flatMap fun u => u.runs.map fun r => match r.2.2 with
      | .reservation n => if ours (s.task n) then (s.task n).info.granary else 0
      | .handle _ => 0))

/-- Does a task hold no more than its effective budgets (R38)? -/
def State.withinBudgets (s : State) (task : Nat) : Bool :=
  let t := s.task task
  t.chain.all fun r =>
    let (c, l, g) := s.regionHolds t.space r.va
    (r.cores == 0 || decide (c ≤ r.cores)) && (r.localBytes == 0 || decide (l ≤ r.localBytes)) &&
      (r.granary == 0 || decide (g ≤ r.granary))

/-! ### Instances that the binding chose (R14, R20) -/

/-- The unit of a physical code that holds a core. -/
def unitOf (code core : Nat) : Nat := if code = 3 then clusterOfCore core else if code = 4 then dieOfCore core else 0

/-- The runs above CORE with, for each, its code and the number of teams under one of its nodes; a co-resident task
without a CLUSTER level has a last one for the clusters that it fills. -/
def State.nodeRuns (s : State) (t : Task) : List (Nat × Nat) :=
  let codes := ((t.binding.map (·.phys)).filter fun p => p == 3 || p == 4).eraseDups
  let runs := codes.map fun c => (c, fans t.binding fun p => decide (2 ≤ p) && decide (p < c))
  if t.coresident && !codes.contains 3 then runs ++ [(3, s.cap 2 3)] else runs

/-- The node of a team in a run; the clusters that a co-resident task fills start anew in each node above. -/
def nodeAt (t : Task) (run : Nat × Nat) (logical : Nat) : Nat × Nat :=
  let f := fans t.binding (· == 2)
  if t.binding.any (·.phys == run.1) then (logical / run.2, 0) else (logical / f, logical % f / max 1 run.2)

/-- Teams of a task whose cores fix where its nodes lie; a co-resident task that is suspended may resume elsewhere. -/
def State.placedTeams (s : State) (task : Nat) : List Team :=
  ((s.teamsOf task).map (·.2)).filter fun tm =>
    tm.placed && !((s.task task).coresident && tm.phase == .suspended)

/-- The levels below a code, from high to low, each with the product of its fanouts: what a node of that code must have
room for (R20). -/
def childRuns (t : Task) (code : Nat) : List (Nat × Nat) :=
  (((t.binding.map (·.phys)).filter fun p => decide (2 ≤ p) && decide (p < code)).eraseDups).map fun c =>
    (c, fans t.binding (· == c))

/-- The unit of a code at or above CORE that holds a core. -/
def childUnit (code core : Nat) : Nat := if code = 2 then core else unitOf code core

/-- Have the units among some cores room for a node's children, and each of these for its own (R20)? -/
def roomFor : List (Nat × Nat) → List Nat → Bool
  | [], _ => true
  | (c, n) :: rest, cores =>
    let units := (cores.map (childUnit c)).eraseDups
    decide (n ≤ (units.filter fun u => roomFor rest (cores.filter fun k => childUnit c k == u)).length)

/-- Does an enabled core meet R17, R18 and the warp condition of R20 for a task? -/
def State.servesTask (s : State) (t : Task) (core : Nat) : Bool := s.coreFits core t.info t.warps

/-- The units of a run among some cores that have room for a node of a task and for its children (R20). The teams of a co-resident
task need a fitting core each; those of another one are dispatched as the fitting cores fall free, so every enabled core counts. -/
def State.unitsWithRoom (s : State) (t : Task) (run : Nat × Nat) (cores : List Nat) : List Nat :=
  let good := if t.coresident then cores.filter (s.servesTask t) else cores
  (good.map (unitOf run.1)).eraseDups.filter fun u =>
    !(t.binding.any (·.phys == run.1)) || roomFor (childRuns t run.1) (good.filter fun k => unitOf run.1 k == u)

/-- The units that had room when a task was first dispatched, or that have room now (R14). -/
def State.chosenUnits (s : State) (t : Task) (run : Nat × Nat) (cores : List Nat) : List Nat :=
  if t.phase = .queued then s.unitsWithRoom t run cores
  else (t.units.filter (·.1 == run.1)).map (·.2)

/-- Has some unit that the binding could choose lost its last core that serves, among those of the cores' dies (R14)? -/
def State.unitLost (s : State) (t : Task) (run : Nat × Nat) (cores : List Nat) : Bool :=
  (s.chosenUnits t run cores).any fun u =>
    (run.1 == 4 || cores.any fun c => dieOfCore c == dieOfCluster u) &&
      !(s.liveCores.any fun c => unitOf run.1 c == u && s.servesTask t c)

/-- The cores where a team of a task may lie, as far as one run goes: in the unit that its node has; before it has one, in a
unit that the binding could choose and no other node has taken (R20). When the node's unit no longer serves, any unit of
its parent does (R14); with `wide`, also where no unit is free. -/
def State.runCores (s : State) (task logical : Nat) (wide : Bool) (run : Nat × Nat) (cores : List Nat) : List Nat :=
  let t := s.task task
  let unit (core : Nat) : Nat := unitOf run.1 core
  let (mine, theirs) := ((s.placedTeams task).filter (·.logical != logical)).partition fun tm =>
    nodeAt t run tm.logical == nodeAt t run logical
  let units :=
    if mine = [] then (s.chosenUnits t run cores).filter fun u => theirs.all fun tm => unit tm.core != u
    else mine.map fun tm => unit tm.core
  let near := cores.filter fun c => units.contains (unit c)
  if near.any (s.servesTask t) then near
  else if wide || mine != [] || s.unitLost t run cores then cores
  else []

/-- The cores where a team of a task may lie. -/
def State.nodeCores (s : State) (task logical : Nat) (wide : Bool) : List Nat :=
  (s.nodeRuns (s.task task)).foldl (fun cs run => s.runCores task logical wide run cs) s.liveCores

def State.nodesAllow (s : State) (task logical core : Nat) : Bool := (s.nodeCores task logical false).contains core

/-! ### Extents (R269) -/

/-- The bits that pages of one extent share: permissions and attributes. -/
def extentBits (p : DWord) : DWord := p &&& ((0x1FF#64 <<< 54) ||| 0x3E#64)

/-- The extents of a range from a VA on, after those found so far (the last one first); n bounds the pages. -/
def State.extentsFrom (s : State) (root stop : Nat) : Nat → Nat → Bool → List Extent → List Extent
  | 0, _, _, acc => acc
  | n + 1, va, joined, acc =>
    if stop ≤ va then acc
    else
      match walkFrom s.mem 0 (va % 2 ^ 57) 5 root with
      | none => s.extentsFrom root stop n (va / 4096 * 4096 + 4096) false acc
      | some (level, p, _) =>
        let size := pageSize level p
        let va := va / size * size
        let pa := leafPhys level p (va % 2 ^ 57)
        match acc with
        | x :: rest =>
          if joined && x.va + x.size == va && x.pa + x.size == pa && extentBits x.pte == extentBits p then
            s.extentsFrom root stop n (va + size) true ({ x with size := x.size + size } :: rest)
          else if 32 ≤ acc.length then acc
          else s.extentsFrom root stop n (va + size) true ({ va := va, pa := pa, size := size, pte := p } :: acc)
        | [] => s.extentsFrom root stop n (va + size) true [{ va := va, pa := pa, size := size, pte := p }]

/-- The extent table of a task. -/
def State.extentTable (s : State) (t : Task) : List Extent :=
  match s.spaceRoot t.space with
  | none => []
  | some root =>
    (t.ranges.foldl (fun (acc : List Extent) r =>
      s.extentsFrom root (r.start.toNat + r.length) (r.length / 4096 + 2) r.start.toNat false acc) []).reverse

/-- The die that a task prefers: the home of its first declared range, by the page at its START; none when that page is not
mapped (DEDUCED: R269 does not say what a range over several dies prefers; log 30). -/
def State.preferredDie (s : State) (t : Task) : Option Nat :=
  match t.ranges, s.spaceRoot t.space with
  | r :: _, some root =>
    let va := r.start.toNat % 2 ^ 57
    match walkFrom s.mem 0 va 5 root with
    | some (level, p, _) => s.dieOfPhys (leafPhys level p va)
    | none => none
  | _, _ => none

/-! ### Placing a team -/

/-- Is a team bound to its cluster: it is suspended and has a Granary reservation or programs there (R268)? -/
def State.bound (s : State) (team : Nat) : Bool :=
  let tm := s.team team
  tm.phase == .suspended &&
    ((s.task tm.task).info.granary != 0 || tm.saved.any fun r => (s.agent r.agent).kind != .warp)

/-- Does a team resume in place on a core, since no other took it when its unit changed (R375; log 36)? -/
def State.inPlace (s : State) (team core : Nat) : Bool :=
  let tm := s.team team
  tm.stays && tm.phase == .suspended && core == tm.core

/-- The cores among which a team is placed. -/
def State.coresOf (s : State) (team : Nat) : List Nat :=
  (List.range s.cores.length).filter fun c => s.coreEnabled c || s.inPlace team c

/-- May a team lie on a core, whoever is there? A suspended team stays on its die, and in its cluster when it is bound to
it. -/
def State.mayLie (s : State) (team core : Nat) : Bool :=
  let tm := s.team team
  s.inPlace team core ||
    (s.coreEnabled core && s.servesTask (s.task tm.task) core && s.nodesAllow tm.task tm.logical core &&
      (tm.phase == .undispatched ||
        (dieOfCore core == dieOfCore tm.core && (!s.bound team || clusterOfCore core == clusterOfCore tm.core))))

/-- May a team be placed on a core? The core's current count of register banks holds (R2); a team that resumes in place and needs
more than that count finds its own banks again, on a core that holds no other team (R375; log 36). -/
def State.canPlace (s : State) (team core : Nat) : Bool :=
  let tm := s.team team
  let t := s.task tm.task
  let now := 16384 * (s.cores.getD core default).regbanks
  let bytes := if s.inPlace team core then max now (t.warps * t.info.warpBytes) else now
  s.mayLie team core && s.roomOn core tm.task bytes && s.clusterRoom (clusterOfCore core) tm.task &&
    (tm.phase == .undispatched || (s.contextsFree team (clusterOfCore core) && !s.stoppedHeld tm.task))

/-- The accumulator slots of a cluster, written with zeros and without marks (R316). -/
def State.zeroSlots (s : State) (cluster : Nat) : State :=
  let lo := granKey cluster (1024 * (s.clusters.getD cluster default).pool)
  s.modMem (·.clear lo (64 * Config.slotBytes))

/-- A team's task holds the slots of the cluster of its core: the team counts among those for which it holds them (R316). -/
def State.noteSlots (s : State) (team core : Nat) : State :=
  let c := clusterOfCore core
  if (s.clusters.getD c default).slotHolder = some (s.team team).task ∧ !(s.team team).slotsIn.contains c then
    s.modTeam team fun t => { t with slotsIn := t.slotsIn ++ [c] }
  else s

/-- The task takes its share of a cluster: the reservation, in the lowest-numbered free run (DEDUCED: R275 says only a run, and
R276 gives that order for handles; log 29), and, for tile programs, the slots (R275, R316). -/
def State.enterCluster (s : State) (cluster task : Nat) : State :=
  let i := (s.task task).info
  let u := s.clusters.getD cluster default
  let s :=
    if i.granary == 0 || u.runs.any (·.2.2 == .reservation task) then s
    else match u.findRun i.reservation with
      | some p => s.modCluster cluster fun u => { u with runs := u.runs ++ [(p, i.reservation, .reservation task)] }
      | none => s
  if i.has 1 && u.slotHolder.isNone then
    (s.zeroSlots cluster).modCluster cluster fun u => { u with slotHolder := some task }
  else s

/-- The units that the binding of a task may choose its instances among (R14, R20). -/
def State.unitsFor (s : State) (t : Task) : List (Nat × Nat) :=
  (s.nodeRuns t).flatMap fun run => (s.unitsWithRoom t run s.liveCores).map (run.1, ·)

/-- The first dispatch of a task: it has started, its binding and its extents are fixed, the lowest team holds the Lodestone
(R14, R265, R269, R271, R340). -/
def State.startTask (s : State) (task core : Nat) : State :=
  let die := dieOfCore core
  s.modTask task fun t =>
    if t.phase = .queued then
      { t with phase := .started, began := some (die, s.clockOf die), extents := s.extentTable t, units := s.unitsFor t
               lodestone := lowestOf ((s.teamsOf task).map (·.2.logical) ++ t.away.map (·.logical)) }
    else t

/-- A team starts on a core: its allocation reads zero, unpoisoned, its warps start together at ENTRY, and acquire at the
launch domain (R20, R23, R45, R192, R266). -/
def State.startTeam (s : State) (team core : Nat) : State :=
  let tm := s.team team
  let t := s.task tm.task
  let start := ((t.info.sectionAt 0).getD (0, 0)).1
  let pc := t.code + BitVec.ofNat 64 (start + t.entry)
  let n := s.agents.length
  let s := (s.modTeam team fun tm =>
    { tm with phase := .resident, core := core, placed := true, passedPoint := true }).modMem (·.clear (localKey team 0) (2 ^ 64))
  let warp (w : Nat) : Agent := Agent.fresh .warp team w pc allLanes 0 (Vector.replicate 64 Layout.zero)
  let s := { s with agents := s.agents ++ (List.range t.warps).map warp }
  (List.range t.warps).foldl (fun (s : State) w => s.refresh (n + w) .home) s

/-- Place a team on a core. -/
def State.place1 (s : State) (team core : Nat) : Option State :=
  let tm := s.team team
  if !s.canPlace team core then none
  else
    let s := s.rewriteDeadline tm.task (dieOfCore tm.core) (dieOfCore core)
    let s := (s.startTask tm.task core).modTask tm.task fun t => { t with claims := [] }
    let s := (s.enterCluster (clusterOfCore core) tm.task).noteSlots team core
    let s := if tm.phase = TeamPhase.undispatched then s.startTeam team core
      else (s.resumeTeam team core).leaveCluster tm.task (clusterOfCore tm.core)
    if s.withinBudgets tm.task then some s else none

/-- Place teams on cores, one for one. -/
def State.placeTeams (s : State) : List Nat → List Nat → Option State
  | [], [] => some s
  | t :: ts, c :: cs => (s.place1 t c).bind fun s => s.placeTeams ts cs
  | _, _ => none

/-! ### Candidates (R264, R266) -/

/-- A task whose dependences have retired and that has not retired is dispatchable. -/
def State.dispatchable (s : State) (task : Nat) : Bool :=
  let t := s.task task
  t.phase != .retired && t.deps.all fun d => (s.task d).phase == .retired

/-- The teams that a die may dispatch or resume for a task: a co-resident task goes as a whole; otherwise the suspended
teams and the undispatched team with the lowest identifier, each alone. -/
def State.nextTeams (s : State) (die task : Nat) : List (List Nat) :=
  let ts := (s.teamsOf task).filter fun p => p.2.phase != .retired
  let here (p : Nat × Team) : Bool := dieOfCore p.2.core == die
  if (s.task task).coresident then
    if (ts.all (·.2.phase == .undispatched) || ts.all (·.2.phase == .suspended)) && (ts.head?.any here) then [ts.map (·.1)]
    else []
  else
    let first := (ts.filter (·.2.phase == .undispatched)).head?
    ((ts.filter fun p => here p && (p.2.phase == .suspended || first.any (·.1 == p.1)))).map fun p => [p.1]

/-- Insert into a list ordered by a relation. -/
def insertBy (lt : Nat → Nat → Bool) (a : Nat) : List Nat → List Nat
  | [] => [a]
  | b :: rest => if lt a b then a :: b :: rest else b :: insertBy lt a rest

/-- The dispatchable tasks with teams on a die, in the order of R266. -/
def State.taskOrder (s : State) (die : Nat) : List Nat :=
  ((List.range s.tasks.length).filter fun t => s.dispatchable t && s.nextTeams die t != []).foldr
    (insertBy (s.before die)) []

/-! ### Placeability -/

/-- Cores, among those that `ok` names, for all the teams of a candidate together, one for each: some choice, where there is
one (R20, R266). -/
def State.coresTogether (s : State) (ok : Nat → Bool) : List Nat → Option (List Nat)
  | [] => some []
  | t :: ts =>
    ((s.coresOf t).filter ok).findSome? fun c => ((s.place1 t c).bind fun s => s.coresTogether ok ts).map (c :: ·)

/-- The cores on which the first of a candidate's teams may be placed with the others after it; those of the preferred die
alone when it has any (R269; log 30). -/
def State.coresFor (s : State) (team : Nat) (others : List Nat) : List Nat :=
  let ok := (s.coresOf team).filter fun c =>
    ((s.place1 team c).bind fun s => s.coresTogether (fun _ => true) others).isSome
  match s.preferredDie (s.task (s.team team).task) with
  | none => ok
  | some d =>
    let near := ok.filter (dieOfCore · == d)
    if near = [] then ok else near

/-- Can a candidate be placed? -/
def State.placeable (s : State) (teams : List Nat) : Bool := (s.coresTogether (fun _ => true) teams).isSome

/-- Is a list of cores one that the Helm may choose for a candidate? -/
def State.choiceOk (s : State) : List Nat → List Nat → Bool
  | [], [] => true
  | t :: ts, c :: cs => (s.coresFor t ts).contains c && (s.place1 t c).any fun s => s.choiceOk ts cs
  | _, _ => false

/-- Will an undispatched team never run: does no instance of the parent of its chosen one hold a core that serves
(R14)? -/
def State.hopeless (s : State) (team : Nat) : Bool :=
  let tm := s.team team
  let t := s.task tm.task
  tm.phase == .undispatched && t.phase == .started &&
    !(s.nodeCores tm.task tm.logical true).any (s.servesTask t)

/-! ### TEAM_DISPATCH -/

/-- Bind a task again before its first dispatch (R14): the state with the new binding, or the launch fault. -/
def State.rebind (s : State) (task : Nat) : Except Nat State :=
  let t := s.task task
  if t.phase != .queued then .ok s
  else
    match s.bind t.info t.pk t.domain (t.chain.headD default) t.coresident with
    | .error f => .error f
    | .ok b =>
      let here := (s.teamsOf task).map (·.2.logical)
      let t' := { t with binding := b }
      let t' := if t.system then { t' with away := t'.elsewhere here } else t'
      let die := ((s.teamsOf task).head?.map fun p => p.2.core).getD (firstCore t.issuingDie)
      let keep := { s with
        tasks := s.tasks.set task t'
        teams := s.teams.map fun (tm : Team) =>
          if tm.task = task ∧ t'.teams ≤ tm.logical then { tm with phase := .retired } else tm }
      let more := if t.system then [] else (List.range t'.teams).drop t.teams
      .ok { keep with teams := keep.teams ++ more.map fun k => Team.fresh task k die }

/-- What the Helm of a die does with one task: nothing when none of its candidates can be placed. -/
def State.serve (s : State) (die task : Nat) (cores : List Nat) : Option State :=
  if s.deadlinePassed die task then some (s.markOverdue die task)
  else
    match s.rebind task with
    | .error f => some (s.retireUnrun task f)
    | .ok s' =>
      match (s'.nextTeams die task).find? fun ts =>
        ts.any s'.hopeless || s'.placeable ts || s'.choiceOk ts cores with
      | none => none
      | some ts =>
        if ts.any s'.hopeless then some (s'.retireUnrun task 3)
        else if s'.choiceOk ts cores then s'.placeTeams ts cores
        else some s

/-- The first task that the Helm can serve is served. -/
def State.serveFirst (s : State) (die : Nat) (cores : List Nat) : List Nat → State
  | [] => s
  | t :: ts =>
    match s.serve die t cores with
    | some s' => s'
    | none => s.serveFirst die cores ts

/-- TEAM_DISPATCH: the Helm of a die dispatches or resumes the first team in the order of R266 that can be placed, on the
cores chosen. -/
def execTeamDispatch (die : Nat) (cores : List Nat) (s : State) : HelmOut :=
  .next (if s.booted then s.serveFirst die cores (s.taskOrder die) else s)

/-! ### PREEMPT_REQUEST (R267) -/

/-- The resident teams that stop together with a team: its own, or all those of a co-resident task (R30). -/
def State.stopsWith (s : State) (team : Nat) : List Nat :=
  let n := (s.team team).task
  if (s.task n).coresident then ((s.teamsOf n).filter fun p => p.2.phase == .resident).map (·.1) else [team]

/-- Could a team be placed on a core as soon as other teams have left it? A Granary run or slots of the cluster that are wanting do
not fall free by that (R275, R316). -/
def State.wantsCore (s : State) (team core : Nat) : Bool :=
  s.mayLie team core && s.clusterRoom (clusterOfCore core) (s.team team).task

/-- Would a candidate gain room where a team lies: on a core that one of its teams wants or, for the contexts of its programs, in a
cluster where it wants one? -/
def State.gainsRoom (s : State) (cand : List Nat) (core : Nat) : Bool :=
  cand.any fun t => s.wantsCore t core ||
    ((s.team t).saved.any (fun r => (s.agent r.agent).kind != .warp) &&
      (s.coresOf t).any fun c => clusterOfCore c == clusterOfCore core && s.wantsCore t c)

/-- The teams that may be asked to stop for a candidate of a task, by the deadlines on its die, the latest first, and among equal
ones the later in the order of R266 first (DESIGN CHOICE: R267 orders by the deadline alone; log 30); a team that has resumed is not
requested again before it has passed a point. -/
def State.victims (s : State) (die task : Nat) (cand : List Nat) : List Nat :=
  let d := s.deadlineAt task die
  let ok (p : Team × Nat) : Bool :=
    let t := s.task p.1.task
    p.1.phase == .resident && s.gainsRoom cand p.1.core && !p.1.preemptReq && (s.stopsWith p.2).all s.hasPassed &&
      (t.chain.head?.any (·.preemptible)) && decide (d < s.deadlineAt p.1.task die)
  ((s.teams.zipIdx.filter ok).map (·.2)).foldr
    (insertBy fun a b => s.before die (s.team b).task (s.team a).task) []

/-- The device with the resident teams that `gone` names stopped, off their cores; what they hold in their clusters stays. -/
def State.without (s : State) (gone : Team → Bool) : State :=
  let out (tm : Team) : Bool := tm.phase == .resident && gone tm
  { s with
    teams := s.teams.map fun (tm : Team) => if out tm then { tm with phase := .suspended } else tm
    agents := s.agents.map fun (ag : Agent) =>
      if out (s.team ag.team) && ag.phase != .retired then { ag with phase := .saved } else ag }

/-- Would a candidate find cores if the requested teams were gone? -/
def State.wouldPlace (s : State) (teams : List Nat) : Bool := (s.without (·.preemptReq)).placeable teams

/-- Request a team, with those that stop with it. -/
def State.requestTeam (s : State) (team : Nat) : State :=
  (s.stopsWith team).foldl (fun (s : State) i => s.modTeam i fun tm => { tm with preemptReq := true }) s

/-- The cores that a team and those that stop with it free go to the task that they are asked for (R267). -/
def State.requestFor (s : State) (task team : Nat) : State :=
  let freed := (s.stopsWith team).map fun i => (s.team i).core
  (s.requestTeam team).modTask task fun t => { t with claims := t.claims ++ freed }

/-- Request teams in order, for a candidate of a task, until enough cores would be freed. -/
def State.requestUntil (s : State) (task : Nat) (cand : List Nat) : List Nat → State
  | [] => s
  | t :: ts => if s.wouldPlace cand then s else (s.requestFor task t).requestUntil task cand ts

/-- Granary bytes that a candidate's dispatch adds to what its task holds. -/
def State.moreGranary (s : State) (task : Nat) : Nat :=
  let t := s.task task
  let held := (s.clusters.filter fun u => u.runs.any (·.2.2 == .reservation task)).length
  t.info.granary * (if t.coresident then s.clusterNodes t.binding - held else if held = 0 then 1 else 0)

/-- Would a candidate exceed a budget, so that it waits for that and not for cores (R38; log 30)? -/
def State.overBudget (s : State) (teams : List Nat) : Bool :=
  let task := (s.team (teams.headD 0)).task
  let t := s.task task
  let n := teams.length
  t.chain.any fun r =>
    let (c, l, g) := s.regionHolds t.space r.va
    (r.cores != 0 && decide (r.cores < c + n)) || (r.localBytes != 0 && decide (r.localBytes < l + n * t.info.localAlloc)) ||
      (r.granary != 0 && decide (r.granary < g + s.moreGranary task))

/-- Does a candidate wait for cores: it cannot be placed, and all its teams together could be, if no other team lay on a core (R267)?
Granary runs and slots that are wanting for it in its clusters do not fall free by that, so it waits for those (R275, R316). -/
def State.wantsCores (s : State) (teams : List Nat) : Bool :=
  !s.overBudget teams && !s.placeable teams && !teams.any s.hopeless && (s.without fun _ => true).placeable teams

/-- The tasks of a die, in order, each with its first candidate that waits for cores. -/
def State.starved (s : State) (die : Nat) : List (Nat × List Nat) :=
  (s.taskOrder die).filterMap fun t => ((s.nextTeams die t).find? s.wantsCores).map fun ts => (t, ts)

/-- PREEMPT_REQUEST: each of them has teams asked to stop, the first one first. -/
def execPreemptRequest (die : Nat) (s : State) : HelmOut :=
  .next <| (s.starved die).foldl (fun (u : State) p => u.requestUntil p.1 p.2 (u.victims die p.1 p.2)) s

/-! ### MIGRATE (R268) -/

/-- The teams that move with a team: its own, or all those of a co-resident task. -/
def State.movesWith (s : State) (team : Nat) : List Nat :=
  let n := (s.team team).task
  if (s.task n).coresident then ((s.teamsOf n).filter fun p => p.2.phase != .retired).map (·.1) else [team]

/-- May a team be moved off its die: it is not dispatched or is stopped, and has no Granary reservation and no program that
runs? -/
def State.movable (s : State) (team : Nat) : Bool :=
  let tm := s.team team
  (tm.phase == .undispatched || tm.phase == .suspended) && s.dispatchable tm.task &&
    (s.task tm.task).info.granary == 0 &&
    (s.agentsOf team).all (fun a => (s.agent a).kind == .warp || (s.agent a).phase == .retired)

/-- Do teams that go together wait for cores where they are? -/
def State.waitsForCores (s : State) (teams : List Nat) : Bool :=
  match teams with
  | [t] => !s.liveCores.any fun c => dieOfCore c == dieOfCore (s.team t).core && s.canPlace t c
  | ts => !s.placeable ts

/-- Teams as they would be on a die: a team that has no place yet is placed anew there. -/
def State.moveTeam (s : State) (team core : Nat) : State :=
  let tm := s.team team
  (((s.rewriteDeadline tm.task (dieOfCore tm.core) (dieOfCore core)).modTeam team fun t => { t with core := core, stays := false }).leaveCluster
    tm.task (clusterOfCore tm.core))

/-- May teams that go together migrate to the die of a core, where cores for all of them are free (R268; log 31)? -/
def State.canMigrate (s : State) (teams : List Nat) (core : Nat) : Bool :=
  let die := dieOfCore core
  let moved := teams.foldl (fun (s : State) t => s.moveTeam t core) s
  teams.all (fun t => s.movable t && dieOfCore (s.team t).core != die) && s.waitsForCores teams &&
    (moved.coresTogether (dieOfCore · == die) teams).isSome

/-- MIGRATE: a team moves to the die of a core; a co-resident task moves as a whole. Deadlines are rewritten, and the stores of
the teams are performed already (R226, R265). -/
def execMigrate (team core : Nat) (s : State) : HelmOut :=
  .next <|
    let n := (s.team team).task
    let all := s.movesWith team
    if !s.canMigrate all core then s
    else (all.foldl (fun (s : State) t => s.moveTeam t core) (s.drainStopped n)).markOverdue (dieOfCore core) n

/-! ### The watchdog (R340, R341) -/

/-- WATCHDOG_EXPIRY: the limit is measured from the first dispatch, on that die's CLOCK; a task that is being terminated already
expires no more. -/
def execWatchdogExpiry (task : Nat) (s : State) : HelmOut :=
  .next <|
    let t := s.task task
    let w := (t.chain.headD default).watchdog
    match t.began with
    | none => s
    | some (die, c) =>
      if t.phase = .retired ∨ t.terminated ∨ w = 0 ∨ s.clockOf die ≤ c + w then s
      else ((s.countFault die t).report (.watchdog task)).terminateTask task causeWatchdog

end Sys2Proof.Machine
end

