-- ==== Sys2Proof/Machine/Device.lean ====
section
/-! DEFINITION. Events of the device: the kernel's service of traps (R368, R369), walks and stores on their way (R221, R231),
storage errors (R356, R357), spares and throttling (R375, R376), TLBINV (R346), Bearing and peer accesses (R364, R365). -/

namespace Sys2Proof.Machine

abbrev EventOut := Host.Outcome State Fault Refusal

/-- The issuing die of a launch that the OS cores make (R367). -/
def State.launchDie (s : State) : Nat := s.liveDies.headD 0

/-! ### The kernel's service of a trap (R369) -/

/-- The leaf that a VA reaches in a table, valid or not: its level, its entry and the key of the entry. A walk stops at the first
entry that is not a valid non-leaf. `base` is the key of physical address 0 of the device that holds the tables. -/
def leafSlot (m : Memory) (base va : Nat) : Nat → Nat → Option (Nat × DWord × Nat)
  | 0, _ => none
  | level + 1, ppn =>
    let k := base + (ppn * 4096 + 8 * vpn va level)
    let p := m.read64 k
    if pteV p && !pteLeaf p && !pteBad p && !pteN p then leafSlot m base va level (ptePpn p) else some (level, p, k)

/-- A shootdown of the pages that hold a VA (R368): every TLB of the device drops them, every walk cache the entries that lead to them,
and every walk that begins after it reads the entries as they are. -/
def State.shootdown (s : State) (space va : Nat) : State :=
  { s with
    unseen := []
    tlbs := s.tlbs.filter fun t =>
      !(t.space == space && decide (t.va ≤ va) && decide (va < t.va + pageSize t.level t.pte))
    walks := s.walks.filter fun w => !(s.staleWalk w || w.space == space && w.leadsTo va) }

/-- Resume a stopped agent as TRET would. -/
def State.resumeAgent (s : State) (a e : Nat) (t : Trap) : State :=
  (s.modAgent a fun ag => ag.resume e t).settlePass (s.agent a).team

/-- The kind of access of a trap (R62). -/
def Trap.kind (t : Trap) : Access :=
  match t.access with
  | 1 => .write
  | 2 => .atomic
  | 3 => .fetch
  | _ => .read

/-- Would a valid leaf of the table at this device, or at another one, translate the access of a trap? -/
def State.leafServes (s : State) (space level : Nat) (p : DWord) (t : Trap) : Bool :=
  match t.peer with
  | none => match s.useLeaf level p (t.addr.extractLsb' 0 57).toNat t.kind with
    | .ok _ => true
    | .error _ => false
  | some d => match s.peerTranslate d space t.addr t.kind with
    | .key _ => true
    | _ => false

/-- What the kernel does with a PAGE trap of a task, taken on a die: none when it terminates the task (R369). A PEER access is
served in the table of the device that it names (R365; log 29). -/
def State.servePage (s : State) (die task : Nat) (t : Trap) : Option State :=
  let space := (s.task task).space
  let va := (t.addr.extractLsb' 0 57).toNat
  let write := t.access == 1 || t.access == 2
  match (if vaCanonical t.addr then s.rootAt t.peer space else none) with
  | none => none
  | some root =>
    match leafSlot s.mem (baseOf t.peer) va 5 root with
    | none => none
    | some (level, p, slot) =>
      if !pteV p then
        if pteZeroTouch p then
          let (s, status) := s.mapAt t.peer die task t.addr
          if status ≤ 1 then some (s.shootdown space va) else none
        else none
      else if pteBad p || !pteLeaf p || !leafOk level p then none
      else
        let p' := p ||| 0x40#64 ||| (if write then 0x80#64 else 0#64)
        if p' = p then (if s.leafServes space level p t then some (s.shootdown space va) else none)
        else some ((s.modMem fun m => m.writeBytes slot (bytesOfNat 8 p'.toNat)).shootdown space va)

/-- KERNEL_TRAP_SERVICE: a trap that reached the OS cores ends in a resumed agent or a terminated task (R336, R369). -/
def execKernelTrapService (agent : Nat) (s : State) : EventOut :=
  .next <|
    match (s.agent agent).phase with
    | .stopped e t =>
      let task := s.taskOf agent
      match (if t.cause = causePage then s.servePage (s.dieOf agent) task t else none) with
      | some s => s.resumeAgent agent e t
      | none => s.terminateTask task t.cause
    | _ => s

/-! ### Walks and stores on their way -/

/-- The entries of the last-level TLB of a die (R1). -/
def tlbEntries : Nat := 16384

/-- Put an entry in the TLBs of its die; where they are full, the oldest entry goes (log 6). -/
def fillTlb (l : List Tlb) (t : Tlb) : List Tlb :=
  let here := l.zipIdx.filter fun p => p.1.die == t.die
  t :: (if here.length < tlbEntries then l else
    match here.getLast? with
    | some p => l.eraseIdx p.2
    | none => l)

/-- Has an issued instruction asked a die for the translation of a VA (R231)? -/
def State.askedFor (s : State) (die space va : Nat) : Bool :=
  let n := va % 2 ^ 57 / 4096
  s.asked.any fun q => q.1 == die && q.2.1 == space && decide (q.2.2.1 ≤ n) && decide (n ≤ q.2.2.2)

/-- The cached entry at which a walk that names it begins: none when it does not lead to the VA; some none for a walk from the root. -/
def State.walkOrigin (s : State) (die space va : Nat) : Option Nat → Option (Option WalkEntry)
  | none => some none
  | some n =>
    match s.walks[n]? with
    | some w => if w.die = die ∧ w.space = space ∧ w.leadsTo va then some (some w) else none
    | none => none

/-- The walk caches of a die take the non-leaf entries of a path; cores that do not use the entry at which the walk began use none of
them (R346, R352). -/
def State.cacheWalk (s : State) (die space va : Nat) (gone : List Nat) (path : List (Nat × DWord × Nat)) : State :=
  let ws := path.map fun p =>
    let span := 2 ^ (12 + 9 * p.1)
    ({ die := die, space := space, level := p.1, va := va / span * span, slot := p.2.2, pte := p.2.1, gone := gone } : WalkEntry)
  { s with walks := (ws.filter fun w => !s.walks.contains w) ++ s.walks }

/-- The TLBs of a die take a valid leaf. -/
def State.cacheLeaf (s : State) (die space va : Nat) (gone : List Nat) (leaf : Option (Nat × DWord × Nat)) : State :=
  match leaf with
  | none => s
  | some (level, p, _) =>
    let size := pageSize level p
    let t : Tlb := { die := die, space := space, level := level, va := va / size * size, pte := p, gone := gone }
    if s.tlbs.contains t then s else { s with tlbs := fillTlb s.tlbs t }

/-- PAGE_WALK: a walker reads the entries of a VA at their home, from the root or from a cached non-leaf entry on; the non-leaf
entries that it reads fill the walk caches of its die, and a valid leaf fills its TLBs. It begins after an instruction that the VA was
translated for has issued, and may be repeated (R231, R352). -/
def execPageWalk (walker : Walker) (space va : Nat) (s : State) : EventOut :=
  .next <|
    let die := walker.die
    let v := va % 2 ^ 57
    match if s.askedFor die space va && (s.dies.getD die default).enabled then s.spaceRoot space else none,
      s.walkOrigin die space v walker.start with
    | some root, some from_ =>
      let (n, table) := walkStart root from_
      let gone := (from_.map (·.gone)).getD []
      let m := s.walkMem die
      (s.cacheWalk die space v gone (walkPath m 0 v n table)).cacheLeaf die space v gone (walkFrom m 0 v n table)
    | _, _ => s

/-- The accesses on their way: those not yet at their cluster, then those at their cluster. -/
def State.onTheWay (s : State) : List Pend := s.corePend ++ s.clusterPend

/-- STORE_PERFORM: an issued store or atomic is performed at its cluster or its home, with every earlier one to its
bytes (R221). A fetch that is not done holds a write to its bytes (R328). -/
def execStorePerform (idx : Nat) (reach : Reach) (s : State) : EventOut :=
  .next <|
    match s.onTheWay[idx]? with
    | none => s
    | some p =>
      if s.fetchHolds p.store.key p.store.bytes.length then s
      else
        match reach with
        | .cluster => s.toCluster (· == p)
        | .home => s.toHome (· == p)

/-! ### Storage errors (R356, R357) -/

/-- ECC_CORRECTED changes nothing but the machine-check records. -/
def execEccCorrected (unit : Nat) (s : State) : EventOut := .next (s.report (.corrected unit))

/-- An uncorrectable error in n 32-bit words from a word number on: they are marked, and struck until stores replace them. -/
def Memory.strike (m : Memory) (word n : Nat) : Memory :=
  let ms := (List.range n).map fun i => (word + i, true)
  (m.setMarks ms).setStrucks ms

/-- The handles whose runs hold one of n bytes from a key on are marked (R274). -/
def TileCtx.struck (t : TileCtx) (cluster k n : Nat) : TileCtx :=
  { t with handles := t.handles.map fun h =>
      if h.slabs ≠ 0 ∧ h.base cluster < k + n ∧ k < h.base cluster + 1024 * h.slabs then { h with psn := true } else h }

/-- The same at the home and where local memory and Granaries are held; the tiles that lie there are marked (R274). -/
def State.strike (s : State) (word n : Nat) : State :=
  let s := s.modMem (·.strike word n)
  if homeKey (4 * word) then
    { s with agents := s.agents.zipIdx.map fun (ag, i) =>
        { ag with view := ag.view.strike word n, tile := ag.tile.struck (s.clusterOf i) (4 * word) (4 * n) } }
  else s

/-- Poison of a register: the lane of a GENERAL one, every lane of another. -/
def VReg.strike (v : VReg) (lane : Nat) : VReg :=
  { v with poison := if v.isGeneral then v.poison ||| (1#32 <<< lane) else allLanes }

/-- ECC_UNCORRECTABLE: the protected word is marked. Local memory is protected by words of 32 bits, the Granary and the
die cache by words of 64, DRAM by lines of 64 bytes, a codebook table by words of four entries. -/
def execEccUncorrectable (target : EccTarget) (s : State) : EventOut :=
  .next <|
    match target with
    | .vreg a r lane => s.modAgent a fun ag => { ag with regs := vecModify ag.regs r (·.strike lane) }
    | .preg a p lane => s.modAgent a fun ag =>
        { ag with preds := vecModify ag.preds p fun l => vecModify l lane fun (x : Pred) => { x with poison := true } }
    | .memory k => if keyKind k = 1 then s.strike (k / 4) 1 else s.strike (k / 8 * 2) 2
    | .dramLine k => s.strike (k / 64 * 16) 16
    | .codebook a t e => s.modAgent a fun ag =>
        { ag with codebooks := ag.codebooks.modify t fun l =>
            l.zipIdx.map fun (x : (Word × Bool) × Nat) => (x.1.1, x.1.2 || x.2 / 4 == e / 4) }

/-- PARITY_DISCARD: the entry is dropped and walked or fetched again. -/
def execParityDiscard (target : ParityTarget) (s : State) : EventOut :=
  .next <|
    match target with
    | .tlb n => { s with tlbs := s.tlbs.eraseIdx n }
    | .walk n => { s with walks := s.walks.eraseIdx n }
    | .fetched n => { s with fetched := s.fetched.eraseIdx n }

/-! ### Spares and throttling (R375, R376) -/

/-- The die of a unit. -/
def unitDie : SpareUnit → Option Nat
  | .cluster die _ => some die
  | .dramLayer die => some die
  | .registerBank core => some (dieOfCore core)
  | .bearingLane _ => none

/-- Is another unit of the die under change (R375)? -/
def State.otherChange (s : State) (u : SpareUnit) : Bool :=
  s.closing.any fun v => v != u && (unitDie u).isSome && unitDie v == unitDie u

/-- The resident teams that a unit holds. -/
def State.teamsIn (s : State) (u : SpareUnit) : List Nat :=
  (s.teams.zipIdx.filter fun p => p.1.phase == .resident && unitCovers u p.1.core).map (·.2)

/-- Steps 1 and 2 of R375: dispatch to the unit stops, and its teams are requested to stop, a co-resident task as a whole (R30,
R267; log 36). -/
def State.closeUnit (s : State) (u : SpareUnit) : State :=
  (s.teamsIn u).foldl State.requestTeam { s with closing := if s.closing.contains u then s.closing else s.closing ++ [u] }

/-- Steps 3 to 5 of R375: the counts change, a record is added, and dispatch goes on. -/
def State.changeUnit (s : State) (unit : SpareUnit) : State :=
  let s := { s with closing := s.closing.erase unit }
  match unit with
  | .cluster die n =>
    let c := die * Config.clustersPerDie + n
    let d := s.dies.getD die default
    if 0 < d.spareclus then (s.modDie die fun d => { d with spareclus := d.spareclus - 1 }).report (.spare unit)
    else
      ((s.modDie die fun d => { d with clusters := d.clusters - 1 }).modCluster c fun u =>
        { u with enabled := false }).report (.spare unit)
  | .dramLayer die =>
    (s.modDie die fun d =>
      if d.spareLayer then { d with spareLayer := false }
      else { d with layers := d.layers - 1, dramgib := d.dramgib - d.dramgib / max 1 d.layers }).report (.spare unit)
  | .registerBank core =>
    { s with cores := s.cores.modify core fun u => { u with regbanks := u.regbanks - 1 } }.report (.spare unit)
  | .bearingLane port =>
    { s with ports := s.ports.modify port fun p => { p with lanes := p.lanes - 1 } }.report (.spare unit)

/-- Does the device have a unit, in service? -/
def State.hasUnit (s : State) : SpareUnit → Bool
  | .cluster die n => decide (die < s.dies.length) && decide (n < Config.clustersPerDie) &&
      (s.clusters.getD (die * Config.clustersPerDie + n) default).enabled
  | .dramLayer die => decide (die < s.dies.length)
  | .registerBank core => decide (core < s.cores.length)
  | .bearingLane port => decide (port < s.ports.length)

/-- Have the teams of a unit left it? -/
def State.unitClear (s : State) (u : SpareUnit) : Bool := s.teamsIn u == []

/-- The suspended teams of a unit that can resume on no other core stay: each resumes in place after the change (R375; log 36). -/
def State.keepTeams (s : State) (u : SpareUnit) : State :=
  let keep (tm : Team) (i : Nat) : Bool :=
    tm.phase == .suspended && unitCovers u tm.core && !s.wouldPlace (s.movesWith i)
  { s with teams := s.teams.zipIdx.map fun (tm, i) => if keep tm i then { tm with stays := true } else tm }

/-- SPARE_CHANGE: the service routine stops dispatch to a unit and asks its teams to leave; once they have, the counts that
R375 names change, and teams that cannot go elsewhere resume in place. It changes one unit of a die at a time. -/
def execSpareChange (unit : SpareUnit) (s : State) : EventOut :=
  .next (if !s.hasUnit unit || s.otherChange unit then s
    else if s.unitClear unit then (s.changeUnit unit).keepTeams unit
    else s.closeUnit unit)

/-- THERMAL_THROTTLE: the arithmetic clock of 1,750 MHz falls by a step of 125 MHz; no result changes. -/
def execThermalThrottle (die : Nat) (s : State) : EventOut :=
  .next (s.modDie die fun d => if (d.steps + 1) * 125 < 1750 then { d with steps := d.steps + 1 } else d)

/-! ### TLBINV (R346) -/

/-- Does a TLBINV name an entry? -/
def TlbInv.removes (v : TlbInv) (t : Tlb) : Bool :=
  t.space == v.space && v.dies.contains t.die &&
    match v.va with
    | none => true
    | some va =>
      let x := (va.extractLsb' 0 57).toNat
      vaCanonical va && decide (t.va ≤ x) && decide (x < t.va + pageSize t.level t.pte)

/-- What a TLBINV leaves of an entry that it names: nothing for a node that holds the die; for a smaller one, the entry of the
other agents of the die (R346). -/
def TlbInv.cut (v : TlbInv) (t : Tlb) : Option Tlb :=
  if !v.removes t then some t
  else v.cores.map fun cs => { t with gone := t.gone ++ cs.filter fun c => !t.gone.contains c }

/-- Does a TLBINV name the translations that a cached non-leaf entry leads to (R346)? -/
def TlbInv.reaches (v : TlbInv) (w : WalkEntry) : Bool :=
  w.space == v.space && v.dies.contains w.die &&
    match v.va with
    | none => true
    | some va => vaCanonical va && w.leadsTo (va.extractLsb' 0 57).toNat

/-- TLBINV_COMPLETE. The issuer's stores are performed first, those that it has buffered included, so that no walk after it reads an
entry older than them; while these must wait for the team's turn, so does the completion (R228, R239; log 46). -/
def execTlbinvComplete (idx : Nat) (s : State) : EventOut :=
  .next <|
    match s.invs[idx]? with
    | none => s
    | some v =>
      if !s.mayRelease v.agent .home then s
      else
        let s := s.release v.agent .home
        { s.dropWalks v.reaches v.cores with invs := s.invs.eraseIdx idx, tlbs := s.tlbs.filterMap v.cut }

/-! ### Bearing (R364, R365) -/

def State.modPort (s : State) (port : Nat) (f : Port → Port) : State := { s with ports := s.ports.modify port f }

/-- LINK_REPLAY: a replay of a flit fails; the count starts anew when a flit passes (R364). A port whose eighth replay in a
row has failed goes down by LINK_DOWN. -/
def execLinkReplay (port : Nat) (s : State) : EventOut :=
  .next (s.modPort port fun p => if p.up && decide (p.replays < 8) then { p with replays := p.replays + 1 } else p)

/-- LINK_DOWN: 8 consecutive replays of one flit have failed. -/
def execLinkDown (port : Nat) (s : State) : EventOut :=
  .next <|
    match s.ports[port]? with
    | none => s
    | some p =>
      if p.up && p.replays == 8 then
        ((s.modPort port fun p => { p with up := false, replays := 0 }).report (.linkDown port)).sendWaiting
      else s

/-- CHANNEL_STOP and CHANNEL_RESUME: the signal of a virtual channel. -/
def execChannelStop (port chan : Nat) (s : State) : EventOut :=
  .next (s.modPort port fun p => { p with stopped := p.stopped.set chan true })
def execChannelResume (port chan : Nat) (s : State) : EventOut :=
  .next (s.modPort port fun p => { p with stopped := p.stopped.set chan false }).sendWaiting

/-- A PEER access that has waited 100 microseconds faults when it issues again. -/
def Entry.timeOut (clock : Nat) (en : Entry) : Entry :=
  match en.hold with
  | .peer since =>
    if since ≠ 0 ∧ since - 1 + Config.peerTimeout ≤ clock then { en with hold := .peer 0 } else en
  | _ => en

/-- PEER_TIMEOUT. -/
def execPeerTimeout (agent : Nat) (s : State) : EventOut :=
  .next (s.modAgent agent fun ag => { ag with entries := ag.entries.map (·.timeOut (s.clockOf (s.dieOf agent))) })

/-- The bytes and marks that an access from another device leaves, from those that it finds: none for a load (R203, R204). -/
def peerWrites (q : PeerReq) (old : Nat) (mark : Bool) : Option (List Byte × List Bool) :=
  let put (n : Nat) (p : Bool) : Option (List Byte × List Bool) := some (bytesOfNat q.size n, List.replicate (q.size / 4) p)
  match q.op with
  | .load => none
  | .store bytes poison => if bytes.length = q.size then some (bytes, poison) else none
  | .atomic op v p =>
    let new := if q.size = 8 then (atomNew fp64 op (BitVec.ofNat 64 old) (BitVec.ofNat 64 v)).toNat
      else (atomNew fp32 op (BitVec.ofNat 32 old) (BitVec.ofNat 32 v)).toNat
    put new (p || (op != 5 && mark))
  | .cas new compare p => put (if old = compare % 2 ^ (8 * q.size) then new else old) (p || mark)

/-- The access that translation at this device asks for. -/
def peerAccess (q : PeerReq) : Access :=
  match q.op with
  | .load => .read
  | .store _ _ => .write
  | _ => .atomic

/-- PEER_ACCESS: an access from another device is translated in the table bound to its root region and performed at its home
here; the answer holds what it read, or the cause of the trap that its issuer takes (R365). A stop signal on the response
channel keeps it back, and a device that no port reaches sends none (R364). -/
def execPeerAccess (req : PeerReq) (s : State) : EventOut :=
  .next <|
    if s.stoppedTo req.source 1 || !s.reachable req.source then s
    else
      match s.helmKey s.launchDie req.space req.va (peerAccess req) with
      | .error e => { s with answers := s.answers ++ [{ device := req.source, cause := e, bytes := [], poison := [] }] }
      | .ok k =>
        let n := req.size
        let a : Answer := { device := req.source, cause := 0, bytes := s.mem.readBytes k n
                            poison := (List.range n).map fun i => s.mem.marked (k + i) }
        let s := match peerWrites req (s.mem.readNat k n) (s.mem.anyMarked k n) with
          | none => s
          | some (bytes, poison) => s.performHome
              [{ agent := s.agents.length, core := s.cores.length, cluster := s.clusters.length
                 store := storeOf k n bytes poison }]
        { s with answers := s.answers ++ [a] }

end Sys2Proof.Machine
end

