-- ==== Sys2Proof/Machine/Os.lean ====
section
/-! DEFINITION. The OS cores and the host: boot and measurement (R372, R373), mailboxes (R361 to R363, R366, R367), kernel
services (R344, R370, R371), launches and collectives that arrive from other devices (R365, R366). -/

namespace Sys2Proof.Machine

abbrev OsOut := Host.Outcome State Fault Refusal

/-! ### Boot (R372) -/

/-- Extend a measurement register: MSk := SHA3-256(MSk ∥ digest). -/
def State.extend (s : State) (k : Nat) (digest : List Byte) : State :=
  { s with measures := s.measures.modify k fun m => sha3 (m ++ digest) }

/-- RESET_BOOT: with every measurement register zero, the boot ROM measures itself, verifies the kernel's signature, measures
the kernel and starts it; the kernel measures its configuration and sets DEVID (R63). A failure stops boot. -/
def execResetBoot (s : State) : OsOut :=
  .next <|
    if s.booted then s
    else
      let s := { s with measures := List.replicate 8 (List.replicate 32 0#8) }.extend 0 Config.romDigest
      if Config.kernelSignatureOk then
        { (s.extend 1 Config.kernelDigest).extend 2 Config.configDigest with booted := true, devid := s.systemId }
      else s

/-! ### Mailboxes (R361 to R363) -/

/-- Base registers that the host writes: the request line of a mailbox lies at its base, the reply line after it. -/
def execHostRegisterWrite (reg : HostReg) (value : Nat) (s : State) : OsOut :=
  .next <|
    match reg with
    | .notifyBase => { s with notifyBase := value }
    | .mailboxBase m => { s with mailboxes := s.mailboxes.modify m fun b => { b with request := value, reply := value + 64 } }

/-- The request line of a mailbox: its base register holds a device physical address, whatever lies there (DEDUCED: R362 places the
lines in host memory and does not say how the register names them; log 8). -/
def State.requestLine (s : State) (mb : Nat) : List Byte := s.mem.readBytes (physKey (s.mailboxes.getD mb default).request) 64

/-- A record: SEQ, OP, ARG0 and ARG1, and whether every reserved byte is zero. -/
structure Record where
  seq : DWord
  op : Nat
  arg0 : DWord
  arg1 : DWord
  clean : Bool
  deriving DecidableEq, Repr, Inhabited

def recordOf (b : List Byte) : Record :=
  { seq := BitVec.ofNat 64 (fieldOf b 0 8), op := fieldOf b 8 2, arg0 := BitVec.ofNat 64 (fieldOf b 16 8)
    arg1 := BitVec.ofNat 64 (fieldOf b 24 8), clean := zeros b 10 6 && zeros b 32 32 }

/-- The record that the OS cores may act on: a new one, in a mailbox that the host has set up and that waits for no task. A base of 0
stands for none (DEDUCED from R371, which says so of the notify line; log 8). -/
def State.newRecord (s : State) (mb : Nat) : Option Record :=
  match s.mailboxes[mb]? with
  | none => none
  | some m =>
    let r := recordOf (s.requestLine mb)
    if !s.booted || m.request == 0 || m.waiting.isSome || r.seq == m.lastSeq then none else some r

/-- The bytes of a reply line. -/
def replyLine (seq r0 r1 : DWord) : List Byte :=
  bytesOfNat 8 seq.toNat ++ List.replicate 8 0#8 ++ bytesOfNat 8 r0.toNat ++ bytesOfNat 8 r1.toNat ++
    List.replicate 32 0#8

/-- Write the 64 bytes of a line in host memory, whole and without marks. -/
def State.writeLine (s : State) (at_ : Nat) (bytes : List Byte) : State :=
  s.modMem fun m => m.perform (storeOf (physKey at_) 64 bytes [])

/-- Reply to a record; it is then the last one acted on. -/
def State.reply (s : State) (mb : Nat) (seq r0 r1 : DWord) : State :=
  (s.writeLine (s.mailboxes.getD mb default).reply (replyLine seq r0 r1)) |> fun s =>
    { s with mailboxes := s.mailboxes.modify mb fun m => { m with lastSeq := seq, waiting := none } }

/-- Act on a new record with an OP. -/
def State.onRecord (s : State) (mb op : Nat) (k : Record → State) : State :=
  match s.newRecord mb with
  | some r => if r.clean && r.op == op then k r else s
  | none => s

/-- Answers of the mailbox table. -/
def allOnes32 : DWord := 0xFFFFFFFF#64
def notRetired : DWord := 0xFFFFFFFE#64

/-- Launch faults in the order of R16. -/
def faultOrder : List Nat :=
  [lfRegion, lfSignature, lfTree, lfOrder, lfLanes, lfFanout, lfRegs, lfLocal, lfGranary, lfCoresident]

/-- What the devices of a SYSTEM launch answer together: the earliest fault, FULL, or acceptance (R366). -/
def worst (codes : List Nat) : Nat :=
  match faultOrder.find? codes.contains with
  | some f => f
  | none => if codes.all (· == 0) then 0 else 1

/-- A launch packet as it goes to another device: its DEADLINE is rewritten by the offsets of the links on the path, unless it
is all ones (R367). -/
def packetFor (b : List Byte) (p : Peer) : List Byte :=
  let d := fieldOf b 0x38 8
  if d = 2 ^ 64 - 1 then b
  else b.take 0x38 ++ bytesOfNat 8 (BitVec.ofInt 64 (d + p.path.foldl (· + ·) 0)).toNat ++ b.drop 0x40

/-- The devices that a binding names: as many as it has nodes of level DEVICE, when it has that level; else the OS cores choose
how many (R366; log 26). -/
def deviceNodes (b : List BoundLevel) : Option Nat :=
  if b.any (·.phys == 5) then some (fans b fun p => decide (5 ≤ p)) else none

/-- Can a SYSTEM launch have gone to some devices, each with its answer: known ones, each once, as many as the binding made here
names, this device among them when it runs a share (R366)? -/
def State.sentTo (s : State) (b : List Byte) (by_ : LaunchBy) (others : List (Nat × Nat)) (share : List Nat) : Bool :=
  let ds := others.map (·.1)
  !(Packet.ofBytes b).system ||
    (ds.eraseDups == ds && ds.all (fun d => s.peers.any (·.id == d)) &&
      match s.check by_ (Packet.ofBytes b) with
      | .error _ => true
      | .ok t => match deviceNodes t.binding with
        | none => true
        | some n => ds.length + (if share = [] then 0 else 1) == n)

/-- The OS cores send a SYSTEM launch to the other devices that its binding names (R366). -/
def State.sendLaunch (s : State) (b : List Byte) (ds : List Nat) : State :=
  if (Packet.ofBytes b).system then
    { s with sent := s.sent ++ (s.peers.filter fun p => ds.contains p.id).map fun p => (p.id, packetFor b p) }
  else s

/-- Does a stop signal on the management channel, or the lack of a port to a device, keep a SYSTEM launch back (R364)? -/
def State.launchKept (s : State) (b : List Byte) (ds : List Nat) : Bool :=
  (Packet.ofBytes b).system && ds.any fun d => s.stoppedTo d 3 || !s.reachable d

/-- A launch by the OS cores: the state, the id or 0, the answer. A SYSTEM launch is accepted only if every device
accepts it; `others` holds the other devices that it went to with their answers. -/
def State.osLaunch (s : State) (by_ : LaunchBy) (b : List Byte) (others : List (Nat × Nat)) (share : List Nat) :
    State × Nat × Nat :=
  let (s', id, code) := s.accept by_ b share
  if (Packet.ofBytes b).system then
    let w := worst (code :: others.map (·.2))
    if w = 0 then (s'.modTask s.tasks.length fun t => { t with devices := others.map (·.1) }, id, 0) else (s, 0, w)
  else (s', id, code)

/-- MAILBOX_LAUNCH (R363). -/
def execMailboxLaunch (mb : Nat) (others : List (Nat × Nat)) (share : List Nat) (s : State) : OsOut :=
  .next <| s.onRecord mb 1 fun r =>
    let m := s.mailboxes.getD mb default
    let die := s.launchDie
    match (if r.arg0.toNat % 64 = 0 then s.readClean die m.space r.arg0 192 else none) with
    | none => s.reply mb r.seq 0#64 (BitVec.ofNat 64 lfRegion)
    | some b =>
      let by_ : LaunchBy := { launcher := .mailbox mb, id := m.nextId, space := m.space, die := die, parent := none }
      let ds := others.map (·.1)
      if !s.sentTo b by_ others share || s.launchKept b ds then s else
      let (s, id, code) := (s.sendLaunch b ds).osLaunch by_ b others share
      let s := if id = 0 then s
        else { s with mailboxes := s.mailboxes.modify mb fun m => { m with nextId := m.nextId + 1 } }
      s.reply mb r.seq (BitVec.ofNat 64 id) (BitVec.ofNat 64 code)

/-- The task that a mailbox knows by an id. -/
def State.mailTask (s : State) (mb id : Nat) : Option Task :=
  s.tasks.find? fun t => t.launcher == .mailbox mb && t.id == id

/-- Is the status of a task of a mailbox discarded: a WAIT or POLL has returned it and 65,536 further tasks have retired? -/
def State.discarded (s : State) (mb id : Nat) : Bool :=
  let m := s.mailboxes.getD mb default
  m.statuses.any fun p => p.1 == id && p.2.2 && decide (p.2.1 + 65536 ≤ m.retirements)

/-- The status that a mailbox returns for an id: none for an id that it never issued or has discarded; then whether
the task has retired. -/
def State.mailStatus (s : State) (mb id : Nat) : Option (Option Word) :=
  match s.mailTask mb id with
  | none => none
  | some t =>
    if s.discarded mb id then none else some (if t.phase = .retired then some t.statusWord else none)

/-- Note that a status has been returned. -/
def State.noteReturned (s : State) (mb id : Nat) : State :=
  { s with mailboxes := s.mailboxes.modify mb fun (m : Mailbox) =>
      { m with statuses := m.statuses.map fun p => if p.1 = id then (p.1, p.2.1, true) else p } }

/-- MAILBOX_WAIT: the record is taken; an unknown id is answered at once. -/
def execMailboxWait (mb : Nat) (s : State) : OsOut :=
  .next <| s.onRecord mb 2 fun r =>
    match s.mailStatus mb r.arg0.toNat with
    | none => s.reply mb r.seq allOnes32 0#64
    | some _ =>
      { s with mailboxes := s.mailboxes.modify mb fun m => { m with lastSeq := r.seq, waiting := some (r.seq, r.arg0) } }

/-- Have all stores of a task's agents been performed at the home? -/
def State.taskPerformed (s : State) (t : Task) : Bool :=
  s.onTheWay.all fun p =>
    let u := s.task (s.taskOf p.agent)
    !(u.launcher == t.launcher && u.id == t.id)

/-- MAILBOX_WAIT_REPLY: after the task's retirement has been performed at the host window (R223, R363). -/
def execMailboxWaitReply (mb : Nat) (s : State) : OsOut :=
  .next <|
    match (s.mailboxes.getD mb default).waiting with
    | none => s
    | some (seq, id) =>
      match s.mailTask mb id.toNat with
      | none => s
      | some t =>
        if t.phase = .retired ∧ s.taskPerformed t then
          (s.reply mb seq (t.statusWord.zeroExtend 64) 0#64).noteReturned mb id.toNat
        else s

/-- MAILBOX_POLL. -/
def execMailboxPoll (mb : Nat) (s : State) : OsOut :=
  .next <| s.onRecord mb 3 fun r =>
    let id := r.arg0.toNat
    match s.mailStatus mb id with
    | none => s.reply mb r.seq allOnes32 0#64
    | some none => s.reply mb r.seq notRetired 0#64
    | some (some w) => (s.reply mb r.seq (w.zeroExtend 64) 0#64).noteReturned mb id

/-- MAILBOX_COUNTER: the counters are numbered as CRD numbers them (R218). -/
def execMailboxCounter (mb : Nat) (s : State) : OsOut :=
  .next <| s.onRecord mb 4 fun r => s.reply mb r.seq (s.counter (r.arg0.toNat % 65536)) 0#64

/-- What an attestation report signs: the nonce, MS0 to MS7, CAPDIE of each die (R373). -/
def State.reportBody (s : State) (nonce : List Byte) : List Byte :=
  nonce ++ s.measures.flatten ++ (List.range s.dies.length).flatMap fun d => bytesOfNat 8 (s.capdie d).toNat

/-- A reply whose results the manual leaves open, or one of them. -/
def State.openReply (s : State) (mb : Nat) (seq : DWord) (r1 : Option DWord) : State :=
  { s with freshNo := s.freshNo + 2 }.reply mb seq (Config.openResult s.freshNo)
    (r1.getD (Config.openResult (s.freshNo + 1)))

/-- Write bytes to a buffer until one cannot be written: the state, and whether all were. -/
def State.fillBuffer (s : State) (die space : Nat) : DWord → List Byte → State × Bool
  | _, [] => (s, true)
  | va, b :: bs =>
    match s.helmKey die space va .write with
    | .error _ => (s, false)
    | .ok k =>
      let s := s.performMem { key := k, bytes := [b], marks := [] }
      (if va.toNat % 4 = 0 ∧ 3 ≤ bs.length then s.modMem fun m => m.mark (k / 4) false else s).fillBuffer die space
        (va + 1#64) bs

/-- MAILBOX_ATTEST: the report is stored at its VA in the mailbox's address space (R362, R373; log 38). -/
def execMailboxAttest (mb : Nat) (s : State) : OsOut :=
  .next <| s.onRecord mb 5 fun r =>
    match s.readVa s.launchDie (s.mailboxes.getD mb default).space r.arg0 32 with
    | none => s.openReply mb r.seq none
    | some b =>
      let body := s.reportBody (b.map (·.1))
      let report := body ++ (Config.mlDsaSign body).toList
      match s.fillBuffer s.launchDie (s.mailboxes.getD mb default).space s.reportVa report with
      | (s, true) => s.reply mb r.seq s.reportVa (BitVec.ofNat 64 report.length)
      | (s, false) => s.openReply mb r.seq none

/-- MAILBOX_CLOCK. -/
def execMailboxClock (mb : Nat) (s : State) : OsOut :=
  .next <| s.onRecord mb 6 fun r =>
    match s.dies[r.arg0.toNat]? with
    | some d => if d.enabled then s.reply mb r.seq (BitVec.ofNat 64 d.clock) 0#64 else s.openReply mb r.seq (some allOnes32)
    | none => s.openReply mb r.seq (some allOnes32)

/-- MAILBOX_UNDEFINED_RECORD: an unlisted OP or a reserved byte that is not zero. -/
def execMailboxUndefinedRecord (mb : Nat) (s : State) : OsOut :=
  .next <|
    match s.newRecord mb with
    | none => s
    | some r => if r.clean && decide (1 ≤ r.op ∧ r.op ≤ 6) then s else s.openReply mb r.seq (some allOnes32)

/-! ### Kernel services (R344, R370, R371) -/

/-- The entry of an agent that waits for a service, with the argument and the pair for the result. -/
def Agent.serviceWait (ag : Agent) (want : Nat → Bool) : Option (Nat × DWord × Nat) :=
  (ag.entries.zipIdx.filterMap fun p => match p.1.hold with
    | .service n arg d => if want n then some (p.2, arg, d) else none
    | _ => none).head?

/-- Serve a request: the result is written, and the service acts as a PHASE at the launch domain when it returns. -/
def State.serveRequest (s : State) (a : Nat) (want : Nat → Bool) (k : DWord → State × DWord) : State :=
  let ag := s.agent a
  if ag.phase != .active then s
  else
    match ag.serviceWait want with
    | none => s
    | some (e, arg, d) =>
      if !s.mayRelease a .home then s else
      let (s, r) := k arg
      let pc := (ag.entry e).pc
      ((s.phaseAt a .home).modAgent a fun ag =>
        { ag.writeWords d false (pairWords r) with issuedAt := pc }).complete a e 1

/-- The result of a service that fails. -/
def failed : DWord := BitVec.allOnes 64

/-- Text up to the NUL, at most n bytes: none when a byte up to the NUL cannot be read. For this and the other services a byte on a page
with A or D clear, or on an invalid one with ZEROTOUCH, cannot be read or written: the kernel maps and marks nothing for itself (DESIGN
CHOICE: R370 does not say so; log 27). A poisoned byte is read as its stored bits, and its mark goes nowhere (DESIGN CHOICE: R359 and
R370 name no such read; log 27). -/
def State.readText (s : State) (die space : Nat) : Nat → DWord → Option (List Byte)
  | 0, _ => some []
  | n + 1, va =>
    match s.helmKey die space va .read with
    | .error _ => none
    | .ok k =>
      if s.mem.read k = 0#8 then some []
      else (s.readText die space n (va + 1#64)).map (s.mem.read k :: ·)

/-- SYSC_LOG. -/
def execSyscLog (agent : Nat) (s : State) : OsOut :=
  .next <| s.serveRequest agent (· == 16) fun arg =>
    match s.readText (s.dieOf agent) (s.task (s.taskOf agent)).space 256 arg with
    | none => (s, failed)
    | some t => ({ s with kernelLog := s.kernelLog ++ [t] }, 0#64)

/-- The id that a notify line shows (R371). -/
def Task.notifyId (t : Task) : Nat :=
  match t.launcher with
  | .mailbox _ => t.id
  | _ => 0

/-- SYSC_NOTIFY. -/
def execSyscNotify (agent : Nat) (s : State) : OsOut :=
  .next <| s.serveRequest agent (· == 17) fun arg =>
    if s.notifyBase = 0 then (s, 0#64)
    else
      let n := s.notifyCount + 1#64
      let line := bytesOfNat 8 n.toNat ++ bytesOfNat 8 (s.task (s.taskOf agent)).notifyId ++ bytesOfNat 8 arg.toNat ++
        List.replicate 40 0#8
      ({ s.writeLine s.notifyBase line with notifyCount := n }, 0#64)

/-- A block request of 64 bytes: four fields of 8 bytes, namespace, LBA, count, buffer VA (log 27). -/
structure BlockReq where
  ns : Nat
  lba : Nat
  count : Nat
  buffer : DWord
  deriving DecidableEq, Repr, Inhabited

def blockReqOf (b : List Byte) : BlockReq :=
  { ns := fieldOf b 0 8, lba := fieldOf b 8 8, count := fieldOf b 16 8, buffer := BitVec.ofNat 64 (fieldOf b 24 8) }

/-- Read n bytes of a buffer until one cannot be read: the bytes read, poisoned ones as their stored bits (DESIGN CHOICE; log 27). -/
def State.drainBytes (s : State) (die space : Nat) : Nat → DWord → List Byte
  | 0, _ => []
  | n + 1, va =>
    match s.helmKey die space va .read with
    | .error _ => []
    | .ok k => s.mem.read k :: s.drainBytes die space n (va + 1#64)

/-- A transfer: the drive refuses a namespace or blocks that it does not have, with a status of its own. Namespace n is the n-th one
given, counted from 0 over all drives, and poisoned bytes of the request are read as their stored bits (DESIGN CHOICE: R370 numbers no
namespace and names no such read; log 27). -/
def State.blockIo (s : State) (agent : Nat) (arg : DWord) (k : BlockReq → List (List Byte) → State × DWord) :
    State × DWord :=
  match s.readVa (s.dieOf agent) (s.task (s.taskOf agent)).space arg 64 with
  | none => (s, failed)
  | some b =>
    let q := blockReqOf (b.map (·.1))
    match s.drives[q.ns]? with
    | some (_, blocks) =>
      if q.lba + q.count ≤ blocks.length then k q blocks
      else ({ s with freshNo := s.freshNo + 1 }, (Config.nvmeStatus s.freshNo).zeroExtend 64)
    | none => ({ s with freshNo := s.freshNo + 1 }, (Config.nvmeStatus s.freshNo).zeroExtend 64)

/-- SYSC_BLKREAD: blocks go to the buffer; bytes already written stand. -/
def execSyscBlkread (agent : Nat) (s : State) : OsOut :=
  .next <| s.serveRequest agent (· == 18) fun arg =>
    s.blockIo agent arg fun q blocks =>
      let (s, ok) := s.fillBuffer (s.dieOf agent) (s.task (s.taskOf agent)).space q.buffer
        ((blocks.drop q.lba).take q.count).flatten
      (s, if ok then 0#64 else failed)

/-- Blocks with bytes written over them from the first block on. -/
def overwrite : List (List Byte) → List Byte → List (List Byte)
  | [], _ => []
  | b :: bs, data => (data.take b.length ++ b.drop data.length) :: overwrite bs (data.drop b.length)

/-- SYSC_BLKWRITE: the buffer goes to blocks; bytes already written stand. -/
def execSyscBlkwrite (agent : Nat) (s : State) : OsOut :=
  .next <| s.serveRequest agent (· == 19) fun arg =>
    s.blockIo agent arg fun q blocks =>
      let want := ((blocks.drop q.lba).take q.count).flatten.length
      let data := s.drainBytes (s.dieOf agent) (s.task (s.taskOf agent)).space want q.buffer
      let blocks' := blocks.take q.lba ++ overwrite (blocks.drop q.lba) data
      ({ s with drives := s.drives.modify q.ns fun d => (d.1, blocks') }, if data.length = want then 0#64 else failed)

/-- SYSC_UNKNOWN_SERVICE. -/
def execSyscUnknownService (agent : Nat) (s : State) : OsOut :=
  .next <| s.serveRequest agent (fun n => decide (n < 16 ∨ 19 < n)) fun _ => (s, failed)

/-! ### From other devices (R365, R366) -/

/-- SYSTEM_LAUNCH_PACKET: the packet is bound against this device's capabilities; `others` holds the answers of the other
devices, `share` the teams that run here (log 26). -/
def execSystemLaunchPacket (space : Nat) (packet : List Byte) (others : List (Nat × Nat)) (share : List Nat) (s : State) :
    OsOut :=
  let by_ : LaunchBy := { launcher := .system, id := s.tasks.length + 1, space := space, die := s.launchDie, parent := none }
  .next <|
    if !s.booted || !s.linked || packet.length != 192 || !(Packet.ofBytes packet).system || !s.sentTo packet by_ others share then s
    else (s.osLaunch by_ packet others share).1

/-- Does an instance wait for the warp at a position of another device? -/
def State.awaitsFrom (s : State) (x : Instance) (pos : Nat) : Bool :=
  let t := s.task x.task
  (t.awayIn x).any fun w => (List.range t.warps).any fun n =>
    pos / Config.lanes == w.logical * t.warps + n && !w.warpsGone.contains n && !x.cameFrom t w.logical n

/-- COLLECTIVE_CHANNEL_MESSAGE: a contribution of a warp of another device, by its position. -/
def execCollectiveChannelMessage (inst pos : Nat) (value : BitVec 64) (poison : Bool) (s : State) : OsOut :=
  .next <|
    match s.instances[inst]? with
    | none => s
    | some x =>
      if ((s.task x.task).level x.kind.level).phys < 6 ∨ !s.linked ∨ !s.awaitsFrom x pos then s
      else
        let c : Contribution := { agent := none, position := pos, value := value, poison := poison }
        { s with instances := s.instances.set inst { x with contributions := x.contributions ++ [c] } }.settleInstance inst

end Sys2Proof.Machine
end

