-- ==== Sys2Proof/Machine/Scalar.lean ====
section
/-! DEFINITION. Scalar instructions of the uniform set (R131, R155 to R157). -/

namespace Sys2Proof.Machine

/-- Sub bit 0 selects the pair form, bits 2:1 the variant (R131). -/
def subWide (sub : BitVec 3) : Bool := sub.getLsbD 0
def subVar (sub : BitVec 3) : Nat := sub.toNat / 2

/-- Two-source register form: the 32-bit and the 64-bit function. -/
def scalar2 (s : State) (vd va vb : Reg) (sub : BitVec 3) (f : Word → Word → Word) (g : DWord → DWord → DWord) : Out :=
  onAny s 1 fun c => c.scalar (subWide sub) (rn vd) [rn va, rn vb]
    (fun ws => f (ws.getD 0 0#32) (ws.getD 1 0#32)) (fun ws => g (ws.getD 0 0#64) (ws.getD 1 0#64))

/-- One-source register form. -/
def scalar1 (s : State) (vd va : Reg) (sub : BitVec 3) (f : Word → Word) (g : DWord → DWord) : Out :=
  onAny s 1 fun c => c.scalar (subWide sub) (rn vd) [rn va]
    (fun ws => f (ws.getD 0 0#32)) (fun ws => g (ws.getD 0 0#64))

/-- Immediate form (R156). -/
def scalarImm (s : State) (len : Nat) (vd va : Reg) (f : Word → Word) : Out :=
  onAny s len fun c => c.sources [rn va] fun ws p => c.retireWords (rn vd) p [f (ws.getD 0 0#32)]

/-- Shifts at width w with a full unsigned count (R155). -/
def shlBits {w : Nat} (a n : BitVec w) : BitVec w := if n.toNat < w then a <<< n.toNat else 0#w
def shrBits {w : Nat} (a n : BitVec w) : BitVec w := if n.toNat < w then a >>> n.toNat else 0#w
def sarBits {w : Nat} (a n : BitVec w) : BitVec w := a.sshiftRight (min n.toNat (w - 1))
def mulHigh {w : Nat} (signed : Bool) (a b : BitVec w) : BitVec w :=
  if signed then ((a.signExtend (2 * w)) * (b.signExtend (2 * w))).extractLsb' w w
  else ((a.zeroExtend (2 * w)) * (b.zeroExtend (2 * w))).extractLsb' w w
def minBits {w : Nat} (signed : Bool) (a b : BitVec w) : BitVec w :=
  if (if signed then a.slt b else a.ult b) then a else b
def maxBits {w : Nat} (signed : Bool) (a b : BitVec w) : BitVec w :=
  if (if signed then a.slt b else a.ult b) then b else a

/-- SCC: eq, ne, lt, lt.n by variant (R155). -/
def sccBits {w : Nat} (v : Nat) (a b : BitVec w) : BitVec w :=
  let t := match v with | 0 => a == b | 1 => a != b | 2 => a.slt b | _ => a.ult b
  if t then 1#w else 0#w

def execSadd (vd va vb : Reg) (sub : BitVec 3) (s : State) : Out := scalar2 s vd va vb sub (· + ·) (· + ·)
def execSsub (vd va vb : Reg) (sub : BitVec 3) (s : State) : Out := scalar2 s vd va vb sub (· - ·) (· - ·)
def execSmul (vd va vb : Reg) (sub : BitVec 3) (s : State) : Out := scalar2 s vd va vb sub (· * ·) (· * ·)
def execSmulh (vd va vb : Reg) (sub : BitVec 3) (s : State) : Out :=
  scalar2 s vd va vb sub (mulHigh (subVar sub == 0)) (mulHigh (subVar sub == 0))
def execSand (vd va vb : Reg) (sub : BitVec 3) (s : State) : Out := scalar2 s vd va vb sub (· &&& ·) (· &&& ·)
def execSor (vd va vb : Reg) (sub : BitVec 3) (s : State) : Out := scalar2 s vd va vb sub (· ||| ·) (· ||| ·)
def execSxor (vd va vb : Reg) (sub : BitVec 3) (s : State) : Out := scalar2 s vd va vb sub (· ^^^ ·) (· ^^^ ·)
def execSshl (vd va vb : Reg) (sub : BitVec 3) (s : State) : Out := scalar2 s vd va vb sub shlBits shlBits
def execSshr (vd va vb : Reg) (sub : BitVec 3) (s : State) : Out := scalar2 s vd va vb sub shrBits shrBits
def execSsar (vd va vb : Reg) (sub : BitVec 3) (s : State) : Out := scalar2 s vd va vb sub sarBits sarBits
def execSmin (vd va vb : Reg) (sub : BitVec 3) (s : State) : Out :=
  scalar2 s vd va vb sub (minBits (subVar sub == 0)) (minBits (subVar sub == 0))
def execSmax (vd va vb : Reg) (sub : BitVec 3) (s : State) : Out :=
  scalar2 s vd va vb sub (maxBits (subVar sub == 0)) (maxBits (subVar sub == 0))
def execScc (vd va vb : Reg) (sub : BitVec 3) (s : State) : Out :=
  scalar2 s vd va vb sub (sccBits (subVar sub)) (sccBits (subVar sub))
def execSpopc (vd va : Reg) (sub : BitVec 3) (s : State) : Out :=
  scalar1 s vd va sub (fun a => BitVec.ofNat 32 (popBits a)) (fun a => BitVec.ofNat 64 (popBits a))
def execSclz (vd va : Reg) (sub : BitVec 3) (s : State) : Out :=
  scalar1 s vd va sub (fun a => BitVec.ofNat 32 (leadBits a)) (fun a => BitVec.ofNat 64 (leadBits a))

/-- SMOV; the lane-0 form reads lane 0 of any register and runs on warps alone (R79, R155). Where lane 0 has exited, its value 0 is
unmarked (DEDUCED: R155 fixes that value and no mark; log 15). -/
def execSmov (vd va : Reg) (sub : BitVec 3) (s : State) : Out :=
  if subVar sub = 1 then
    onWarp s 1 fun c =>
      let n := if subWide sub then 2 else 1
      c.retireWords (rn vd) (c.ag.peekMark (rn va) n 0) ((regRun (rn va) n).map fun r => c.ag.peek r 0)
  else scalar1 s vd va sub id id

def execSaddi (vd va : Reg) (imm : BitVec 10) (s : State) : Out := scalarImm s 1 vd va (· + imm.signExtend 32)
def execSandi (vd va : Reg) (imm : BitVec 10) (s : State) : Out := scalarImm s 1 vd va (· &&& imm.signExtend 32)
def execSori (vd va : Reg) (imm : BitVec 10) (s : State) : Out := scalarImm s 1 vd va (· ||| imm.signExtend 32)
def execSxori (vd va : Reg) (imm : BitVec 10) (s : State) : Out := scalarImm s 1 vd va (· ^^^ imm.signExtend 32)
def execSshli (vd va : Reg) (imm : BitVec 10) (s : State) : Out :=
  scalarImm s 1 vd va (fun a => shlBits a (imm.zeroExtend 32))
def execSshri (vd va : Reg) (imm : BitVec 10) (s : State) : Out :=
  scalarImm s 1 vd va (fun a => shrBits a (imm.zeroExtend 32))
def execSsari (vd va : Reg) (imm : BitVec 10) (s : State) : Out :=
  scalarImm s 1 vd va (fun a => sarBits a (imm.zeroExtend 32))
def execScci (vd va : Reg) (imm : BitVec 10) (s : State) : Out :=
  scalarImm s 1 vd va (fun a => sccBits 2 a (imm.signExtend 32))
def execSmuli (vd va : Reg) (imm : BitVec 10) (s : State) : Out := scalarImm s 1 vd va (· * imm.signExtend 32)
def execSmovi (vd : Reg) (imm : BitVec 17) (s : State) : Out :=
  onAny s 1 fun c => c.retireWords (rn vd) false [imm.signExtend 32]
def execSmovi32 (vd : Reg) (imm : BitVec 32) (s : State) : Out :=
  onAny s 3 fun c => c.retireWords (rn vd) false [imm]
def execSmovi64 (vd : Reg) (imm : BitVec 64) (s : State) : Out :=
  onAny s 4 fun c => c.retireWords (rn vd) false (pairWords imm)
def execSaddi32 (vd va : Reg) (imm : BitVec 32) (s : State) : Out := scalarImm s 3 vd va (· + imm)
def execSandi32 (vd va : Reg) (imm : BitVec 32) (s : State) : Out := scalarImm s 3 vd va (· &&& imm)
def execSori32 (vd va : Reg) (imm : BitVec 32) (s : State) : Out := scalarImm s 3 vd va (· ||| imm)
def execSxori32 (vd va : Reg) (imm : BitVec 32) (s : State) : Out := scalarImm s 3 vd va (· ^^^ imm)

end Sys2Proof.Machine
end

