-- ==== Sys2Proof/Machine/TileRun.lean ====
section
/-! DEFINITION. What a tile operation computes when a unit takes it, its allocation point and its completion (R276 to R282,
R288, R291 to R314). -/

namespace Sys2Proof.Machine

/-! ### Storing values (R286, R292) -/

def tileFmt (f32 : Bool) : Fmt := if f32 then fp32 else fp64

/-- RoundTo of an FP64 value in a tile's format, with every flag that led to it. -/
def storeFl (f32 : Bool) (x : Fl) : Rounded :=
  let r := (roundVal (tileFmt f32) rne false x.val).withReads [x.val]
  (r.1, x.2 ||| r.2)

/-- RoundTo of the product of a scale and a value. -/
def scaleTo (f32 : Bool) (s x : Fl) : Rounded :=
  let f := tileFmt f32
  let r : Rounded := match mulVal s.val x.val with
    | some v => roundVal f rne false v
    | none => invalid f
  (r.1, x.2 ||| (r.withReads [s.val, x.val]).2)

/-- RoundTo of a sum. -/
def sumTo (f32 : Bool) (a b : Fl) : Rounded :=
  let r := (addVal (tileFmt f32) rne false a.val b.val).withReads [a.val, b.val]
  (r.1, a.2 ||| b.2 ||| r.2)

/-- A result with the flags that storing it raised. -/
abbrev Valued := TileValue × Flags

def zeroValue (f32 : Bool) : TileValue := { kind := 0, f32 := f32, rank := 0, words := [], poison := false }

/-- A value of stored words. -/
def valueOf (kind : Nat) (f32 : Bool) (rank : Nat) (p : Bool) (ws : List Rounded) : Valued :=
  ({ kind := kind, f32 := f32, rank := rank, words := ws.map (·.1), poison := p }, ws.foldl (fun f w => f ||| w.2) 0#6)

def denseValue (f32 p : Bool) (rows : List (List Fl)) : Valued := valueOf 1 f32 64 p (rows.flatten.map (storeFl f32))
def lowValue (f32 p : Bool) (u v : List (List Fl)) : Valued :=
  valueOf 2 f32 u.length p ((u ++ v).flatten.map (storeFl f32))

/-- The stored words of a tile as they stand. -/
def rawValue (h : Handle) (raw : List (Nat × Bool)) : TileValue :=
  { kind := h.kind, f32 := h.f32, rank := h.rank, words := raw.map (·.1), poison := raw.any (·.2) }

/-- The elements of a tile (R292). -/
def elementsOf : Tile → List (List Fl)
  | .zero => List.replicate 64 (List.replicate 64 Fl.zero)
  | .dense rows => rows
  | .low u v => densify u v

/-- A tile read transposed (R302). -/
def Tile.turned (t : Bool) : Tile → Tile
  | .dense rows => .dense (if t then turn 64 rows else rows)
  | .low u v => if t then .low v u else .low u v
  | .zero => .zero

/-- A column of a matrix given by columns, times the rows that multiply it. -/
def timesCol (rows : List (List Fl)) (c : List Fl) : List Fl := rows.map fun r => dot0 r c

/-- The factors of a product with a low-rank operand (R302). -/
def productFactors (a b : Tile) : List (List Fl) × List (List Fl) :=
  match a, b with
  | .low u v, .dense rows => (u, v.map (timesCol (turn 64 rows)))
  | .dense rows, .low u v => (u.map (timesCol rows), v)
  | .low ua va, .low ub vb =>
    let w := va.map fun x => ub.map fun y => dot0 x y
    if ua.length ≤ ub.length then (ua, w.map (timesCol (turn 64 vb)))
    else ((turn ub.length w).map (timesCol (turn 64 ua)), vb)
  | _, _ => ([], [])

/-- Values without the flags of the steps that led to them. -/
def plainFl (m : List (List Fl)) : List (List Fl) := m.map fun c => c.map fun x => Fl.of x.1

def TileOp.withValue (op : TileOp) (v : Valued) : TileOp := { op with results := [v.1], flags := v.2 }

/-- A rounding of factors in the result's format (R283 to R287); forming the factors raised their own flags. -/
def TileOp.withRounding (op : TileOp) (f32 p : Bool) (out : RoundOut) (formed : Flags) : TileOp :=
  let (v, f) : Valued := match out.tile with
    | .zero => ({ zeroValue f32 with poison := p }, 0#6)
    | .dense rows => denseValue f32 p (plainFl rows)
    | .low u v => lowValue f32 p (plainFl u) (plainFl v)
  { op with results := [v], flags := formed ||| out.flags ||| (f &&& flagOF), capped := out.capped
            densified := out.densified }

def TileOp.roundFrom (op : TileOp) (f32 p : Bool) (u v : List (List Fl)) : TileOp :=
  op.withRounding f32 p (roundFactors op.trcc op.trct (plainFl u) (plainFl v)) (flagsOf u ||| flagsOf v)

/-- Signed values. -/
def signed (sub : Bool) (m : List (List Fl)) : List (List Fl) := if sub then m.map (·.map flNeg) else m

/-! ### The operations -/

/-- A source of an operation: its handle, its stored words, its tile. -/
structure Src where
  h : Handle
  raw : List (Nat × Bool)
  tile : Tile

def Src.poison (x : Src) : Bool := x.raw.any (·.2)

/-- TADD (R300). -/
def TileOp.add (op : TileOp) (a b : Src) (sub : Bool) : TileOp :=
  let f32 := a.h.f32 && b.h.f32
  let p := a.poison || b.poison
  match a.tile, b.tile with
  | .zero, .zero => op.withValue (zeroValue f32, 0#6)
  | .low u v, .zero => op.roundFrom f32 p u v
  | .zero, .low u v => op.roundFrom f32 p u (signed sub v)
  | .low u v, .low u' v' => op.roundFrom f32 p (u ++ u') (v ++ signed sub v')
  | x, y =>
    op.withValue (valueOf 1 f32 64 p
      (List.zipWith (sumTo f32) (elementsOf x).flatten (signed sub (elementsOf y)).flatten))

/-- TSCAL (R301). Of a LOWRANK tile the whole run counts as read, V included, for the marks of R280 (DEDUCED: R301 leaves V unchanged and
does not say whether it is read; log 34). -/
def TileOp.scale (op : TileOp) (a : Src) (s : Fl) : TileOp :=
  let f32 := a.h.f32
  match a.tile with
  | .zero => op.withValue (zeroValue f32, readFlags [s.val])
  | .dense rows =>
    if s.isZero then op.withValue (zeroValue f32, 0#6)
    else op.withValue (valueOf 1 f32 64 a.poison (rows.flatten.map (scaleTo f32 s)))
  | .low u v =>
    if s.isZero then op.withValue (zeroValue f32, 0#6)
    else if s.val.nonFinite then
      op.withValue (valueOf 1 f32 64 a.poison ((densify u v).flatten.map (scaleTo f32 s)))
    else
      op.withValue (valueOf 2 f32 a.h.rank a.poison
        (u.flatten.map (scaleTo f32 s) ++ (a.raw.drop (64 * a.h.rank)).map fun w => (w.1, (0#6 : Flags))))

/-- TMUL (R302). -/
def TileOp.mul (op : TileOp) (a b : Src) (ta tb : Bool) : TileOp :=
  let f32 := a.h.f32 && b.h.f32
  let p := a.poison || b.poison
  match a.tile.turned ta, b.tile.turned tb with
  | .zero, _ => op.withValue (zeroValue f32, 0#6)
  | _, .zero => op.withValue (zeroValue f32, 0#6)
  | .dense x, .dense y => let cols := turn 64 y; op.withValue (denseValue f32 p (x.map fun r => cols.map (dot0 r)))
  | x, y => let (u, v) := productFactors x y; op.roundFrom f32 p u v

/-- TGEMM (R309). With a ZERO factor only C is read, so the marks of the other factor do not go into the copy (DEDUCED from R280 and R309;
log 34). -/
def TileOp.gemm (op : TileOp) (a b c : Src) (ta tb sub : Bool) : TileOp :=
  let f32 := a.h.f32 && b.h.f32 && c.h.f32
  let p := a.poison || b.poison || c.poison
  match a.tile.turned ta, b.tile.turned tb with
  | .zero, _ => op.withValue (rawValue c.h c.raw, 0#6)
  | _, .zero => op.withValue (rawValue c.h c.raw, 0#6)
  | .dense x, .dense y =>
    let cols := turn 64 y
    op.withValue (denseValue f32 p (List.zipWith
      (fun r e => List.zipWith (fun col s => dotFl r col s) cols e) (signed sub x) (elementsOf c.tile)))
  | x, y =>
    let (u, v) := productFactors x y
    match c.tile with
    | .dense rows =>
      let vr := turn 64 v
      op.withValue (denseValue f32 p (List.zipWith
        (fun r e => List.zipWith (fun col s => dotFl r col s) vr e) (signed sub (turn 64 u)) rows))
    | .zero => op.roundFrom f32 p (signed sub u) v
    | .low uc vc => op.roundFrom f32 p (uc ++ signed sub u) (vc ++ v)

/-- Is a word among those of some positions poisoned? -/
def poisonAt (raw : List (Nat × Bool)) (sel : Nat → Nat → Bool) : Bool :=
  raw.zipIdx.any fun (w, n) => w.2 && sel (n / 64) (n % 64)

/-- TCHOL (R310). -/
def TileOp.cholesky (op : TileOp) (a : Src) : TileOp :=
  match a.tile with
  | .dense rows =>
    match chol rows 64 0 (List.replicate 64 []) 0#6 with
    | (.error j, f) => { op with results := [], status := BitVec.ofNat 32 (256 * j + 1), flags := f }
    | (.ok l, f) =>
      let v := denseValue a.h.f32 (poisonAt a.raw fun i j => decide (j ≤ i))
        (l.map fun row => row ++ List.replicate (64 - row.length) Fl.zero)
      { op.withValue v with flags := f ||| v.2 }
  | _ => { op with status := 1#32 }

/-- TLU (R311). -/
def TileOp.luOf (op : TileOp) (a : Src) : TileOp :=
  match a.tile with
  | .dense rows =>
    let (w, piv, first, f) := lu 64 0 rows [] none 0#6
    let v := denseValue a.h.f32 a.poison w
    { op.withValue v with
      flags := f ||| v.2
      elems := piv.map fun p => (p, a.poison)
      status := match first with
        | none => 0#32
        | some j => BitVec.ofNat 32 (256 * j + 2) }
  | _ => op

/-- TQR and TQR.r (R312). Both perform the whole of HQR, so .r raises the flags of its Q-forming steps too (DEDUCED: R312 names the
factorisation for both forms, and the figures of R315 differ; log 34). -/
def TileOp.qr (op : TileOp) (a : Src) (both : Bool) : TileOp :=
  let f32 := a.h.f32
  match a.tile with
  | .dense rows =>
    let (q, r, f) := hqr (turn 64 rows)
    let upper := r.zipIdx.map fun p => List.replicate p.2 Fl.zero ++ p.1.drop p.2
    let vr := denseValue f32 a.poison upper
    let vq := denseValue f32 a.poison (turn 64 q)
    { op with results := if both then [vr.1, vq.1] else [vr.1], flags := f ||| vr.2 ||| (if both then vq.2 else 0#6) }
  | _ =>
    { op with results := if both then [zeroValue f32, (denseValue f32 false (eye 64 64)).1] else [zeroValue f32] }

/-- TTRSM (R313): ctl bits .r, .up, .t, .unit. The factor that it leaves unchanged is stored by RoundTo like every result
(DEDUCED: R306 stores every element so, R313 calls that factor unchanged; log 34). -/
def TileOp.solve (op : TileOp) (a b : Src) (k : BitVec 4) : TileOp :=
  let (right, up, t, unit) := (k.getLsbD 0, k.getLsbD 1, k.getLsbD 2, k.getLsbD 3)
  let f32 := a.h.f32 && b.h.f32
  let p := b.poison || poisonAt a.raw fun i j => if i = j then !unit else (if up then decide (i < j) else decide (j < i))
  let rows := match a.tile with
    | .dense rows => if t then turn 64 rows else rows
    | _ => []
  let lower := up == t
  let go (x : List Fl) : List Fl := if right then subst (!lower) unit (turn 64 rows) x else subst lower unit rows x
  match b.tile with
  | .zero => op.withValue (zeroValue f32, 0#6)
  | .dense x =>
    op.withValue (denseValue f32 p (if right then x.map go else turn 64 ((turn 64 x).map go)))
  | .low u v =>
    let w := if right then lowValue f32 p u (v.map go) else lowValue f32 p (u.map go) v
    op.withValue w

/-- Marks of the elements of a tile. -/
def elementMarks (x : Src) : List Bool :=
  match x.tile with
  | .zero => List.replicate 4096 false
  | .dense _ => x.raw.map (·.2)
  | .low _ _ =>
    let k := x.h.rank
    let row (off i : Nat) : Bool := (List.range k).any fun j => (x.raw.getD (off + 64 * j + i) (0, false)).2
    let us := (List.range 64).map (row 0)
    let vs := (List.range 64).map (row (64 * k))
    us.flatMap fun a => vs.map fun b => a || b

/-- Elements of memory as an operation reads them: an absent one is +0. -/
def readElems (m : Memory) (e : Nat) (ks : List (Option Nat)) : List (Nat × Bool) :=
  ks.map fun k => match k with
    | some k => (m.readNat k e, m.anyMarked k e)
    | none => (0, false)

/-- TMV (R314): x and y in element order, ctl bits .t, .sub, .set. Once a word that it reads is poisoned, every y word is marked (R280,
R306): every x, y without .set, and the tile. A row whose y element is absent raises its flags like the others (DEDUCED: R314 computes
every row and does not name absent ones; log 34). -/
def TileOp.vector (op : TileOp) (a : Src) (f32 : Bool) (xy : List (Nat × Bool)) (k : BitVec 3) : TileOp :=
  let (t, sub, set) := (k.getLsbD 0, k.getLsbD 1, k.getLsbD 2)
  let x := (xy.take 64).map fun w => widened f32 w.1
  let y := (xy.drop 64).map fun w => if set then Fl.zero else widened f32 w.1
  let sums : List Fl :=
    match a.tile.turned t with
    | .zero => y
    | .dense rows => List.zipWith (fun r s => dotFl r x s) (signed sub rows) y
    | .low u v =>
      let ts := v.map fun c => dot0 c x
      List.zipWith (fun r s => dotFl r ts s) (signed sub (turn 64 u)) y
  let out := sums.map (storeFl f32)
  let p := a.poison || (xy.take 64).any (·.2) || (!set && (xy.drop 64).any (·.2))
  { op with
    elems := out.map fun r => (r.1, p)
    flags := out.foldl (fun f r => f ||| r.2) 0#6 }

/-- An operation with everything it computes from its operands, its parameters and memory. -/
def State.tileCompute (s : State) (a : Nat) (op : TileOp) : TileOp :=
  let cl := s.clusterOf a
  let src (i : Nat) : Src :=
    let h := op.srcs.getD i Handle.zero
    let raw := s.tileRaw cl h
    ⟨h, raw, tileOf h raw⟩
  let m := s.engineMem a
  let x := src 0
  let dst := ((op.dests.head?).map (·.2.1)).getD Handle.zero
  match op.instr with
  | .tnew _ _ | .tnewImm _ _ _ =>
    op.withValue (if dst.kind = 0 then (zeroValue dst.f32, 0#6)
      else valueOf 1 dst.f32 64 false (List.replicate 4096 (0, 0#6)))
  | .tslab _ _ => op.withValue (rawValue x.h x.raw, 0#6)
  | .tload _ _ _ f =>
    let ws := readElems m (elemSize (f == 1#1)) op.keys
    op.withValue (valueOf 1 (f == 1#1) 64 (ws.any (·.2)) (ws.map fun w => (w.1, 0#6)))
  | .tlrld _ _ _ f =>
    let ws := readElems m (elemSize (f == 1#1)) op.keys
    op.withValue (valueOf 2 (f == 1#1) (op.keys.length / 128) (ws.any (·.2)) (ws.map fun w => (w.1, 0#6)))
  | .tstore _ _ _ =>
    let ws := (elementsOf x.tile).flatten.map (storeFl x.h.f32)
    { op with elems := List.zipWith (fun w p => (w.1, p)) ws (elementMarks x)
              flags := (ws.zip op.keys).foldl (fun f w => if w.2.isSome then f ||| w.1.2 else f) 0#6 }
  | .tlrst _ _ _ => { op with elems := x.raw }
  | .tadd _ _ _ c => op.add x (src 1) (c == 1#4)
  | .tscal _ _ => op.scale x (Fl.of (pairOf op.params 0).toNat)
  | .tmul _ _ _ tb ta => op.mul x (src 1) (ta == 1#1) (tb == 1#1)
  | .tround _ _ =>
    match x.tile with
    | .low u v => op.roundFrom x.h.f32 x.poison u v
    | _ => op.withValue (zeroValue x.h.f32, 0#6)
  | .tcomp _ _ =>
    match x.tile with
    | .dense rows => op.withRounding x.h.f32 x.poison (rankRound op.trcc op.trct (some rows) [] []) 0#6
    | _ => op.withValue (zeroValue x.h.f32, 0#6)
  | .tdense _ _ _ => op.withValue (denseValue dst.f32 x.poison (elementsOf x.tile))
  | .tnorm _ _ c =>
    let n := normSq x.tile
    let r := if c = 1#1 then n else flSqrt n
    { op with elems := [(r.1, x.poison)], flags := r.2 }
  | .tgemm _ _ _ _ tb ta sub => op.gemm x (src 1) (src 2) (ta == 1#1) (tb == 1#1) (sub == 1#1)
  | .tchol _ _ => op.cholesky x
  | .tlu _ _ _ => op.luOf x
  | .tqr _ _ _ => op.qr x true
  | .tqrR _ _ => op.qr x false
  | .ttrsm _ _ _ k => op.solve x (src 1) k
  | .tmv _ _ _ k =>
    let f32 := op.params == [4#32]
    op.vector x f32 (readElems m (elemSize f32) op.keys) k
  | _ => op

/-! ### Units (R308) -/

/-- Operations that occupy a Winnower of a cluster now. -/
def State.winnowersBusy (s : State) (cluster : Nat) : Nat :=
  sumOf (s.agents.zipIdx.map fun p =>
    if s.clusterOf p.2 = cluster then (p.1.tile.ops.filter fun op => op.started && op.unit == .winnower).length else 0)

/-- Does an operation of another context wait for a Winnower since before (R308)? -/
def State.winnowerBefore (s : State) (cluster order : Nat) : Bool :=
  s.agents.zipIdx.any fun p => s.clusterOf p.2 == cluster &&
    match p.1.tile.ops with
    | op :: _ => !op.started && op.unit == .winnower && decide (op.order < order)
    | [] => false

/-- Is the unit of an operation free for it? -/
def State.unitFree (s : State) (cluster : Nat) (op : TileOp) : Bool :=
  match op.unit with
  | .transfer => true
  | .array => s.arrayReaches cluster op.order
  | .winnower =>
    decide (s.winnowersBusy cluster < (s.clusters.getD cluster default).winnowers) && !s.winnowerBefore cluster op.order

/-- Is a byte of another device that no port reaches, or to which a stop signal keeps requests back (R364)? -/
def State.peerHeld (s : State) (k : Nat) : Bool :=
  let d := k / 2 ^ 64 % 2 ^ 64
  keyKind k == 3 && (!s.reachable d || s.stoppedTo d 0)

/-- The memory elements that an operation reads when a unit takes it. -/
def TileOp.readKeys (op : TileOp) : List Nat :=
  match op.instr with
  | .tload _ _ _ _ | .tlrld _ _ _ _ | .tmv _ _ _ _ => op.keys.filterMap id
  | _ => []

def State.setTileOps (s : State) (a : Nat) (ops : List TileOp) : State :=
  s.modAgent a fun ag => { ag with tile := { ag.tile with ops := ops } }

/-- WINNOWER_START: a unit takes the context's next operation, which reads its operands. One that would read from a device which
does not answer waits until it does (R364; DESIGN CHOICE: the manual gives an operation that has passed its checks no fault; log 39). -/
def execWinnowerStart (agent : Nat) (s : State) : Out :=
  .next <|
    match (s.agent agent).tile.ops with
    | [] => s
    | op :: rest =>
      if op.started || !s.unitFree (s.clusterOf agent) op || op.readKeys.any s.peerHeld then s
      else s.setTileOps agent ({ s.tileCompute agent op with started := true } :: rest)

/-! ### The allocation point of a rounding (R276 to R278) -/

/-- TILE_ALLOCATION_POINT: the rounded result is placed and the instruction completes, or it traps SLAB_EMPTY with nothing
changed. An operation of a context that has been terminated is dropped. -/
def execTileAllocationPoint (agent : Nat) (s : State) : Out :=
  .next <|
    match (s.agent agent).tile.ops.reverse with
    | [] => s
    | op :: before =>
      if op.allocated then s
      else if (s.agent agent).phase != .active then (s.setTileOps agent before.reverse).settleAgent agent
      else if !op.started then s
      else
        let v := op.results.headD (zeroValue false)
        match s.placeAll agent [((tileWrites op.instr).headD 0, v.kind, v.f32, v.rank)] with
        | none =>
          takeTrap (s.setTileOps agent before.reverse) agent 0 1
            { cause := causeSlabEmpty, mask := 1#32, addr := 0#64, access := 0, level := none, partDone := false }
        | some (s, ps) =>
          let s := s.setTileOps agent (before.reverse ++ [{ op with dests := ps, allocated := true }])
          (s.modAgent agent fun ag => { ag with tile := { ag.tile with issued := ag.tile.issued + 1 } }).complete agent 0 1

/-! ### Completion (R276, R280, R288, R291, R307) -/

/-- The accesses that an operation makes to memory elements. -/
def TileOp.memStores (op : TileOp) : List Store :=
  let put (e : Nat) (ks : List (Option Nat)) : List Store :=
    (ks.zip op.elems).filterMap fun p => p.1.map fun k =>
      storeOf k e (bytesOfNat e p.2.1) (List.replicate ((e + 3) / 4) p.2.2)
  match op.instr with
  | .tstore _ _ _ | .tlrst _ _ _ => put (elemSize (op.srcs.headD Handle.zero).f32) op.keys
  | .tlu _ _ _ => put 4 op.keys
  | .tmv _ _ _ _ => put (if op.params = [4#32] then 4 else 8) (op.keys.drop 64)
  | _ => []

/-- An operation that is running writes its next memory element (R192, R225). -/
def State.landTile (s : State) (a : Nat) : State :=
  match (s.agent a).tile.ops with
  | [] => s
  | op :: rest =>
    match (if op.started && op.allocated then op.memStores[op.done]? else none) with
    | none => s
    | some st =>
      if s.fetchHolds st.key st.bytes.length || s.peerHeld st.key then s
      else (s.engineWrite a st).setTileOps a ({ op with done := op.done + 1 } :: rest)

/-- Store a result in its destination, mark the handle, release the old run. -/
def State.storeResult (s : State) (a : Nat) (p : Placed) (v : TileValue) : State :=
  let (hd, h, start, n) := p
  let s := (storesOf (s.clusterOf a) h v).foldl State.performMem s
  let s := s.setHandle a hd { (s.agent a).handle hd with psn := v.poison }
  if n = 0 then s else s.releaseRun a start n

/-- What an operation leaves in registers: a status word (R307), or the norm (R304), which also ends its wait. -/
def State.tileRegs (s : State) (a : Nat) (op : TileOp) : State :=
  match op.instr with
  | .tchol _ v | .tlu _ v _ =>
    s.modAgent a fun ag =>
      { ag.writeWords (rn v) false [op.status] with
        tile := { ag.tile with statusRegs := ag.tile.statusRegs.filter (·.2 != op.num) } }
  | .tnorm _ v _ =>
    let e := op.elems.headD (0, false)
    let s := s.modAgent a fun ag => ag.writeWords (rn v) e.2 (pairWords (BitVec.ofNat 64 e.1))
    if ((s.agent a).entry 0).hold = .allocation then s.complete a 0 1 else s
  | _ => s

/-- Is a byte of another device that no port reaches? -/
def State.peerLost (s : State) (k : Nat) : Bool := keyKind k == 3 && !s.reachable (k / 2 ^ 64 % 2 ^ 64)

/-- Has an operation still to read or write elements of another device among those that `stuck` names? -/
def TileOp.needs (op : TileOp) (stuck : Nat → Bool) : Bool :=
  if op.started then (op.memStores.drop op.done).any fun st => stuck st.key else op.readKeys.any stuck

/-- Does an operation wait for another device, of which it has still to read or write elements (R364)? -/
def State.waitsForPeer (s : State) (op : TileOp) : Bool := op.needs s.peerHeld

/-- TILE_OP_COMPLETE: the context's running operation stores what is left of what it computed and leaves its timeline. One that
waits for another device goes on when that answers, in a terminated task too (R340); there one that needs a device which no port
reaches is dropped (DESIGN CHOICE: nothing can complete it; log 39). -/
def execTileOpComplete (agent : Nat) (s : State) : Out :=
  .next <|
    match (s.agent agent).tile.ops with
    | [] => s
    | op :: rest =>
      let sts := op.memStores.drop op.done
      if s.waitsForPeer op then
        (if (s.task (s.taskOf agent)).terminated && op.needs s.peerLost then (s.setTileOps agent rest).settleAgent agent else s)
      else if !op.started || !op.allocated || sts.any fun st => s.fetchHolds st.key st.bytes.length then s
      else
        let s := sts.foldl (fun (s : State) st => s.engineWrite agent st) s
        let s := (op.dests.zip op.results).foldl (fun (s : State) p => s.storeResult agent p.1 p.2) s
        let s := s.modAgent agent fun ag =>
          { ag with sregs := { ag.sregs.raise op.flags with trcc := mergeTrcc ag.sregs.trcc op.capped op.densified }
                    tile := { ag.tile with ops := rest } }
        (s.tileRegs agent op).settleAgent agent

end Sys2Proof.Machine
end

