-- ==== Sys2Proof/Machine/TileOps.lean ====
section
/-! DEFINITION. The tile instructions: their checks in the order of R290, and how each issues its operation (R294 to R304,
R309 to R314). -/

namespace Sys2Proof.Machine

abbrev TileOut := Host.Outcome State Fault Refusal

/-- A handle of the issuing context. -/
def Ctx.handle (c : Ctx) (h : BitVec 5) : Handle := c.ag.handle h.toNat

/-- Kinds of handles (R274). -/
def Handle.isZero (h : Handle) : Bool := h.kind == 0
def Handle.isDense (h : Handle) : Bool := h.kind == 1
def Handle.isLow (h : Handle) : Bool := h.kind == 2

/-! ### Handles and storage (R294 to R297) -/

/-- Place a new ZERO or DENSE tile (R294). -/
def Ctx.newTile (c : Ctx) (i : Instr) (h : BitVec 5) (kind : Nat) (f32 : Bool) : Done :=
  c.issueKnown (c.newOp i [] [] [] .transfer) [(h.toNat, kind, f32, if kind = 0 then 0 else 64)]

/-- `TNEW` (R294): KIND in bits 1:0 of the parameter, FMT in bit 2, nothing else. -/
def execTnew (h : BitVec 5) (v : BitVec 7) (s : State) : TileOut :=
  onHandles s (.tnew h v) fun c =>
    c.params [rn v] fun ws =>
      let w := (ws.headD 0#32).toNat
      if 8 ≤ w ∨ 2 ≤ w % 4 then c.illegal
      else c.newTile (.tnew h v) h (w % 4) (decide (4 ≤ w))

/-- `TNEW`, immediate form (R294). -/
def execTnewImm (h : BitVec 5) (f : BitVec 1) (k : BitVec 2) (s : State) : TileOut :=
  onHandles s (.tnewImm h f k) fun c => c.newTile (.tnewImm h f k) h k.toNat (f == 1#1)

/-- `TFREE` (R295): the handle becomes ZERO, its format unchanged, and its run is released at once. -/
def execTfree (hd : BitVec 5) (s : State) : TileOut :=
  onHandles s (.tfree hd) fun c =>
    let h := c.handle hd
    if h.isZero then .retire c.s
    else .retire ((c.s.setHandle c.a hd.toNat { Handle.zero with f32 := h.f32 }).releaseRun c.a h.slab h.slabs)

/-- `TSLAB` (R296): a LOWRANK tile moves to a run of another capacity. -/
def execTslab (h : BitVec 5) (v : BitVec 7) (s : State) : TileOut :=
  onHandles s (.tslab h v) fun c =>
    c.params [rn v] fun ws =>
      let w := (ws.headD 0#32).toNat
      if w = 0 ∨ 32 < w then c.illegal
      else
        let old := c.handle h
        if !old.isLow then c.tileKind
        else
          let m := max w old.rank
          let cap := if old.f32 then m + m % 2 else m
          let op := c.newOp (.tslab h v) [] [] [old] .transfer
          if cap = old.cap then .retire (c.s.pushOp c.a op true)
          else
            match c.s.takeRun c.a (if old.f32 then cap / 2 else cap) with
            | none => c.slabEmpty
            | some (s, p) =>
              let new := { old with cap := cap, slab := p }
              .retire ((s.setHandle c.a h.toNat new).pushOp c.a
                { op with dests := [(h.toNat, new, (old.slab, old.slabs))] } true)

/-- `TINFO` (R297): the word of R274. -/
def execTinfo (h : BitVec 5) (v : BitVec 7) (s : State) : TileOut :=
  onHandles s (.tinfo h v) fun c => c.retireWords (rn v) false (pairWords (c.handle h).word)

/-! ### Moving tiles (R298, R299) -/

/-- `TLOAD` (R298). -/
def execTload (h : BitVec 5) (v : BitVec 7) (lay : BitVec 6) (f : BitVec 1) (s : State) : TileOut :=
  onHandles s (.tload h v lay f) fun c =>
    c.withRun lay (rn v) 0 fun l =>
      c.params (regRun (rn v) l.nd) fun ws =>
        c.withElems l (l.fits (f == 1#1) 2) .read (gridCoords ws) fun ks =>
          c.issueKnown (c.newOp (.tload h v lay f) ws ks [] .transfer) [(h.toNat, 1, f == 1#1, 64)]

/-- `TSTORE` (R298). -/
def execTstore (h : BitVec 5) (v : BitVec 7) (lay : BitVec 6) (s : State) : TileOut :=
  onHandles s (.tstore h v lay) fun c =>
    c.withRun lay (rn v) 0 fun l =>
      c.params (regRun (rn v) l.nd) fun ws =>
        let x := c.handle h
        c.withElems l (l.fits x.f32 2) .write (gridCoords ws) fun ks =>
          c.issueKnown (c.newOp (.tstore h v lay) ws ks [x] .transfer) []

/-- `TLRLD` (R299): the rank lies in the register after the coordinate run. -/
def execTlrld (h : BitVec 5) (v : BitVec 7) (lay : BitVec 6) (f : BitVec 1) (s : State) : TileOut :=
  onHandles s (.tlrld h v lay f) fun c =>
    c.withRun lay (rn v) 1 fun l =>
      c.params (regRun (rn v) (l.nd + 1)) fun ws =>
        let k := (ws.getD l.nd 0#32).toNat
        if k = 0 ∨ 32 < k then c.illegal
        else
          c.withElems l (l.fits (f == 1#1) 1) .read (lineCoords (ws.take l.nd) (128 * k)) fun ks =>
            c.issueKnown (c.newOp (.tlrld h v lay f) ws ks [] .transfer) [(h.toNat, 2, f == 1#1, k)]

/-- `TLRST` (R299): the rank is written when it issues. -/
def execTlrst (h : BitVec 5) (v : BitVec 7) (lay : BitVec 6) (s : State) : TileOut :=
  onHandles s (.tlrst h v lay) fun c =>
    c.withRun lay (rn v) 1 fun l =>
      c.params (regRun (rn v) (l.nd + 1)) fun ws =>
        let x := c.handle h
        if !x.isLow then c.tileKind
        else
          c.withElems l (l.fits x.f32 1) .write (lineCoords (ws.take l.nd) (128 * x.rank)) fun ks =>
            (c.issueKnown (c.newOp (.tlrst h v lay) ws ks [x] .transfer) []).map fun s =>
              s.modAgent c.a fun ag => ag.writeWords (rn v + l.nd) false [BitVec.ofNat 32 x.rank]

/-! ### Arithmetic (R300 to R304) -/

/-- `TADD` (R300). -/
def execTadd (hd ha hb : BitVec 5) (k : BitVec 4) (s : State) : TileOut :=
  onHandles s (.tadd hd ha hb k) fun c =>
    let a := c.handle ha
    let b := c.handle hb
    let f32 := a.f32 && b.f32
    c.issueOp (c.newOp (.tadd hd ha hb k) [] [] [a, b] .winnower)
      (if a.isZero && b.isZero then some [(hd.toNat, 0, f32, 0)]
       else if a.isDense || b.isDense then some [(hd.toNat, 1, f32, 64)] else none)

/-- `TSCAL` (R301). -/
def execTscal (h : BitVec 5) (v : BitVec 7) (s : State) : TileOut :=
  onHandles s (.tscal h v) fun c =>
    c.params [rn v, rn v + 1] fun ws =>
      let x := c.handle h
      let f := Fl.of (pairOf ws 0).toNat
      c.issueKnown (c.newOp (.tscal h v) ws [] [x] .winnower)
        (if x.isZero || f.isZero then [(h.toNat, 0, x.f32, 0)]
         else if x.isDense || f.val.nonFinite then [(h.toNat, 1, x.f32, 64)] else [(h.toNat, 2, x.f32, x.rank)])

/-- `TMUL` (R302). -/
def execTmul (hd ha hb : BitVec 5) (tb ta : BitVec 1) (s : State) : TileOut :=
  onHandles s (.tmul hd ha hb tb ta) fun c =>
    let a := c.handle ha
    let b := c.handle hb
    let f32 := a.f32 && b.f32
    c.issueOp (c.newOp (.tmul hd ha hb tb ta) [] [] [a, b] .winnower)
      (if a.isZero || b.isZero then some [(hd.toNat, 0, f32, 0)]
       else if a.isDense && b.isDense then some [(hd.toNat, 1, f32, 64)] else none)

/-- `TROUND` (R303). -/
def execTround (hd ha : BitVec 5) (s : State) : TileOut :=
  onHandles s (.tround hd ha) fun c =>
    let a := c.handle ha
    if a.isDense then c.tileKind
    else
      c.issueOp (c.newOp (.tround hd ha) [] [] [a] .winnower)
        (if a.isZero then some [(hd.toNat, 0, a.f32, 0)] else none)

/-- `TCOMP` (R303). -/
def execTcomp (hd ha : BitVec 5) (s : State) : TileOut :=
  onHandles s (.tcomp hd ha) fun c =>
    let a := c.handle ha
    if a.isLow then c.tileKind
    else
      c.issueOp (c.newOp (.tcomp hd ha) [] [] [a] .winnower)
        (if a.isZero then some [(hd.toNat, 0, a.f32, 0)] else none)

/-- `TDENSE` (R303): ctl 0 keeps the format, 1 names FP64, 2 FP32. -/
def execTdense (hd ha : BitVec 5) (k : BitVec 2) (s : State) : TileOut :=
  onHandles s (.tdense hd ha k) fun c =>
    let a := c.handle ha
    let f32 := if k = 0#2 then a.f32 else k == 2#2
    c.issueKnown (c.newOp (.tdense hd ha k) [] [] [a] .winnower) [(hd.toNat, 1, f32, 64)]

/-- `TNORM` (R304): numbered at issue; the context issues nothing further until it completes. -/
def execTnorm (h : BitVec 5) (v : BitVec 7) (k : BitVec 1) (s : State) : TileOut :=
  onHandles s (.tnorm h v k) fun c =>
    .hold (c.s.pushOp c.a (c.newOp (.tnorm h v k) [] [] [c.handle h] .winnower) true) .allocation

/-! ### Factorisations (R309 to R314) -/

/-- `TGEMM` (R309): a ZERO product copies C on the transfer path; two DENSE operands run on the matrix array. -/
def execTgemm (hd ha hb hc : BitVec 5) (tb ta sub : BitVec 1) (s : State) : TileOut :=
  onHandles s (.tgemm hd ha hb hc tb ta sub) fun c =>
    let a := c.handle ha
    let b := c.handle hb
    let x := c.handle hc
    let f32 := a.f32 && b.f32 && x.f32
    let op := c.newOp (.tgemm hd ha hb hc tb ta sub) [] [] [a, b, x]
    if a.isZero || b.isZero then c.issueKnown (op .transfer) [(hd.toNat, x.kind, x.f32, x.rank)]
    else if a.isDense && b.isDense then c.issueKnown (op .array) [(hd.toNat, 1, f32, 64)]
    else if x.isDense then c.issueKnown (op .winnower) [(hd.toNat, 1, f32, 64)]
    else c.issueRounding (op .winnower)

/-- An operation that will write a status word to register v (R307). -/
def Ctx.withStatus (c : Ctx) (v : Reg) (d : Done) : Done :=
  d.map fun s => s.modAgent c.a fun ag =>
    { ag with tile := { ag.tile with statusRegs := ag.tile.statusRegs ++ [(rn v, c.ag.tile.issued + 1)] } }

/-- `TCHOL` (R310). -/
def execTchol (h : BitVec 5) (v : BitVec 7) (s : State) : TileOut :=
  onHandles s (.tchol h v) fun c =>
    let x := c.handle h
    if x.isLow then c.tileKind
    else
      c.withStatus v (c.issueKnown (c.newOp (.tchol h v) [] [] [x] .winnower)
        (if x.isDense then [(h.toNat, 1, x.f32, 64)] else []))

/-- `TLU` (R311): the coordinate run starts after the status register; the pivots are N32. -/
def execTlu (h : BitVec 5) (v : BitVec 7) (lay : BitVec 6) (s : State) : TileOut :=
  onHandles s (.tlu h v lay) fun c =>
    c.withRun lay (rn v + 1) 0 fun l =>
      c.params (regRun (rn v + 1) l.nd) fun ws =>
        let x := c.handle h
        if !x.isDense then c.tileKind
        else
          c.withElems l (l.fits true 1) .write (lineCoords ws 64) fun ks =>
            c.withStatus v (c.issueKnown (c.newOp (.tlu h v lay) ws ks [x] .winnower) [(h.toNat, 1, x.f32, 64)])

/-- `TQR` (R312): R, then Q. Where both need a new run in one allocation step, Hr is placed first (DEDUCED: R306 gives no order;
log 34). -/
def execTqr (hd ha hc : BitVec 5) (s : State) : TileOut :=
  onHandles s (.tqr hd ha hc) fun c =>
    let a := c.handle ha
    if a.isLow then c.tileKind
    else
      c.issueKnown (c.newOp (.tqr hd ha hc) [] [] [a] .winnower)
        [if a.isZero then (hd.toNat, 0, a.f32, 0) else (hd.toNat, 1, a.f32, 64), (hc.toNat, 1, a.f32, 64)]

/-- `TQR.r` (R312). -/
def execTqrR (hd ha : BitVec 5) (s : State) : TileOut :=
  onHandles s (.tqrR hd ha) fun c =>
    let a := c.handle ha
    if a.isLow then c.tileKind
    else
      c.issueKnown (c.newOp (.tqrR hd ha) [] [] [a] .winnower)
        [if a.isZero then (hd.toNat, 0, a.f32, 0) else (hd.toNat, 1, a.f32, 64)]

/-- `TTRSM` (R313). -/
def execTtrsm (hd ha hb : BitVec 5) (k : BitVec 4) (s : State) : TileOut :=
  onHandles s (.ttrsm hd ha hb k) fun c =>
    let a := c.handle ha
    let b := c.handle hb
    let f32 := a.f32 && b.f32
    if !a.isDense then c.tileKind
    else c.issueKnown (c.newOp (.ttrsm hd ha hb k) [] [] [a, b] .winnower) [(hd.toNat, b.kind, f32, b.rank)]

/-- `TMV` (R314): x, then y, in one entry of FP64 or FP32 elements. -/
def execTmv (h : BitVec 5) (v : BitVec 7) (lay : BitVec 6) (k : BitVec 3) (s : State) : TileOut :=
  onHandles s (.tmv h v lay k) fun c =>
    c.withRun lay (rn v) 0 fun l =>
      c.params (regRun (rn v) l.nd) fun ws =>
        c.withElems l (l.fits true 1 || l.fits false 1) .write (lineCoords ws 128) fun ks =>
          c.issueKnown (c.newOp (.tmv h v lay k) [BitVec.ofNat 32 l.size] ks [c.handle h] .winnower) []

end Sys2Proof.Machine
end

