-- ==== Sys2Proof/Machine/Dispatch.lean ====
section
/-! DEFINITION. The meaning of every instruction: one arm for each constructor of Instr, one call for each arm. -/

namespace Sys2Proof.Machine

/-- The meaning of an instruction or event. -/
def exec (i : Instr) (s : State) : Host.Outcome State Fault Refusal :=
  match i with
  | .iadd vd va vb ps => Sys2Proof.Machine.execIadd vd va vb ps s
  | .isub vd va vb ps => Sys2Proof.Machine.execIsub vd va vb ps s
  | .imul vd va vb ps => Sys2Proof.Machine.execImul vd va vb ps s
  | .imulhI32 vd va vb ps => Sys2Proof.Machine.execImulhI32 vd va vb ps s
  | .imulhN32 vd va vb ps => Sys2Proof.Machine.execImulhN32 vd va vb ps s
  | .imad vd va vb ps => Sys2Proof.Machine.execImad vd va vb ps s
  | .iminI32 vd va vb ps => Sys2Proof.Machine.execIminI32 vd va vb ps s
  | .iminN32 vd va vb ps => Sys2Proof.Machine.execIminN32 vd va vb ps s
  | .imaxI32 vd va vb ps => Sys2Proof.Machine.execImaxI32 vd va vb ps s
  | .imaxN32 vd va vb ps => Sys2Proof.Machine.execImaxN32 vd va vb ps s
  | .land vd va vb ps => Sys2Proof.Machine.execLand vd va vb ps s
  | .lor vd va vb ps => Sys2Proof.Machine.execLor vd va vb ps s
  | .lxor vd va vb ps => Sys2Proof.Machine.execLxor vd va vb ps s
  | .andn vd va vb ps => Sys2Proof.Machine.execAndn vd va vb ps s
  | .shl vd va vb ps => Sys2Proof.Machine.execShl vd va vb ps s
  | .shrN vd va vb ps => Sys2Proof.Machine.execShrN vd va vb ps s
  | .shrI vd va vb ps => Sys2Proof.Machine.execShrI vd va vb ps s
  | .rot vd va vb ps => Sys2Proof.Machine.execRot vd va vb ps s
  | .popc vd va ps => Sys2Proof.Machine.execPopc vd va ps s
  | .clz vd va ps => Sys2Proof.Machine.execClz vd va ps s
  | .brev vd va ps => Sys2Proof.Machine.execBrev vd va ps s
  | .bfx vd va vb ps => Sys2Proof.Machine.execBfx vd va vb ps s
  | .bfi vd va vb ps => Sys2Proof.Machine.execBfi vd va vb ps s
  | .bsel vd va vb ps => Sys2Proof.Machine.execBsel vd va vb ps s
  | .iadd64 vd va vb ps => Sys2Proof.Machine.execIadd64 vd va vb ps s
  | .isub64 vd va vb ps => Sys2Proof.Machine.execIsub64 vd va vb ps s
  | .imul64 vd va vb ps => Sys2Proof.Machine.execImul64 vd va vb ps s
  | .icmp c pd va vb ps => Sys2Proof.Machine.execIcmp c pd va vb ps s
  | .fcmp32 c pd va vb ps => Sys2Proof.Machine.execFcmp32 c pd va vb ps s
  | .fcmp64 c pd va vb ps => Sys2Proof.Machine.execFcmp64 c pd va vb ps s
  | .bra off ps => Sys2Proof.Machine.execBra off ps s
  | .exit ps => Sys2Proof.Machine.execExit ps s
  | .fadd vd va vb ps => Sys2Proof.Machine.execFadd vd va vb ps s
  | .fsub vd va vb ps => Sys2Proof.Machine.execFsub vd va vb ps s
  | .fmul vd va vb ps => Sys2Proof.Machine.execFmul vd va vb ps s
  | .ffma vd va vb ps => Sys2Proof.Machine.execFfma vd va vb ps s
  | .fmin vd va vb ps => Sys2Proof.Machine.execFmin vd va vb ps s
  | .fmax vd va vb ps => Sys2Proof.Machine.execFmax vd va vb ps s
  | .fnegabs vd va sel ps => Sys2Proof.Machine.execFnegabs vd va sel ps s
  | .frcp vd va ps => Sys2Proof.Machine.execFrcp vd va ps s
  | .frsq vd va ps => Sys2Proof.Machine.execFrsq vd va ps s
  | .fsqrt vd va ps => Sys2Proof.Machine.execFsqrt vd va ps s
  | .fdiv vd va vb ps => Sys2Proof.Machine.execFdiv vd va vb ps s
  | .fexp2 vd va ps => Sys2Proof.Machine.execFexp2 vd va ps s
  | .flog2 vd va ps => Sys2Proof.Machine.execFlog2 vd va ps s
  | .fsigm vd va ps => Sys2Proof.Machine.execFsigm vd va ps s
  | .fclass vd va ps => Sys2Proof.Machine.execFclass vd va ps s
  | .fscalb vd va vb ps => Sys2Proof.Machine.execFscalb vd va vb ps s
  | .dadd vd va vb ps => Sys2Proof.Machine.execDadd vd va vb ps s
  | .dsub vd va vb ps => Sys2Proof.Machine.execDsub vd va vb ps s
  | .dmul vd va vb ps => Sys2Proof.Machine.execDmul vd va vb ps s
  | .dfma vd va vb ps => Sys2Proof.Machine.execDfma vd va vb ps s
  | .dmin vd va vb ps => Sys2Proof.Machine.execDmin vd va vb ps s
  | .dmax vd va vb ps => Sys2Proof.Machine.execDmax vd va vb ps s
  | .ddiv vd va vb ps => Sys2Proof.Machine.execDdiv vd va vb ps s
  | .dsqrt vd va ps => Sys2Proof.Machine.execDsqrt vd va ps s
  | .drcp vd va ps => Sys2Proof.Machine.execDrcp vd va ps s
  | .drsq vd va ps => Sys2Proof.Machine.execDrsq vd va ps s
  | .dclass vd va ps => Sys2Proof.Machine.execDclass vd va ps s
  | .dscalb vd va vb ps => Sys2Proof.Machine.execDscalb vd va vb ps s
  | .hadd2 vd va vb ps => Sys2Proof.Machine.execHadd2 vd va vb ps s
  | .hfma2 vd va vb ps => Sys2Proof.Machine.execHfma2 vd va vb ps s
  | .badd2 vd va vb ps => Sys2Proof.Machine.execBadd2 vd va vb ps s
  | .bfma2 vd va vb ps => Sys2Proof.Machine.execBfma2 vd va vb ps s
  | .cvt vd va k ps => Sys2Proof.Machine.execCvt vd va k ps s
  | .pack vd va vb ps => Sys2Proof.Machine.execPack vd va vb ps s
  | .unpk vd va vb ps => Sys2Proof.Machine.execUnpk vd va vb ps s
  | .cvtsF16 vd va vb ps => Sys2Proof.Machine.execCvtsF16 vd va vb ps s
  | .cvtsBf16 vd va vb ps => Sys2Proof.Machine.execCvtsBf16 vd va vb ps s
  | .cvtsE4m3 vd va vb ps => Sys2Proof.Machine.execCvtsE4m3 vd va vb ps s
  | .cvtsE5m2 vd va vb ps => Sys2Proof.Machine.execCvtsE5m2 vd va vb ps s
  | .cvtsE2m1 vd va vb ps => Sys2Proof.Machine.execCvtsE2m1 vd va vb ps s
  | .mov vd va ps => Sys2Proof.Machine.execMov vd va ps s
  | .selbF32 vd va vb pk => Sys2Proof.Machine.execSelbF32 vd va vb pk s
  | .selbF64 vd va vb pk => Sys2Proof.Machine.execSelbF64 vd va vb pk s
  | .selbBf16x2 vd va vb pk => Sys2Proof.Machine.execSelbBf16x2 vd va vb pk s
  | .shape vd va ps => Sys2Proof.Machine.execShape vd va ps s
  | .movp vd pa sel ps => Sys2Proof.Machine.execMovp vd pa sel ps s
  | .rand vd va vb ps => Sys2Proof.Machine.execRand vd va vb ps s
  | .pcmp32 c pd va vb ps => Sys2Proof.Machine.execPcmp32 c pd va vb ps s
  | .pcmp64 c pd va vb ps => Sys2Proof.Machine.execPcmp64 c pd va vb ps s
  | .plog pd pa pb func ps => Sys2Proof.Machine.execPlog pd pa pb func ps s
  | .collapse pd pa vb ps => Sys2Proof.Machine.execCollapse pd pa vb ps s
  | .pgrad vd pa sel ps => Sys2Proof.Machine.execPgrad vd pa sel ps s
  | .psum vd pa ps => Sys2Proof.Machine.execPsum vd pa ps s
  | .pconst pd imm ps => Sys2Proof.Machine.execPconst pd imm ps s
  | .pquery vd pa sel ps => Sys2Proof.Machine.execPquery vd pa sel ps s
  | .lmask vd pa vb c => Sys2Proof.Machine.execLmask vd pa vb c s
  | .xlane vd va vb c => Sys2Proof.Machine.execXlane vd va vb c s
  | .redux vd va vb c => Sys2Proof.Machine.execRedux vd va vb c s
  | .scan vd va vb c => Sys2Proof.Machine.execScan vd va vb c s
  | .rebal vd va vb => Sys2Proof.Machine.execRebal vd va vb s
  | .wsort vd va c => Sys2Proof.Machine.execWsort vd va c s
  | .matchLanes vd va vb c => Sys2Proof.Machine.execMatchLanes vd va vb c s
  | .elect vd vb c => Sys2Proof.Machine.execElect vd vb c s
  | .ld8 vd vc lay hint ps => Sys2Proof.Machine.execLd8 vd vc lay hint ps s
  | .ld16 vd vc lay hint ps => Sys2Proof.Machine.execLd16 vd vc lay hint ps s
  | .ld32 vd vc lay hint ps => Sys2Proof.Machine.execLd32 vd vc lay hint ps s
  | .ld64 vd vc lay hint ps => Sys2Proof.Machine.execLd64 vd vc lay hint ps s
  | .ld128 vd vc lay hint ps => Sys2Proof.Machine.execLd128 vd vc lay hint ps s
  | .st8 vs vc lay hint ps => Sys2Proof.Machine.execSt8 vs vc lay hint ps s
  | .st16 vs vc lay hint ps => Sys2Proof.Machine.execSt16 vs vc lay hint ps s
  | .st32 vs vc lay hint ps => Sys2Proof.Machine.execSt32 vs vc lay hint ps s
  | .st64 vs vc lay hint ps => Sys2Proof.Machine.execSt64 vs vc lay hint ps s
  | .st128 vs vc lay hint ps => Sys2Proof.Machine.execSt128 vs vc lay hint ps s
  | .cstore vs vc lay hint ps => Sys2Proof.Machine.execCstore vs vc lay hint ps s
  | .lookup vd va ps => Sys2Proof.Machine.execLookup vd va ps s
  | .spop vd m ps => Sys2Proof.Machine.execSpop vd m ps s
  | .spush va m ps => Sys2Proof.Machine.execSpush va m ps s
  | .movi32 vd ps imm => Sys2Proof.Machine.execMovi32 vd ps imm s
  | .atom32 vd va ps vc lay lv op ord => Sys2Proof.Machine.execAtom32 vd va ps vc lay lv op ord s
  | .atom64 vd va ps vc lay lv op ord => Sys2Proof.Machine.execAtom64 vd va ps vc lay lv op ord s
  | .cas32 vd va vb ps vc lay lv ord => Sys2Proof.Machine.execCas32 vd va vb ps vc lay lv ord s
  | .cas64 vd va vb ps vc lay lv ord => Sys2Proof.Machine.execCas64 vd va vb ps vc lay lv ord s
  | .iaddi vd va imm => Sys2Proof.Machine.execIaddi vd va imm s
  | .andi vd va imm => Sys2Proof.Machine.execAndi vd va imm s
  | .ori vd va imm => Sys2Proof.Machine.execOri vd va imm s
  | .xori vd va imm => Sys2Proof.Machine.execXori vd va imm s
  | .shli vd va imm => Sys2Proof.Machine.execShli vd va imm s
  | .shriN vd va imm => Sys2Proof.Machine.execShriN vd va imm s
  | .shriI vd va imm => Sys2Proof.Machine.execShriI vd va imm s
  | .movi vd imm => Sys2Proof.Machine.execMovi vd imm s
  | .icmpi c pd va imm => Sys2Proof.Machine.execIcmpi c pd va imm s
  | .sadd vd va vb sub => Sys2Proof.Machine.execSadd vd va vb sub s
  | .ssub vd va vb sub => Sys2Proof.Machine.execSsub vd va vb sub s
  | .smul vd va vb sub => Sys2Proof.Machine.execSmul vd va vb sub s
  | .smulh vd va vb sub => Sys2Proof.Machine.execSmulh vd va vb sub s
  | .sand vd va vb sub => Sys2Proof.Machine.execSand vd va vb sub s
  | .sor vd va vb sub => Sys2Proof.Machine.execSor vd va vb sub s
  | .sxor vd va vb sub => Sys2Proof.Machine.execSxor vd va vb sub s
  | .sshl vd va vb sub => Sys2Proof.Machine.execSshl vd va vb sub s
  | .sshr vd va vb sub => Sys2Proof.Machine.execSshr vd va vb sub s
  | .ssar vd va vb sub => Sys2Proof.Machine.execSsar vd va vb sub s
  | .smin vd va vb sub => Sys2Proof.Machine.execSmin vd va vb sub s
  | .smax vd va vb sub => Sys2Proof.Machine.execSmax vd va vb sub s
  | .scc vd va vb sub => Sys2Proof.Machine.execScc vd va vb sub s
  | .spopc vd va sub => Sys2Proof.Machine.execSpopc vd va sub s
  | .sclz vd va sub => Sys2Proof.Machine.execSclz vd va sub s
  | .smov vd va sub => Sys2Proof.Machine.execSmov vd va sub s
  | .jmp t off => Sys2Proof.Machine.execJmp t off s
  | .bru ps off => Sys2Proof.Machine.execBru ps off s
  | .call off => Sys2Proof.Machine.execCall off s
  | .reconv off => Sys2Proof.Machine.execReconv off s
  | .bar va n => Sys2Proof.Machine.execBar va n s
  | .tbar lv => Sys2Proof.Machine.execTbar lv s
  | .phase lv => Sys2Proof.Machine.execPhase lv s
  | .fenceAr lv => Sys2Proof.Machine.execFenceAr lv s
  | .fenceRel lv => Sys2Proof.Machine.execFenceRel lv s
  | .fenceAcq lv => Sys2Proof.Machine.execFenceAcq lv s
  | .tfence lv => Sys2Proof.Machine.execTfence lv s
  | .ifence lv => Sys2Proof.Machine.execIfence lv s
  | .levelId lv vd c => Sys2Proof.Machine.execLevelId lv vd c s
  | .levelSize lv vd c => Sys2Proof.Machine.execLevelSize lv vd c s
  | .coll lv vd va k op => Sys2Proof.Machine.execColl lv vd va k op s
  | .layout va lay => Sys2Proof.Machine.execLayout va lay s
  | .layoutInv lay => Sys2Proof.Machine.execLayoutInv lay s
  | .layq va lay c => Sys2Proof.Machine.execLayq va lay c s
  | .mfsr vd sr => Sys2Proof.Machine.execMfsr vd sr s
  | .mtsr va sr => Sys2Proof.Machine.execMtsr va sr s
  | .launch vd va => Sys2Proof.Machine.execLaunch vd va s
  | .twait vd va => Sys2Proof.Machine.execTwait vd va s
  | .twaitPoll vd va => Sys2Proof.Machine.execTwaitPoll vd va s
  | .forkTile vd va vb => Sys2Proof.Machine.execForkTile vd va vb s
  | .forkCopy vd va vb => Sys2Proof.Machine.execForkCopy vd va vb s
  | .rdv vd va => Sys2Proof.Machine.execRdv vd va s
  | .commit vd => Sys2Proof.Machine.execCommit vd s
  | .tlwait va vb => Sys2Proof.Machine.execTlwait va vb s
  | .aexpect va vb lay => Sys2Proof.Machine.execAexpect va vb lay s
  | .await va vb lay => Sys2Proof.Machine.execAwait va vb lay s
  | .aarrive va vb lay => Sys2Proof.Machine.execAarrive va vb lay s
  | .cpy va vb lay => Sys2Proof.Machine.execCpy va vb lay s
  | .cpyx va vb lay => Sys2Proof.Machine.execCpyx va vb lay s
  | .gather va vb lay => Sys2Proof.Machine.execGather va vb lay s
  | .scatter va vb lay => Sys2Proof.Machine.execScatter va vb lay s
  | .fill va vb lay c => Sys2Proof.Machine.execFill va vb lay c s
  | .tagset va vb => Sys2Proof.Machine.execTagset va vb s
  | .tagclr va => Sys2Proof.Machine.execTagclr va s
  | .cbload va lay k => Sys2Proof.Machine.execCbload va lay k s
  | .setupis va vb lay c => Sys2Proof.Machine.execSetupis va vb lay c s
  | .pref va lay hint => Sys2Proof.Machine.execPref va lay hint s
  | .cinc va vb => Sys2Proof.Machine.execCinc va vb s
  | .crd vd va => Sys2Proof.Machine.execCrd vd va s
  | .mmaF64 va vb slot => Sys2Proof.Machine.execMmaF64 va vb slot s
  | .mmaBf16 va vb slot => Sys2Proof.Machine.execMmaBf16 va vb slot s
  | .mmaF16 va vb slot => Sys2Proof.Machine.execMmaF16 va vb slot s
  | .mmaE4m3 va vb slot => Sys2Proof.Machine.execMmaE4m3 va vb slot s
  | .mmaE5m2 va vb slot => Sys2Proof.Machine.execMmaE5m2 va vb slot s
  | .mmaB1 va vb slot c => Sys2Proof.Machine.execMmaB1 va vb slot c s
  | .mmaI8 va vb slot => Sys2Proof.Machine.execMmaI8 va vb slot s
  | .accz slot n => Sys2Proof.Machine.execAccz slot n s
  | .accld va slot c => Sys2Proof.Machine.execAccld va slot c s
  | .accst va slot c => Sys2Proof.Machine.execAccst va slot c s
  | .acccvt va slot c => Sys2Proof.Machine.execAcccvt va slot c s
  | .tnew h v => Sys2Proof.Machine.execTnew h v s
  | .tnewImm h f k => Sys2Proof.Machine.execTnewImm h f k s
  | .tfree hd => Sys2Proof.Machine.execTfree hd s
  | .tslab h v => Sys2Proof.Machine.execTslab h v s
  | .tload h v lay f => Sys2Proof.Machine.execTload h v lay f s
  | .tstore h v lay => Sys2Proof.Machine.execTstore h v lay s
  | .tlrld h v lay f => Sys2Proof.Machine.execTlrld h v lay f s
  | .tlrst h v lay => Sys2Proof.Machine.execTlrst h v lay s
  | .tadd hd ha hb c => Sys2Proof.Machine.execTadd hd ha hb c s
  | .tscal h v => Sys2Proof.Machine.execTscal h v s
  | .tmul hd ha hb tb ta => Sys2Proof.Machine.execTmul hd ha hb tb ta s
  | .tround hd ha => Sys2Proof.Machine.execTround hd ha s
  | .tcomp hd ha => Sys2Proof.Machine.execTcomp hd ha s
  | .tdense hd ha c => Sys2Proof.Machine.execTdense hd ha c s
  | .tinfo h v => Sys2Proof.Machine.execTinfo h v s
  | .tnorm h v c => Sys2Proof.Machine.execTnorm h v c s
  | .tgemm hd ha hb hc tb ta sub => Sys2Proof.Machine.execTgemm hd ha hb hc tb ta sub s
  | .tchol h v => Sys2Proof.Machine.execTchol h v s
  | .tlu h v lay => Sys2Proof.Machine.execTlu h v lay s
  | .tqr hd ha hc => Sys2Proof.Machine.execTqr hd ha hc s
  | .tqrR hd ha => Sys2Proof.Machine.execTqrR hd ha s
  | .ttrsm hd ha hb c => Sys2Proof.Machine.execTtrsm hd ha hb c s
  | .tmv h v lay c => Sys2Proof.Machine.execTmv h v lay c s
  | .trap imm => Sys2Proof.Machine.execTrap imm s
  | .sysc vd va n => Sys2Proof.Machine.execSysc vd va n s
  | .pgmap vd va => Sys2Proof.Machine.execPgmap vd va s
  | .tlbinv lv va => Sys2Proof.Machine.execTlbinv lv va s
  | .tlbinvAll lv => Sys2Proof.Machine.execTlbinvAll lv s
  | .clock vd => Sys2Proof.Machine.execClock vd s
  | .saddi vd va imm => Sys2Proof.Machine.execSaddi vd va imm s
  | .sandi vd va imm => Sys2Proof.Machine.execSandi vd va imm s
  | .sori vd va imm => Sys2Proof.Machine.execSori vd va imm s
  | .sxori vd va imm => Sys2Proof.Machine.execSxori vd va imm s
  | .sshli vd va imm => Sys2Proof.Machine.execSshli vd va imm s
  | .sshri vd va imm => Sys2Proof.Machine.execSshri vd va imm s
  | .ssari vd va imm => Sys2Proof.Machine.execSsari vd va imm s
  | .smovi vd imm => Sys2Proof.Machine.execSmovi vd imm s
  | .scci vd va imm => Sys2Proof.Machine.execScci vd va imm s
  | .smuli vd va imm => Sys2Proof.Machine.execSmuli vd va imm s
  | .smovi32 vd imm => Sys2Proof.Machine.execSmovi32 vd imm s
  | .smovi64 vd imm => Sys2Proof.Machine.execSmovi64 vd imm s
  | .saddi32 vd va imm => Sys2Proof.Machine.execSaddi32 vd va imm s
  | .sandi32 vd va imm => Sys2Proof.Machine.execSandi32 vd va imm s
  | .sori32 vd va imm => Sys2Proof.Machine.execSori32 vd va imm s
  | .sxori32 vd va imm => Sys2Proof.Machine.execSxori32 vd va imm s
  | .ret => Sys2Proof.Machine.execRet s
  | .wide => Sys2Proof.Machine.execWide s
  | .endwide => Sys2Proof.Machine.execEndwide s
  | .yield => Sys2Proof.Machine.execYield s
  | .dsync => Sys2Proof.Machine.execDsync s
  | .tktake => Sys2Proof.Machine.execTktake s
  | .tkpass => Sys2Proof.Machine.execTkpass s
  | .trapEsc => Sys2Proof.Machine.execTrapEsc s
  | .tret => Sys2Proof.Machine.execTret s
  | .halt => Sys2Proof.Machine.execHalt s
  | .nop => Sys2Proof.Machine.execNop s
  | .resetBoot => Sys2Proof.Machine.execResetBoot s
  | .teamDispatch die cores => Sys2Proof.Machine.execTeamDispatch die cores s
  | .deadlinePass die task => Sys2Proof.Machine.execDeadlinePass die task s
  | .preemptRequest die => Sys2Proof.Machine.execPreemptRequest die s
  | .teamSaveComplete team => Sys2Proof.Machine.execTeamSaveComplete team s
  | .migrate team core => Sys2Proof.Machine.execMigrate team core s
  | .kernelTrapService agent => Sys2Proof.Machine.execKernelTrapService agent s
  | .watchdogExpiry task => Sys2Proof.Machine.execWatchdogExpiry task s
  | .copyComplete agent num => Sys2Proof.Machine.execCopyComplete agent num s
  | .cpyxTableRead agent num => Sys2Proof.Machine.execCpyxTableRead agent num s
  | .streamFetch agent stream => Sys2Proof.Machine.execStreamFetch agent stream s
  | .streamStore agent stream => Sys2Proof.Machine.execStreamStore agent stream s
  | .mmaOpStart agent => Sys2Proof.Machine.execMmaOpStart agent s
  | .mmaOpComplete agent => Sys2Proof.Machine.execMmaOpComplete agent s
  | .winnowerStart agent => Sys2Proof.Machine.execWinnowerStart agent s
  | .tileAllocationPoint agent => Sys2Proof.Machine.execTileAllocationPoint agent s
  | .tileOpComplete agent => Sys2Proof.Machine.execTileOpComplete agent s
  | .pageWalk walker space va => Sys2Proof.Machine.execPageWalk walker space va s
  | .storePerform idx reach => Sys2Proof.Machine.execStorePerform idx reach s
  | .eccCorrected unit => Sys2Proof.Machine.execEccCorrected unit s
  | .eccUncorrectable target => Sys2Proof.Machine.execEccUncorrectable target s
  | .parityDiscard target => Sys2Proof.Machine.execParityDiscard target s
  | .spareChange unit => Sys2Proof.Machine.execSpareChange unit s
  | .mailboxLaunch mb others share => Sys2Proof.Machine.execMailboxLaunch mb others share s
  | .mailboxWait mb => Sys2Proof.Machine.execMailboxWait mb s
  | .mailboxWaitReply mb => Sys2Proof.Machine.execMailboxWaitReply mb s
  | .mailboxPoll mb => Sys2Proof.Machine.execMailboxPoll mb s
  | .mailboxCounter mb => Sys2Proof.Machine.execMailboxCounter mb s
  | .mailboxAttest mb => Sys2Proof.Machine.execMailboxAttest mb s
  | .mailboxClock mb => Sys2Proof.Machine.execMailboxClock mb s
  | .syscLog agent => Sys2Proof.Machine.execSyscLog agent s
  | .syscNotify agent => Sys2Proof.Machine.execSyscNotify agent s
  | .syscBlkread agent => Sys2Proof.Machine.execSyscBlkread agent s
  | .syscBlkwrite agent => Sys2Proof.Machine.execSyscBlkwrite agent s
  | .hostRegisterWrite reg value => Sys2Proof.Machine.execHostRegisterWrite reg value s
  | .linkReplay port => Sys2Proof.Machine.execLinkReplay port s
  | .linkDown port => Sys2Proof.Machine.execLinkDown port s
  | .channelStop port chan => Sys2Proof.Machine.execChannelStop port chan s
  | .channelResume port chan => Sys2Proof.Machine.execChannelResume port chan s
  | .peerTimeout agent => Sys2Proof.Machine.execPeerTimeout agent s
  | .thermalThrottle die => Sys2Proof.Machine.execThermalThrottle die s
  | .tlbinvComplete idx => Sys2Proof.Machine.execTlbinvComplete idx s
  | .peerAccess req => Sys2Proof.Machine.execPeerAccess req s
  | .systemLaunchPacket space packet others share => Sys2Proof.Machine.execSystemLaunchPacket space packet others share s
  | .collectiveChannelMessage inst pos value poison => Sys2Proof.Machine.execCollectiveChannelMessage inst pos value poison s
  | .mailboxUndefinedRecord mb => Sys2Proof.Machine.execMailboxUndefinedRecord mb s
  | .syscUnknownService agent => Sys2Proof.Machine.execSyscUnknownService agent s

end Sys2Proof.Machine
end

