-- ==== Sys2Proof/Decode.lean ====
section
/-! DEFINITION. Decoding instruction words (R64 to R72, R74) and encoding instructions, both written from the
encoding tables of the spec. Decoding is total: a word group that is not an instruction is refused by name. -/

namespace Sys2Proof

/-- Why a word group is not an instruction (R80). -/
inductive DecodeError where
  /-- A major opcode that R74 marks reserved. -/
  | reservedOpcode
  /-- A reserved xop of R71 or uxop of R72. -/
  | reservedXop
  /-- A bit that the format fixes, or an unused field, holds another value (R67, R69, R71, R72, R75, R76), or
  the ctl or sub value that distinguishes two rows of the table names neither. -/
  | fixedBits
  /-- Fewer words than the instruction has. -/
  | truncated
  deriving DecidableEq, Repr

/-- Opcode row 0x0 of the L-set map of R74: the instruction whose fixed bits the word carries. -/
def decodeL0 (low : Nat) (w : Word) : Except DecodeError Instr :=
  match low with
  | 0 => .ok (.iadd (w.extractLsb' 17 7) (w.extractLsb' 10 7) (w.extractLsb' 3 7) (w.extractLsb' 0 3))
  | 1 => .ok (.isub (w.extractLsb' 17 7) (w.extractLsb' 10 7) (w.extractLsb' 3 7) (w.extractLsb' 0 3))
  | 2 => .ok (.imul (w.extractLsb' 17 7) (w.extractLsb' 10 7) (w.extractLsb' 3 7) (w.extractLsb' 0 3))
  | 3 => .ok (.imulhI32 (w.extractLsb' 17 7) (w.extractLsb' 10 7) (w.extractLsb' 3 7) (w.extractLsb' 0 3))
  | 4 => .ok (.imulhN32 (w.extractLsb' 17 7) (w.extractLsb' 10 7) (w.extractLsb' 3 7) (w.extractLsb' 0 3))
  | 5 => .ok (.imad (w.extractLsb' 17 7) (w.extractLsb' 10 7) (w.extractLsb' 3 7) (w.extractLsb' 0 3))
  | 6 => .ok (.iminI32 (w.extractLsb' 17 7) (w.extractLsb' 10 7) (w.extractLsb' 3 7) (w.extractLsb' 0 3))
  | 7 => .ok (.iminN32 (w.extractLsb' 17 7) (w.extractLsb' 10 7) (w.extractLsb' 3 7) (w.extractLsb' 0 3))
  | 8 => .ok (.imaxI32 (w.extractLsb' 17 7) (w.extractLsb' 10 7) (w.extractLsb' 3 7) (w.extractLsb' 0 3))
  | 9 => .ok (.imaxN32 (w.extractLsb' 17 7) (w.extractLsb' 10 7) (w.extractLsb' 3 7) (w.extractLsb' 0 3))
  | 10 => .ok (.land (w.extractLsb' 17 7) (w.extractLsb' 10 7) (w.extractLsb' 3 7) (w.extractLsb' 0 3))
  | 11 => .ok (.lor (w.extractLsb' 17 7) (w.extractLsb' 10 7) (w.extractLsb' 3 7) (w.extractLsb' 0 3))
  | 12 => .ok (.lxor (w.extractLsb' 17 7) (w.extractLsb' 10 7) (w.extractLsb' 3 7) (w.extractLsb' 0 3))
  | 13 => .ok (.andn (w.extractLsb' 17 7) (w.extractLsb' 10 7) (w.extractLsb' 3 7) (w.extractLsb' 0 3))
  | 14 => .ok (.shl (w.extractLsb' 17 7) (w.extractLsb' 10 7) (w.extractLsb' 3 7) (w.extractLsb' 0 3))
  | 15 => .ok (.shrN (w.extractLsb' 17 7) (w.extractLsb' 10 7) (w.extractLsb' 3 7) (w.extractLsb' 0 3))
  | _ => .error .reservedOpcode

/-- Opcode row 0x10 of the L-set map of R74: the instruction whose fixed bits the word carries. -/
def decodeL1 (low : Nat) (w : Word) : Except DecodeError Instr :=
  match low with
  | 0 => .ok (.shrI (w.extractLsb' 17 7) (w.extractLsb' 10 7) (w.extractLsb' 3 7) (w.extractLsb' 0 3))
  | 1 => .ok (.rot (w.extractLsb' 17 7) (w.extractLsb' 10 7) (w.extractLsb' 3 7) (w.extractLsb' 0 3))
  | 2 => if w.extractLsb' 3 7 = 0x0#7 then .ok (.popc (w.extractLsb' 17 7) (w.extractLsb' 10 7) (w.extractLsb' 0 3))
    else .error .fixedBits
  | 3 => if w.extractLsb' 3 7 = 0x0#7 then .ok (.clz (w.extractLsb' 17 7) (w.extractLsb' 10 7) (w.extractLsb' 0 3))
    else .error .fixedBits
  | 4 => if w.extractLsb' 3 7 = 0x0#7 then .ok (.brev (w.extractLsb' 17 7) (w.extractLsb' 10 7) (w.extractLsb' 0 3))
    else .error .fixedBits
  | 5 => .ok (.bfx (w.extractLsb' 17 7) (w.extractLsb' 10 7) (w.extractLsb' 3 7) (w.extractLsb' 0 3))
  | 6 => .ok (.bfi (w.extractLsb' 17 7) (w.extractLsb' 10 7) (w.extractLsb' 3 7) (w.extractLsb' 0 3))
  | 7 => .ok (.bsel (w.extractLsb' 17 7) (w.extractLsb' 10 7) (w.extractLsb' 3 7) (w.extractLsb' 0 3))
  | 8 => .ok (.iadd64 (w.extractLsb' 17 7) (w.extractLsb' 10 7) (w.extractLsb' 3 7) (w.extractLsb' 0 3))
  | 9 => .ok (.isub64 (w.extractLsb' 17 7) (w.extractLsb' 10 7) (w.extractLsb' 3 7) (w.extractLsb' 0 3))
  | 10 => .ok (.imul64 (w.extractLsb' 17 7) (w.extractLsb' 10 7) (w.extractLsb' 3 7) (w.extractLsb' 0 3))
  | 11 => .ok (.icmp (w.extractLsb' 20 4) (w.extractLsb' 17 3) (w.extractLsb' 10 7) (w.extractLsb' 3 7) (w.extractLsb' 0 3))
  | 12 => .ok (.fcmp32 (w.extractLsb' 20 4) (w.extractLsb' 17 3) (w.extractLsb' 10 7) (w.extractLsb' 3 7) (w.extractLsb' 0 3))
  | 13 => .ok (.fcmp64 (w.extractLsb' 20 4) (w.extractLsb' 17 3) (w.extractLsb' 10 7) (w.extractLsb' 3 7) (w.extractLsb' 0 3))
  | 14 => .ok (.bra (w.extractLsb' 3 21) (w.extractLsb' 0 3))
  | 15 => if w.extractLsb' 3 21 = 0x0#21 then .ok (.exit (w.extractLsb' 0 3))
    else .error .fixedBits
  | _ => .error .reservedOpcode

/-- Opcode row 0x20 of the L-set map of R74: the instruction whose fixed bits the word carries. -/
def decodeL2 (low : Nat) (w : Word) : Except DecodeError Instr :=
  match low with
  | 0 => .ok (.fadd (w.extractLsb' 17 7) (w.extractLsb' 10 7) (w.extractLsb' 3 7) (w.extractLsb' 0 3))
  | 1 => .ok (.fsub (w.extractLsb' 17 7) (w.extractLsb' 10 7) (w.extractLsb' 3 7) (w.extractLsb' 0 3))
  | 2 => .ok (.fmul (w.extractLsb' 17 7) (w.extractLsb' 10 7) (w.extractLsb' 3 7) (w.extractLsb' 0 3))
  | 3 => .ok (.ffma (w.extractLsb' 17 7) (w.extractLsb' 10 7) (w.extractLsb' 3 7) (w.extractLsb' 0 3))
  | 4 => .ok (.fmin (w.extractLsb' 17 7) (w.extractLsb' 10 7) (w.extractLsb' 3 7) (w.extractLsb' 0 3))
  | 5 => .ok (.fmax (w.extractLsb' 17 7) (w.extractLsb' 10 7) (w.extractLsb' 3 7) (w.extractLsb' 0 3))
  | 6 => if w.extractLsb' 5 5 = 0x0#5 then .ok (.fnegabs (w.extractLsb' 17 7) (w.extractLsb' 10 7) (w.extractLsb' 3 2) (w.extractLsb' 0 3))
    else .error .fixedBits
  | 7 => if w.extractLsb' 3 7 = 0x0#7 then .ok (.frcp (w.extractLsb' 17 7) (w.extractLsb' 10 7) (w.extractLsb' 0 3))
    else .error .fixedBits
  | 8 => if w.extractLsb' 3 7 = 0x0#7 then .ok (.frsq (w.extractLsb' 17 7) (w.extractLsb' 10 7) (w.extractLsb' 0 3))
    else .error .fixedBits
  | 9 => if w.extractLsb' 3 7 = 0x0#7 then .ok (.fsqrt (w.extractLsb' 17 7) (w.extractLsb' 10 7) (w.extractLsb' 0 3))
    else .error .fixedBits
  | 10 => .ok (.fdiv (w.extractLsb' 17 7) (w.extractLsb' 10 7) (w.extractLsb' 3 7) (w.extractLsb' 0 3))
  | 11 => if w.extractLsb' 3 7 = 0x0#7 then .ok (.fexp2 (w.extractLsb' 17 7) (w.extractLsb' 10 7) (w.extractLsb' 0 3))
    else .error .fixedBits
  | 12 => if w.extractLsb' 3 7 = 0x0#7 then .ok (.flog2 (w.extractLsb' 17 7) (w.extractLsb' 10 7) (w.extractLsb' 0 3))
    else .error .fixedBits
  | 13 => if w.extractLsb' 3 7 = 0x0#7 then .ok (.fsigm (w.extractLsb' 17 7) (w.extractLsb' 10 7) (w.extractLsb' 0 3))
    else .error .fixedBits
  | 14 => if w.extractLsb' 3 7 = 0x0#7 then .ok (.fclass (w.extractLsb' 17 7) (w.extractLsb' 10 7) (w.extractLsb' 0 3))
    else .error .fixedBits
  | 15 => .ok (.fscalb (w.extractLsb' 17 7) (w.extractLsb' 10 7) (w.extractLsb' 3 7) (w.extractLsb' 0 3))
  | _ => .error .reservedOpcode

/-- Opcode row 0x30 of the L-set map of R74: the instruction whose fixed bits the word carries. -/
def decodeL3 (low : Nat) (w : Word) : Except DecodeError Instr :=
  match low with
  | 0 => .ok (.dadd (w.extractLsb' 17 7) (w.extractLsb' 10 7) (w.extractLsb' 3 7) (w.extractLsb' 0 3))
  | 1 => .ok (.dsub (w.extractLsb' 17 7) (w.extractLsb' 10 7) (w.extractLsb' 3 7) (w.extractLsb' 0 3))
  | 2 => .ok (.dmul (w.extractLsb' 17 7) (w.extractLsb' 10 7) (w.extractLsb' 3 7) (w.extractLsb' 0 3))
  | 3 => .ok (.dfma (w.extractLsb' 17 7) (w.extractLsb' 10 7) (w.extractLsb' 3 7) (w.extractLsb' 0 3))
  | 4 => .ok (.dmin (w.extractLsb' 17 7) (w.extractLsb' 10 7) (w.extractLsb' 3 7) (w.extractLsb' 0 3))
  | 5 => .ok (.dmax (w.extractLsb' 17 7) (w.extractLsb' 10 7) (w.extractLsb' 3 7) (w.extractLsb' 0 3))
  | 6 => .ok (.ddiv (w.extractLsb' 17 7) (w.extractLsb' 10 7) (w.extractLsb' 3 7) (w.extractLsb' 0 3))
  | 7 => if w.extractLsb' 3 7 = 0x0#7 then .ok (.dsqrt (w.extractLsb' 17 7) (w.extractLsb' 10 7) (w.extractLsb' 0 3))
    else .error .fixedBits
  | 8 => if w.extractLsb' 3 7 = 0x0#7 then .ok (.drcp (w.extractLsb' 17 7) (w.extractLsb' 10 7) (w.extractLsb' 0 3))
    else .error .fixedBits
  | 9 => if w.extractLsb' 3 7 = 0x0#7 then .ok (.drsq (w.extractLsb' 17 7) (w.extractLsb' 10 7) (w.extractLsb' 0 3))
    else .error .fixedBits
  | 10 => if w.extractLsb' 3 7 = 0x0#7 then .ok (.dclass (w.extractLsb' 17 7) (w.extractLsb' 10 7) (w.extractLsb' 0 3))
    else .error .fixedBits
  | 11 => .ok (.dscalb (w.extractLsb' 17 7) (w.extractLsb' 10 7) (w.extractLsb' 3 7) (w.extractLsb' 0 3))
  | 12 => .ok (.hadd2 (w.extractLsb' 17 7) (w.extractLsb' 10 7) (w.extractLsb' 3 7) (w.extractLsb' 0 3))
  | 13 => .ok (.hfma2 (w.extractLsb' 17 7) (w.extractLsb' 10 7) (w.extractLsb' 3 7) (w.extractLsb' 0 3))
  | 14 => .ok (.badd2 (w.extractLsb' 17 7) (w.extractLsb' 10 7) (w.extractLsb' 3 7) (w.extractLsb' 0 3))
  | 15 => .ok (.bfma2 (w.extractLsb' 17 7) (w.extractLsb' 10 7) (w.extractLsb' 3 7) (w.extractLsb' 0 3))
  | _ => .error .reservedOpcode

/-- Opcode row 0x40 of the L-set map of R74: the instruction whose fixed bits the word carries. -/
def decodeL4 (low : Nat) (w : Word) : Except DecodeError Instr :=
  match low with
  | 0 => .ok (.cvt (w.extractLsb' 17 7) (w.extractLsb' 10 7) (w.extractLsb' 3 7) (w.extractLsb' 0 3))
  | 1 => .ok (.pack (w.extractLsb' 17 7) (w.extractLsb' 10 7) (w.extractLsb' 3 7) (w.extractLsb' 0 3))
  | 2 => .ok (.unpk (w.extractLsb' 17 7) (w.extractLsb' 10 7) (w.extractLsb' 3 7) (w.extractLsb' 0 3))
  | 3 => .ok (.cvtsF16 (w.extractLsb' 17 7) (w.extractLsb' 10 7) (w.extractLsb' 3 7) (w.extractLsb' 0 3))
  | 4 => .ok (.cvtsBf16 (w.extractLsb' 17 7) (w.extractLsb' 10 7) (w.extractLsb' 3 7) (w.extractLsb' 0 3))
  | 5 => .ok (.cvtsE4m3 (w.extractLsb' 17 7) (w.extractLsb' 10 7) (w.extractLsb' 3 7) (w.extractLsb' 0 3))
  | 6 => .ok (.cvtsE5m2 (w.extractLsb' 17 7) (w.extractLsb' 10 7) (w.extractLsb' 3 7) (w.extractLsb' 0 3))
  | 7 => .ok (.cvtsE2m1 (w.extractLsb' 17 7) (w.extractLsb' 10 7) (w.extractLsb' 3 7) (w.extractLsb' 0 3))
  | 8 => if w.extractLsb' 3 7 = 0x0#7 then .ok (.mov (w.extractLsb' 17 7) (w.extractLsb' 10 7) (w.extractLsb' 0 3))
    else .error .fixedBits
  | 9 => .ok (.selbF32 (w.extractLsb' 17 7) (w.extractLsb' 10 7) (w.extractLsb' 3 7) (w.extractLsb' 0 3))
  | 10 => .ok (.selbF64 (w.extractLsb' 17 7) (w.extractLsb' 10 7) (w.extractLsb' 3 7) (w.extractLsb' 0 3))
  | 11 => .ok (.selbBf16x2 (w.extractLsb' 17 7) (w.extractLsb' 10 7) (w.extractLsb' 3 7) (w.extractLsb' 0 3))
  | 12 => if w.extractLsb' 3 7 = 0x0#7 then .ok (.shape (w.extractLsb' 17 7) (w.extractLsb' 10 7) (w.extractLsb' 0 3))
    else .error .fixedBits
  | 13 => if w.extractLsb' 13 4 = 0x0#4 then .ok (.movp (w.extractLsb' 17 7) (w.extractLsb' 10 3) (w.extractLsb' 3 7) (w.extractLsb' 0 3))
    else .error .fixedBits
  | 14 => .ok (.rand (w.extractLsb' 17 7) (w.extractLsb' 10 7) (w.extractLsb' 3 7) (w.extractLsb' 0 3))
  | _ => .error .reservedOpcode

/-- Opcode row 0x50 of the L-set map of R74: the instruction whose fixed bits the word carries. -/
def decodeL5 (low : Nat) (w : Word) : Except DecodeError Instr :=
  match low with
  | 0 => .ok (.pcmp32 (w.extractLsb' 20 4) (w.extractLsb' 17 3) (w.extractLsb' 10 7) (w.extractLsb' 3 7) (w.extractLsb' 0 3))
  | 1 => .ok (.pcmp64 (w.extractLsb' 20 4) (w.extractLsb' 17 3) (w.extractLsb' 10 7) (w.extractLsb' 3 7) (w.extractLsb' 0 3))
  | 2 => if w.extractLsb' 3 7 = 0x0#7 then .ok (.plog (w.extractLsb' 21 3) (w.extractLsb' 18 3) (w.extractLsb' 15 3) (w.extractLsb' 10 5) (w.extractLsb' 0 3))
    else .error .fixedBits
  | 3 => if w.extractLsb' 10 8 = 0x0#8 then .ok (.collapse (w.extractLsb' 21 3) (w.extractLsb' 18 3) (w.extractLsb' 3 7) (w.extractLsb' 0 3))
    else .error .fixedBits
  | 4 => if w.extractLsb' 13 4 = 0x0#4 then .ok (.pgrad (w.extractLsb' 17 7) (w.extractLsb' 10 3) (w.extractLsb' 3 7) (w.extractLsb' 0 3))
    else .error .fixedBits
  | 5 => if w.extractLsb' 13 4 = 0x0#4 ∧ w.extractLsb' 3 7 = 0x0#7 then .ok (.psum (w.extractLsb' 17 7) (w.extractLsb' 10 3) (w.extractLsb' 0 3))
    else .error .fixedBits
  | 6 => if w.extractLsb' 3 2 = 0x0#2 then .ok (.pconst (w.extractLsb' 21 3) (w.extractLsb' 5 16) (w.extractLsb' 0 3))
    else .error .fixedBits
  | 7 => if w.extractLsb' 13 4 = 0x0#4 then .ok (.pquery (w.extractLsb' 17 7) (w.extractLsb' 10 3) (w.extractLsb' 3 7) (w.extractLsb' 0 3))
    else .error .fixedBits
  | 8 => if w.extractLsb' 13 4 = 0x0#4 then .ok (.lmask (w.extractLsb' 17 7) (w.extractLsb' 10 3) (w.extractLsb' 3 7) (w.extractLsb' 0 3))
    else .error .fixedBits
  | 9 => .ok (.xlane (w.extractLsb' 17 7) (w.extractLsb' 10 7) (w.extractLsb' 3 7) (w.extractLsb' 0 3))
  | 10 => .ok (.redux (w.extractLsb' 17 7) (w.extractLsb' 10 7) (w.extractLsb' 3 7) (w.extractLsb' 0 3))
  | 11 => .ok (.scan (w.extractLsb' 17 7) (w.extractLsb' 10 7) (w.extractLsb' 3 7) (w.extractLsb' 0 3))
  | 12 => if w.extractLsb' 0 3 = 0x0#3 then .ok (.rebal (w.extractLsb' 17 7) (w.extractLsb' 10 7) (w.extractLsb' 3 7))
    else .error .fixedBits
  | 13 => if w.extractLsb' 3 7 = 0x0#7 then .ok (.wsort (w.extractLsb' 17 7) (w.extractLsb' 10 7) (w.extractLsb' 0 3))
    else .error .fixedBits
  | 14 => .ok (.matchLanes (w.extractLsb' 17 7) (w.extractLsb' 10 7) (w.extractLsb' 3 7) (w.extractLsb' 0 3))
  | 15 => if w.extractLsb' 10 7 = 0x0#7 then .ok (.elect (w.extractLsb' 17 7) (w.extractLsb' 3 7) (w.extractLsb' 0 3))
    else .error .fixedBits
  | _ => .error .reservedOpcode

/-- Opcode row 0x60 of the L-set map of R74: the instruction whose fixed bits the word carries. -/
def decodeL6 (low : Nat) (w : Word) : Except DecodeError Instr :=
  match low with
  | 0 => .ok (.ld8 (w.extractLsb' 17 7) (w.extractLsb' 10 7) (w.extractLsb' 4 6) (w.extractLsb' 3 1) (w.extractLsb' 0 3))
  | 1 => .ok (.ld16 (w.extractLsb' 17 7) (w.extractLsb' 10 7) (w.extractLsb' 4 6) (w.extractLsb' 3 1) (w.extractLsb' 0 3))
  | 2 => .ok (.ld32 (w.extractLsb' 17 7) (w.extractLsb' 10 7) (w.extractLsb' 4 6) (w.extractLsb' 3 1) (w.extractLsb' 0 3))
  | 3 => .ok (.ld64 (w.extractLsb' 17 7) (w.extractLsb' 10 7) (w.extractLsb' 4 6) (w.extractLsb' 3 1) (w.extractLsb' 0 3))
  | 4 => .ok (.ld128 (w.extractLsb' 17 7) (w.extractLsb' 10 7) (w.extractLsb' 4 6) (w.extractLsb' 3 1) (w.extractLsb' 0 3))
  | 5 => .ok (.st8 (w.extractLsb' 17 7) (w.extractLsb' 10 7) (w.extractLsb' 4 6) (w.extractLsb' 3 1) (w.extractLsb' 0 3))
  | 6 => .ok (.st16 (w.extractLsb' 17 7) (w.extractLsb' 10 7) (w.extractLsb' 4 6) (w.extractLsb' 3 1) (w.extractLsb' 0 3))
  | 7 => .ok (.st32 (w.extractLsb' 17 7) (w.extractLsb' 10 7) (w.extractLsb' 4 6) (w.extractLsb' 3 1) (w.extractLsb' 0 3))
  | 8 => .ok (.st64 (w.extractLsb' 17 7) (w.extractLsb' 10 7) (w.extractLsb' 4 6) (w.extractLsb' 3 1) (w.extractLsb' 0 3))
  | 9 => .ok (.st128 (w.extractLsb' 17 7) (w.extractLsb' 10 7) (w.extractLsb' 4 6) (w.extractLsb' 3 1) (w.extractLsb' 0 3))
  | 10 => .ok (.cstore (w.extractLsb' 17 7) (w.extractLsb' 10 7) (w.extractLsb' 4 6) (w.extractLsb' 3 1) (w.extractLsb' 0 3))
  | 11 => if w.extractLsb' 3 7 = 0x0#7 then .ok (.lookup (w.extractLsb' 17 7) (w.extractLsb' 10 7) (w.extractLsb' 0 3))
    else .error .fixedBits
  | 12 => if w.extractLsb' 10 7 = 0x0#7 then .ok (.spop (w.extractLsb' 17 7) (w.extractLsb' 3 7) (w.extractLsb' 0 3))
    else .error .fixedBits
  | 13 => if w.extractLsb' 17 7 = 0x0#7 then .ok (.spush (w.extractLsb' 10 7) (w.extractLsb' 3 7) (w.extractLsb' 0 3))
    else .error .fixedBits
  | _ => .error .reservedOpcode

/-- Opcode row 0x70 of the L-set map of R74: the instruction whose fixed bits the word carries. -/
def decodeL7 (low : Nat) (w : Word) : Except DecodeError Instr :=
  match low with
  | 0 => .ok (.iaddi (w.extractLsb' 17 7) (w.extractLsb' 10 7) (w.extractLsb' 0 10))
  | 1 => .ok (.andi (w.extractLsb' 17 7) (w.extractLsb' 10 7) (w.extractLsb' 0 10))
  | 2 => .ok (.ori (w.extractLsb' 17 7) (w.extractLsb' 10 7) (w.extractLsb' 0 10))
  | 3 => .ok (.xori (w.extractLsb' 17 7) (w.extractLsb' 10 7) (w.extractLsb' 0 10))
  | 4 => .ok (.shli (w.extractLsb' 17 7) (w.extractLsb' 10 7) (w.extractLsb' 0 10))
  | 5 => .ok (.shriN (w.extractLsb' 17 7) (w.extractLsb' 10 7) (w.extractLsb' 0 10))
  | 6 => .ok (.shriI (w.extractLsb' 17 7) (w.extractLsb' 10 7) (w.extractLsb' 0 10))
  | 7 => .ok (.movi (w.extractLsb' 17 7) (w.extractLsb' 0 17))
  | 8 => .ok (.icmpi (w.extractLsb' 20 4) (w.extractLsb' 17 3) (w.extractLsb' 10 7) (w.extractLsb' 0 10))
  | _ => .error .reservedOpcode

/-- Opcode row 0x0 of the U-set map of R74: the instruction whose fixed bits the word carries. -/
def decodeU0 (low : Nat) (w : Word) : Except DecodeError Instr :=
  match low with
  | 0 => .ok (.sadd (w.extractLsb' 17 7) (w.extractLsb' 10 7) (w.extractLsb' 3 7) (w.extractLsb' 0 3))
  | 1 => .ok (.ssub (w.extractLsb' 17 7) (w.extractLsb' 10 7) (w.extractLsb' 3 7) (w.extractLsb' 0 3))
  | 2 => .ok (.smul (w.extractLsb' 17 7) (w.extractLsb' 10 7) (w.extractLsb' 3 7) (w.extractLsb' 0 3))
  | 3 => .ok (.smulh (w.extractLsb' 17 7) (w.extractLsb' 10 7) (w.extractLsb' 3 7) (w.extractLsb' 0 3))
  | 4 => .ok (.sand (w.extractLsb' 17 7) (w.extractLsb' 10 7) (w.extractLsb' 3 7) (w.extractLsb' 0 3))
  | 5 => .ok (.sor (w.extractLsb' 17 7) (w.extractLsb' 10 7) (w.extractLsb' 3 7) (w.extractLsb' 0 3))
  | 6 => .ok (.sxor (w.extractLsb' 17 7) (w.extractLsb' 10 7) (w.extractLsb' 3 7) (w.extractLsb' 0 3))
  | 7 => .ok (.sshl (w.extractLsb' 17 7) (w.extractLsb' 10 7) (w.extractLsb' 3 7) (w.extractLsb' 0 3))
  | 8 => .ok (.sshr (w.extractLsb' 17 7) (w.extractLsb' 10 7) (w.extractLsb' 3 7) (w.extractLsb' 0 3))
  | 9 => .ok (.ssar (w.extractLsb' 17 7) (w.extractLsb' 10 7) (w.extractLsb' 3 7) (w.extractLsb' 0 3))
  | 10 => .ok (.smin (w.extractLsb' 17 7) (w.extractLsb' 10 7) (w.extractLsb' 3 7) (w.extractLsb' 0 3))
  | 11 => .ok (.smax (w.extractLsb' 17 7) (w.extractLsb' 10 7) (w.extractLsb' 3 7) (w.extractLsb' 0 3))
  | 12 => .ok (.scc (w.extractLsb' 17 7) (w.extractLsb' 10 7) (w.extractLsb' 3 7) (w.extractLsb' 0 3))
  | 13 => if w.extractLsb' 3 7 = 0x0#7 then .ok (.spopc (w.extractLsb' 17 7) (w.extractLsb' 10 7) (w.extractLsb' 0 3))
    else .error .fixedBits
  | 14 => if w.extractLsb' 3 7 = 0x0#7 then .ok (.sclz (w.extractLsb' 17 7) (w.extractLsb' 10 7) (w.extractLsb' 0 3))
    else .error .fixedBits
  | 15 => if w.extractLsb' 3 7 = 0x0#7 then .ok (.smov (w.extractLsb' 17 7) (w.extractLsb' 10 7) (w.extractLsb' 0 3))
    else .error .fixedBits
  | _ => .error .reservedOpcode

/-- Opcode row 0x10 of the U-set map of R74: the instruction whose fixed bits the word carries. -/
def decodeU1 (low : Nat) (w : Word) : Except DecodeError Instr :=
  match low with
  | 0 => .ok (.jmp (w.extractLsb' 21 3) (w.extractLsb' 0 21))
  | 1 => .ok (.bru (w.extractLsb' 21 3) (w.extractLsb' 0 21))
  | 2 => if w.extractLsb' 21 3 = 0x7#3 then .ok (.call (w.extractLsb' 0 21))
    else .error .fixedBits
  | 3 => if w.extractLsb' 0 24 = 0x0#24 then .ok .ret
    else .error .fixedBits
  | 4 => if w.extractLsb' 21 3 = 0x0#3 then .ok (.reconv (w.extractLsb' 0 21))
    else .error .fixedBits
  | 5 => if w.extractLsb' 0 24 = 0x0#24 then .ok .wide
    else .error .fixedBits
  | 6 => if w.extractLsb' 0 24 = 0x0#24 then .ok .endwide
    else .error .fixedBits
  | 7 => if w.extractLsb' 0 24 = 0x0#24 then .ok .yield
    else .error .fixedBits
  | 8 => if w.extractLsb' 13 11 = 0x0#11 then .ok (.bar (w.extractLsb' 6 7) (w.extractLsb' 0 6))
    else .error .fixedBits
  | 9 => if w.extractLsb' 0 20 = 0x0#20 then .ok (.tbar (w.extractLsb' 20 4))
    else .error .fixedBits
  | 10 => if w.extractLsb' 0 20 = 0x0#20 then .ok (.phase (w.extractLsb' 20 4))
    else .error .fixedBits
  | 11 => if w.extractLsb' 0 20 = 0x0#20 then .ok (.fenceAr (w.extractLsb' 20 4))
    else if w.extractLsb' 0 20 = 0x1#20 then .ok (.fenceRel (w.extractLsb' 20 4))
    else if w.extractLsb' 0 20 = 0x2#20 then .ok (.fenceAcq (w.extractLsb' 20 4))
    else .error .fixedBits
  | 12 => if w.extractLsb' 0 20 = 0x0#20 then .ok (.tfence (w.extractLsb' 20 4))
    else .error .fixedBits
  | 13 => if w.extractLsb' 0 20 = 0x0#20 then .ok (.ifence (w.extractLsb' 20 4))
    else .error .fixedBits
  | 14 => if w.extractLsb' 6 7 = 0x0#7 then .ok (.levelId (w.extractLsb' 20 4) (w.extractLsb' 13 7) (w.extractLsb' 0 6))
    else .error .fixedBits
  | 15 => if w.extractLsb' 6 7 = 0x0#7 then .ok (.levelSize (w.extractLsb' 20 4) (w.extractLsb' 13 7) (w.extractLsb' 0 6))
    else .error .fixedBits
  | _ => .error .reservedOpcode

/-- Opcode row 0x20 of the U-set map of R74: the instruction whose fixed bits the word carries. -/
def decodeU2 (low : Nat) (w : Word) : Except DecodeError Instr :=
  match low with
  | 0 => if w.extractLsb' 5 1 = 0x0#1 then .ok (.coll (w.extractLsb' 20 4) (w.extractLsb' 13 7) (w.extractLsb' 6 7) (w.extractLsb' 3 2) (w.extractLsb' 0 3))
    else .error .fixedBits
  | 1 => if w.extractLsb' 10 7 = 0x0#7 ∧ w.extractLsb' 0 4 = 0x0#4 then .ok (.layout (w.extractLsb' 17 7) (w.extractLsb' 4 6))
    else if w.extractLsb' 10 14 = 0x0#14 ∧ w.extractLsb' 0 4 = 0x1#4 then .ok (.layoutInv (w.extractLsb' 4 6))
    else .error .fixedBits
  | 2 => if w.extractLsb' 10 7 = 0x0#7 then .ok (.layq (w.extractLsb' 17 7) (w.extractLsb' 4 6) (w.extractLsb' 0 4))
    else .error .fixedBits
  | 3 => if w.extractLsb' 10 7 = 0x0#7 then .ok (.mfsr (w.extractLsb' 17 7) (w.extractLsb' 0 10))
    else .error .fixedBits
  | 4 => if w.extractLsb' 17 7 = 0x0#7 then .ok (.mtsr (w.extractLsb' 10 7) (w.extractLsb' 0 10))
    else .error .fixedBits
  | 5 => if w.extractLsb' 0 10 = 0x0#10 then .ok (.launch (w.extractLsb' 17 7) (w.extractLsb' 10 7))
    else .error .fixedBits
  | 6 => if w.extractLsb' 0 10 = 0x0#10 then .ok (.twait (w.extractLsb' 17 7) (w.extractLsb' 10 7))
    else if w.extractLsb' 0 10 = 0x2#10 then .ok (.twaitPoll (w.extractLsb' 17 7) (w.extractLsb' 10 7))
    else .error .fixedBits
  | 7 => if w.extractLsb' 0 3 = 0x0#3 then .ok (.forkTile (w.extractLsb' 17 7) (w.extractLsb' 10 7) (w.extractLsb' 3 7))
    else if w.extractLsb' 0 3 = 0x2#3 then .ok (.forkCopy (w.extractLsb' 17 7) (w.extractLsb' 10 7) (w.extractLsb' 3 7))
    else .error .fixedBits
  | 8 => if w.extractLsb' 0 10 = 0x0#10 then .ok (.rdv (w.extractLsb' 17 7) (w.extractLsb' 10 7))
    else .error .fixedBits
  | 9 => if w.extractLsb' 0 17 = 0x0#17 then .ok (.commit (w.extractLsb' 17 7))
    else .error .fixedBits
  | 10 => if w.extractLsb' 17 7 = 0x0#7 ∧ w.extractLsb' 0 3 = 0x0#3 then .ok (.tlwait (w.extractLsb' 10 7) (w.extractLsb' 3 7))
    else .error .fixedBits
  | 11 => if w.extractLsb' 0 4 = 0x0#4 then .ok (.aexpect (w.extractLsb' 17 7) (w.extractLsb' 10 7) (w.extractLsb' 4 6))
    else .error .fixedBits
  | 12 => if w.extractLsb' 0 4 = 0x0#4 then .ok (.await (w.extractLsb' 17 7) (w.extractLsb' 10 7) (w.extractLsb' 4 6))
    else .error .fixedBits
  | 13 => if w.extractLsb' 0 4 = 0x0#4 then .ok (.aarrive (w.extractLsb' 17 7) (w.extractLsb' 10 7) (w.extractLsb' 4 6))
    else .error .fixedBits
  | 14 => if w.extractLsb' 0 24 = 0x0#24 then .ok .dsync
    else .error .fixedBits
  | 15 => if w.extractLsb' 0 24 = 0x0#24 then .ok .tktake
    else .error .fixedBits
  | _ => .error .reservedOpcode

/-- Opcode row 0x30 of the U-set map of R74: the instruction whose fixed bits the word carries. -/
def decodeU3 (low : Nat) (w : Word) : Except DecodeError Instr :=
  match low with
  | 0 => if w.extractLsb' 0 24 = 0x0#24 then .ok .tkpass
    else .error .fixedBits
  | 1 => if w.extractLsb' 0 4 = 0x0#4 then .ok (.cpy (w.extractLsb' 17 7) (w.extractLsb' 10 7) (w.extractLsb' 4 6))
    else .error .fixedBits
  | 2 => if w.extractLsb' 0 4 = 0x0#4 then .ok (.cpyx (w.extractLsb' 17 7) (w.extractLsb' 10 7) (w.extractLsb' 4 6))
    else .error .fixedBits
  | 3 => if w.extractLsb' 0 4 = 0x0#4 then .ok (.gather (w.extractLsb' 17 7) (w.extractLsb' 10 7) (w.extractLsb' 4 6))
    else .error .fixedBits
  | 4 => if w.extractLsb' 0 4 = 0x0#4 then .ok (.scatter (w.extractLsb' 17 7) (w.extractLsb' 10 7) (w.extractLsb' 4 6))
    else .error .fixedBits
  | 5 => .ok (.fill (w.extractLsb' 17 7) (w.extractLsb' 10 7) (w.extractLsb' 4 6) (w.extractLsb' 0 4))
  | 6 => if w.extractLsb' 17 7 = 0x0#7 ∧ w.extractLsb' 0 3 = 0x0#3 then .ok (.tagset (w.extractLsb' 10 7) (w.extractLsb' 3 7))
    else .error .fixedBits
  | 7 => if w.extractLsb' 17 7 = 0x0#7 ∧ w.extractLsb' 0 10 = 0x0#10 then .ok (.tagclr (w.extractLsb' 10 7))
    else .error .fixedBits
  | 8 => if w.extractLsb' 10 7 = 0x0#7 ∧ w.extractLsb' 3 1 = 0x0#1 then .ok (.cbload (w.extractLsb' 17 7) (w.extractLsb' 4 6) (w.extractLsb' 0 3))
    else .error .fixedBits
  | 9 => .ok (.setupis (w.extractLsb' 17 7) (w.extractLsb' 10 7) (w.extractLsb' 4 6) (w.extractLsb' 0 4))
  | 10 => if w.extractLsb' 10 7 = 0x0#7 then .ok (.pref (w.extractLsb' 17 7) (w.extractLsb' 4 6) (w.extractLsb' 0 4))
    else .error .fixedBits
  | 11 => if w.extractLsb' 17 7 = 0x0#7 ∧ w.extractLsb' 0 3 = 0x0#3 then .ok (.cinc (w.extractLsb' 10 7) (w.extractLsb' 3 7))
    else .error .fixedBits
  | 12 => if w.extractLsb' 0 10 = 0x0#10 then .ok (.crd (w.extractLsb' 17 7) (w.extractLsb' 10 7))
    else .error .fixedBits
  | _ => .error .reservedOpcode

/-- Opcode row 0x40 of the U-set map of R74: the instruction whose fixed bits the word carries. -/
def decodeU4 (low : Nat) (w : Word) : Except DecodeError Instr :=
  match low with
  | 0 => if w.extractLsb' 0 4 = 0x0#4 then .ok (.mmaF64 (w.extractLsb' 17 7) (w.extractLsb' 10 7) (w.extractLsb' 4 6))
    else .error .fixedBits
  | 1 => if w.extractLsb' 0 4 = 0x0#4 then .ok (.mmaBf16 (w.extractLsb' 17 7) (w.extractLsb' 10 7) (w.extractLsb' 4 6))
    else .error .fixedBits
  | 2 => if w.extractLsb' 0 4 = 0x0#4 then .ok (.mmaF16 (w.extractLsb' 17 7) (w.extractLsb' 10 7) (w.extractLsb' 4 6))
    else .error .fixedBits
  | 3 => if w.extractLsb' 0 4 = 0x0#4 then .ok (.mmaE4m3 (w.extractLsb' 17 7) (w.extractLsb' 10 7) (w.extractLsb' 4 6))
    else .error .fixedBits
  | 4 => if w.extractLsb' 0 4 = 0x0#4 then .ok (.mmaE5m2 (w.extractLsb' 17 7) (w.extractLsb' 10 7) (w.extractLsb' 4 6))
    else .error .fixedBits
  | 5 => if w.extractLsb' 1 3 = 0x0#3 then .ok (.mmaB1 (w.extractLsb' 17 7) (w.extractLsb' 10 7) (w.extractLsb' 4 6) (w.extractLsb' 0 1))
    else .error .fixedBits
  | 6 => if w.extractLsb' 0 4 = 0x0#4 then .ok (.mmaI8 (w.extractLsb' 17 7) (w.extractLsb' 10 7) (w.extractLsb' 4 6))
    else .error .fixedBits
  | 7 => if w.extractLsb' 10 14 = 0x0#14 then .ok (.accz (w.extractLsb' 4 6) (w.extractLsb' 0 4))
    else .error .fixedBits
  | 8 => if w.extractLsb' 10 7 = 0x0#7 ∧ w.extractLsb' 1 3 = 0x0#3 then .ok (.accld (w.extractLsb' 17 7) (w.extractLsb' 4 6) (w.extractLsb' 0 1))
    else .error .fixedBits
  | 9 => if w.extractLsb' 10 7 = 0x0#7 ∧ w.extractLsb' 1 3 = 0x0#3 then .ok (.accst (w.extractLsb' 17 7) (w.extractLsb' 4 6) (w.extractLsb' 0 1))
    else .error .fixedBits
  | 10 => if w.extractLsb' 10 7 = 0x0#7 then .ok (.acccvt (w.extractLsb' 17 7) (w.extractLsb' 4 6) (w.extractLsb' 0 4))
    else .error .fixedBits
  | _ => .error .reservedOpcode

/-- Opcode row 0x50 of the U-set map of R74: the instruction whose fixed bits the word carries. -/
def decodeU5 (low : Nat) (w : Word) : Except DecodeError Instr :=
  match low with
  | 0 => if w.extractLsb' 0 12 = 0x0#12 then .ok (.tnew (w.extractLsb' 19 5) (w.extractLsb' 12 7))
    else if w.extractLsb' 3 16 = 0x1#16 then .ok (.tnewImm (w.extractLsb' 19 5) (w.extractLsb' 2 1) (w.extractLsb' 0 2))
    else .error .fixedBits
  | 1 => if w.extractLsb' 0 19 = 0x0#19 then .ok (.tfree (w.extractLsb' 19 5))
    else .error .fixedBits
  | 2 => if w.extractLsb' 0 12 = 0x0#12 then .ok (.tslab (w.extractLsb' 19 5) (w.extractLsb' 12 7))
    else .error .fixedBits
  | 3 => if w.extractLsb' 1 5 = 0x0#5 then .ok (.tload (w.extractLsb' 19 5) (w.extractLsb' 12 7) (w.extractLsb' 6 6) (w.extractLsb' 0 1))
    else .error .fixedBits
  | 4 => if w.extractLsb' 0 6 = 0x0#6 then .ok (.tstore (w.extractLsb' 19 5) (w.extractLsb' 12 7) (w.extractLsb' 6 6))
    else .error .fixedBits
  | 5 => if w.extractLsb' 1 5 = 0x0#5 then .ok (.tlrld (w.extractLsb' 19 5) (w.extractLsb' 12 7) (w.extractLsb' 6 6) (w.extractLsb' 0 1))
    else .error .fixedBits
  | 6 => if w.extractLsb' 0 6 = 0x0#6 then .ok (.tlrst (w.extractLsb' 19 5) (w.extractLsb' 12 7) (w.extractLsb' 6 6))
    else .error .fixedBits
  | 7 => if w.extractLsb' 4 5 = 0x0#5 then .ok (.tadd (w.extractLsb' 19 5) (w.extractLsb' 14 5) (w.extractLsb' 9 5) (w.extractLsb' 0 4))
    else .error .fixedBits
  | 8 => if w.extractLsb' 0 12 = 0x0#12 then .ok (.tscal (w.extractLsb' 19 5) (w.extractLsb' 12 7))
    else .error .fixedBits
  | 9 => if w.extractLsb' 2 7 = 0x0#7 then .ok (.tmul (w.extractLsb' 19 5) (w.extractLsb' 14 5) (w.extractLsb' 9 5) (w.extractLsb' 1 1) (w.extractLsb' 0 1))
    else .error .fixedBits
  | 10 => if w.extractLsb' 0 14 = 0x0#14 then .ok (.tround (w.extractLsb' 19 5) (w.extractLsb' 14 5))
    else .error .fixedBits
  | 11 => if w.extractLsb' 0 14 = 0x0#14 then .ok (.tcomp (w.extractLsb' 19 5) (w.extractLsb' 14 5))
    else .error .fixedBits
  | 12 => if w.extractLsb' 2 12 = 0x0#12 then .ok (.tdense (w.extractLsb' 19 5) (w.extractLsb' 14 5) (w.extractLsb' 0 2))
    else .error .fixedBits
  | 13 => if w.extractLsb' 0 12 = 0x0#12 then .ok (.tinfo (w.extractLsb' 19 5) (w.extractLsb' 12 7))
    else .error .fixedBits
  | 14 => if w.extractLsb' 1 11 = 0x0#11 then .ok (.tnorm (w.extractLsb' 19 5) (w.extractLsb' 12 7) (w.extractLsb' 0 1))
    else .error .fixedBits
  | _ => .error .reservedOpcode

/-- Opcode row 0x60 of the U-set map of R74: the instruction whose fixed bits the word carries. -/
def decodeU6 (low : Nat) (w : Word) : Except DecodeError Instr :=
  match low with
  | 0 => if w.extractLsb' 3 1 = 0x0#1 then .ok (.tgemm (w.extractLsb' 19 5) (w.extractLsb' 14 5) (w.extractLsb' 9 5) (w.extractLsb' 4 5) (w.extractLsb' 2 1) (w.extractLsb' 1 1) (w.extractLsb' 0 1))
    else .error .fixedBits
  | 1 => if w.extractLsb' 0 12 = 0x0#12 then .ok (.tchol (w.extractLsb' 19 5) (w.extractLsb' 12 7))
    else .error .fixedBits
  | 2 => if w.extractLsb' 0 6 = 0x0#6 then .ok (.tlu (w.extractLsb' 19 5) (w.extractLsb' 12 7) (w.extractLsb' 6 6))
    else .error .fixedBits
  | 3 => if w.extractLsb' 9 5 = 0x0#5 ∧ w.extractLsb' 0 4 = 0x0#4 then .ok (.tqr (w.extractLsb' 19 5) (w.extractLsb' 14 5) (w.extractLsb' 4 5))
    else if w.extractLsb' 0 14 = 0x1#14 then .ok (.tqrR (w.extractLsb' 19 5) (w.extractLsb' 14 5))
    else .error .fixedBits
  | 4 => if w.extractLsb' 4 5 = 0x0#5 then .ok (.ttrsm (w.extractLsb' 19 5) (w.extractLsb' 14 5) (w.extractLsb' 9 5) (w.extractLsb' 0 4))
    else .error .fixedBits
  | 5 => if w.extractLsb' 3 3 = 0x0#3 then .ok (.tmv (w.extractLsb' 19 5) (w.extractLsb' 12 7) (w.extractLsb' 6 6) (w.extractLsb' 0 3))
    else .error .fixedBits
  | 8 => if w.extractLsb' 9 15 = 0x0#15 then .ok (.trap (w.extractLsb' 0 9))
    else if w.extractLsb' 0 24 = 0x3FF#24 then .ok .trapEsc
    else .error .fixedBits
  | 9 => if w.extractLsb' 0 24 = 0x0#24 then .ok .tret
    else .error .fixedBits
  | 10 => .ok (.sysc (w.extractLsb' 17 7) (w.extractLsb' 10 7) (w.extractLsb' 0 10))
  | 11 => if w.extractLsb' 0 10 = 0x0#10 then .ok (.pgmap (w.extractLsb' 17 7) (w.extractLsb' 10 7))
    else .error .fixedBits
  | 12 => if w.extractLsb' 13 7 = 0x0#7 ∧ w.extractLsb' 0 6 = 0x0#6 then .ok (.tlbinv (w.extractLsb' 20 4) (w.extractLsb' 6 7))
    else if w.extractLsb' 0 20 = 0x1#20 then .ok (.tlbinvAll (w.extractLsb' 20 4))
    else .error .fixedBits
  | 13 => if w.extractLsb' 0 24 = 0x0#24 then .ok .halt
    else .error .fixedBits
  | 14 => if w.extractLsb' 0 17 = 0x0#17 then .ok (.clock (w.extractLsb' 17 7))
    else .error .fixedBits
  | 15 => if w.extractLsb' 0 24 = 0x0#24 then .ok .nop
    else .error .fixedBits
  | _ => .error .reservedOpcode

/-- Opcode row 0x70 of the U-set map of R74: the instruction whose fixed bits the word carries. -/
def decodeU7 (low : Nat) (w : Word) : Except DecodeError Instr :=
  match low with
  | 0 => .ok (.saddi (w.extractLsb' 17 7) (w.extractLsb' 10 7) (w.extractLsb' 0 10))
  | 1 => .ok (.sandi (w.extractLsb' 17 7) (w.extractLsb' 10 7) (w.extractLsb' 0 10))
  | 2 => .ok (.sori (w.extractLsb' 17 7) (w.extractLsb' 10 7) (w.extractLsb' 0 10))
  | 3 => .ok (.sxori (w.extractLsb' 17 7) (w.extractLsb' 10 7) (w.extractLsb' 0 10))
  | 4 => .ok (.sshli (w.extractLsb' 17 7) (w.extractLsb' 10 7) (w.extractLsb' 0 10))
  | 5 => .ok (.sshri (w.extractLsb' 17 7) (w.extractLsb' 10 7) (w.extractLsb' 0 10))
  | 6 => .ok (.ssari (w.extractLsb' 17 7) (w.extractLsb' 10 7) (w.extractLsb' 0 10))
  | 7 => .ok (.smovi (w.extractLsb' 17 7) (w.extractLsb' 0 17))
  | 8 => .ok (.scci (w.extractLsb' 17 7) (w.extractLsb' 10 7) (w.extractLsb' 0 10))
  | 9 => .ok (.smuli (w.extractLsb' 17 7) (w.extractLsb' 10 7) (w.extractLsb' 0 10))
  | _ => .error .reservedOpcode

/-- A one-word instruction, by its set (bit 31) and its opcode (bits 30:24) (R64, R74). -/
def decodeOne (w : Word) : Except DecodeError Instr :=
  let low := (w.extractLsb' 24 4).toNat
  match (w.extractLsb' 28 4).toNat with
  | 0 => decodeL0 low w
  | 1 => decodeL1 low w
  | 2 => decodeL2 low w
  | 3 => decodeL3 low w
  | 4 => decodeL4 low w
  | 5 => decodeL5 low w
  | 6 => decodeL6 low w
  | 7 => decodeL7 low w
  | 8 => decodeU0 low w
  | 9 => decodeU1 low w
  | 10 => decodeU2 low w
  | 11 => decodeU3 low w
  | 12 => decodeU4 low w
  | 13 => decodeU5 low w
  | 14 => decodeU6 low w
  | _ => decodeU7 low w

/-- The opcode byte of LX (R71) and of UX (R72). -/
def lxByte : BitVec 8 := 0x6F#8
def uxByte : BitVec 8 := 0xFE#8

/-- The second and later words of an LX instruction (R71). -/
def decodeLX (w x : Word) (rest : List Word) : Except DecodeError (Instr × Nat) :=
  let vd := w.extractLsb' 17 7
  let va := w.extractLsb' 10 7
  let vb := w.extractLsb' 3 7
  let ps := w.extractLsb' 0 3
  let vc := x.extractLsb' 17 7
  let lay := x.extractLsb' 11 6
  let lv := x.extractLsb' 7 4
  let op := x.extractLsb' 2 5
  let ord := x.extractLsb' 0 2
  match (x.extractLsb' 24 8).toNat with
  | 0 =>
    if w.extractLsb' 3 14 = 0#14 ∧ x.extractLsb' 0 24 = 0#24 then
      match rest with
      | lit :: _ => .ok (.movi32 vd ps lit, 3)
      | [] => .error .truncated
    else .error .fixedBits
  | 1 => if vb = 0#7 then .ok (.atom32 vd va ps vc lay lv op ord, 2) else .error .fixedBits
  | 2 => if vb = 0#7 then .ok (.atom64 vd va ps vc lay lv op ord, 2) else .error .fixedBits
  | 3 => if op = 0#5 then .ok (.cas32 vd va vb ps vc lay lv ord, 2) else .error .fixedBits
  | 4 => if op = 0#5 then .ok (.cas64 vd va vb ps vc lay lv ord, 2) else .error .fixedBits
  | _ => .error .reservedXop

/-- The second and later words of a UX instruction (R72). -/
def decodeUX (w x : Word) (rest : List Word) : Except DecodeError (Instr × Nat) :=
  let vd := w.extractLsb' 17 7
  let va := w.extractLsb' 10 7
  if w.extractLsb' 0 10 = 0#10 ∧ x.extractLsb' 0 24 = 0#24 then
    match (x.extractLsb' 24 8).toNat, rest with
    | 0, lit :: _ => if va = 0#7 then .ok (.smovi32 vd lit, 3) else .error .fixedBits
    | 1, lo :: hi :: _ => if va = 0#7 then .ok (.smovi64 vd (hi ++ lo), 4) else .error .fixedBits
    | 2, lit :: _ => .ok (.saddi32 vd va lit, 3)
    | 3, lit :: _ => .ok (.sandi32 vd va lit, 3)
    | 4, lit :: _ => .ok (.sori32 vd va lit, 3)
    | 5, lit :: _ => .ok (.sxori32 vd va lit, 3)
    | k, _ => if k ≤ 5 then .error .truncated else .error .reservedXop
  else .error .fixedBits

/-- The number of words of the group that begins with w, given the word after it (R71, R72). A group with a
reserved xop or uxop is refused after its second word. -/
def groupLength (w x : Word) : Nat :=
  if w.extractLsb' 24 8 = lxByte then
    if x.extractLsb' 24 8 = 0#8 then 3 else 2
  else if w.extractLsb' 24 8 = uxByte then
    match (x.extractLsb' 24 8).toNat with
    | 1 => 4
    | 0 | 2 | 3 | 4 | 5 => 3
    | _ => 2
  else 1

/-- Is a second word needed to know the length of the group (R71, R72)? -/
def isMultiWord (w : Word) : Bool :=
  decide (w.extractLsb' 24 8 = lxByte) || decide (w.extractLsb' 24 8 = uxByte)

/-- The instruction at the head of a list of words, with its length in words. -/
def decodeWords : List Word → Except DecodeError (Instr × Nat)
  | [] => .error .truncated
  | w :: rest =>
    if w.extractLsb' 24 8 = lxByte then
      match rest with
      | x :: rest => decodeLX w x rest
      | [] => .error .truncated
    else if w.extractLsb' 24 8 = uxByte then
      match rest with
      | x :: rest => decodeUX w x rest
      | [] => .error .truncated
    else
      match decodeOne w with
      | .ok i => .ok (i, 1)
      | .error e => .error e

/-- The words held in a list of bytes, each word little-endian (R5, R64); a trailing part word is left out. -/
def wordsOfBytes : List Byte → List Word
  | b0 :: b1 :: b2 :: b3 :: rest => (b3 ++ b2 ++ b1 ++ b0) :: wordsOfBytes rest
  | _ => []

/-- The four bytes of a word in memory order (R5). -/
def bytesOfWord (w : Word) : List Byte :=
  [w.extractLsb' 0 8, w.extractLsb' 8 8, w.extractLsb' 16 8, w.extractLsb' 24 8]

/-- Decoding of any bytes. -/
def decodeBytes (bs : List Byte) : Except DecodeError (Instr × Nat) := decodeWords (wordsOfBytes bs)

/-- The words of an instruction, from the same encoding tables (R67, R69, R71, R72, R74); an event has none. -/
def encode : Instr → List Word
  | .iadd vd va vb ps => [0x0#8 ++ vd ++ va ++ vb ++ ps]
  | .isub vd va vb ps => [0x1#8 ++ vd ++ va ++ vb ++ ps]
  | .imul vd va vb ps => [0x2#8 ++ vd ++ va ++ vb ++ ps]
  | .imulhI32 vd va vb ps => [0x3#8 ++ vd ++ va ++ vb ++ ps]
  | .imulhN32 vd va vb ps => [0x4#8 ++ vd ++ va ++ vb ++ ps]
  | .imad vd va vb ps => [0x5#8 ++ vd ++ va ++ vb ++ ps]
  | .iminI32 vd va vb ps => [0x6#8 ++ vd ++ va ++ vb ++ ps]
  | .iminN32 vd va vb ps => [0x7#8 ++ vd ++ va ++ vb ++ ps]
  | .imaxI32 vd va vb ps => [0x8#8 ++ vd ++ va ++ vb ++ ps]
  | .imaxN32 vd va vb ps => [0x9#8 ++ vd ++ va ++ vb ++ ps]
  | .land vd va vb ps => [0xA#8 ++ vd ++ va ++ vb ++ ps]
  | .lor vd va vb ps => [0xB#8 ++ vd ++ va ++ vb ++ ps]
  | .lxor vd va vb ps => [0xC#8 ++ vd ++ va ++ vb ++ ps]
  | .andn vd va vb ps => [0xD#8 ++ vd ++ va ++ vb ++ ps]
  | .shl vd va vb ps => [0xE#8 ++ vd ++ va ++ vb ++ ps]
  | .shrN vd va vb ps => [0xF#8 ++ vd ++ va ++ vb ++ ps]
  | .shrI vd va vb ps => [0x10#8 ++ vd ++ va ++ vb ++ ps]
  | .rot vd va vb ps => [0x11#8 ++ vd ++ va ++ vb ++ ps]
  | .popc vd va ps => [0x12#8 ++ vd ++ va ++ 0x0#7 ++ ps]
  | .clz vd va ps => [0x13#8 ++ vd ++ va ++ 0x0#7 ++ ps]
  | .brev vd va ps => [0x14#8 ++ vd ++ va ++ 0x0#7 ++ ps]
  | .bfx vd va vb ps => [0x15#8 ++ vd ++ va ++ vb ++ ps]
  | .bfi vd va vb ps => [0x16#8 ++ vd ++ va ++ vb ++ ps]
  | .bsel vd va vb ps => [0x17#8 ++ vd ++ va ++ vb ++ ps]
  | .iadd64 vd va vb ps => [0x18#8 ++ vd ++ va ++ vb ++ ps]
  | .isub64 vd va vb ps => [0x19#8 ++ vd ++ va ++ vb ++ ps]
  | .imul64 vd va vb ps => [0x1A#8 ++ vd ++ va ++ vb ++ ps]
  | .icmp c pd va vb ps => [0x1B#8 ++ c ++ pd ++ va ++ vb ++ ps]
  | .fcmp32 c pd va vb ps => [0x1C#8 ++ c ++ pd ++ va ++ vb ++ ps]
  | .fcmp64 c pd va vb ps => [0x1D#8 ++ c ++ pd ++ va ++ vb ++ ps]
  | .bra off ps => [0x1E#8 ++ off ++ ps]
  | .exit ps => [0x3E00000#29 ++ ps]
  | .fadd vd va vb ps => [0x20#8 ++ vd ++ va ++ vb ++ ps]
  | .fsub vd va vb ps => [0x21#8 ++ vd ++ va ++ vb ++ ps]
  | .fmul vd va vb ps => [0x22#8 ++ vd ++ va ++ vb ++ ps]
  | .ffma vd va vb ps => [0x23#8 ++ vd ++ va ++ vb ++ ps]
  | .fmin vd va vb ps => [0x24#8 ++ vd ++ va ++ vb ++ ps]
  | .fmax vd va vb ps => [0x25#8 ++ vd ++ va ++ vb ++ ps]
  | .fnegabs vd va sel ps => [0x26#8 ++ vd ++ va ++ 0x0#5 ++ sel ++ ps]
  | .frcp vd va ps => [0x27#8 ++ vd ++ va ++ 0x0#7 ++ ps]
  | .frsq vd va ps => [0x28#8 ++ vd ++ va ++ 0x0#7 ++ ps]
  | .fsqrt vd va ps => [0x29#8 ++ vd ++ va ++ 0x0#7 ++ ps]
  | .fdiv vd va vb ps => [0x2A#8 ++ vd ++ va ++ vb ++ ps]
  | .fexp2 vd va ps => [0x2B#8 ++ vd ++ va ++ 0x0#7 ++ ps]
  | .flog2 vd va ps => [0x2C#8 ++ vd ++ va ++ 0x0#7 ++ ps]
  | .fsigm vd va ps => [0x2D#8 ++ vd ++ va ++ 0x0#7 ++ ps]
  | .fclass vd va ps => [0x2E#8 ++ vd ++ va ++ 0x0#7 ++ ps]
  | .fscalb vd va vb ps => [0x2F#8 ++ vd ++ va ++ vb ++ ps]
  | .dadd vd va vb ps => [0x30#8 ++ vd ++ va ++ vb ++ ps]
  | .dsub vd va vb ps => [0x31#8 ++ vd ++ va ++ vb ++ ps]
  | .dmul vd va vb ps => [0x32#8 ++ vd ++ va ++ vb ++ ps]
  | .dfma vd va vb ps => [0x33#8 ++ vd ++ va ++ vb ++ ps]
  | .dmin vd va vb ps => [0x34#8 ++ vd ++ va ++ vb ++ ps]
  | .dmax vd va vb ps => [0x35#8 ++ vd ++ va ++ vb ++ ps]
  | .ddiv vd va vb ps => [0x36#8 ++ vd ++ va ++ vb ++ ps]
  | .dsqrt vd va ps => [0x37#8 ++ vd ++ va ++ 0x0#7 ++ ps]
  | .drcp vd va ps => [0x38#8 ++ vd ++ va ++ 0x0#7 ++ ps]
  | .drsq vd va ps => [0x39#8 ++ vd ++ va ++ 0x0#7 ++ ps]
  | .dclass vd va ps => [0x3A#8 ++ vd ++ va ++ 0x0#7 ++ ps]
  | .dscalb vd va vb ps => [0x3B#8 ++ vd ++ va ++ vb ++ ps]
  | .hadd2 vd va vb ps => [0x3C#8 ++ vd ++ va ++ vb ++ ps]
  | .hfma2 vd va vb ps => [0x3D#8 ++ vd ++ va ++ vb ++ ps]
  | .badd2 vd va vb ps => [0x3E#8 ++ vd ++ va ++ vb ++ ps]
  | .bfma2 vd va vb ps => [0x3F#8 ++ vd ++ va ++ vb ++ ps]
  | .cvt vd va k ps => [0x40#8 ++ vd ++ va ++ k ++ ps]
  | .pack vd va vb ps => [0x41#8 ++ vd ++ va ++ vb ++ ps]
  | .unpk vd va vb ps => [0x42#8 ++ vd ++ va ++ vb ++ ps]
  | .cvtsF16 vd va vb ps => [0x43#8 ++ vd ++ va ++ vb ++ ps]
  | .cvtsBf16 vd va vb ps => [0x44#8 ++ vd ++ va ++ vb ++ ps]
  | .cvtsE4m3 vd va vb ps => [0x45#8 ++ vd ++ va ++ vb ++ ps]
  | .cvtsE5m2 vd va vb ps => [0x46#8 ++ vd ++ va ++ vb ++ ps]
  | .cvtsE2m1 vd va vb ps => [0x47#8 ++ vd ++ va ++ vb ++ ps]
  | .mov vd va ps => [0x48#8 ++ vd ++ va ++ 0x0#7 ++ ps]
  | .selbF32 vd va vb pk => [0x49#8 ++ vd ++ va ++ vb ++ pk]
  | .selbF64 vd va vb pk => [0x4A#8 ++ vd ++ va ++ vb ++ pk]
  | .selbBf16x2 vd va vb pk => [0x4B#8 ++ vd ++ va ++ vb ++ pk]
  | .shape vd va ps => [0x4C#8 ++ vd ++ va ++ 0x0#7 ++ ps]
  | .movp vd pa sel ps => [0x4D#8 ++ vd ++ 0x0#4 ++ pa ++ sel ++ ps]
  | .rand vd va vb ps => [0x4E#8 ++ vd ++ va ++ vb ++ ps]
  | .pcmp32 c pd va vb ps => [0x50#8 ++ c ++ pd ++ va ++ vb ++ ps]
  | .pcmp64 c pd va vb ps => [0x51#8 ++ c ++ pd ++ va ++ vb ++ ps]
  | .plog pd pa pb func ps => [0x52#8 ++ pd ++ pa ++ pb ++ func ++ 0x0#7 ++ ps]
  | .collapse pd pa vb ps => [0x53#8 ++ pd ++ pa ++ 0x0#8 ++ vb ++ ps]
  | .pgrad vd pa sel ps => [0x54#8 ++ vd ++ 0x0#4 ++ pa ++ sel ++ ps]
  | .psum vd pa ps => [0x55#8 ++ vd ++ 0x0#4 ++ pa ++ 0x0#7 ++ ps]
  | .pconst pd imm ps => [0x56#8 ++ pd ++ imm ++ 0x0#2 ++ ps]
  | .pquery vd pa sel ps => [0x57#8 ++ vd ++ 0x0#4 ++ pa ++ sel ++ ps]
  | .lmask vd pa vb c => [0x58#8 ++ vd ++ 0x0#4 ++ pa ++ vb ++ c]
  | .xlane vd va vb c => [0x59#8 ++ vd ++ va ++ vb ++ c]
  | .redux vd va vb c => [0x5A#8 ++ vd ++ va ++ vb ++ c]
  | .scan vd va vb c => [0x5B#8 ++ vd ++ va ++ vb ++ c]
  | .rebal vd va vb => [0x5C#8 ++ vd ++ va ++ vb ++ 0x0#3]
  | .wsort vd va c => [0x5D#8 ++ vd ++ va ++ 0x0#7 ++ c]
  | .matchLanes vd va vb c => [0x5E#8 ++ vd ++ va ++ vb ++ c]
  | .elect vd vb c => [0x5F#8 ++ vd ++ 0x0#7 ++ vb ++ c]
  | .ld8 vd vc lay hint ps => [0x60#8 ++ vd ++ vc ++ lay ++ hint ++ ps]
  | .ld16 vd vc lay hint ps => [0x61#8 ++ vd ++ vc ++ lay ++ hint ++ ps]
  | .ld32 vd vc lay hint ps => [0x62#8 ++ vd ++ vc ++ lay ++ hint ++ ps]
  | .ld64 vd vc lay hint ps => [0x63#8 ++ vd ++ vc ++ lay ++ hint ++ ps]
  | .ld128 vd vc lay hint ps => [0x64#8 ++ vd ++ vc ++ lay ++ hint ++ ps]
  | .st8 vs vc lay hint ps => [0x65#8 ++ vs ++ vc ++ lay ++ hint ++ ps]
  | .st16 vs vc lay hint ps => [0x66#8 ++ vs ++ vc ++ lay ++ hint ++ ps]
  | .st32 vs vc lay hint ps => [0x67#8 ++ vs ++ vc ++ lay ++ hint ++ ps]
  | .st64 vs vc lay hint ps => [0x68#8 ++ vs ++ vc ++ lay ++ hint ++ ps]
  | .st128 vs vc lay hint ps => [0x69#8 ++ vs ++ vc ++ lay ++ hint ++ ps]
  | .cstore vs vc lay hint ps => [0x6A#8 ++ vs ++ vc ++ lay ++ hint ++ ps]
  | .lookup vd va ps => [0x6B#8 ++ vd ++ va ++ 0x0#7 ++ ps]
  | .spop vd m ps => [0x6C#8 ++ vd ++ 0x0#7 ++ m ++ ps]
  | .spush va m ps => [0x3680#15 ++ va ++ m ++ ps]
  | .movi32 vd ps imm => [0x6F#8 ++ vd ++ 0x0#14 ++ ps, 0x0#32, imm]
  | .atom32 vd va ps vc lay lv op ord => [0x6F#8 ++ vd ++ va ++ 0x0#7 ++ ps, 0x1#8 ++ vc ++ lay ++ lv ++ op ++ ord]
  | .atom64 vd va ps vc lay lv op ord => [0x6F#8 ++ vd ++ va ++ 0x0#7 ++ ps, 0x2#8 ++ vc ++ lay ++ lv ++ op ++ ord]
  | .cas32 vd va vb ps vc lay lv ord => [0x6F#8 ++ vd ++ va ++ vb ++ ps, 0x3#8 ++ vc ++ lay ++ lv ++ 0x0#5 ++ ord]
  | .cas64 vd va vb ps vc lay lv ord => [0x6F#8 ++ vd ++ va ++ vb ++ ps, 0x4#8 ++ vc ++ lay ++ lv ++ 0x0#5 ++ ord]
  | .iaddi vd va imm => [0x70#8 ++ vd ++ va ++ imm]
  | .andi vd va imm => [0x71#8 ++ vd ++ va ++ imm]
  | .ori vd va imm => [0x72#8 ++ vd ++ va ++ imm]
  | .xori vd va imm => [0x73#8 ++ vd ++ va ++ imm]
  | .shli vd va imm => [0x74#8 ++ vd ++ va ++ imm]
  | .shriN vd va imm => [0x75#8 ++ vd ++ va ++ imm]
  | .shriI vd va imm => [0x76#8 ++ vd ++ va ++ imm]
  | .movi vd imm => [0x77#8 ++ vd ++ imm]
  | .icmpi c pd va imm => [0x78#8 ++ c ++ pd ++ va ++ imm]
  | .sadd vd va vb sub => [0x80#8 ++ vd ++ va ++ vb ++ sub]
  | .ssub vd va vb sub => [0x81#8 ++ vd ++ va ++ vb ++ sub]
  | .smul vd va vb sub => [0x82#8 ++ vd ++ va ++ vb ++ sub]
  | .smulh vd va vb sub => [0x83#8 ++ vd ++ va ++ vb ++ sub]
  | .sand vd va vb sub => [0x84#8 ++ vd ++ va ++ vb ++ sub]
  | .sor vd va vb sub => [0x85#8 ++ vd ++ va ++ vb ++ sub]
  | .sxor vd va vb sub => [0x86#8 ++ vd ++ va ++ vb ++ sub]
  | .sshl vd va vb sub => [0x87#8 ++ vd ++ va ++ vb ++ sub]
  | .sshr vd va vb sub => [0x88#8 ++ vd ++ va ++ vb ++ sub]
  | .ssar vd va vb sub => [0x89#8 ++ vd ++ va ++ vb ++ sub]
  | .smin vd va vb sub => [0x8A#8 ++ vd ++ va ++ vb ++ sub]
  | .smax vd va vb sub => [0x8B#8 ++ vd ++ va ++ vb ++ sub]
  | .scc vd va vb sub => [0x8C#8 ++ vd ++ va ++ vb ++ sub]
  | .spopc vd va sub => [0x8D#8 ++ vd ++ va ++ 0x0#7 ++ sub]
  | .sclz vd va sub => [0x8E#8 ++ vd ++ va ++ 0x0#7 ++ sub]
  | .smov vd va sub => [0x8F#8 ++ vd ++ va ++ 0x0#7 ++ sub]
  | .jmp t off => [0x90#8 ++ t ++ off]
  | .bru ps off => [0x91#8 ++ ps ++ off]
  | .call off => [0x497#11 ++ off]
  | .ret => [0x93000000#32]
  | .reconv off => [0x4A0#11 ++ off]
  | .wide => [0x95000000#32]
  | .endwide => [0x96000000#32]
  | .yield => [0x97000000#32]
  | .bar va n => [0x4C000#19 ++ va ++ n]
  | .tbar lv => [0x99#8 ++ lv ++ 0x0#20]
  | .phase lv => [0x9A#8 ++ lv ++ 0x0#20]
  | .fenceAr lv => [0x9B#8 ++ lv ++ 0x0#20]
  | .fenceRel lv => [0x9B#8 ++ lv ++ 0x1#20]
  | .fenceAcq lv => [0x9B#8 ++ lv ++ 0x2#20]
  | .tfence lv => [0x9C#8 ++ lv ++ 0x0#20]
  | .ifence lv => [0x9D#8 ++ lv ++ 0x0#20]
  | .levelId lv vd c => [0x9E#8 ++ lv ++ vd ++ 0x0#7 ++ c]
  | .levelSize lv vd c => [0x9F#8 ++ lv ++ vd ++ 0x0#7 ++ c]
  | .coll lv vd va k op => [0xA0#8 ++ lv ++ vd ++ va ++ 0x0#1 ++ k ++ op]
  | .layout va lay => [0xA1#8 ++ va ++ 0x0#7 ++ lay ++ 0x0#4]
  | .layoutInv lay => [0x284000#22 ++ lay ++ 0x1#4]
  | .layq va lay c => [0xA2#8 ++ va ++ 0x0#7 ++ lay ++ c]
  | .mfsr vd sr => [0xA3#8 ++ vd ++ 0x0#7 ++ sr]
  | .mtsr va sr => [0x5200#15 ++ va ++ sr]
  | .launch vd va => [0xA5#8 ++ vd ++ va ++ 0x0#10]
  | .twait vd va => [0xA6#8 ++ vd ++ va ++ 0x0#10]
  | .twaitPoll vd va => [0xA6#8 ++ vd ++ va ++ 0x2#10]
  | .forkTile vd va vb => [0xA7#8 ++ vd ++ va ++ vb ++ 0x0#3]
  | .forkCopy vd va vb => [0xA7#8 ++ vd ++ va ++ vb ++ 0x2#3]
  | .rdv vd va => [0xA8#8 ++ vd ++ va ++ 0x0#10]
  | .commit vd => [0xA9#8 ++ vd ++ 0x0#17]
  | .tlwait va vb => [0x5500#15 ++ va ++ vb ++ 0x0#3]
  | .aexpect va vb lay => [0xAB#8 ++ va ++ vb ++ lay ++ 0x0#4]
  | .await va vb lay => [0xAC#8 ++ va ++ vb ++ lay ++ 0x0#4]
  | .aarrive va vb lay => [0xAD#8 ++ va ++ vb ++ lay ++ 0x0#4]
  | .dsync => [0xAE000000#32]
  | .tktake => [0xAF000000#32]
  | .tkpass => [0xB0000000#32]
  | .cpy va vb lay => [0xB1#8 ++ va ++ vb ++ lay ++ 0x0#4]
  | .cpyx va vb lay => [0xB2#8 ++ va ++ vb ++ lay ++ 0x0#4]
  | .gather va vb lay => [0xB3#8 ++ va ++ vb ++ lay ++ 0x0#4]
  | .scatter va vb lay => [0xB4#8 ++ va ++ vb ++ lay ++ 0x0#4]
  | .fill va vb lay c => [0xB5#8 ++ va ++ vb ++ lay ++ c]
  | .tagset va vb => [0x5B00#15 ++ va ++ vb ++ 0x0#3]
  | .tagclr va => [0x5B80#15 ++ va ++ 0x0#10]
  | .cbload va lay k => [0xB8#8 ++ va ++ 0x0#7 ++ lay ++ 0x0#1 ++ k]
  | .setupis va vb lay c => [0xB9#8 ++ va ++ vb ++ lay ++ c]
  | .pref va lay hint => [0xBA#8 ++ va ++ 0x0#7 ++ lay ++ hint]
  | .cinc va vb => [0x5D80#15 ++ va ++ vb ++ 0x0#3]
  | .crd vd va => [0xBC#8 ++ vd ++ va ++ 0x0#10]
  | .mmaF64 va vb slot => [0xC0#8 ++ va ++ vb ++ slot ++ 0x0#4]
  | .mmaBf16 va vb slot => [0xC1#8 ++ va ++ vb ++ slot ++ 0x0#4]
  | .mmaF16 va vb slot => [0xC2#8 ++ va ++ vb ++ slot ++ 0x0#4]
  | .mmaE4m3 va vb slot => [0xC3#8 ++ va ++ vb ++ slot ++ 0x0#4]
  | .mmaE5m2 va vb slot => [0xC4#8 ++ va ++ vb ++ slot ++ 0x0#4]
  | .mmaB1 va vb slot c => [0xC5#8 ++ va ++ vb ++ slot ++ 0x0#3 ++ c]
  | .mmaI8 va vb slot => [0xC6#8 ++ va ++ vb ++ slot ++ 0x0#4]
  | .accz slot n => [0x31C000#22 ++ slot ++ n]
  | .accld va slot c => [0xC8#8 ++ va ++ 0x0#7 ++ slot ++ 0x0#3 ++ c]
  | .accst va slot c => [0xC9#8 ++ va ++ 0x0#7 ++ slot ++ 0x0#3 ++ c]
  | .acccvt va slot c => [0xCA#8 ++ va ++ 0x0#7 ++ slot ++ c]
  | .tnew h v => [0xD0#8 ++ h ++ v ++ 0x0#12]
  | .tnewImm h f k => [0xD0#8 ++ h ++ 0x1#16 ++ f ++ k]
  | .tfree hd => [0xD1#8 ++ hd ++ 0x0#19]
  | .tslab h v => [0xD2#8 ++ h ++ v ++ 0x0#12]
  | .tload h v lay f => [0xD3#8 ++ h ++ v ++ lay ++ 0x0#5 ++ f]
  | .tstore h v lay => [0xD4#8 ++ h ++ v ++ lay ++ 0x0#6]
  | .tlrld h v lay f => [0xD5#8 ++ h ++ v ++ lay ++ 0x0#5 ++ f]
  | .tlrst h v lay => [0xD6#8 ++ h ++ v ++ lay ++ 0x0#6]
  | .tadd hd ha hb c => [0xD7#8 ++ hd ++ ha ++ hb ++ 0x0#5 ++ c]
  | .tscal h v => [0xD8#8 ++ h ++ v ++ 0x0#12]
  | .tmul hd ha hb tb ta => [0xD9#8 ++ hd ++ ha ++ hb ++ 0x0#7 ++ tb ++ ta]
  | .tround hd ha => [0xDA#8 ++ hd ++ ha ++ 0x0#14]
  | .tcomp hd ha => [0xDB#8 ++ hd ++ ha ++ 0x0#14]
  | .tdense hd ha c => [0xDC#8 ++ hd ++ ha ++ 0x0#12 ++ c]
  | .tinfo h v => [0xDD#8 ++ h ++ v ++ 0x0#12]
  | .tnorm h v c => [0xDE#8 ++ h ++ v ++ 0x0#11 ++ c]
  | .tgemm hd ha hb hc tb ta sub => [0xE0#8 ++ hd ++ ha ++ hb ++ hc ++ 0x0#1 ++ tb ++ ta ++ sub]
  | .tchol h v => [0xE1#8 ++ h ++ v ++ 0x0#12]
  | .tlu h v lay => [0xE2#8 ++ h ++ v ++ lay ++ 0x0#6]
  | .tqr hd ha hc => [0xE3#8 ++ hd ++ ha ++ 0x0#5 ++ hc ++ 0x0#4]
  | .tqrR hd ha => [0xE3#8 ++ hd ++ ha ++ 0x1#14]
  | .ttrsm hd ha hb c => [0xE4#8 ++ hd ++ ha ++ hb ++ 0x0#5 ++ c]
  | .tmv h v lay c => [0xE5#8 ++ h ++ v ++ lay ++ 0x0#3 ++ c]
  | .trap imm => [0x740000#23 ++ imm]
  | .trapEsc => [0xE80003FF#32]
  | .tret => [0xE9000000#32]
  | .sysc vd va n => [0xEA#8 ++ vd ++ va ++ n]
  | .pgmap vd va => [0xEB#8 ++ vd ++ va ++ 0x0#10]
  | .tlbinv lv va => [0xEC#8 ++ lv ++ 0x0#7 ++ va ++ 0x0#6]
  | .tlbinvAll lv => [0xEC#8 ++ lv ++ 0x1#20]
  | .halt => [0xED000000#32]
  | .clock vd => [0xEE#8 ++ vd ++ 0x0#17]
  | .nop => [0xEF000000#32]
  | .saddi vd va imm => [0xF0#8 ++ vd ++ va ++ imm]
  | .sandi vd va imm => [0xF1#8 ++ vd ++ va ++ imm]
  | .sori vd va imm => [0xF2#8 ++ vd ++ va ++ imm]
  | .sxori vd va imm => [0xF3#8 ++ vd ++ va ++ imm]
  | .sshli vd va imm => [0xF4#8 ++ vd ++ va ++ imm]
  | .sshri vd va imm => [0xF5#8 ++ vd ++ va ++ imm]
  | .ssari vd va imm => [0xF6#8 ++ vd ++ va ++ imm]
  | .smovi vd imm => [0xF7#8 ++ vd ++ imm]
  | .scci vd va imm => [0xF8#8 ++ vd ++ va ++ imm]
  | .smuli vd va imm => [0xF9#8 ++ vd ++ va ++ imm]
  | .smovi32 vd imm => [0xFE#8 ++ vd ++ 0x0#17, 0x0#8 ++ 0x0#24, imm]
  | .smovi64 vd imm => [0xFE#8 ++ vd ++ 0x0#17, 0x1#8 ++ 0x0#24, imm.extractLsb' 0 32, imm.extractLsb' 32 32]
  | .saddi32 vd va imm => [0xFE#8 ++ vd ++ va ++ 0x0#10, 0x2#8 ++ 0x0#24, imm]
  | .sandi32 vd va imm => [0xFE#8 ++ vd ++ va ++ 0x0#10, 0x3#8 ++ 0x0#24, imm]
  | .sori32 vd va imm => [0xFE#8 ++ vd ++ va ++ 0x0#10, 0x4#8 ++ 0x0#24, imm]
  | .sxori32 vd va imm => [0xFE#8 ++ vd ++ va ++ 0x0#10, 0x5#8 ++ 0x0#24, imm]
  | .teamDispatch _ _ => []
  | .deadlinePass _ _ => []
  | .preemptRequest _ => []
  | .teamSaveComplete _ => []
  | .migrate _ _ => []
  | .kernelTrapService _ => []
  | .watchdogExpiry _ => []
  | .copyComplete _ _ => []
  | .cpyxTableRead _ _ => []
  | .streamFetch _ _ => []
  | .streamStore _ _ => []
  | .mmaOpStart _ => []
  | .mmaOpComplete _ => []
  | .winnowerStart _ => []
  | .tileAllocationPoint _ => []
  | .tileOpComplete _ => []
  | .pageWalk _ _ _ => []
  | .storePerform _ _ => []
  | .eccCorrected _ => []
  | .eccUncorrectable _ => []
  | .parityDiscard _ => []
  | .spareChange _ => []
  | .mailboxLaunch _ _ _ => []
  | .mailboxWait _ => []
  | .mailboxWaitReply _ => []
  | .mailboxPoll _ => []
  | .mailboxCounter _ => []
  | .mailboxAttest _ => []
  | .mailboxClock _ => []
  | .syscLog _ => []
  | .syscNotify _ => []
  | .syscBlkread _ => []
  | .syscBlkwrite _ => []
  | .hostRegisterWrite _ _ => []
  | .linkReplay _ => []
  | .linkDown _ => []
  | .channelStop _ _ => []
  | .channelResume _ _ => []
  | .peerTimeout _ => []
  | .resetBoot => []
  | .thermalThrottle _ => []
  | .tlbinvComplete _ => []
  | .peerAccess _ => []
  | .systemLaunchPacket _ _ _ _ => []
  | .collectiveChannelMessage _ _ _ _ => []
  | .mailboxUndefinedRecord _ => []
  | .syscUnknownService _ => []

/-- The length of an encoded instruction in words (R64). -/
def Instr.words (i : Instr) : Nat := (encode i).length

/-- The words of an instruction whose bits are numbered from its first word on (bit 0 is the least significant
bit of the first word), with words of zeros above. -/
def tableWords (w : Nat) : List Word :=
  [BitVec.ofNat 32 w, BitVec.ofNat 32 (w / 2 ^ 32), BitVec.ofNat 32 (w / 2 ^ 64), BitVec.ofNat 32 (w / 2 ^ 96)]

/-- The instruction that the decoder reads from `nbits` bits numbered as the opcode table numbers them; every
bit above them is 0. The words are laid out as the hardware stores them, little-endian, and read back. -/
def decodeTableWord (nbits w : Nat) : Option Instr :=
  match decodeBytes ((tableWords (w % 2 ^ nbits)).flatMap bytesOfWord) with
  | .ok (i, _) => some i
  | .error _ => none

end Sys2Proof
end

