-- ==== Sys2Proof/Machine/Fetch.lean ====
section
/-! DEFINITION. Issue: which fragments may issue (R27, R95, R166, R167, R353), fetching (R73, R81, R229, R350), the wait
for a status register (R307), the choice of what happens next, and what happens outside every row of the table. -/

namespace Sys2Proof.Machine

/-! ### May a fragment issue? -/

/-- Is an entry a ready fragment that could issue now: no WIDE bracket and no request keeps it back (R27, R166, R353)? -/
def State.readyAt (s : State) (a e : Nat) : Bool :=
  let ag := s.agent a
  let en := ag.entry e
  ag.phase == .active && en.ready && (ag.wide.depth == 0 || ag.wide.entry == e) && !s.stopsAt a en

/-- Does an item of a YIELD's list still hold its fragment back: is that fragment, or any of that agent, ready (R167)? -/
def State.stillOwed (s : State) (p : Nat × Nat) : Bool :=
  if p.2 = anyEntry then (List.range (s.agent p.1).entries.length).any (s.readyAt p.1) else s.readyAt p.1 p.2

/-- A hold under which the same instruction issues again (R27). -/
def Hold.again : Hold → Bool
  | .ready | .polling | .yielded | .peer _ => true
  | _ => false

/-- Can a fragment issue its next instruction, or test its wait again? -/
def State.canIssue (s : State) (a e : Nat) : Bool :=
  let ag := s.agent a
  let en := ag.entry e
  decide (a < s.agents.length) && decide (e < ag.entries.length) && ag.phase == .active && en.kind == .running &&
    en.hold.again && (ag.wide.depth == 0 || ag.wide.entry == e) && !(en.owed.any s.stillOwed) && !s.stopsAt a en

/-! ### The bounds of R27 -/

/-- Can some fragment of an agent issue? -/
def State.anyCanIssue (s : State) (a : Nat) : Bool := (List.range (s.agent a).entries.length).any (s.canIssue a)

/-- The other warps that share a warp's pipe. -/
def State.pipeMates (s : State) (a b : Nat) : Bool :=
  a != b && (s.agent a).kind == .warp && (s.agent b).kind == .warp && s.sharesPipe a b

/-- The counts of the other fragments of a warp that can issue. -/
def State.warpRivals (s : State) (a e : Nat) : List Nat :=
  ((s.agent a).entries.zipIdx.filter fun p => p.2 != e && s.canIssue a p.2).map fun p => p.1.given

/-- The largest count of the fragments of a warp that a test finds: how long the warp has been passed over. -/
def State.warpPassed (s : State) (a : Nat) (f : Nat → Bool) : Nat :=
  (((s.agent a).entries.zipIdx.filter fun p => f p.2).map fun p => p.1.passed).foldl max 0

/-- The counts of the other warps of a warp's pipe that have a fragment which can issue. -/
def State.pipeRivals (s : State) (a : Nat) : List Nat :=
  ((List.range s.agents.length).filter fun b => s.anyCanIssue b && s.pipeMates a b).map fun b => s.warpPassed b (s.canIssue b)

/-- May those that wait with these counts each still issue before its count is `bound`? Of those with at most k more to
give, no more than k + 1 may wait. -/
def inTime (bound : Nat) (ws : List Nat) : Bool :=
  ws.all (fun w => decide (w < bound)) &&
    (List.range bound).all fun k => decide ((ws.filter fun w => decide (bound ≤ w + k + 1)).length ≤ k + 1)

/-- May one with a count go before its rivals: every rival can still issue in time, or none has waited longer (log 2)? -/
def mayPass (bound own : Nat) (rivals : List Nat) : Bool :=
  rivals.all (fun w => decide (w ≤ own)) || inTime bound (rivals.map (· + 1))

/-- May a fragment issue now: it can, and no other is kept waiting past its bound (R27)? Testing a wait again is no issue
slot. -/
def State.mayIssue (s : State) (a e : Nat) : Bool :=
  let ag := s.agent a
  let en := ag.entry e
  s.canIssue a e && (en.hold != .ready || ag.kind != .warp ||
    (mayPass 8 en.given (s.warpRivals a e) && mayPass 16 (s.warpPassed a (s.readyAt a)) (s.pipeRivals a)))

/-- The count of a fragment when another has taken a slot: it starts anew whenever it could not issue. -/
def givenMore (can : Bool) (n : Nat) : Nat := if can then n + 1 else 0

/-- Another entry of the table when entry e of agent a takes an issue slot: a YIELD need not wait for it any more (R167), one of
the same warp has given a slot away, and its warp has issued; one of another warp of the pipe has been passed over (R27). -/
def State.otherIssues (s : State) (a e j i : Nat) (en : Entry) : Entry :=
  let can := s.canIssue j i
  { en with
    owed := en.owed.filter fun p => p != (a, e) && p != (a, anyEntry)
    given := if j = a then givenMore can en.given else en.given
    passed :=
      if j = a then (if en.hold = .ready then 0 else en.passed)
      else if s.pipeMates a j then givenMore can en.passed else en.passed }

/-- A fragment issues, or tests its wait again, which takes no issue slot. -/
def State.noteIssue (s : State) (a e : Nat) : State :=
  let en := (s.agent a).entry e
  let slot := en.hold == .ready
  { s with
    cur := some (a, e)
    issues := s.issues + 1
    agents := s.agents.zipIdx.map fun (ag, j) =>
      { ag with
        issuedAt := if j = a then en.pc else ag.issuedAt
        entries := ag.entries.zipIdx.map fun (x, i) =>
          if j = a ∧ i = e then { x with owed := [], given := 0, passed := 0, turn := s.issues + 1 }
          else if slot then s.otherIssues a e j i x else x } }

/-! ### Fetching -/

/-- The bytes of one instruction word at a VA, as an agent fetches it: a word fetched ahead, or what the home holds. At a VA that is
no multiple of 4 it is the four bytes there (DESIGN CHOICE: R64 gives such an address no outcome; log 17). -/
def State.fetchWord (s : State) (a : Nat) (va : DWord) : Except (Nat × DWord) (Word × State) :=
  match s.helmKey (s.dieOf a) (s.task (s.taskOf a)).space va .fetch (some (s.coreOf a)) with
  | .error e => .error (e, va)
  | .ok k =>
    match s.fetched.find? fun f => f.agent == a && f.key == k with
    | some f => .ok (f.word, { s with fetched := s.fetched.erase f })
    | none => if s.mem.anyMarked k 4 then .error (causePoison, va) else .ok (s.mem.read32 k, s)

/-- n words from a VA on. -/
def State.fetchMore (s : State) (a : Nat) : Nat → DWord → Except (Nat × DWord) (List Word × State)
  | 0, _ => .ok ([], s)
  | n + 1, va =>
    match s.fetchWord a va with
    | .error e => .error e
    | .ok (w, s) =>
      match s.fetchMore a n (va + 4#64) with
      | .error e => .error e
      | .ok (ws, s) => .ok (w :: ws, s)

/-- Every word of the instruction at a VA (R73), or the cause, the address of the word that fails, and the length of the
group; one word where that is not known (log 14). -/
def State.fetchGroup (s : State) (a : Nat) (va : DWord) : Except (Nat × DWord × Nat) (List Word × State) :=
  match s.fetchWord a va with
  | .error e => .error (e.1, e.2, 1)
  | .ok (w, s) =>
    if !isMultiWord w then .ok ([w], s)
    else
      match s.fetchWord a (va + 4#64) with
      | .error e => .error (e.1, e.2, 1)
      | .ok (x, s) =>
        match s.fetchMore a (groupLength w x - 2) (va + 8#64) with
        | .error e => .error (e.1, e.2, groupLength w x)
        | .ok (ws, s) => .ok (w :: x :: ws, s)

/-! ### Registers that wait for a status word (R307) -/

/-- A run of registers whose length a layout entry fixes: the first register, the entry, the registers after it. -/
def coordRun : Instr → Option (Nat × BitVec 6 × Nat)
  | .tload _ v lay _ | .tstore _ v lay | .tmv _ v lay _ => some (v.toNat, lay, 0)
  | .tlrld _ v lay _ | .tlrst _ v lay => some (v.toNat, lay, 1)
  | .tlu _ v lay => some (v.toNat + 1, lay, 0)
  | .cbload v lay _ | .aexpect v _ lay | .await v _ lay | .aarrive v _ lay | .cpy v _ lay | .cpyx v _ lay
  | .gather v _ lay | .scatter v _ lay | .fill _ v lay _ | .setupis v _ lay _ => some (v.toNat, lay, 0)
  | _ => none

/-- Does an instruction read or write a register that waits for a status word? -/
def Agent.awaitsStatus (ag : Agent) (i : Instr) : Bool :=
  let run : List RegUse := match coordRun i with
    | some (r, lay, extra) => [⟨r, (ag.layouts.getD lay.toNat Layout.zero).nd + extra, 1⟩]
    | none => []
  ag.tile.statusRegs.any fun p => (i.regUses ++ run).any fun u => decide (u.first ≤ p.1) && decide (p.1 < u.first + u.count)

/-! ### Later memory instructions (R227) -/

/-- A load, store, atomic, engine issue or wait: it is held while a release of its agent waits (R227; log 45). -/
def touchesMemory : Instr → Bool
  | .ld8 _ _ _ _ _ | .ld16 _ _ _ _ _ | .ld32 _ _ _ _ _ | .ld64 _ _ _ _ _ | .ld128 _ _ _ _ _ | .layout _ _ | .lookup _ _ _
  | .st8 _ _ _ _ _ | .st16 _ _ _ _ _ | .st32 _ _ _ _ _ | .st64 _ _ _ _ _ | .st128 _ _ _ _ _ | .cstore _ _ _ _ _
  | .spop _ _ _ | .spush _ _ _ | .setupis _ _ _ _
  | .atom32 _ _ _ _ _ _ _ _ | .atom64 _ _ _ _ _ _ _ _ | .cas32 _ _ _ _ _ _ _ _ | .cas64 _ _ _ _ _ _ _ _
  | .cinc _ _ | .crd _ _ | .pgmap _ _ | .launch _ _
  | .bar _ _ | .tbar _ | .coll _ _ _ _ _ | .twait _ _ | .rdv _ _ | .tlwait _ _ | .await _ _ _ | .yield | .dsync | .tktake
  | .aexpect _ _ _ | .aarrive _ _ _ | .tagset _ _ | .tagclr _ | .forkTile _ _ _ | .forkCopy _ _ _
  | .cpy _ _ _ | .cpyx _ _ _ | .gather _ _ _ | .scatter _ _ _ | .fill _ _ _ _ | .cbload _ _ _
  | .mmaF64 _ _ _ | .mmaBf16 _ _ _ | .mmaF16 _ _ _ | .mmaE4m3 _ _ _ | .mmaE5m2 _ _ _ | .mmaB1 _ _ _ _ | .mmaI8 _ _ _
  | .accz _ _ | .accld _ _ _ | .accst _ _ _ | .acccvt _ _ _ | .commit _
  | .tnew _ _ | .tnewImm _ _ _ | .tfree _ | .tslab _ _ | .tload _ _ _ _ | .tstore _ _ _ | .tlrld _ _ _ _ | .tlrst _ _ _
  | .tadd _ _ _ _ | .tscal _ _ | .tmul _ _ _ _ _ | .tround _ _ | .tcomp _ _ | .tdense _ _ _ | .tnorm _ _ _
  | .tgemm _ _ _ _ _ _ _ | .tchol _ _ | .tlu _ _ _ | .tqr _ _ _ | .tqrR _ _ | .ttrsm _ _ _ _ | .tmv _ _ _ _ => true
  | _ => false

/-- The state in which an agent's instruction issues: a memory instruction has the releases that wait performed first; none when
they must wait still. -/
def State.afterDue (s : State) (a : Nat) (i : Instr) : Option State :=
  if (s.agent a).due = [] ∨ !touchesMemory i then some s else s.payDue a

/-! ### Translations asked for (R231) -/

/-- The coordinates of a lane access: the layout entry, the first coordinate register and the size. -/
def laneOperand : Instr → Option (BitVec 6 × Reg)
  | .ld8 _ vc l _ _ | .ld16 _ vc l _ _ | .ld32 _ vc l _ _ | .ld64 _ vc l _ _ | .ld128 _ vc l _ _
  | .st8 _ vc l _ _ | .st16 _ vc l _ _ | .st32 _ vc l _ _ | .st64 _ vc l _ _ | .st128 _ vc l _ _
  | .atom32 _ _ _ vc l _ _ _ | .atom64 _ _ _ vc l _ _ _ | .cas32 _ _ _ _ vc l _ _ | .cas64 _ _ _ _ vc l _ _ =>
    some (l, vc)
  | _ => none

/-- The register of the block that names further entries: the other one and the index. -/
def blockOperand : Instr → Option Reg
  | .cpy _ vb _ | .cpyx _ vb _ | .gather _ vb _ | .scatter _ vb _ | .setupis _ vb _ _ => some vb
  | _ => none

/-- A register pair that holds the address of a line, and its length. -/
def lineOperand : Instr → Option (Reg × Nat)
  | .layout va _ => some (va, 64)
  | .launch _ va => some (va, 192)
  | _ => none

/-- The pages from a VA to another one. -/
def pagesBetween (lo hi : Nat) : Nat × Nat := (lo % 2 ^ 57 / 4096, hi % 2 ^ 57 / 4096)

/-- The pages between the lowest and the highest element of an entry, when its addresses are translated in the task's table. -/
def State.entryPages (s : State) (l : Layout) : List (Nat × Nat) :=
  if l.isLocal || l.isGran || s.isPeer l || !l.valid then []
  else
    let ends (k : Nat) : Int := ((l.ext k : Int) - 1) * l.str k
    let sum (f : Int → Int) : Int := (List.range l.nd).foldl (fun a k => a + f (ends k)) l.base.toNat
    [pagesBetween (sum (min 0)).toNat ((sum (max 0)).toNat + l.size - 1)]

/-- The pages of the words of an instruction. -/
def Entry.codePages (en : Entry) : List (Nat × Nat) := [pagesBetween en.pc.toNat (en.pc.toNat + 15)]

/-- The pages of the elements of a lane access. -/
def Ctx.lanePages (c : Ctx) (l : Layout) (vc : Nat) : List (Nat × Nat) :=
  if l.isLocal || l.isGran || c.s.isPeer l then []
  else ((lanesOf c.act).filterMap fun i => (l.spot (c.coords l vc i)).offset).map fun o => pagesBetween o (o + l.size - 1)

/-- The pages whose translation an instruction asks for when it issues: those of its words; of its lanes' elements; of an engine's
entries from end to end (DESIGN CHOICE: R231 does not say how much an engine asks for at once; log 6); of the line that it reads. -/
def Ctx.asks (c : Ctx) (i : Instr) : List (Nat × Nat) :=
  let lanes := match laneOperand i with
    | some (lay, vc) => c.lanePages (c.layout lay) (rn vc)
    | none => []
  let lay := match i, coordRun i with
    | .cstore _ _ lay _ _, _ | .pref _ lay _, _ => [lay]
    | _, some (_, lay, _) => [lay]
    | _, none => []
  let block := match blockOperand i with
    | some vb => let w := c.ag.word (rn vb) 0; [blkOther w, blkIndex w]
    | none => []
  let line := match lineOperand i with
    | some (r, n) => let v := (c.ag.dword (rn r) 0).toNat; [pagesBetween v (v + n - 1)]
    | none => []
  c.en.codePages ++ lanes ++ (lay ++ block).flatMap (fun n => c.s.entryPages (c.layout n)) ++ line

/-- Note pages whose translation an agent asks for. -/
def State.ask (s : State) (a : Nat) (ps : List (Nat × Nat)) : State :=
  let rs := ps.map fun p => (s.dieOf a, (s.task (s.taskOf a)).space, p.1, p.2)
  { s with asked := s.asked ++ (rs.filter fun r => !s.asked.contains r).eraseDups }

/-- Note what an instruction asks for. -/
def State.noteAsked (s : State) (a e : Nat) (i : Instr) : State :=
  let ag := s.agent a
  let tm := s.team ag.team
  let en := ag.entry e
  s.ask a (({ s := s, a := a, e := e, ag := ag, en := en, team := tm, task := s.task tm.task, act := en.mask } : Ctx).asks i)

/-! ### What a fragment does when it issues -/

/-- What fetching and decoding come to (R81 checks 1 and 2). -/
inductive Ready where
  /-- The state to go on from: a trap has been taken, or the instruction waits. -/
  | stopped (s : State)
  /-- The instruction runs on the state. -/
  | run (i : Instr) (s : State)

/-- A fragment waits before its instruction runs. One that has yielded has done so still (R167), and the time for which a PEER access
has waited counts on (R364). -/
def Entry.wait (en : Entry) : Entry :=
  { en with hold := match en.hold with
      | .yielded => .yielded
      | .peer since => .peer since
      | _ => .polling }

/-- A trap of the issuing fragment before its instruction is known, with the words of its group. -/
def State.fetchTrap (s : State) (a e len cause : Nat) (addr : DWord) : State :=
  let en := (s.agent a).entry e
  let m := match en.redo with
    | some r => en.mask &&& r
    | none => en.mask
  takeTrap (s.ask a en.codePages) a e len
    { cause := cause, mask := m, addr := addr, access := 3, level := none, partDone := false }

/-- Fetch and decode for a fragment that issues. A fetch that fails traps with the length that `fetchGroup` knows: TRET goes on
after it (R73, R343; log 14). An instruction that waits and is tested again is fetched and decoded anew (DESIGN CHOICE: R73 does not
say whether it keeps its words; log 17). -/
def State.prepare (s : State) (a e : Nat) : Ready :=
  let pc := ((s.agent a).entry e).pc
  let s := (s.passPoint a).noteIssue a e
  match s.fetchGroup a pc with
  | .error (cause, va, len) => .stopped (s.fetchTrap a e len cause va)
  | .ok (ws, s) =>
    match decodeWords ws with
    | .error _ => .stopped (s.fetchTrap a e ws.length causeIllegal pc)
    | .ok (i, len) =>
      if (i.illFormed (s.task (s.taskOf a)).info.regsN).isSome then .stopped (s.fetchTrap a e len causeIllegal pc)
      else if (s.agent a).awaitsStatus i then .stopped (s.modEntry a e Entry.wait)
      else
        match s.afterDue a i with
        | none => .stopped (s.modEntry a e Entry.wait)
        | some s => .run i (s.noteAsked a e i)

/-! ### The default order (log 2) -/

/-- The fragment that issues when the agenda is empty: of those that may, the one that issued longest ago (R28). -/
def State.nextFragment (s : State) : Option (Nat × Nat) :=
  let all := s.agents.zipIdx.flatMap fun p => (List.range p.1.entries.length).map fun e => (p.2, e)
  let turn (p : Nat × Nat) : Nat := ((s.agent p.1).entry p.2).turn
  (all.filter fun p => s.mayIssue p.1 p.2).foldl (fun b p => match b with
    | none => some p
    | some q => if turn p < turn q then some p else some q) none

/-! ### Turns that are no row of the table -/

/-- An event of the table has no words. -/
def isEvent (i : Instr) : Bool := i.words == 0

/-- n periods of the reference pass on a die (R348). -/
def State.tick (s : State) (die n : Nat) : State := s.modDie die fun d => { d with clock := d.clock + n }

/-- An agent fetches a word ahead (R229). -/
def State.prefetch (s : State) (a : Nat) (va : DWord) : State :=
  match s.helmKey (s.dieOf a) (s.task (s.taskOf a)).space va .fetch (some (s.coreOf a)) with
  | .error _ => s
  | .ok k =>
    if s.mem.anyMarked k 4 then s
    else { s with fetched := s.fetched ++ [{ agent := a, key := k, word := s.mem.read32 k }] }

/-- A warp comes to use the team's entry (R53). -/
def State.adoptOne (s : State) (a n : Nat) : State :=
  if (s.agent a).kind = .warp then
    s.modAgent a fun ag => { ag with layouts := ag.layouts.setIfInBounds n ((s.team ag.team).layouts.getD n Layout.zero) }
  else s

/-- An operation in flight writes its next element (R192, R225): the engine by its code in R54. -/
def State.land (s : State) (a engine num : Nat) : State :=
  match engine with
  | 0 => s.landCopy a num
  | 1 => s.landMat a
  | _ => s.landTile a

/-- A store of the host or of the OS cores, at its home. -/
def State.outsideStore (s : State) (st : Store) : State :=
  s.performHome [{ agent := s.agents.length, core := s.cores.length, cluster := s.clusters.length, store := st }]

/-- The system configuration (R1, R11, R63): racks of at most 72 devices, at most 16,384 in all, this one among them (log 38). -/
def State.setSystem (s : State) (racks : List Nat) (id : Nat) : State :=
  if racks.all (fun n => decide (1 ≤ n) && decide (n ≤ 72)) && decide (sumOf racks ≤ 16384) && decide (id < sumOf racks) then
    { s with racks := racks, systemId := id }
  else s

/-- Does the leaf that maps a glean page have PIN set (R351)? -/
def State.pinned (s : State) (page : Nat) : Bool :=
  s.pageSlots.any fun q =>
    let e := s.mem.read64 q.2
    q.1 == page && pteV e && e.getLsbD 58 && ptePpn e == page % 2 ^ 52

/-- A page, by its number among all keys, goes back to the glean pool of its die, at this device or at another one. -/
def State.givePage (s : State) (page : Nat) : State :=
  let dev := if keyKind (4096 * page) = 3 then some (4096 * page / 2 ^ 64 % 2 ^ 64) else none
  match s.dieOfPhys (4096 * (page % 2 ^ 52)) with
  | some d => s.modPool dev d (· ++ [page % 2 ^ 52])
  | none => s

/-- The OS cores take back pages of glean pools that a space holds: each goes back to the pool of its die, and counts against no
region any more (R345, R351, R368; log 29). -/
def State.reclaimPages (s : State) (space : Nat) (pages : List Nat) : State :=
  let held := pages.filter fun p => s.pagesUsed.any fun u => u.1 == space && u.2.2.contains p
  let s := { s with
    pagesUsed := (s.pagesUsed.map fun u =>
      if u.1 = space then (u.1, u.2.1, u.2.2.filter fun p => !held.contains p) else u).filter (·.2.2 != [])
    pageSlots := s.pageSlots.filter fun q => !held.contains q.1 }
  held.foldl State.givePage s

/-- A team that another device runs, changed. -/
def State.modAway (s : State) (task logical : Nat) (f : Away → Away) : State :=
  s.modTask task fun t => { t with away := t.away.map fun w => if w.logical = logical then f w else w }

/-- A team of another device that holds the Lodestone passes it on (R271). -/
def State.awayPass (s : State) (task : Nat) : State :=
  match (s.task task).lodestone with
  | some h =>
    if (s.task task).away.any (·.logical == h) then
      (s.modTask task fun t => { t with lodestone := s.nextHolder task h }).settleHolder task
    else s
  | none => s

/-- A team of another device retires: the Lodestone moves on from it, and collectives and the task itself are looked at again
(R35, R170, R271). -/
def State.awayRetire (s : State) (task logical : Nat) : State :=
  let s := s.modAway task logical fun w => { w with retired := true }
  let s := if (s.task task).lodestone = some logical then s.awayPass task else s
  (s.settleWaits task).settleTask task

/-- The host and the OS cores on their own. -/
def State.outside (s : State) : Outside → State
  | .store st => s.outsideStore st
  | .window base size => { s with windowBase := base, windowSize := size }
  | .space root keys => { s with spaces := s.spaces ++ [{ root := root, keys := keys }] }
  | .mailboxSpace mb space => { s with mailboxes := s.mailboxes.modify mb fun m => { m with space := space } }
  | .poolPage die page => s.modDie die fun d => { d with pool := d.pool ++ [page] }
  | .drive size blocks => { s with drives := s.drives ++ [(size, blocks)] }
  | .peer p => { s with peers := s.peers ++ [p] }
  | .portTo port device => (s.modPort port fun p => { p with device := device }).sendWaiting
  | .reportAt va => { s with reportVa := va }
  | .system racks id => s.setSystem racks id
  | .pageTable space va st => (s.outsideStore st).shootdown space (va.extractLsb' 0 57).toNat
  | .reclaim space page => if s.pinned page then s else s.reclaimPages space [page]
  | .regionRetires space va => s.reclaimPages space (s.pagesOf space va)
  | .extendMeasure k digest => if s.booted ∧ 3 ≤ k then s.extend k digest else s
  | .flitPasses port => s.modPort port fun p => { p with replays := 0 }
  | .awayClock task logical clock => s.modAway task logical fun w => { w with clock := clock }
  | .awayWarpRetires task logical warp =>
    (s.modAway task logical fun w => { w with warpsGone := w.warpsGone ++ [warp] }).settleWaits task
  | .awayRetires task logical => s.awayRetire task logical
  | .awayPasses task => s.awayPass task

/-! ### A program placed from outside (log 28) -/

/-- Must an instruction run on a tile-sequencer context (R79, R347)? -/
def wantsTile : Instr → Bool
  | .mmaF64 _ _ _ | .mmaBf16 _ _ _ | .mmaF16 _ _ _ | .mmaE4m3 _ _ _ | .mmaE5m2 _ _ _ | .mmaI8 _ _ _ | .mmaB1 _ _ _ _
  | .accz _ _ | .accld _ _ _ | .accst _ _ _ | .acccvt _ _ _ | .commit _ | .tnew _ _ | .tnewImm _ _ _ | .tfree _
  | .tslab _ _ | .tload _ _ _ _ | .tstore _ _ _ | .tlrld _ _ _ _ | .tlrst _ _ _ | .tadd _ _ _ _ | .tscal _ _
  | .tmul _ _ _ _ _ | .tround _ _ | .tcomp _ _ | .tdense _ _ _ | .tinfo _ _ | .tnorm _ _ _ | .tgemm _ _ _ _ _ _ _
  | .tchol _ _ | .tlu _ _ _ | .tqr _ _ _ | .tqrR _ _ | .ttrsm _ _ _ _ | .tmv _ _ _ _ | .halt => true
  | _ => false

/-- Where the placed words and their page tables lie: root table, next table, code. -/
def placedRoot : Nat := 0x1000
def placedTable : Nat := 0x2000
def placedCode : Nat := 0x10000

/-- A task of one team of one warp, for words placed from outside. -/
def placedTask (space n : Nat) : Task :=
  { launcher := .system, id := n, space := space, code := BitVec.ofNat 64 placedCode
    info := { regsN := 128, regsG := 128, localSize := 0, granary := 0, tree := [⟨1, 2⟩, ⟨32, 0⟩]
              sections := [(0, 0, 16)] }
    entry := 0, coresident := false, abandon := false, system := false, domain := 5, pk := List.replicate 16 0
    binding := [⟨1, 2, true⟩, ⟨1, 1, false⟩, ⟨32, 0, true⟩], args := 0#64, ranges := [], chain := [], issuingDie := 0
    deadlines := [(0, BitVec.allOnes 64)], order := 0, deps := [], phase := .started, overdue := false, status := 0
    cause := 0, began := none, extents := [], lodestone := none, nextChild := 1 }

/-- The state with four words of code placed for a new agent that issues next: a page table of one 512 GiB page, the
words, a task, a team on core 0, and the agent. -/
def State.placeWords (s : State) (ws : List Word) (kind : AgentKind) : State :=
  let space := s.spaces.length
  let task := s.tasks.length
  let team := s.teams.length
  let a := s.agents.length
  let m := s.mem.writeBytes placedRoot (bytesOfNat 8 (placedTable / 4096 * 1024 + 1))
  let m := m.writeBytes placedTable (bytesOfNat 8 0xDF)
  let m := m.writeBytes placedCode (ws.flatMap bytesOfWord)
  let m := m.setMarks ((List.range 4).map fun i => (placedCode / 4 + i, false))
  let sect := if kind = .tileSeq then 1 else 0
  let ag := Agent.fresh kind team 0 (BitVec.ofNat 64 placedCode) (if kind = .warp then allLanes else 1#32) sect
    (Vector.replicate 64 Layout.zero)
  let tm := { Team.fresh task 0 0 with phase := .resident, placed := true, passedPoint := true }
  { s with
    mem := m
    spaces := s.spaces ++ [{ root := placedRoot / 4096, keys := [] }]
    tasks := s.tasks ++ [placedTask space task]
    teams := s.teams ++ [tm]
    agents := s.agents ++ [{ ag with view := m }]
    tlbs := s.tlbs.filter (·.space != space)
    walks := s.walks.filter (·.space != space)
    fetched := s.fetched.filter (·.agent != a)
    cur := some (a, 0)
    agenda := [.issue a 0] }

/-- The same for the bits of a row of the opcode table. -/
def State.placeTableWord (s : State) (nbits w : Nat) : State :=
  let kind := match decodeTableWord nbits w with
    | some i => if wantsTile i then AgentKind.tileSeq else .warp
    | none => .warp
  s.placeWords (tableWords (w % 2 ^ nbits)) kind

end Sys2Proof.Machine
end

