-- ==== Sys2Proof/Machine/Step.lean ====
section
/-! DEFINITION. One step of the device: the next item of the agenda, or, when it is empty, the next instruction of a fragment
(log 2). -/

namespace Sys2Proof.Machine

/-- A fragment issues its next instruction, if it may. -/
def issueAt (s : State) (a e : Nat) : Host.Outcome State Fault Refusal :=
  if s.mayIssue a e then
    match s.prepare a e with
    | .stopped s => .next s
    | .run i s => exec i s
  else .next s

/-- One item of the agenda. -/
def takeTurn (s : State) : Turn → Host.Outcome State Fault Refusal
  | .issue a e => issueAt s a e
  | .event i => if isEvent i then exec i s else .next s
  | .outside o => .next (s.outside o)
  | .tick die n => .next (s.tick die n)
  | .prefetch a va => .next (s.prefetch a va)
  | .adoptLayout a n => .next (s.adoptOne a n)
  | .appear a n => .next (s.appear a n)
  | .land a engine num => .next (s.land a engine num)
  | .propagate core => .next (s.pull core (clusterOfCore core) .home)
  | .seeEntries die => .next (s.seeEntries [die])

/-- One step. Nothing happens when the agenda is empty and no fragment may issue. -/
def step (s : State) : Host.Outcome State Fault Refusal :=
  match s.agenda with
  | t :: rest => takeTurn { s with agenda := rest } t
  | [] =>
    match s.nextFragment with
    | some (a, e) => issueAt s a e
    | none => .next s

/-- The state with the instruction of a row's bits placed where the next step fetches it (log 28). -/
def State.withFetchWord (s : State) (nbits w : Nat) : State := s.placeTableWord nbits w

end Sys2Proof.Machine
end

