-- ==== Sys2Proof/Safety.lean ====
section
/-! DEFINITION. The terms that statements use: what counts as a safe run, the frame of an instruction, and the conditions
under which a form completes. -/

namespace Sys2Proof

open Sys2Proof.Machine

/-! ### Runs -/

/-- A state is well kept when its memory has the canonical form and its list of usage counters rises. -/
def Kept (s : State) : Prop := s.mem.wf = true ∧ s.counters.Pairwise fun x y => x.1 < y.1

/-- A step that neither faults nor refuses. -/
def Proceeds (s : State) : Prop := ∃ t, step s = .next t

/-- An outcome is a next state with a property. -/
def Ends (o : Host.Outcome State Fault Refusal) (P : State → Prop) : Prop := ∃ t, o = .next t ∧ P t

/-- The state names a fragment of a warp, of a tile-sequencer context, of any agent, and c is what it sees. -/
def WarpRuns (s : State) (c : Ctx) : Prop := issuer s = some c ∧ c.ag.kind = .warp
def TileRuns (s : State) (c : Ctx) : Prop := issuer s = some c ∧ c.ag.kind = .tileSeq
def Runs (s : State) (c : Ctx) : Prop := issuer s = some c

/-! ### Frames -/

/-- Nothing of the device has changed but agent a and, of its team, the logical clock in deterministic mode (R270) and, since a
resumption, the list of instructions issued (R267): every byte of memory, every store in flight, every other agent, every
team, task and unit is as it was. -/
def Beside (s t : State) (a : Nat) : Prop :=
  { t with agents := s.agents } = s.countIssue a ∧ t.agents.length = s.agents.length ∧ ∀ b, b ≠ a → t.agent b = s.agent b

/-- Every byte of memory reads as before and every word keeps its mark. -/
def SameMemory (s t : State) : Prop := ∀ k, t.mem.read k = s.mem.read k ∧ t.mem.marked k = s.mem.marked k

/-- The issuing agent has gone past an instruction of len words, and beside that nothing of it has changed but vector
registers, predicates and special registers. -/
def OnlyRegisters (c : Ctx) (len : Nat) (h : Agent) : Prop :=
  h = { (c.ag.modEntry c.e (·.advance len)).settle with regs := h.regs, preds := h.preds, sregs := h.sregs }

/-- One destination of a lane instruction: the register, each lane's word, each lane's mark. -/
abbrev LaneDest := Nat × (Nat → Word) × (Nat → Bool)

/-- The instruction has written its destination registers in the lanes of x, and the special registers are sr; every other
register, every other lane, every predicate and the rest of the device are as they were. -/
def LaneWrite (c : Ctx) (t : State) (len : Nat) (x : Mask) (outs : List LaneDest) (sr : SRegs) : Prop :=
  let h := t.agent c.a
  Beside c.s t c.a ∧ SameMemory c.s t ∧ OnlyRegisters c len h ∧ h.preds = c.ag.preds ∧ h.sregs = sr ∧
  (∀ r, (∀ o ∈ outs, o.1 ≠ r) → h.reg r = c.ag.reg r) ∧
  ∀ o ∈ outs, ∀ i, i < 32 →
    h.word o.1 i = (if inMask x i then o.2.1 i else c.ag.word o.1 i) ∧
    (h.reg o.1).marked i = (if inMask x i then o.2.2 i else (c.ag.reg o.1).marked i)

/-- The instruction has written predicate p in the lanes of x (a write of P7 is discarded, R49); registers and the rest of
the device are as they were. -/
def PredWrite (c : Ctx) (t : State) (len : Nat) (x : Mask) (p : Nat) (val : Nat → Pred) (sr : SRegs) : Prop :=
  let h := t.agent c.a
  Beside c.s t c.a ∧ SameMemory c.s t ∧ OnlyRegisters c len h ∧ h.regs = c.ag.regs ∧ h.sregs = sr ∧
  ∀ q i, i < 32 → h.pred q i = (if q = p ∧ p < 7 ∧ inMask x i then val i else c.ag.pred q i)

/-- The instruction has written UNIFORM words from register d on, all marked or none (R131). -/
def WordWrite (c : Ctx) (t : State) (len d : Nat) (ws : List Word) (poison : Bool) : Prop :=
  let h := t.agent c.a
  Beside c.s t c.a ∧ SameMemory c.s t ∧ OnlyRegisters c len h ∧ h.preds = c.ag.preds ∧ h.sregs = c.ag.sregs ∧
  (∀ r, r < d ∨ d + ws.length ≤ r → h.reg r = c.ag.reg r) ∧
  ∀ j, j < ws.length → h.reg (d + j) = ⟨.uniform (ws.getD j 0#32), if poison then allLanes else 0#32⟩

/-! ### Conditions of forms -/

/-- The guard of R50 passes its checks: no active lane's predicate is poisoned, and under STRICT none is fractional. -/
def GuardClear (c : Ctx) (p : Nat) : Prop :=
  ∀ i, i < 32 → inMask c.act i = true →
    (c.ag.pred p i).poison = false ∧ (c.ag.sregs.strict = true → (c.ag.pred p i).fractional = false)

/-- An active lane's guard is fractional. -/
def guardSoft (c : Ctx) (p : Nat) : Bool := (List.range 32).any fun i => inMask c.act i && (c.ag.pred p i).fractional

/-- The special registers after a guarded instruction: PSTAT.FRAC is set when a fractional guard was thresholded (R59). -/
def afterGuard (c : Ctx) (p : Nat) (r : SRegs) : SRegs := if guardSoft c p then r.setFrac else r

end Sys2Proof
end

