-- ==== Sys2Proof/Certificates/Slice0/Obligations.lean ====
section
/-! DEFINITION. The statements of this model for the provers, family by family, with the laws that they are stated through. A law
says what one instruction computes, from the words of the manual; the statement says that the machine does it and
changes nothing else. -/

namespace Sys2Proof

open Sys2Proof.Machine

/-! ### Laws of lane instructions (R127 to R129) -/

/-- A lane instruction that writes count registers from dest on: its words, its guard (P7 when it has none), the mark
of a lane's result (R128), the result and flags of a lane, and what it does to the special registers beside the flags. -/
structure LaneLaw where
  len : Nat
  guard : PReg
  dest : Reg
  count : Nat
  mark : Ctx → Nat → Bool
  rel : Ctx → Nat → (Nat → Word) → Flags → Prop
  also : Ctx → SRegs → SRegs := fun _ r => r

/-- The poison of a lane that reads the given registers and predicates (R128). -/
def laneMark (reads preds : List Nat) (c : Ctx) (i : Nat) : Bool :=
  (reads.any fun r => (c.ag.reg r).marked i) || preds.any fun p => (c.ag.pred p i).poison

/-- The flags of the lanes of x together (R57). -/
def mergedFlags (x : Mask) (fl : Nat → Flags) : Flags :=
  (List.range 32).foldl (fun acc i => if inMask x i then acc ||| fl i else acc) 0#6

/-- The instruction completes as its law says: in the lanes whose guard holds, and nowhere else. -/
def LaneLaw.Holds (law : LaneLaw) (i : Instr) (s : State) (c : Ctx) : Prop :=
  ∃ (val : Nat → Nat → Word) (fl : Nat → Flags) (t : State), exec i s = .next t ∧
    (∀ l, inMask (c.guardHolds law.guard.toNat) l = true → law.rel c l (val l) (fl l)) ∧
    LaneWrite c t law.len (c.guardHolds law.guard.toNat)
      ((List.range law.count).map fun j => (law.dest.toNat + j, fun l => val l j, law.mark c))
      (afterGuard c law.guard.toNat (law.also c (c.ag.sregs.raise (mergedFlags (c.guardHolds law.guard.toNat) fl))))

/-- Every instruction of a table completes as its law says, on every warp whose guard passes its checks and whose
destination may be GENERAL (R44). -/
def LaneLaws (laws : Instr → Option LaneLaw) : Prop :=
  ∀ (s : State) (c : Ctx) (i : Instr) (law : LaneLaw), WarpRuns s c → laws i = some law →
    GuardClear c law.guard.toNat → law.dest.toNat + law.count ≤ c.g → law.dest.toNat + law.count ≤ 128 →
    law.Holds i s c

/-! #### Integer instructions (R133 to R138) -/

/-- A guarded instruction of one word with one destination and no flag; the relation is between the sources in order
and the result. -/
def plainLaw (vd : Reg) (ps : PReg) (srcs : List Reg) (rel : List Word → Word → Prop) : LaneLaw :=
  { len := 1, guard := ps, dest := vd, count := 1, mark := laneMark (srcs.map (·.toNat)) []
    rel := fun c l r fl => rel (srcs.map fun q => c.ag.word q.toNat l) (r 0) ∧ fl = 0#6 }

/-- Element k of a list of words. -/
def nth (ws : List Word) (k : Nat) : Word := ws.getD k 0#32

/-- R133: arithmetic is exact and is then reduced modulo 2^32. -/
def integerArithmetic : Instr → Option LaneLaw
  | .iadd vd va vb ps => some <| plainLaw vd ps [va, vb] fun w r => r.toNat = ((nth w 0).toNat + (nth w 1).toNat) % 2 ^ 32
  | .isub vd va vb ps => some <| plainLaw vd ps [va, vb] fun w r =>
      (r.toNat : Int) = ((nth w 0).toNat - (nth w 1).toNat : Int) % 2 ^ 32
  | .imul vd va vb ps => some <| plainLaw vd ps [va, vb] fun w r => r.toNat = (nth w 0).toNat * (nth w 1).toNat % 2 ^ 32
  | .imulhI32 vd va vb ps => some <| plainLaw vd ps [va, vb] fun w r =>
      r = BitVec.ofInt 32 ((nth w 0).toInt * (nth w 1).toInt / 2 ^ 32)
  | .imulhN32 vd va vb ps => some <| plainLaw vd ps [va, vb] fun w r =>
      r.toNat = (nth w 0).toNat * (nth w 1).toNat / 2 ^ 32
  | .imad vd va vb ps => some <| plainLaw vd ps [va, vb, vd] fun w r =>
      r.toNat = ((nth w 0).toNat * (nth w 1).toNat + (nth w 2).toNat) % 2 ^ 32
  | .iminI32 vd va vb ps => some <| plainLaw vd ps [va, vb] fun w r => r.toInt = min (nth w 0).toInt (nth w 1).toInt
  | .iminN32 vd va vb ps => some <| plainLaw vd ps [va, vb] fun w r => r.toNat = min (nth w 0).toNat (nth w 1).toNat
  | .imaxI32 vd va vb ps => some <| plainLaw vd ps [va, vb] fun w r => r.toInt = max (nth w 0).toInt (nth w 1).toInt
  | .imaxN32 vd va vb ps => some <| plainLaw vd ps [va, vb] fun w r => r.toNat = max (nth w 0).toNat (nth w 1).toNat
  | _ => none

/-- A result given bit by bit. -/
def bitwise (r : Word) (f : Nat → Bool) : Prop := ∀ j, j < 32 → r.getLsbD j = f j

/-- The shift rows of R133 read the full count n. -/
def shiftedLeft (a r : Word) (n : Nat) : Prop := r.toNat = if n < 32 then a.toNat * 2 ^ n % 2 ^ 32 else 0
def shiftedRight (a r : Word) (n : Nat) : Prop := r.toNat = if n < 32 then a.toNat / 2 ^ n else 0
def shiftedSigned (a r : Word) (n : Nat) : Prop :=
  r.toInt = if n < 32 then a.toInt / 2 ^ n else if a.toInt < 0 then -1 else 0

/-- The fields of the control word of BFX and BFI (R135). -/
def fieldPos (b : Word) : Nat := b.toNat % 32
def fieldLen (b : Word) : Nat := min (min (b.toNat / 2 ^ 8 % 64) 32) (32 - fieldPos b)

/-- Byte j of a word. -/
def byteOf (a : Word) (j : Nat) : Nat := a.toNat / 2 ^ (8 * j) % 256

/-- Byte j of BSEL's result, from the selectors in b and the byte placed below it (R135). -/
def selectedByte (a b : Word) (j below : Nat) : Nat :=
  match b.toNat / 2 ^ (3 * j) % 8 with
  | 4 => 0
  | 5 => 255
  | 6 => if 128 ≤ below then 255 else 0
  | 7 => byteOf b 3
  | s => byteOf a s

/-- R133 to R135, R138, R143, R151: logic, shifts, bit fields and copies. -/
def bitInstructions : Instr → Option LaneLaw
  | .land vd va vb ps => some <| plainLaw vd ps [va, vb] fun w r =>
      bitwise r fun j => (nth w 0).getLsbD j && (nth w 1).getLsbD j
  | .lor vd va vb ps => some <| plainLaw vd ps [va, vb] fun w r =>
      bitwise r fun j => (nth w 0).getLsbD j || (nth w 1).getLsbD j
  | .lxor vd va vb ps => some <| plainLaw vd ps [va, vb] fun w r =>
      bitwise r fun j => (nth w 0).getLsbD j != (nth w 1).getLsbD j
  | .andn vd va vb ps => some <| plainLaw vd ps [va, vb] fun w r =>
      bitwise r fun j => (nth w 0).getLsbD j && !(nth w 1).getLsbD j
  | .shl vd va vb ps => some <| plainLaw vd ps [va, vb] fun w r => shiftedLeft (nth w 0) r (nth w 1).toNat
  | .shrN vd va vb ps => some <| plainLaw vd ps [va, vb] fun w r => shiftedRight (nth w 0) r (nth w 1).toNat
  | .shrI vd va vb ps => some <| plainLaw vd ps [va, vb] fun w r => shiftedSigned (nth w 0) r (nth w 1).toNat
  | .rot vd va vb ps => some <| plainLaw vd ps [va, vb] fun w r =>
      bitwise r fun j => (nth w 0).getLsbD ((j + 32 - (nth w 1).toNat % 32) % 32)
  | .popc vd va ps => some <| plainLaw vd ps [va] fun w r =>
      r.toNat = ((List.range 32).filter (nth w 0).getLsbD).length
  | .clz vd va ps => some <| plainLaw vd ps [va] fun w r =>
      r.toNat ≤ 32 ∧ (nth w 0).toNat < 2 ^ (32 - r.toNat) ∧ (r.toNat < 32 → 2 ^ (31 - r.toNat) ≤ (nth w 0).toNat)
  | .brev vd va ps => some <| plainLaw vd ps [va] fun w r => bitwise r fun j => (nth w 0).getLsbD (31 - j)
  | .bfx vd va vb ps => some <| plainLaw vd ps [va, vb] fun w r =>
      let n := fieldLen (nth w 1)
      let f := (nth w 0).toNat / 2 ^ fieldPos (nth w 1) % 2 ^ n
      r = if n = 0 then 0#32
        else if (nth w 1).getLsbD 15 = true ∧ 2 ^ (n - 1) ≤ f then BitVec.ofInt 32 (f - 2 ^ n : Int) else BitVec.ofNat 32 f
  | .bfi vd va vb ps => some <| plainLaw vd ps [va, vb, vd] fun w r =>
      bitwise r fun j =>
        if fieldPos (nth w 1) ≤ j ∧ j < fieldPos (nth w 1) + fieldLen (nth w 1) then
          (nth w 0).getLsbD (j - fieldPos (nth w 1))
        else (nth w 2).getLsbD j
  | .bsel vd va vb ps => some <| plainLaw vd ps [va, vb] fun w r =>
      ∀ j, j < 4 → byteOf r j =
        selectedByte (nth w 0) (nth w 1) j (if j = 0 then byteOf (nth w 0) 3 else byteOf r (j - 1))
  | .pack vd va vb ps => some <| plainLaw vd ps [va, vb] fun w r =>
      r.toNat = (nth w 1).toNat % 2 ^ 16 * 2 ^ 16 + (nth w 0).toNat % 2 ^ 16
  | .unpk vd va vb ps => some <| plainLaw vd ps [va, vb] fun w r =>
      let i := (nth w 1).toNat % 32
      let n := [4, 8, 16, 1].getD ((nth w 1).toNat / 32 % 4) 0
      r.toNat = if i * n < 32 then (nth w 0).toNat / 2 ^ (i * n) % 2 ^ n else 0
  | .mov vd va ps => some <| plainLaw vd ps [va] fun w r => r = nth w 0
  | .fnegabs vd va sel ps =>
      if sel = 0#2 then none
      else some <| plainLaw vd ps [va] fun w r => bitwise r fun j =>
        if j < 31 then (nth w 0).getLsbD j else if sel = 1#2 then !(nth w 0).getLsbD 31 else decide (sel = 3#2)
  | _ => none

/-- An immediate as R137 extends it. -/
def imm10 (i : BitVec 10) : Int := i.toInt

/-- R137, R138: the immediate instructions run in every active lane, MOVI32 under its guard. -/
def immediateInstructions : Instr → Option LaneLaw
  | .iaddi vd va imm => some <| plainLaw vd 7#3 [va] fun w r => r = BitVec.ofInt 32 ((nth w 0).toInt + imm10 imm)
  | .andi vd va imm => some <| plainLaw vd 7#3 [va] fun w r =>
      bitwise r fun j => (nth w 0).getLsbD j && (BitVec.ofInt 32 (imm10 imm)).getLsbD j
  | .ori vd va imm => some <| plainLaw vd 7#3 [va] fun w r =>
      bitwise r fun j => (nth w 0).getLsbD j || (BitVec.ofInt 32 (imm10 imm)).getLsbD j
  | .xori vd va imm => some <| plainLaw vd 7#3 [va] fun w r =>
      bitwise r fun j => (nth w 0).getLsbD j != (BitVec.ofInt 32 (imm10 imm)).getLsbD j
  | .shli vd va imm => some <| plainLaw vd 7#3 [va] fun w r => shiftedLeft (nth w 0) r imm.toNat
  | .shriN vd va imm => some <| plainLaw vd 7#3 [va] fun w r => shiftedRight (nth w 0) r imm.toNat
  | .shriI vd va imm => some <| plainLaw vd 7#3 [va] fun w r => shiftedSigned (nth w 0) r imm.toNat
  | .movi vd imm => some <| plainLaw vd 7#3 [] fun _ r => r.toInt = imm.toInt
  | .movi32 vd ps imm => some { plainLaw vd ps [] fun _ r => r = imm with len := 3 }
  | _ => none

/-- A register pair as a lane reads it, low word first (R42). -/
def lanePair (c : Ctx) (r : Reg) (l : Nat) : DWord := c.ag.word (r.toNat + 1) l ++ c.ag.word r.toNat l

/-- Philox-4×32 after n rounds, in numbers (R154). -/
def philoxAfter (k0 k1 : Nat) (c : Nat × Nat × Nat × Nat) : Nat → Nat × Nat × Nat × Nat
  | 0 => c
  | n + 1 =>
    let (c0, c1, c2, c3) := philoxAfter k0 k1 c n
    let p := 0xD2511F53 * c0
    let q := 0xCD9E8D57 * c2
    (q / 2 ^ 32 ^^^ c1 ^^^ (k0 + n * 0x9E3779B9) % 2 ^ 32, q % 2 ^ 32, p / 2 ^ 32 ^^^ c3 ^^^ (k1 + n * 0xBB67AE85) % 2 ^ 32, p % 2 ^ 32)

/-- R136, R152 to R154: pairs, tags, predicates as words, random numbers. -/
def pairInstructions : Instr → Option LaneLaw
  | .iadd64 vd va vb ps => some (pair vd va vb ps fun a b r => r.toNat = (a.toNat + b.toNat) % 2 ^ 64)
  | .isub64 vd va vb ps => some (pair vd va vb ps fun a b r => (r.toNat : Int) = (a.toNat - b.toNat : Int) % 2 ^ 64)
  | .imul64 vd va vb ps => some (pair vd va vb ps fun a b r => r.toNat = a.toNat * b.toNat % 2 ^ 64)
  | .shape vd va ps => some
      { plainLaw vd ps [va] fun _ _ => True with
        rel := fun c _ r fl => fl = 0#6 ∧ (r 0).toNat =
          match (c.ag.reg va.toNat).shape with
          | .uniform _ => 0
          | .affine _ _ => 1
          | .general _ => 2 }
  | .movp vd pa sel ps =>
      if 2 < sel.toNat then none
      else some
        { plainLaw vd ps [] fun _ _ => True with
          mark := laneMark [] [pa.toNat]
          rel := fun c l r fl => fl = 0#6 ∧ (r 0).toNat =
            match sel.toNat with
            | 0 => (c.ag.pred pa.toNat l).code.toNat
            | 1 => (c.ag.pred pa.toNat l).code.toNat + 2 ^ 16 * (c.ag.pred pa.toNat l).lin.toNat
            | _ => if 32768 ≤ (c.ag.pred pa.toNat l).code.toNat then 1 else 0 }
  | .rand vd va vb ps => some
      { len := 1, guard := ps, dest := vd, count := 4
        mark := laneMark [va.toNat, va.toNat + 1, vb.toNat, vb.toNat + 1, vb.toNat + 2, vb.toNat + 3] []
        rel := fun c l r fl => fl = 0#6 ∧
          let w (k : Nat) : Nat := (c.ag.word k l).toNat
          ((r 0).toNat, (r 1).toNat, (r 2).toNat, (r 3).toNat) = philoxAfter (w va.toNat) (w (va.toNat + 1))
            (w vb.toNat, w (vb.toNat + 1), w (vb.toNat + 2), w (vb.toNat + 3)) 10 }
  | _ => none
where
  pair (vd va vb : Reg) (ps : PReg) (f : DWord → DWord → DWord → Prop) : LaneLaw :=
    { len := 1, guard := ps, dest := vd, count := 2
      mark := laneMark [va.toNat, va.toNat + 1, vb.toNat, vb.toNat + 1] []
      rel := fun c l r fl => f (lanePair c va l) (lanePair c vb l) (r 1 ++ r 0) ∧ fl = 0#6 }

/-! #### Rounding (R105, R107, R114 to R118) -/

/-- The exact value (−1)^neg · m · 2^e. -/
def exactly (neg : Bool) (m : Nat) (e : Int) : ℚ := (if neg then -1 else 1) * (m : ℚ) * (2 : ℚ) ^ e

/-- A value of the grid of a format (R114), or, without the lower bound, one of p significant bits with an unbounded exponent
range (R116). -/
def OnGrid (f : Fmt) (bounded : Bool) (y : ℚ) : Prop :=
  ∃ (neg : Bool) (n : Nat) (q : Int), y = exactly neg n q ∧ n < 2 ^ (f.mbits + 1) ∧ (bounded = true → f.qmin ≤ q)

/-- One with an even k, or an even j (R114). -/
def EvenOnGrid (f : Fmt) (bounded : Bool) (y : ℚ) : Prop :=
  ∃ (neg : Bool) (n : Nat) (q : Int), y = exactly neg n q ∧ n < 2 ^ (f.mbits + 1) ∧ (bounded = true → f.qmin ≤ q) ∧
    (2 ^ f.mbits ≤ n ∨ n = 0 ∨ (bounded = true ∧ q = f.qmin)) ∧ n % 2 = 0

/-- y is the grid value that a mode chooses from x: 0 nearest, 1 towards zero, 2 up, 3 down (R57, R114). -/
def RoundsTo (f : Fmt) (bounded : Bool) (mode : Mode) (x : ℝ) (y : ℚ) : Prop :=
  OnGrid f bounded y ∧
  match mode.toNat with
  | 0 => ∀ z : ℚ, OnGrid f bounded z → |x - y| ≤ |x - z| ∧ (|x - y| = |x - z| → z = y ∨ EvenOnGrid f bounded y)
  | 1 => |(y : ℝ)| ≤ |x| ∧ 0 ≤ x * y ∧ ∀ z : ℚ, OnGrid f bounded z → |(z : ℝ)| ≤ |x| → |z| ≤ |y|
  | 2 => x ≤ y ∧ ∀ z : ℚ, OnGrid f bounded z → x ≤ z → y ≤ z
  | _ => y ≤ x ∧ ∀ z : ℚ, OnGrid f bounded z → z ≤ x → z ≤ y

/-- A code stands for a value; a zero carries the sign given, but E2M1 has no −0 (R106, R114). -/
def Encodes (f : Fmt) (neg : Bool) (y : ℚ) (code : Nat) : Prop :=
  code < 2 ^ f.width ∧ ∃ s n q, f.val code = .fin s n q ∧ y = exactly s n q ∧ (y = 0 → s = (neg && !decide (f = e2m1)))

/-- The largest finite value. -/
def IsLargest (f : Fmt) (big : ℚ) : Prop := ∃ n q, f.val f.maxCode = .fin false n q ∧ big = exactly false n q

/-- The signed codes of a magnitude code. -/
def withSign (f : Fmt) (neg : Bool) (code : Nat) : Nat := (if neg then f.signBit else 0) + code

/-- The overflow result of R115, with its flags (R116). -/
def Overflowed (f : Fmt) (mode : Mode) (sat neg : Bool) (r : Rounded) : Prop :=
  let largest : Prop := f.finite = true ∨ (sat = true ∧ f ≠ fp64) ∨ mode = 1#2 ∨ (mode = 2#2 ∧ neg = true) ∨
    (mode = 3#2 ∧ neg = false)
  (largest → r = (withSign f neg f.maxCode, flagOF ||| flagNX)) ∧
    (¬ largest → r = (withSign f neg f.infCode, flagOF ||| flagNX ||| flagNF))

/-- RoundTo of an exact real x of sign neg, with its flags: the grid value y, or the overflow result when y lies beyond the largest
finite value (R114 to R116). -/
def RoundedTo (f : Fmt) (mode : Mode) (sat neg : Bool) (x : ℝ) (r : Rounded) : Prop :=
  ∃ (y big : ℚ), RoundsTo f true mode x y ∧ IsLargest f big ∧ (big < |y| → Overflowed f mode sat neg r) ∧
    (|y| ≤ big → Encodes f neg y r.1 ∧ ((y : ℝ) = x → r.2 = 0#6) ∧
      ((y : ℝ) ≠ x → (∃ z, RoundsTo f false mode x z ∧ |z| < (2 : ℚ) ^ (f.qmin + f.mbits)) → r.2 = flagNX ||| flagUF) ∧
      ((y : ℝ) ≠ x → (∀ z, RoundsTo f false mode x z → (2 : ℚ) ^ (f.qmin + f.mbits) ≤ |z|) → r.2 = flagNX))

/-- An infinity, a NaN, an invalid operation and an exact zero, with the flags of R116. -/
def infinite (f : Fmt) (neg : Bool) : Rounded := (withSign f neg f.infCode, flagNF)
def quietNan (f : Fmt) : Rounded := (f.nanCode, flagNF)
def invalidNan (f : Fmt) : Rounded := (f.nanCode, flagNV ||| flagNF)
def zeroOf (f : Fmt) (neg : Bool) : Rounded := (withSign f neg 0, 0#6)

/-- RoundTo of a value, NaNs and infinities included (R105, R107, R114). -/
def RoundedVal (f : Fmt) (mode : Mode) (sat : Bool) (v : FVal) (r : Rounded) : Prop :=
  match v with
  | .nan _ => r = if f.finite then (0, flagNV) else quietNan f
  | .inf neg => r = if f.finite then (withSign f neg f.maxCode, flagNV) else infinite f neg
  | .fin neg m e => RoundedTo f mode sat neg (exactly neg m e : ℚ) r

/-- RoundInt (R117) into the range from lo to hi. -/
def RoundedInt (lo hi : Int) (mode : Mode) (v : FVal) (n : Int) (fl : Flags) : Prop :=
  match v with
  | .nan _ => n = 0 ∧ fl = flagNV
  | .inf neg => n = (if neg then lo else hi) ∧ fl = flagNV
  | .fin neg m e =>
    let x := exactly neg m e
    ∃ y : Int,
      (match mode.toNat with
        | 0 => ∀ z : Int, |x - y| ≤ |x - z| ∧ (|x - y| = |x - z| → z = y ∨ y % 2 = 0)
        | 1 => |(y : ℚ)| ≤ |x| ∧ 0 ≤ x * y ∧ ∀ z : Int, |(z : ℚ)| ≤ |x| → |z| ≤ |y|
        | 2 => x ≤ y ∧ ∀ z : Int, x ≤ z → y ≤ z
        | _ => y ≤ x ∧ ∀ z : Int, (z : ℚ) ≤ x → z ≤ y) ∧
      (lo ≤ y → y ≤ hi → n = y ∧ ((y : ℚ) = x → fl = 0#6) ∧ ((y : ℚ) ≠ x → fl = flagNX)) ∧
      (y < lo → n = lo ∧ fl = flagNV) ∧ (hi < y → n = hi ∧ fl = flagNV)

/-- SRound (R118) with the draw r. -/
def StochasticRounded (f : Fmt) (sat : Bool) (v : FVal) (draw : Nat) (r : Rounded) : Prop :=
  match v with
  | .fin neg (m + 1) e =>
    let x := exactly neg (m + 1) e
    ∃ (a b big : ℚ), RoundsTo f true 1#2 x a ∧ OnGrid f true b ∧ 0 ≤ b * x ∧ |a| < |b| ∧
      (∀ z, OnGrid f true z → 0 ≤ z * x → |a| < |z| → |b| ≤ |z|) ∧ IsLargest f big ∧
      let y := if a = x then a else if (draw : ℚ) * (|b| - |a|) < (|x| - |a|) * 2 ^ 32 then b else a
      (big < |y| → Overflowed f 0#2 sat neg r) ∧
      (|y| ≤ big → Encodes f neg y r.1 ∧ (a = x → r.2 = 0#6) ∧
        (a ≠ x → |y| < (2 : ℚ) ^ (f.qmin + f.mbits) → r.2 = flagNX ||| flagUF) ∧
        (a ≠ x → (2 : ℚ) ^ (f.qmin + f.mbits) ≤ |y| → r.2 = flagNX))
  | v => RoundedVal f 1#2 sat v r

/-- The flags of the operands that an instruction reads, with those of its result (R107, R116). -/
def WithOperands (vs : List FVal) (core : Rounded → Prop) (r : Rounded) : Prop :=
  ∃ q, core q ∧ r = (q.1, q.2 ||| flagIf (vs.any FVal.isSnan) flagNV ||| flagIf (vs.any FVal.nonFinite) flagNF)

/-- RoundTo in every format, of every value, and the canonical NaNs (R107, R114). -/
def RoundingLaw : Prop :=
  (∀ f ∈ [fp64, fp32, fp16, bf16, e4m3, e5m2, e2m1], ∀ (mode : Mode) (sat : Bool) (v : FVal),
    RoundedVal f mode sat v (roundVal f mode sat v)) ∧
  fp64.nanCode = 0x7FF8000000000000 ∧ fp32.nanCode = 0x7FC00000 ∧ fp16.nanCode = 0x7E00 ∧ bf16.nanCode = 0x7FC0

/-! #### Floating-point operations (R108, R140 to R146) -/

/-- The sign of an exact zero sum of operands with these signs: −0 only in RD, unless both are −0 (R108); of another sum x, its own. -/
def sumSign (mode : Mode) (s t : Bool) (x : ℚ) : Bool :=
  if x = 0 then (if s = t then s else decide (mode = 3#2)) else decide (x < 0)

def minus : FVal → FVal
  | .nan q => .nan q
  | .inf s => .inf (!s)
  | .fin s m e => .fin (!s) m e

/-- RoundTo of a + b (R141). -/
def SumIs (f : Fmt) (mode : Mode) (sat : Bool) (a b : FVal) (r : Rounded) : Prop :=
  match a, b with
  | .nan _, _ => r = quietNan f
  | _, .nan _ => r = quietNan f
  | .inf s, .inf t => r = if s = t then infinite f s else invalidNan f
  | .inf s, .fin _ _ _ => r = infinite f s
  | .fin _ _ _, .inf t => r = infinite f t
  | .fin s m e, .fin t n g =>
    let x := exactly s m e + exactly t n g
    RoundedTo f mode sat (sumSign mode s t x) (x : ℚ) r

/-- RoundTo of a · b. -/
def ProductIs (f : Fmt) (mode : Mode) (sat : Bool) (a b : FVal) (r : Rounded) : Prop :=
  match a, b with
  | .nan _, _ => r = quietNan f
  | _, .nan _ => r = quietNan f
  | .inf s, .inf t => r = infinite f (s != t)
  | .inf s, .fin t n _ => r = if n = 0 then invalidNan f else infinite f (s != t)
  | .fin s m _, .inf t => r = if m = 0 then invalidNan f else infinite f (s != t)
  | .fin s m e, .fin t n g => RoundedTo f mode sat (s != t) (exactly s m e * exactly t n g : ℚ) r

/-- RoundTo of a · b + d, rounded once; 0 · Inf is invalid whatever d is. -/
def FusedIs (f : Fmt) (mode : Mode) (sat : Bool) (a b d : FVal) (r : Rounded) : Prop :=
  match a, b with
  | .nan _, _ => r = quietNan f
  | _, .nan _ => r = quietNan f
  | .inf s, .inf t => SumIs f mode sat (.inf (s != t)) d r
  | .inf s, .fin t n _ => (n = 0 → r = invalidNan f) ∧ (n ≠ 0 → SumIs f mode sat (.inf (s != t)) d r)
  | .fin s m _, .inf t => (m = 0 → r = invalidNan f) ∧ (m ≠ 0 → SumIs f mode sat (.inf (s != t)) d r)
  | .fin s m e, .fin t n g =>
    match d with
    | .nan _ => r = quietNan f
    | .inf u => r = infinite f u
    | .fin u k h =>
      let x := exactly s m e * exactly t n g + exactly u k h
      RoundedTo f mode sat (sumSign mode (s != t) u x) (x : ℚ) r

/-- RoundTo of a / b. -/
def QuotientIs (f : Fmt) (mode : Mode) (sat : Bool) (a b : FVal) (r : Rounded) : Prop :=
  match a, b with
  | .nan _, _ => r = quietNan f
  | _, .nan _ => r = quietNan f
  | .inf _, .inf _ => r = invalidNan f
  | .inf s, .fin t _ _ => r = infinite f (s != t)
  | .fin s _ _, .inf t => r = zeroOf f (s != t)
  | .fin s m e, .fin t n g =>
    if n = 0 then r = if m = 0 then invalidNan f else ((infinite f (s != t)).1, flagDZ ||| flagNF)
    else RoundedTo f mode sat (s != t) (exactly s m e / exactly t n g : ℚ) r

/-- The order of two values that are not NaNs, and their equality: −0 equals +0 (R140). -/
def Less (a b : FVal) : Prop :=
  match a, b with
  | .inf s, .inf t => s = true ∧ t = false
  | .inf s, _ => s = true
  | _, .inf t => t = false
  | .fin s m e, .fin t n g => exactly s m e < exactly t n g
  | _, _ => False
def Same (a b : FVal) : Prop :=
  match a, b with
  | .inf s, .inf t => s = t
  | .fin s m e, .fin t n g => exactly s m e = exactly t n g
  | _, _ => False

/-- The FP conditions of R68 (R140). -/
def CondHolds (k : Nat) (a b : FVal) : Prop :=
  if a.isNan = true ∨ b.isNan = true then k = 1 ∨ k = 10
  else match k with
    | 0 => Same a b
    | 1 => ¬ Same a b
    | 2 => Less a b
    | 3 => Less a b ∨ Same a b
    | 4 => Less b a
    | 5 => Less b a ∨ Same a b
    | 11 => True
    | _ => False

/-- FMIN and FMAX: one operand's bits, −0 below +0, the other operand beside a NaN (R142). -/
def ExtremeIs (f : Fmt) (largest : Bool) (a b : Nat) (r : Rounded) : Prop :=
  let x := f.val a
  let y := f.val b
  let below (v w : FVal) : Prop := Less v w ∨ (Same v w ∧ ∃ m e n g, v = .fin true m e ∧ w = .fin false n g)
  r.2 = flagIf (x.isSnan || y.isSnan) flagNV ||| flagIf (x.nonFinite || y.nonFinite) flagNF ∧
  (x.isNan = true → y.isNan = true → r.1 = f.nanCode) ∧ (x.isNan = true → y.isNan = false → r.1 = b) ∧
  (x.isNan = false → y.isNan = true → r.1 = a) ∧
  (x.isNan = false → y.isNan = false → (r.1 = a ∨ r.1 = b) ∧
    (below x y → r.1 = if largest then b else a) ∧ (below y x → r.1 = if largest then a else b))

/-- The functions of one operand on the special operands of R144, and RoundTo of f(x) on the others. -/
def FunctionIs (f : Fmt) (zero : Bool → Rounded) (negative : Option Rounded) (up down : Rounded)
    (F : ℚ → Rounded → Prop) (v : FVal) (r : Rounded) : Prop :=
  match v with
  | .nan _ => r = quietNan f
  | .inf s => r = if s then down else up
  | .fin s 0 _ => r = zero s
  | .fin s m e => match s, negative with
    | true, some q => r = q
    | s, _ => F (exactly s m e) r

/-- FRCP, FRSQ, FSQRT: 1/x, 1/√x, √x, correctly rounded. -/
def ReciprocalIs (f : Fmt) (mode : Mode) (sat : Bool) : FVal → Rounded → Prop :=
  FunctionIs f (fun s => ((infinite f s).1, flagDZ ||| flagNF)) none (zeroOf f false) (zeroOf f true) fun x r =>
    RoundedTo f mode sat (decide (x < 0)) (1 / x : ℚ) r
def RootReciprocalIs (f : Fmt) (mode : Mode) (sat : Bool) : FVal → Rounded → Prop :=
  FunctionIs f (fun s => ((infinite f s).1, flagDZ ||| flagNF)) (some (invalidNan f)) (zeroOf f false) (invalidNan f)
    fun x r => RoundedTo f mode sat false (1 / Real.sqrt x) r
def RootIs (f : Fmt) (mode : Mode) (sat : Bool) : FVal → Rounded → Prop :=
  FunctionIs f (zeroOf f) (some (invalidNan f)) (infinite f false) (invalidNan f)
    fun x r => RoundedTo f mode sat false (Real.sqrt x) r

/-- FEXP2, FLOG2 and FSIGM: the special operands and the exact results of R144. At the other arguments the result is the model's own
evaluation in fixed point. -/
def Exp2Is (mode : Mode) (sat : Bool) (a : Nat) : Rounded → Prop :=
  WithOperands [fp32.val a] <|
    FunctionIs fp32 (fun _ => (0x3F800000, 0#6)) none (infinite fp32 false) (zeroOf fp32 false) (fun x r =>
      (∀ k : Int, x = k → RoundedTo fp32 mode sat false ((2 : ℚ) ^ k : ℚ) r) ∧
      ((∀ k : Int, x ≠ k) → WithOperands [fp32.val a] (· = r) (fExp2 fp32 mode sat a))) (fp32.val a)
def Log2Is (mode : Mode) (sat : Bool) (a : Nat) : Rounded → Prop :=
  WithOperands [fp32.val a] <|
    FunctionIs fp32 (fun _ => ((infinite fp32 true).1, flagDZ ||| flagNF)) (some (invalidNan fp32)) (infinite fp32 false)
      (invalidNan fp32) (fun x r =>
        (∀ k : Int, x = (2 : ℚ) ^ k → RoundedTo fp32 mode sat (decide (k < 0)) (k : ℚ) r ∧ r.2 = 0#6) ∧
        ((∀ k : Int, x ≠ (2 : ℚ) ^ k) → WithOperands [fp32.val a] (· = r) (fLog2 fp32 mode a))) (fp32.val a)
def SigmoidIs (mode : Mode) (a : Nat) : Rounded → Prop :=
  WithOperands [fp32.val a] <|
    FunctionIs fp32 (fun _ => (0x3F000000, 0#6)) none (0x3F800000, 0#6) (zeroOf fp32 false)
      (fun _ r => WithOperands [fp32.val a] (· = r) (fSigm fp32 mode a)) (fp32.val a)

/-- FSCALB and DSCALB (R146). -/
def ScaledIs (f : Fmt) (mode : Mode) (sat : Bool) (a : Nat) (n : Int) (r : Rounded) : Prop :=
  match f.val a with
  | .fin s (m + 1) e => RoundedTo f mode sat s (exactly s (m + 1) e * (2 : ℚ) ^ n : ℚ) r
  | .fin _ 0 _ => r = (a, 0#6)
  | .inf _ => r = (a, flagNF)
  | .nan q => r = (f.nanCode, flagNF ||| flagIf q flagNV)

/-- The blend of R250 at a fractional code: an exact value, rounded once. -/
def BlendIs (f : Fmt) (mode : Mode) (sat : Bool) (p : Nat) (a b : FVal) : Rounded → Prop :=
  WithOperands [a, b] fun r =>
    match a, b with
    | .fin s m e, .fin t n g =>
      let x : ℚ := (p * exactly s m e + (65535 - p) * exactly t n g) / 65535
      RoundedTo f mode sat (sumSign mode s t x) x r
    | a, b => SumIs f mode sat a b r

/-! #### Floating-point instructions (R140 to R150) -/

/-- A guarded FP32 instruction: the sources are codes, the rounding is that of FPCSR (R119, R129). -/
def fp32Law (vd : Reg) (ps : PReg) (srcs : List Reg) (f : Mode → Bool → List Nat → Rounded → Prop) : LaneLaw :=
  { plainLaw vd ps srcs fun _ _ => True with
    rel := fun c l r fl => f c.ag.sregs.rm c.ag.sregs.sat (srcs.map fun q => (c.ag.word q.toNat l).toNat) ((r 0).toNat, fl) }

/-- The words of a pair. -/
def pairRegs (r : Reg) : List Nat := [r.toNat, r.toNat + 1]

/-- A guarded FP64 instruction on pairs. -/
def fp64Law (vd : Reg) (ps : PReg) (srcs : List Reg) (f : Mode → Bool → List Nat → Rounded → Prop) : LaneLaw :=
  { len := 1, guard := ps, dest := vd, count := 2, mark := laneMark (srcs.flatMap pairRegs) []
    rel := fun c l r fl =>
      f c.ag.sregs.rm c.ag.sregs.sat (srcs.map fun q => (lanePair c q l).toNat) ((r 1 ++ r 0).toNat, fl) }

/-- A guarded instruction on two elements of 16 bits: each element as the scalar one, the flags of both merged (R147). -/
def packedLaw (vd : Reg) (ps : PReg) (srcs : List Reg) (f : Mode → Bool → List Nat → Rounded → Prop) : LaneLaw :=
  { plainLaw vd ps srcs fun _ _ => True with
    rel := fun c l r fl => ∃ a b : Flags, fl = a ||| b ∧
      f c.ag.sregs.rm c.ag.sregs.sat (srcs.map fun q => (c.ag.word q.toNat l).toNat % 2 ^ 16) ((r 0).toNat % 2 ^ 16, a) ∧
      f c.ag.sregs.rm c.ag.sregs.sat (srcs.map fun q => (c.ag.word q.toNat l).toNat / 2 ^ 16) ((r 0).toNat / 2 ^ 16, b) }

/-- The rounded operations of R141 on codes, each with the flags of its operands. -/
def addLaw (f : Fmt) (m : Mode) (sat : Bool) (x : List Nat) : Rounded → Prop :=
  let v (k : Nat) : FVal := f.val (x.getD k 0)
  WithOperands [v 0, v 1] (SumIs f m sat (v 0) (v 1))
def subLaw (f : Fmt) (m : Mode) (sat : Bool) (x : List Nat) : Rounded → Prop :=
  let v (k : Nat) : FVal := f.val (x.getD k 0)
  WithOperands [v 0, v 1] (SumIs f m sat (v 0) (minus (v 1)))
def mulLaw (f : Fmt) (m : Mode) (sat : Bool) (x : List Nat) : Rounded → Prop :=
  let v (k : Nat) : FVal := f.val (x.getD k 0)
  WithOperands [v 0, v 1] (ProductIs f m sat (v 0) (v 1))
def fmaLaw (f : Fmt) (m : Mode) (sat : Bool) (x : List Nat) : Rounded → Prop :=
  let v (k : Nat) : FVal := f.val (x.getD k 0)
  WithOperands [v 0, v 1, v 2] (FusedIs f m sat (v 0) (v 1) (v 2))
def divLaw (f : Fmt) (m : Mode) (sat : Bool) (x : List Nat) : Rounded → Prop :=
  let v (k : Nat) : FVal := f.val (x.getD k 0)
  WithOperands [v 0, v 1] (QuotientIs f m sat (v 0) (v 1))
def oneLaw (f : Fmt) (R : FVal → Rounded → Prop) (x : List Nat) : Rounded → Prop :=
  WithOperands [f.val (x.getD 0 0)] (R (f.val (x.getD 0 0)))

/-- Code k of a list. -/
def code (xs : List Nat) (k : Nat) : Nat := xs.getD k 0

/-- The class word of R145: exactly one bit. -/
def classBit (f : Fmt) (a : Nat) (r : Nat) : Prop :=
  r = 2 ^ (match f.val a with
    | .inf n => if n then 0 else 7
    | .nan sig => if sig then 8 else 9
    | .fin n m _ =>
      if m = 0 then (if n then 3 else 4)
      else if m < 2 ^ f.mbits then (if n then 2 else 5) else (if n then 1 else 6))

/-- R141, R142, R144 to R146 on FP32. -/
def fp32Instructions : Instr → Option LaneLaw
  | .fadd vd va vb ps => some <| fp32Law vd ps [va, vb] (addLaw fp32)
  | .fsub vd va vb ps => some <| fp32Law vd ps [va, vb] (subLaw fp32)
  | .fmul vd va vb ps => some <| fp32Law vd ps [va, vb] (mulLaw fp32)
  | .ffma vd va vb ps => some <| fp32Law vd ps [va, vb, vd] (fmaLaw fp32)
  | .fdiv vd va vb ps => some <| fp32Law vd ps [va, vb] (divLaw fp32)
  | .fmin vd va vb ps => some <| fp32Law vd ps [va, vb] fun _ _ x => ExtremeIs fp32 false (code x 0) (code x 1)
  | .fmax vd va vb ps => some <| fp32Law vd ps [va, vb] fun _ _ x => ExtremeIs fp32 true (code x 0) (code x 1)
  | .frcp vd va ps => some <| fp32Law vd ps [va] fun m sat => oneLaw fp32 (ReciprocalIs fp32 m sat)
  | .frsq vd va ps => some <| fp32Law vd ps [va] fun m sat => oneLaw fp32 (RootReciprocalIs fp32 m sat)
  | .fsqrt vd va ps => some <| fp32Law vd ps [va] fun m sat => oneLaw fp32 (RootIs fp32 m sat)
  | .fexp2 vd va ps => some <| fp32Law vd ps [va] fun m sat x => Exp2Is m sat (code x 0)
  | .flog2 vd va ps => some <| fp32Law vd ps [va] fun m sat x => Log2Is m sat (code x 0)
  | .fsigm vd va ps => some <| fp32Law vd ps [va] fun m _ x => SigmoidIs m (code x 0)
  | .fclass vd va ps => some <| plainLaw vd ps [va] fun w r => classBit fp32 (nth w 0).toNat r.toNat
  | .fscalb vd va vb ps => some
      { fp32Law vd ps [va, vb] fun _ _ _ _ => True with
        rel := fun c l r fl => ScaledIs fp32 c.ag.sregs.rm c.ag.sregs.sat (c.ag.word va.toNat l).toNat
          (c.ag.word vb.toNat l).toInt ((r 0).toNat, fl) }
  | _ => none

/-- R141, R142, R144 to R146 on FP64, and the packed forms of R147. -/
def fp64Instructions : Instr → Option LaneLaw
  | .dadd vd va vb ps => some <| fp64Law vd ps [va, vb] (addLaw fp64)
  | .dsub vd va vb ps => some <| fp64Law vd ps [va, vb] (subLaw fp64)
  | .dmul vd va vb ps => some <| fp64Law vd ps [va, vb] (mulLaw fp64)
  | .dfma vd va vb ps => some <| fp64Law vd ps [va, vb, vd] (fmaLaw fp64)
  | .ddiv vd va vb ps => some <| fp64Law vd ps [va, vb] (divLaw fp64)
  | .dmin vd va vb ps => some <| fp64Law vd ps [va, vb] fun _ _ x => ExtremeIs fp64 false (code x 0) (code x 1)
  | .dmax vd va vb ps => some <| fp64Law vd ps [va, vb] fun _ _ x => ExtremeIs fp64 true (code x 0) (code x 1)
  | .dsqrt vd va ps => some <| fp64Law vd ps [va] fun m sat => oneLaw fp64 (RootIs fp64 m sat)
  | .drcp vd va ps => some <| fp64Law vd ps [va] fun m sat => oneLaw fp64 (ReciprocalIs fp64 m sat)
  | .drsq vd va ps => some <| fp64Law vd ps [va] fun m sat => oneLaw fp64 (RootReciprocalIs fp64 m sat)
  | .dclass vd va ps => some
      { plainLaw vd ps [] fun _ _ => True with
        mark := laneMark (pairRegs va) []
        rel := fun c l r fl => classBit fp64 (lanePair c va l).toNat (r 0).toNat ∧ fl = 0#6 }
  | .dscalb vd va vb ps => some
      { len := 1, guard := ps, dest := vd, count := 2, mark := laneMark (pairRegs va ++ [vb.toNat]) []
        rel := fun c l r fl => ScaledIs fp64 c.ag.sregs.rm c.ag.sregs.sat (lanePair c va l).toNat
          (c.ag.word vb.toNat l).toInt ((r 1 ++ r 0).toNat, fl) }
  | .hadd2 vd va vb ps => some <| packedLaw vd ps [va, vb] (addLaw fp16)
  | .hfma2 vd va vb ps => some <| packedLaw vd ps [va, vb, vd] (fmaLaw fp16)
  | .badd2 vd va vb ps => some <| packedLaw vd ps [va, vb] (addLaw bf16)
  | .bfma2 vd va vb ps => some <| packedLaw vd ps [va, vb, vd] (fmaLaw bf16)
  | _ => none

/-- The formats of R148: FP index, and the width, the least and the greatest value of an integer index. -/
def floatAt (k : Nat) : Fmt := [fp64, fp32, fp16, bf16, e4m3, e5m2, e2m1].getD k fp64
def intBits (k : Nat) : Nat := 8 * 2 ^ (k / 2)
def intLeast (k : Nat) : Int := if k % 2 = 0 then -(2 : Int) ^ (intBits k - 1) else 0
def intGreatest (k : Nat) : Int := if k % 2 = 0 then 2 ^ (intBits k - 1) - 1 else 2 ^ intBits k - 1

/-- The conversion codes that R148 defines, and whether the source and the result of one fill a pair (R149). -/
def cvtValid (k : BitVec 7) : Bool :=
  if k.getLsbD 6 then !(k.getLsbD 5 && k.getLsbD 0)
  else k.toNat / 8 % 8 != 7 && k.toNat % 8 != 7 && k.toNat / 8 % 8 != k.toNat % 8
def fromPair (k : BitVec 7) : Bool :=
  if k.getLsbD 6 then (if k.getLsbD 5 then decide (6 ≤ k.toNat / 4 % 8) else !k.getLsbD 1) else k.toNat % 8 == 0
def intoPair (k : BitVec 7) : Bool :=
  if k.getLsbD 6 then (if k.getLsbD 5 then !k.getLsbD 1 else decide (6 ≤ k.toNat / 4 % 8)) else k.toNat / 8 % 8 == 0

/-- CVT of the source's bits: RoundTo or RoundInt of the exact value of its element (R149). A result is a number of 64 bits, whose low
32 make a result of one word. -/
def CvtIs (k : BitVec 7) (rm : Mode) (sat : Bool) (x : DWord) (y : DWord) (fl : Flags) : Prop :=
  let i := k.toNat / 4 % 8
  if k.getLsbD 6 then
    let f := if k.getLsbD 1 then fp32 else fp64
    if k.getLsbD 5 then
      let u := x.toNat % 2 ^ intBits i
      let n : Int := if i % 2 = 0 ∧ 2 ^ (intBits i - 1) ≤ u then (u : Int) - 2 ^ intBits i else u
      RoundedTo f rm sat (decide (n < 0)) (n : ℚ) (y.toNat, fl)
    else
      let v := f.val (x.toNat % 2 ^ f.width)
      ∃ n g, RoundedInt (intLeast i) (intGreatest i) (if k.getLsbD 0 then 1#2 else rm) v n g ∧
        fl = g ||| flagIf v.isSnan flagNV ||| flagIf v.nonFinite flagNF ∧ y = BitVec.ofInt 64 n
  else
    let v := (floatAt (k.toNat % 8)).val (x.toNat % 2 ^ (floatAt (k.toNat % 8)).width)
    WithOperands [v] (RoundedVal (floatAt (k.toNat / 8 % 8)) rm sat v) (y.toNat, fl)

/-- A stochastic conversion of an FP32 word (R118, R150). -/
def cvtsLaw (f : Fmt) (vd va vb : Reg) (ps : PReg) : LaneLaw :=
  { plainLaw vd ps [va, vb] fun _ _ => True with
    rel := fun c l r fl =>
      let x := fp32.val (c.ag.word va.toNat l).toNat
      WithOperands [x] (StochasticRounded f c.ag.sregs.sat x (c.ag.word vb.toNat l).toNat) ((r 0).toNat, fl) }

/-- The blend of one element (R250): a hard code copies an operand's bits; a fractional one rounds p·a + (1 − p)·b once. -/
def blendRel (f : Fmt) (c : Ctx) (l : Nat) (pk : PReg) (a b r : Nat) (fl : Flags) : Prop :=
  let p := (c.ag.pred pk.toNat l).code.toNat
  if p = 65535 then r = a ∧ fl = flagIf (f.val a).nonFinite flagNF
  else if p = 0 then r = b ∧ fl = flagIf (f.val b).nonFinite flagNF
  else BlendIs f c.ag.sregs.rm c.ag.sregs.sat p (f.val a) (f.val b) (r, fl)

/-- R148 to R150, R250, R251: conversions, stochastic conversions and blends. -/
def conversions : Instr → Option LaneLaw
  | .cvt vd va k ps =>
      if cvtValid k then some
        { len := 1, guard := ps, dest := vd, count := if intoPair k then 2 else 1
          mark := laneMark (if fromPair k then pairRegs va else [va.toNat]) []
          rel := fun c l r fl => ∃ y,
            CvtIs k c.ag.sregs.rm c.ag.sregs.sat (if fromPair k then lanePair c va l else (c.ag.word va.toNat l).zeroExtend 64) y fl ∧
            if intoPair k then r 1 ++ r 0 = y else r 0 = y.truncate 32 }
      else none
  | .cvtsF16 vd va vb ps => some (cvtsLaw fp16 vd va vb ps)
  | .cvtsBf16 vd va vb ps => some (cvtsLaw bf16 vd va vb ps)
  | .cvtsE4m3 vd va vb ps => some (cvtsLaw e4m3 vd va vb ps)
  | .cvtsE5m2 vd va vb ps => some (cvtsLaw e5m2 vd va vb ps)
  | .cvtsE2m1 vd va vb ps => some (cvtsLaw e2m1 vd va vb ps)
  | .selbF32 vd va vb pk => some
      { len := 1, guard := 7#3, dest := vd, count := 1, mark := mark pk [va.toNat] [vb.toNat]
        rel := fun c l r fl => blendRel fp32 c l pk (c.ag.word va.toNat l).toNat (c.ag.word vb.toNat l).toNat (r 0).toNat fl }
  | .selbF64 vd va vb pk => some
      { len := 1, guard := 7#3, dest := vd, count := 2, mark := mark pk (pairRegs va) (pairRegs vb)
        rel := fun c l r fl => blendRel fp64 c l pk (lanePair c va l).toNat (lanePair c vb l).toNat (r 1 ++ r 0).toNat fl }
  | .selbBf16x2 vd va vb pk => some
      { len := 1, guard := 7#3, dest := vd, count := 1, mark := mark pk [va.toNat] [vb.toNat]
        rel := fun c l r fl => ∃ f g, fl = f ||| g ∧
          blendRel bf16 c l pk ((c.ag.word va.toNat l).toNat % 2 ^ 16) ((c.ag.word vb.toNat l).toNat % 2 ^ 16)
            ((r 0).toNat % 2 ^ 16) f ∧
          blendRel bf16 c l pk ((c.ag.word va.toNat l).toNat / 2 ^ 16) ((c.ag.word vb.toNat l).toNat / 2 ^ 16)
            ((r 0).toNat / 2 ^ 16) g }
  | _ => none
where
  /-- The operand not chosen adds no poison (R251). -/
  mark (pk : PReg) (a b : List Nat) (c : Ctx) (l : Nat) : Bool :=
    (c.ag.pred pk.toNat l).poison ||
      ((c.ag.pred pk.toNat l).code != 0#16 && laneMark a [] c l) || ((c.ag.pred pk.toNat l).code != 65535#16 && laneMark b [] c l)

/-! #### Predicates (R139, R140, R240 to R254) -/

/-- An instruction that writes a predicate: its guard, the predicate, the mark, code and lineage of a lane with its flags,
and the lanes that set PSTAT.DEP (R247). -/
structure PredLaw where
  guard : PReg
  dest : PReg
  mark : Ctx → Nat → Bool
  rel : Ctx → Nat → (code lin : Nat) → Flags → Prop
  dep : Ctx → Nat → Bool := fun _ _ => false

/-- The instruction completes as its law says. -/
def PredLaw.Holds (law : PredLaw) (i : Instr) (s : State) (c : Ctx) : Prop :=
  ∃ (val : Nat → Pred) (fl : Nat → Flags) (t : State), exec i s = .next t ∧
    (∀ l, inMask (c.guardHolds law.guard.toNat) l = true →
      law.rel c l (val l).code.toNat (val l).lin.toNat (fl l) ∧ (val l).poison = law.mark c l) ∧
    PredWrite c t 1 (c.guardHolds law.guard.toNat) law.dest.toNat val
      (afterGuard c law.guard.toNat
        (let r := c.ag.sregs.raise (mergedFlags (c.guardHolds law.guard.toNat) fl)
         if (List.range 32).any fun l => inMask (c.guardHolds law.guard.toNat) l && law.dep c l then r.setDep else r))

/-- Every instruction of a table of predicate laws completes so, on every warp whose guard passes its checks. -/
def PredLaws (laws : Instr → Option PredLaw) : Prop :=
  ∀ (s : State) (c : Ctx) (i : Instr) (law : PredLaw), WarpRuns s c → laws i = some law →
    GuardClear c law.guard.toNat → law.Holds i s c

/-- A hard compare: code 65535 or 0, lineage 1 << pd (R139). -/
def compareLaw (pd ps : PReg) (reads : List Nat) (flags : Ctx → Nat → Flags) (test : Ctx → Nat → Prop) : PredLaw :=
  { guard := ps, dest := pd, mark := laneMark reads []
    rel := fun c l code lin fl => (test c l → code = 65535) ∧ (¬ test c l → code = 0) ∧ lin = 2 ^ pd.toNat ∧ fl = flags c l }

/-- The integer conditions 0 to 9 of R68. -/
def integerCond (k : Nat) (a b : Word) : Option Prop :=
  match k with
  | 0 => some (a = b)
  | 1 => some (a ≠ b)
  | 2 => some (a.toInt < b.toInt)
  | 3 => some (a.toInt ≤ b.toInt)
  | 4 => some (b.toInt < a.toInt)
  | 5 => some (b.toInt ≤ a.toInt)
  | 6 => some (a.toNat < b.toNat)
  | 7 => some (a.toNat ≤ b.toNat)
  | 8 => some (b.toNat < a.toNat)
  | 9 => some (b.toNat ≤ a.toNat)
  | _ => none

/-- The flags of an FP compare (R140). -/
def fpCompareFlags (f : Fmt) (a b : Nat) : Flags :=
  flagIf ((f.val a).isSnan || (f.val b).isSnan) flagNV ||| flagIf ((f.val a).nonFinite || (f.val b).nonFinite) flagNF

/-- The integer nearest to num / den, with ties to even (R246). -/
def HalfEven (num den r : Nat) : Prop :=
  2 * num ≤ 2 * r * den + den ∧ 2 * r * den ≤ 2 * num + den ∧
    ((2 * num = 2 * r * den + den ∨ 2 * r * den = 2 * num + den) → r % 2 = 0)

/-- The effective temperature and its flags, from the word in TEMP (R242). -/
def TempIs (w : Word) (t : FVal) (fl : Flags) : Prop :=
  match fp32.val w.toNat with
  | .fin s m e =>
    if m = 0 then t = .fin false 0 0 ∧ fl = 0#6
    else if s then t = .fin false 0 0 ∧ fl = flagNV
    else t = .fin false m e ∧ fl = 0#6
  | .inf false => t = .inf false ∧ fl = flagNF
  | .inf true => t = .fin false 0 0 ∧ fl = flagNV ||| flagNF
  | .nan _ => t = .fin false 0 0 ∧ fl = flagNV ||| flagNF

/-- The argument x of R244 for operands that are not NaNs, at a temperature t above zero: two roundings to FP32. -/
def SoftArgument (a b t x : FVal) : Prop :=
  ∃ d : FVal, (Same a b → d = .fin false 0 0) ∧
    (¬ Same a b → ∃ q, SumIs fp32 0#2 false a (minus b) q ∧ d = fp32.val q.1) ∧
    match t, d with
    | _, .inf s => x = .inf s
    | .fin _ n g, .fin s m e => ∃ q, RoundedTo fp32 0#2 false s (exactly s m e / exactly false n g : ℚ) q ∧ x = fp32.val q.1
    | _, _ => x = .fin false 0 0

/-- The code of a soft compare (R244). At temperature zero it is that of the hard compare (R256). Code of Sig and of the Gaussian are given
at zero and at the infinities, and elsewhere by the model's own evaluation in fixed point. -/
def SoftIs (k : Nat) (a b t : FVal) (r : Nat) : Prop :=
  if a.isNan = true ∨ b.isNan = true then r = if k = 1 then 65535 else 0
  else if t.isZero then (CondHolds k a b → r = 65535) ∧ (¬ CondHolds k a b → r = 0)
  else if k ≤ 1 then ∃ x, SoftArgument a b t x ∧
    let gauss := match x with
      | .fin _ 0 _ => 65535
      | .inf _ => 0
      | x => codeGauss x
    r = if k = 0 then gauss else 65535 - gauss
  else ∃ x, (if k = 2 ∨ k = 3 then SoftArgument b a t x else SoftArgument a b t x) ∧
    r = match x with
      | .fin _ 0 _ => 32768
      | .inf s => if s then 0 else 65535
      | x => codeSig x

/-- R139, R140, R243: the compares. -/
def compares : Instr → Option PredLaw
  | .icmp k pd va vb ps =>
      if k.toNat ≤ 9 then some <| compareLaw pd ps [va.toNat, vb.toNat] (fun _ _ => 0#6) fun c l =>
        (integerCond k.toNat (c.ag.word va.toNat l) (c.ag.word vb.toNat l)).getD False
      else none
  | .icmpi k pd va imm =>
      if k.toNat ≤ 9 then some <| compareLaw pd 7#3 [va.toNat] (fun _ _ => 0#6) fun c l =>
        (integerCond k.toNat (c.ag.word va.toNat l) (BitVec.ofInt 32 imm.toInt)).getD False
      else none
  | .fcmp32 k pd va vb ps =>
      if k.toNat ≤ 5 ∨ k = 10#4 ∨ k = 11#4 then some <| compareLaw pd ps [va.toNat, vb.toNat]
        (fun c l => fpCompareFlags fp32 (c.ag.word va.toNat l).toNat (c.ag.word vb.toNat l).toNat) fun c l =>
        CondHolds k.toNat (fp32.val (c.ag.word va.toNat l).toNat) (fp32.val (c.ag.word vb.toNat l).toNat)
      else none
  | .fcmp64 k pd va vb ps =>
      if k.toNat ≤ 5 ∨ k = 10#4 ∨ k = 11#4 then some <| compareLaw pd ps (pairRegs va ++ pairRegs vb)
        (fun c l => fpCompareFlags fp64 (lanePair c va l).toNat (lanePair c vb l).toNat) fun c l =>
        CondHolds k.toNat (fp64.val (lanePair c va l).toNat) (fp64.val (lanePair c vb l).toNat)
      else none
  | .pcmp32 k pd va vb ps =>
      if k.toNat ≤ 5 then some <| soft pd ps [va.toNat, vb.toNat]
        (fun c l => SoftIs k.toNat (fp32.val (c.ag.word va.toNat l).toNat) (fp32.val (c.ag.word vb.toNat l).toNat))
        (fun c l => fpCompareFlags fp32 (c.ag.word va.toNat l).toNat (c.ag.word vb.toNat l).toNat)
      else none
  | .pcmp64 k pd va vb ps =>
      if k.toNat ≤ 5 then some <| soft pd ps (pairRegs va ++ pairRegs vb)
        (fun c l => SoftIs k.toNat (fp64.val (lanePair c va l).toNat) (fp64.val (lanePair c vb l).toNat))
        (fun c l => fpCompareFlags fp64 (lanePair c va l).toNat (lanePair c vb l).toNat)
      else none
  | _ => none
where
  soft (pd ps : PReg) (reads : List Nat) (k : Ctx → Nat → FVal → Nat → Prop) (flags : Ctx → Nat → Flags) : PredLaw :=
    { guard := ps, dest := pd, mark := laneMark reads []
      rel := fun c l code lin fl => ∃ t g, TempIs c.ag.sregs.temp t g ∧ k c l t code ∧ lin = 2 ^ pd.toNat ∧ fl = flags c l ||| g }

/-- The code of PLOG (R246), with the functions .min and .max in place of .and and .or (R247). -/
def plogRel (func a b r : Nat) : Prop :=
  match func with
  | 0 => HalfEven (a * b) 65535 r
  | 1 => HalfEven ((65535 - a) * (65535 - b)) 65535 (65535 - r) ∧ r ≤ 65535
  | 2 => HalfEven (a * (65535 - b) + b * (65535 - a)) 65535 r
  | 3 => r = 65535 - a
  | 4 => r = min a b
  | 5 => r = max a b
  | _ => r = a

/-- R246 to R249: combining and collapsing predicates. -/
def predicateLogic : Instr → Option PredLaw
  | .plog pd pa pb func ps =>
      if func.toNat ≤ 6 then some
        { guard := ps, dest := pd
          mark := laneMark [] (if func.toNat = 3 ∨ func.toNat = 6 then [pa.toNat] else [pa.toNat, pb.toNat])
          rel := fun c l code lin fl =>
            let a := c.ag.pred pa.toNat l
            let b := c.ag.pred pb.toNat l
            let two := if func.toNat = 3 ∨ func.toNat = 6 then false else true
            plogRel (if overlap pa pb func c l ∧ c.ag.sregs.pstat.getLsbD 1 then func.toNat + 4 else func.toNat)
              a.code.toNat b.code.toNat code ∧
            lin = (if two then a.lin ||| b.lin else a.lin).toNat ∧ fl = 0#6
          dep := overlap pa pb func }
      else none
  | .pconst pd imm ps => some
      { guard := ps, dest := pd, mark := fun _ _ => false
        rel := fun _ _ code lin fl => code = imm.toNat ∧ lin = 0 ∧ fl = 0#6 }
  | .collapse pd pa vb ps => some
      { guard := ps, dest := pd, mark := laneMark [vb.toNat] [pa.toNat]
        rel := fun c l code lin fl =>
          code = (if (c.ag.word vb.toNat l).toNat * 65535 / 2 ^ 32 < (c.ag.pred pa.toNat l).code.toNat then 65535 else 0) ∧
          lin = (c.ag.pred pa.toNat l).lin.toNat ∧ fl = 0#6 }
  | _ => none
where
  /-- An .and or .or lane whose inputs share lineage (R247). -/
  overlap (pa pb : PReg) (func : BitVec 5) (c : Ctx) (l : Nat) : Bool :=
    decide (func.toNat ≤ 1) && ((c.ag.pred pa.toNat l).lin &&& (c.ag.pred pb.toNat l).lin) != 0#8

/-- The code sum of the executing lanes (R253). -/
def codeSum (c : Ctx) (pa ps : PReg) : Nat :=
  ((List.range 32).map fun l => if inMask (c.guardHolds ps.toNat) l then (c.ag.pred pa.toNat l).code.toNat else 0).foldr (· + ·) 0

/-- R252 to R254: what reads predicates into registers. -/
def predicateReads : Instr → Option LaneLaw
  | .pgrad vd pa sel ps =>
      if sel.toNat ≤ 1 then some
        { plainLaw vd ps [] fun _ _ => True with
          mark := laneMark [] [pa.toNat]
          rel := fun c l r fl =>
            let p := (c.ag.pred pa.toNat l).code.toNat
            if sel = 0#7 then
              ∃ t g h, TempIs c.ag.sregs.temp t g ∧ fl = h ||| g ∧
                match t with
                | .fin _ (m + 1) e => RoundedTo fp32 0#2 c.ag.sregs.sat false
                    ((p / 65535) * (1 - p / 65535) / exactly false (m + 1) e : ℚ) ((r 0).toNat, h)
                | _ => (r 0 = 0#32) ∧ h = 0#6
            else ∃ h, RoundedTo fp32 0#2 false false (p / 65535 : ℚ) ((r 0).toNat, h) ∧ fl = 0#6 }
      else none
  | .psum vd pa ps => some
      { plainLaw vd ps [] fun _ _ => True with
        mark := fun c _ => (List.range 32).any fun l => inMask (c.guardHolds ps.toNat) l && (c.ag.pred pa.toNat l).poison
        rel := fun c _ r fl => ∃ h, RoundedTo fp32 0#2 false false (codeSum c pa ps / 65535 : ℚ) ((r 0).toNat, h) ∧ fl = 0#6 }
  | .pquery vd pa sel ps =>
      if sel.toNat ≤ 2 then some
        { plainLaw vd ps [] fun _ _ => True with
          mark := fun c l => sel != 2#7 && (c.ag.pred pa.toNat l).poison
          rel := fun c l r fl =>
            let p := c.ag.pred pa.toNat l
            fl = 0#6 ∧ (r 0).toNat =
              match sel.toNat with
              | 0 => p.lin.toNat
              | 1 => if p.code = 0#16 ∨ p.code = 65535#16 then 0 else 1
              | _ => if p.poison then 1 else 0 }
      else none
  | _ => none

/-! #### Warp-wide instructions (R176 to R184) -/

/-- Lane j is in the member mask of lane l and has not exited. -/
def memberAt (c : Ctx) (vb : Reg) (l j : Nat) : Bool := (c.ag.word vb.toNat l).getLsbD j && !c.ag.exited.getLsbD j

/-- The members of lane l whose predicate reaches one half (R177). -/
def holderAt (c : Ctx) (pa : PReg) (vb : Reg) (l j : Nat) : Bool :=
  memberAt c vb l j && decide (32768 ≤ (c.ag.pred pa.toNat j).code.toNat)

/-- The lanes that a test accepts, in order. -/
def lanesWith (f : Nat → Bool) : List Nat := (List.range 32).filter f

/-- A word of another lane: an exited lane reads as 0. -/
def otherWord (c : Ctx) (r j : Nat) : Word := if c.ag.exited.getLsbD j then 0#32 else c.ag.word r j

/-- The mark of another lane's word: an exited lane reads unpoisoned. -/
def otherMark (c : Ctx) (r j : Nat) : Bool := !c.ag.exited.getLsbD j && (c.ag.reg r).marked j

/-- An active lane's member mask names an exited lane: WSTAT.MEMBEREXIT is set (R176). -/
def noteExited (c : Ctx) (vb : Reg) (r : SRegs) : SRegs :=
  if (List.range 32).any fun l => c.act.getLsbD l && decide ((c.ag.word vb.toNat l &&& c.ag.exited) ≠ 0#32) then
    { r with memberExit := true }
  else r

/-- An unguarded instruction with one word of result in every active lane (R176). -/
def wideLaw (vd : Reg) (mark : Ctx → Nat → Bool) (also : Ctx → SRegs → SRegs) (rel : Ctx → Nat → Word → Prop) : LaneLaw :=
  { len := 1, guard := 7#3, dest := vd, count := 1, mark := mark, also := also
    rel := fun c l r fl => rel c l (r 0) ∧ fl = 0#6 }

/-- The source lane of XLANE (R178). -/
def exchangeLane (k : Nat) (v : Word) (l : Nat) : Nat :=
  let d := v.toNat % 32
  let g := min 5 (v.toNat / 2 ^ 5 % 8)
  match k with
  | 0 => d
  | 1 => (l + d) % 32
  | 2 => l - l % 2 ^ g + d % 2 ^ g
  | _ => l ^^^ d

/-- One application of an operation of R174 to two values, each with the flags raised so far and a mark; an FP one rounds to nearest
with SAT = 0 (R124). -/
def Applies (op : Nat) (a b r : RedVal) : Prop :=
  let x : Word := a.1.truncate 32
  let y : Word := b.1.truncate 32
  let w : Word := r.1.truncate 32
  ∃ g : Flags, r.2.1 = a.2.1 ||| b.2.1 ||| g ∧ r.2.2 = (a.2.2 || b.2.2) ∧ (op = 2 ∨ r.1.toNat < 2 ^ 32) ∧
    match op with
    | 0 => w.toNat = (x.toNat + y.toNat) % 2 ^ 32 ∧ g = 0#6
    | 1 => addLaw fp32 0#2 false [x.toNat, y.toNat] (w.toNat, g)
    | 2 => addLaw fp64 0#2 false [a.1.toNat, b.1.toNat] (r.1.toNat, g)
    | 3 => w.toInt = min x.toInt y.toInt ∧ g = 0#6
    | 4 => w.toInt = max x.toInt y.toInt ∧ g = 0#6
    | 5 => ExtremeIs fp32 true x.toNat y.toNat (w.toNat, g)
    | 6 => (bitwise w fun j => x.getLsbD j && y.getLsbD j) ∧ g = 0#6
    | _ => (bitwise w fun j => x.getLsbD j || y.getLsbD j) ∧ g = 0#6

/-- The identity of an operation (R174). -/
def identityOf (op : Nat) : DWord :=
  match op with
  | 3 => 0x7FFFFFFF#64
  | 4 => 0x80000000#64
  | 5 => 0xFF800000#64
  | 6 => 0xFFFFFFFF#64
  | _ => 0#64

/-- The tree of R124 over the 32 lanes: at each level a value joins the next, and an absent one contributes nothing. Node i of level k
covers lanes 2^k · i to 2^k · (i + 1) − 1. When every position is absent the value is the identity (R174). -/
def TreeIs (op : Nat) (x : Nat → Option RedVal) (r : RedVal) : Prop :=
  ∃ T : Nat → Nat → Option RedVal, (∀ j, j < 32 → T 0 j = x j) ∧
    (∀ k i, k < 5 → i < 2 ^ (4 - k) →
      match T k (2 * i), T k (2 * i + 1) with
      | some a, some b => ∃ q, Applies op a b q ∧ T (k + 1) i = some q
      | some a, none => T (k + 1) i = some a
      | none, y => T (k + 1) i = y) ∧
    r = (T 5 0).getD (identityOf op, 0#6, false)

/-- REDUX and SCAN: the tree of the members up to a last lane (R179, R180). -/
def treeLaw (op : BitVec 3) (vd va vb : Reg) (last : Nat → Nat) : LaneLaw :=
  let n := if op = 2#3 then 2 else 1
  let taken (c : Ctx) (l j : Nat) : Bool := memberAt c vb l j && decide (j ≤ last l)
  let read (c : Ctx) (j : Nat) : Bool := laneMark ((List.range n).map (va.toNat + ·)) [] c j
  { len := 1, guard := 7#3, dest := vd, count := n, also := fun c r => noteExited c vb r
    mark := fun c l => ((List.range 32).any fun j => taken c l j && read c j) || (c.ag.reg vb.toNat).marked l
    rel := fun c l r fl => ∃ v, TreeIs op.toNat
        (fun j => if taken c l j then some (if op = 2#3 then lanePair c va j else (c.ag.word va.toNat j).zeroExtend 64, 0#6, read c j)
          else none) v ∧
      fl = v.2.1 ∧ if op = 2#3 then r 1 ++ r 0 = v.1 else r 0 = v.1.truncate 32 }

/-- The work items of lane j (R183). -/
def itemsOf (c : Ctx) (va : Reg) (j : Nat) : Nat := min (otherWord c va.toNat j).toNat (2 ^ 27)

/-- The place of a lane in the order of WSORT: by key, exited lanes last, then by lane number (R184). -/
def sortKey (c : Ctx) (va : Reg) (j : Nat) : Nat :=
  (if c.ag.exited.getLsbD j then 2 ^ 32 else (c.ag.word va.toNat j).toNat) * 32 + j

/-- Lane j holds the k-th key. -/
def isKth (c : Ctx) (va : Reg) (k j : Nat) : Prop :=
  j < 32 ∧ (lanesWith fun i => decide (sortKey c va i < sortKey c va j)).length = k

/-- R177 to R184. -/
def warpWide : Instr → Option LaneLaw
  | .lmask vd pa vb k =>
      if k.toNat ≤ 3 then some <| wideLaw vd
        (fun c l => (c.ag.reg vb.toNat).marked l || (lanesWith (memberAt c vb l)).any fun j => (c.ag.pred pa.toNat j).poison)
        (fun c r => noteExited c vb r) fun c l r =>
          let held := lanesWith (holderAt c pa vb l)
          match k.toNat with
          | 0 => bitwise r (holderAt c pa vb l)
          | 1 => r.toNat = held.length
          | 2 => r.toNat = held.head?.getD 32
          | _ => r.toNat = if held = [] then 0 else if held = lanesWith (memberAt c vb l) then 2 else 1
      else none
  | .xlane vd va vb k =>
      if k.toNat ≤ 3 then some <| wideLaw vd
        (fun c l => (c.ag.reg vb.toNat).marked l || otherMark c va.toNat (exchangeLane k.toNat (c.ag.word vb.toNat l) l))
        (fun _ r => r) fun c l r => r = otherWord c va.toNat (exchangeLane k.toNat (c.ag.word vb.toNat l) l)
      else none
  | .redux vd va vb op => some (treeLaw op vd va vb fun _ => 31)
  | .scan vd va vb op => some (treeLaw op vd va vb fun l => l)
  | .matchLanes vd va vb k =>
      if k.toNat ≤ 1 then
        let n := if k = 1#3 then 2 else 1
        let mark (c : Ctx) (j : Nat) : Bool := laneMark ((List.range n).map (va.toNat + ·)) [] c j
        some <| wideLaw vd
          (fun c l => (c.ag.reg vb.toNat).marked l || mark c l || (lanesWith (memberAt c vb l)).any (mark c))
          (fun c r => noteExited c vb r) fun c l r => bitwise r fun j => memberAt c vb l j &&
            (if k = 1#3 then lanePair c va j == lanePair c va l else c.ag.word va.toNat j == c.ag.word va.toNat l)
      else none
  | .elect vd vb k =>
      if k.toNat ≤ 1 then some <| wideLaw vd (fun c l => (c.ag.reg vb.toNat).marked l)
        (fun c r => noteExited c vb r) fun c l r =>
          let e := (lanesWith fun j => (c.ag.word vb.toNat l).getLsbD j && c.act.getLsbD j).head?
          if k = 0#3 then r.toNat = (if e = some l then 1 else 0) else r.toNat = e.getD 32
      else none
  | .rebal vd va vb => some <| wideLaw vd
      (fun c l => ((List.range 32).any fun j => otherMark c va.toNat j) || (c.ag.reg vb.toNat).marked l)
      (fun _ r => r) fun c l r =>
        let before (j : Nat) : Nat := ((List.range j).map (itemsOf c va)).foldr (· + ·) 0
        let g := (c.ag.word vb.toNat l).toNat * 32 + l
        if before 32 ≤ g then r.toNat = 0xFFFFFFFF
        else ∃ j, j < 32 ∧ before j ≤ g ∧ g < before (j + 1) ∧ r.toNat = (g - before j) * 32 + j
  | .wsort vd va k =>
      if k.toNat ≤ 2 then some <| wideLaw vd (fun c _ => (List.range 32).any fun j => otherMark c va.toNat j)
        (fun _ r => r) fun c l r =>
          match k.toNat with
          | 0 => isKth c va l r.toNat
          | 1 => isKth c va r.toNat l
          | _ => ∃ j, isKth c va l j ∧ r = otherWord c va.toNat j
      else none
  | _ => none

/-! ### Laws of scalar instructions (R131, R155 to R157) -/

/-- A register that is not GENERAL supplies one word to a uniform read: its base (R47). -/
def uniformOf (v : VReg) : Option Word :=
  match v.shape with
  | .uniform x => some x
  | .affine b _ => some b
  | .general _ => none

/-- A scalar instruction: its words, the registers it reads, its destination, and what it writes there. -/
structure ScalarLaw where
  len : Nat
  dest : Reg
  srcs : List Nat
  rel : (Nat → Word) → List Word → Prop

/-- Every instruction of a table completes as its law says, on a warp or a sequencer, when no source is GENERAL: the
destination is UNIFORM in all 32 lanes, marked when a source is. -/
def ScalarLaws (laws : Instr → Option ScalarLaw) : Prop :=
  ∀ (s : State) (c : Ctx) (i : Instr) (law : ScalarLaw) (w : Nat → Word), Runs s c → laws i = some law →
    (∀ r ∈ law.srcs, uniformOf (c.ag.reg r) = some (w r)) →
    ∃ (ws : List Word) (t : State), exec i s = .next t ∧ law.rel w ws ∧
      (law.dest.toNat + ws.length ≤ 128 →
        WordWrite c t law.len law.dest.toNat ws (law.srcs.any fun r => decide ((c.ag.reg r).poison ≠ 0#32)))

/-- A word, or the two words of a pair, low first. -/
def wordsOf (wide : Bool) (n : Nat) : List Word :=
  if wide then [BitVec.ofNat 32 (n % 2 ^ 32), BitVec.ofNat 32 (n / 2 ^ 32 % 2 ^ 32)] else [BitVec.ofNat 32 (n % 2 ^ 32)]

/-- The unsigned value of a source, and its signed value. -/
def srcNat (wide : Bool) (w : Nat → Word) (r : Reg) : Nat :=
  (w r.toNat).toNat + if wide then (w (r.toNat + 1)).toNat * 2 ^ 32 else 0
def widthOf (wide : Bool) : Nat := if wide then 64 else 32
def asSigned (wide : Bool) (n : Nat) : Int :=
  if n < 2 ^ (widthOf wide - 1) then n else (n : Int) - (2 ^ widthOf wide : Nat)

/-- A register form: the exact result of the two sources' values, reduced modulo 2^w. -/
def scalarForm (vd va vb : Reg) (sub : BitVec 3) (f : (wide : Bool) → Nat → Nat → Int) : ScalarLaw :=
  let wide := sub.getLsbD 0
  { len := 1, dest := vd, srcs := if wide then [va.toNat, va.toNat + 1, vb.toNat, vb.toNat + 1] else [va.toNat, vb.toNat]
    rel := fun w ws => ws = wordsOf wide (f wide (srcNat wide w va) (srcNat wide w vb) % (2 ^ widthOf wide : Nat)).toNat }

/-- A one-source register form. -/
def scalarForm1 (vd va : Reg) (sub : BitVec 3) (f : (wide : Bool) → Nat → Nat → Prop) : ScalarLaw :=
  let wide := sub.getLsbD 0
  { len := 1, dest := vd, srcs := if wide then [va.toNat, va.toNat + 1] else [va.toNat]
    rel := fun w ws => ∃ r, f wide (srcNat wide w va) r ∧ ws = wordsOf wide r }

/-- Bit-by-bit combination of two numbers of a width. -/
def combine (f : Bool → Bool → Bool) (wide : Bool) (a b : Nat) : Int :=
  (Nat.ofBits fun j : Fin (widthOf wide) => f (a.testBit j) (b.testBit j) : Nat)

/-- R155. The variants of SMULH, SMIN and SMAX are 0 signed and 1 unsigned. -/
def scalarRegister : Instr → Option ScalarLaw
  | .sadd vd va vb sub => if sub.toNat ≤ 1 then some <| scalarForm vd va vb sub fun _ a b => a + b else none
  | .ssub vd va vb sub => if sub.toNat ≤ 1 then some <| scalarForm vd va vb sub fun _ a b => (a : Int) - b else none
  | .smul vd va vb sub => if sub.toNat ≤ 1 then some <| scalarForm vd va vb sub fun _ a b => a * b else none
  | .smulh vd va vb sub =>
      if sub.toNat ≤ 3 then some <| scalarForm vd va vb sub fun wide a b =>
        if sub.toNat ≤ 1 then asSigned wide a * asSigned wide b / (2 ^ widthOf wide : Nat) else (a * b : Nat) / (2 ^ widthOf wide : Nat)
      else none
  | .sand vd va vb sub => if sub.toNat ≤ 1 then some <| scalarForm vd va vb sub (combine and) else none
  | .sor vd va vb sub => if sub.toNat ≤ 1 then some <| scalarForm vd va vb sub (combine or) else none
  | .sxor vd va vb sub => if sub.toNat ≤ 1 then some <| scalarForm vd va vb sub (combine xor) else none
  | .sshl vd va vb sub =>
      if sub.toNat ≤ 1 then some <| scalarForm vd va vb sub fun wide a n => if n < widthOf wide then (a * 2 ^ n : Nat) else 0
      else none
  | .sshr vd va vb sub =>
      if sub.toNat ≤ 1 then some <| scalarForm vd va vb sub fun wide a n => if n < widthOf wide then (a / 2 ^ n : Nat) else 0
      else none
  | .ssar vd va vb sub =>
      if sub.toNat ≤ 1 then some <| scalarForm vd va vb sub fun wide a n =>
        if n < widthOf wide then asSigned wide a / (2 ^ n : Nat) else if asSigned wide a < 0 then -1 else 0
      else none
  | .smin vd va vb sub =>
      if sub.toNat ≤ 3 then some <| scalarForm vd va vb sub fun wide a b =>
        if sub.toNat ≤ 1 then min (asSigned wide a) (asSigned wide b) else min a b
      else none
  | .smax vd va vb sub =>
      if sub.toNat ≤ 3 then some <| scalarForm vd va vb sub fun wide a b =>
        if sub.toNat ≤ 1 then max (asSigned wide a) (asSigned wide b) else max a b
      else none
  | .scc vd va vb sub => some <| scalarForm vd va vb sub fun wide a b =>
      match sub.toNat / 2 with
      | 0 => if a = b then 1 else 0
      | 1 => if a = b then 0 else 1
      | 2 => if asSigned wide a < asSigned wide b then 1 else 0
      | _ => if a < b then 1 else 0
  | .spopc vd va sub => if sub.toNat ≤ 1 then some <| scalarForm1 vd va sub fun wide a r =>
      r = ((List.range (widthOf wide)).filter fun j => a.testBit j).length else none
  | .sclz vd va sub => if sub.toNat ≤ 1 then some <| scalarForm1 vd va sub fun wide a r =>
      r ≤ widthOf wide ∧ a < 2 ^ (widthOf wide - r) ∧ (r < widthOf wide → 2 ^ (widthOf wide - 1 - r) ≤ a) else none
  | .smov vd va sub => if sub.toNat ≤ 1 then some <| scalarForm1 vd va sub fun _ a r => r = a else none
  | _ => none

/-- An immediate form works on 32 bits (R156). -/
def scalarImmediate (len : Nat) (vd va : Reg) (f : Nat → Int) : ScalarLaw :=
  { len := len, dest := vd, srcs := [va.toNat]
    rel := fun w ws => ws = [BitVec.ofInt 32 (f (w va.toNat).toNat)] }

/-- The value that a signed immediate stands for, as an unsigned word. -/
def immWord {n : Nat} (imm : BitVec n) : Nat := (BitVec.ofInt 32 imm.toInt).toNat

/-- R156, R157. -/
def scalarImmediates : Instr → Option ScalarLaw
  | .saddi vd va imm => some <| scalarImmediate 1 vd va fun a => a + imm.toInt
  | .sandi vd va imm => some <| scalarImmediate 1 vd va fun a => combine and false a (immWord imm)
  | .sori vd va imm => some <| scalarImmediate 1 vd va fun a => combine or false a (immWord imm)
  | .sxori vd va imm => some <| scalarImmediate 1 vd va fun a => combine xor false a (immWord imm)
  | .sshli vd va imm => some <| scalarImmediate 1 vd va fun a => if imm.toNat < 32 then (a * 2 ^ imm.toNat : Nat) else 0
  | .sshri vd va imm => some <| scalarImmediate 1 vd va fun a => if imm.toNat < 32 then (a / 2 ^ imm.toNat : Nat) else 0
  | .ssari vd va imm => some <| scalarImmediate 1 vd va fun a =>
      if imm.toNat < 32 then asSigned false a / (2 ^ imm.toNat : Nat) else if asSigned false a < 0 then -1 else 0
  | .scci vd va imm => some <| scalarImmediate 1 vd va fun a => if asSigned false a < imm.toInt then 1 else 0
  | .smuli vd va imm => some <| scalarImmediate 1 vd va fun a => a * imm.toInt
  | .smovi vd imm => some { len := 1, dest := vd, srcs := [], rel := fun _ ws => ws = [BitVec.ofInt 32 imm.toInt] }
  | .smovi32 vd imm => some { len := 3, dest := vd, srcs := [], rel := fun _ ws => ws = [imm] }
  | .smovi64 vd imm => some { len := 4, dest := vd, srcs := [], rel := fun _ ws => ws = wordsOf true imm.toNat }
  | .saddi32 vd va imm => some <| scalarImmediate 3 vd va fun a => (a + imm.toNat : Nat)
  | .sandi32 vd va imm => some <| scalarImmediate 3 vd va fun a => combine and false a imm.toNat
  | .sori32 vd va imm => some <| scalarImmediate 3 vd va fun a => combine or false a imm.toNat
  | .sxori32 vd va imm => some <| scalarImmediate 3 vd va fun a => combine xor false a imm.toNat
  | _ => none

/-! ### Laws of memory instructions (R194, R197 to R205) -/

/-- The point of a lane's element, none when it is absent, when R197 and R198 find nothing wrong with it: within bounds,
within the limits of R192, aligned, translated, and not kept back by a stop signal (R364). -/
def ElementOk (c : Ctx) (l : Layout) (vc n : Nat) (acc : Access) (i : Nat) (k : Option Nat) : Prop :=
  match l.spot (c.coords l vc i) with
  | .out => False
  | .absent => k = none
  | .at off =>
    off % n = 0 ∧ (l.isLocal = true → off + n ≤ c.task.localAlloc) ∧ (l.isGran = true → off + n ≤ c.task.info.granary) ∧
      c.s.keptBack l = false ∧ ∃ q, c.place l off acc = .key q ∧ k = some q

/-- An access of n bytes by the lanes of x through a layout entry meets no trap: the entry is valid and of the right
element size, the coordinate registers exist and are not poisoned, and every lane's element is in order (R197, R198). -/
def AccessOk (c : Ctx) (x : Mask) (l : Layout) (vc n : Nat) (acc : Access) (keys : Nat → Option Nat) : Prop :=
  1 ≤ l.dims.toNat ∧ l.size = n ∧ vc + l.nd ≤ c.n ∧
    ∀ i, inMask x i = true →
      (∀ j, j < l.nd → (c.ag.reg (vc + j)).marked i = false) ∧ ElementOk c l vc n acc i (keys i)

/-- The number that n bytes from a key on hold, lowest byte first (R5). -/
def bytesAt (m : Memory) (k n : Nat) : Nat := ((List.range n).map fun b => (m.read (k + b)).toNat * 256 ^ b).foldr (· + ·) 0

/-- The form of a load or store: bytes, data register, coordinate register, layout entry, guard. -/
structure MemForm where
  size : Nat
  data : Reg
  coords : Reg
  lay : BitVec 6
  guard : PReg

def loadForm : Instr → Option MemForm
  | .ld8 vd vc lay _ ps => some ⟨1, vd, vc, lay, ps⟩
  | .ld16 vd vc lay _ ps => some ⟨2, vd, vc, lay, ps⟩
  | .ld32 vd vc lay _ ps => some ⟨4, vd, vc, lay, ps⟩
  | .ld64 vd vc lay _ ps => some ⟨8, vd, vc, lay, ps⟩
  | .ld128 vd vc lay _ ps => some ⟨16, vd, vc, lay, ps⟩
  | _ => none

def storeForm : Instr → Option MemForm
  | .st8 vs vc lay _ ps => some ⟨1, vs, vc, lay, ps⟩
  | .st16 vs vc lay _ ps => some ⟨2, vs, vc, lay, ps⟩
  | .st32 vs vc lay _ ps => some ⟨4, vs, vc, lay, ps⟩
  | .st64 vs vc lay _ ps => some ⟨8, vs, vc, lay, ps⟩
  | .st128 vs vc lay _ ps => some ⟨16, vs, vc, lay, ps⟩
  | _ => none

/-- Word j of a load: its register, each lane's word and mark, as the agent's view has them (R199, R201). -/
def loadedWord (c : Ctx) (f : MemForm) (keys : Nat → Option Nat) (j : Nat) : LaneDest :=
  (f.data.toNat + j,
    fun l => match keys l with
      | some k => BitVec.ofNat 32 (bytesAt c.ag.view (k + 4 * j) (min f.size 4))
      | none => 0#32,
    fun l => match keys l with
      | some k => c.ag.view.marked (k + 4 * j)
      | none => false)

/-- The registers that n bytes take. -/
def wordCount (n : Nat) : Nat := (n + 3) / 4

/-- The layout entry that a form names. -/
def formLayout (c : Ctx) (f : MemForm) : Layout := c.ag.layouts.getD f.lay.toNat Layout.zero

/-- Byte b of a lane's store data. -/
def dataByte (c : Ctx) (vs i b : Nat) : Byte := BitVec.ofNat 8 ((c.ag.word (vs + b / 4) i).toNat / 2 ^ (8 * (b % 4)))

/-- The byte that a store leaves at a key: that of the highest lane that covers it (R200), else what was there. -/
def storedByte (c : Ctx) (x : Mask) (keys : Nat → Option Nat) (vs n : Nat) (old : Nat → Byte) (a : Nat) : Byte :=
  match (lanesWith fun i => inMask x i && (match keys i with
      | some k => decide (k ≤ a) && decide (a < k + n)
      | none => false)).getLast? with
  | some i => dataByte c vs i (a - (keys i).getD 0)
  | none => old a

/-- The stores that the lanes of x issue, in increasing lane number: one each, or one for each half of 16 bytes (R200). -/
def issuedStores (c : Ctx) (x : Mask) (keys : Nat → Option Nat) (vs n : Nat) : List Store :=
  (List.range 32).flatMap fun i =>
    match inMask x i, keys i with
    | true, some k => laneStores c.ag vs n k i
    | _, _ => []

/-- The store went to local memory: the bytes of memory are those of R200, every other byte as before; or it went to
another space: memory is as it was, and the stores stand at the end of those on their way (R221). In both cases the loads of
the warp and of every warp of its core see them at once (R222), and the buffered stores of the core's teams give way to them (log 45).
Registers, predicates and every other part of the device are as before; records to the OS cores may be added (R201). -/
def StoreEffect (c : Ctx) (t : State) (x : Mask) (isLocal : Bool) (keys : Nat → Option Nat) (vs n : Nat) (sr : SRegs) : Prop :=
  let sts := issuedStores c x keys vs n
  (∀ a, t.mem.read a = if isLocal then storedByte c x keys vs n c.s.mem.read a else c.s.mem.read a) ∧
  t.corePend = c.s.corePend ++ (if isLocal then [] else
    sts.map fun st => { agent := c.a, core := c.core, cluster := c.cluster, store := st }) ∧
  (t.agent c.a).view = c.ag.view.performAll sts ∧ (t.agent c.a).late = (sts.foldl Agent.shows c.ag).late ∧
  OnlyRegisters c 1 { t.agent c.a with view := c.ag.view, late := c.ag.late } ∧ (t.agent c.a).regs = c.ag.regs ∧
  (t.agent c.a).preds = c.ag.preds ∧ (t.agent c.a).sregs = sr ∧
  (∀ b, b ≠ c.a → t.agent b =
    if b < c.s.agents.length ∧ (c.s.agent b).kind = .warp ∧ c.s.coreOf b = c.core then sts.foldl Agent.shows (c.s.agent b)
    else c.s.agent b) ∧
  c.s.checks <+: t.checks ∧
  { t with agents := c.s.agents, mem := c.s.mem, corePend := c.s.corePend, checks := c.s.checks } =
    (sts.foldl (fun (u : State) st => u.supersede c.a st) c.s).countIssue c.a

/-- No warp of a core has supplied stream elements that are not stored yet (R216). -/
def NoneStreamed (s : State) (core : Nat) : Prop := ∀ g ∈ s.agents, (s.team g.team).core = core → g.streamed = []

/-- The coordinates within the extents of an entry. -/
def InBounds (l : Layout) (xs : List Int) : Prop := ∀ k, k < l.nd → 0 ≤ xs.getD k 0 ∧ xs.getD k 0 < l.ext k

/-- BASE + x_0 · STRIDE_0 + … modulo 2^64 (R194). -/
def linearOffset (l : Layout) (xs : List Int) : Nat :=
  ((l.base.toNat + ((List.range l.nd).map fun k => xs.getD k 0 * l.str k).foldr (· + ·) 0 : Int) % 2 ^ 64).toNat

/-- The swizzle of local and Granary entries: bits 6:4 are exchanged with bits 9:7 under XMASK (R194). -/
def swizzled (l : Layout) (off : Nat) : Nat :=
  if l.space = 1#8 ∨ l.space = 2#8 then off ^^^ ((off / 2 ^ 7 &&& l.xmask.toNat) * 2 ^ 4) else off

/-! ### Next states written out

For an instruction whose effect is a change of the state as a whole, its statement gives the next state itself: what the
shared operations (Ops, Order) make of the state before. Whatever such a state does not mention is as it was. -/

/-- The state u, with the issuing fragment gone past len words, at an instruction boundary. -/
def retired (c : Ctx) (len : Nat) (u : State) : State := u.complete c.a c.e len

/-- The state u, in which the instruction has set the program counters itself, at an instruction boundary. -/
def placedAt (c : Ctx) (u : State) : State := (u.countIssue c.a).boundary c.a

/-- The state u, with PSTAT.FRAC set when the guard was fractional (R50). -/
def withSoft (c : Ctx) (p : PReg) (u : State) : State := if guardSoft c p.toNat then u.setFrac c.a else u

/-- The state u, in which the fragment waits to issue the same instruction again (R27). -/
def awaiting (c : Ctx) (u : State) : State := u.modEntry c.a c.e fun en => { en with hold := .polling }

/-- The issuing agent with a change. -/
def withIssuer (c : Ctx) (u : State) (f : Agent → Agent) : State := u.modAgent c.a f

/-- It is a team's turn: it holds the Lodestone, and no TKPASS that came during a fault is due (R271, R272). -/
abbrev Turn (s : State) (team : Nat) : Prop :=
  (s.task (s.team team).task).lodestone = some (s.team team).logical ∧ (s.team team).passDue = false

/-- Does a release at a point perform a store to a key beyond the core: it is not to local memory and, at the core, it is to the
Granary, which meets at the cluster (R220)? -/
abbrev beyondCore (p : Point) (key : Nat) : Prop := keyKind key ≠ 1 ∧ (p = .core → keyKind key = 2)

/-- A release at a point may be performed now: the agent has buffered no SHARED store that it performs beyond the core, or it is the
team's turn and no fetch holds a store of the team (R220, R223, R272; log 45). -/
abbrev MayRelease (s : State) (a : Nat) (p : Point) : Prop :=
  (∀ b ∈ (s.team (s.agent a).team).buffer, b.agent = a → ¬ beyondCore p b.store.key) ∨
    (Turn s (s.agent a).team ∧ s.bufferHeld (s.agent a).team = false)

/-- UNIFORM words written from a register on, unpoisoned. -/
def putWords (g : Agent) (d : Reg) : List Word → Agent
  | [] => g
  | ws => { g with regs := Vector.ofFn fun r => if d.toNat ≤ r.val ∧ r.val < d.toNat + ws.length then
      ⟨.uniform (ws.getD (r.val - d.toNat) 0#32), 0#32⟩ else g.regs[r] }

/-- The low and the high word of a 64-bit value (R42). -/
def lowHigh (v : DWord) : List Word := [BitVec.ofNat 32 (v.toNat % 2 ^ 32), BitVec.ofNat 32 (v.toNat / 2 ^ 32)]

/-- A parameter register: not GENERAL, no lane poisoned, with the given word (R47, R359). -/
def paramIs (c : Ctx) (r : Nat) (w : Word) : Prop := uniformOf (c.ag.reg r) = some w ∧ (c.ag.reg r).poison = 0#32

/-- A parameter pair. -/
def paramPair (c : Ctx) (r : Reg) (v : DWord) : Prop :=
  paramIs c r.toNat (BitVec.ofNat 32 (v.toNat % 2 ^ 32)) ∧ paramIs c (r.toNat + 1) (BitVec.ofNat 32 (v.toNat / 2 ^ 32))

/-- The target of a branch: the instruction's address plus four times the signed offset (R66). -/
def branchTarget (c : Ctx) (off : BitVec 21) : DWord := BitVec.ofInt 64 (c.en.pc.toNat + 4 * off.toInt)

/-- A fragment sent to an address. -/
def sentTo (pc : DWord) (en : Entry) : Entry := { en with pc := pc, hold := .ready, redo := none }

/-- The two entries of a divergence and the join (R24). -/
def divergedEntries (c : Ctx) (taken other : Mask) (target : DWord) (i j : Nat) : List Entry :=
  let x := match c.en.pending with
    | some x => some x
    | none => c.en.reconv
  let side (m : Mask) (pc : DWord) : Entry :=
    { Entry.free with kind := .running, pc := pc, mask := m, reconv := x, parent := some c.e, stack := c.en.stack }
  let join := { c.en with kind := .join, pc := x.getD c.en.pc, arrived := 0#32, hold := .ready, redo := none }
  ((c.ag.entries.set c.e join).set i (side taken target)).set j (side other (c.en.pc + 4#64))

/-- The fragment of a deferral: the taken lanes run, a record holds the others (R25). -/
def deferredEntry (c : Ctx) (taken other : Mask) (target : DWord) (en : Entry) : Entry :=
  let x := match c.en.pending with
    | some x => some x
    | none => c.en.reconv
  { sentTo target en with
    mask := taken
    records := { resume := c.en.pc + 4#64, deferred := other, full := taken ||| other, target := x, stack := c.en.stack,
                 phase := false } :: en.records }

/-- No lane that has exited is left in an entry (R32). -/
def NoneExited (ex : Mask) (en : Entry) : Prop :=
  en.mask &&& ex = 0#32 ∧ en.arrived &&& ex = 0#32 ∧ ∀ r ∈ en.records, r.deferred &&& ex = 0#32 ∧ r.full &&& ex = 0#32

/-- An entry at which nothing happens at a boundary (R24 to R26, R32). -/
def QuietEntry (ex : Mask) (en : Entry) : Prop :=
  NoneExited ex en ∧
  (en.kind = .running → en.mask ≠ 0#32 ∧
    match en.records with
    | [] => en.reconv ≠ some en.pc
    | r :: _ => r.target ≠ some en.pc) ∧
  (en.kind = .join → en.mask &&& ~~~en.arrived ≠ 0#32)

/-- The free entries of a split table, lowest first. -/
def freeEntries (c : Ctx) : List Nat :=
  (List.range c.ag.entries.length).filter fun i => (c.ag.entries.getD i Entry.free).kind == .free

/-- The lanes that WIDE gives to a fragment: those that have not exited, or a handler's own (R166). -/
def wideSet (c : Ctx) : Mask :=
  match c.ag.frames with
  | [] => ~~~c.ag.exited
  | f :: _ => f.lanes &&& ~~~c.ag.exited

/-- The warp is alone: its team is the only team of its task, it is the only warp of the team, its fragment holds every
lane that has not exited, no handler runs, and nothing waits. -/
def Alone (s : State) (c : Ctx) : Prop :=
  s.instances = [] ∧ s.warpsOf c.ag.team = [(c.a, c.ag)] ∧ s.teamsOf c.team.task = [(c.ag.team, c.team)] ∧
    c.task.warps = 1 ∧ c.task.system = false ∧ c.task.away = [] ∧ c.act = ~~~c.ag.exited ∧ c.act ≠ 0#32 ∧ c.ag.frames = [] ∧
    c.team.phase = .resident ∧ c.ag.number = 0 ∧ ∀ en ∈ c.ag.entries, ∀ l d, en.hold ≠ .barrier l d

/-- The entries of the issuing agent after an instruction of one word. -/
def pastEntries (c : Ctx) : List Entry := ((c.ag.modEntry c.e (·.advance 1)).settle).entries

/-! ### Waits of several warps -/

/-- What a wait names: its kind, its node (R170), the point at which its completion orders memory (R171, R172), and the register that it
writes, a pair for FP64 (R175). -/
structure WaitForm where
  kind : InstKind
  node : Nat
  point : Option Point
  dest : Option (Nat × Bool)

def waitForm (c : Ctx) : Instr → Option WaitForm
  | .bar _ n => some ⟨.bar n.toNat, c.ag.team, some .core, none⟩
  | .tbar lv =>
    some ⟨.tbar lv.toNat, c.task.lin lv.toNat c.team.logical c.ag.number 0, some (pointOf true (c.phys lv.toNat)), none⟩
  | .coll lv d _ k op =>
    some ⟨.coll lv.toNat (k.toNat * 8 + op.toNat), c.task.lin lv.toNat c.team.logical c.ag.number 0, none, some (d.toNat, op == 2#3)⟩
  | _ => none

/-- A wait passes its checks and offers a value: the count of a BAR, the contribution to a COLL (R171, R172, R175). -/
def WaitOffers (s : State) (c : Ctx) (v : DWord) : Instr → Prop
  | .bar r n => n.toNat < (s.cores.getD c.core default).barriers ∧ ∃ w, paramIs c r.toNat w ∧ v = w.zeroExtend 64
  | .tbar lv => lv.toNat < c.depth ∧ c.phys lv.toNat ≠ 0 ∧ v = 0#64
  | .coll lv _ r _ op => lv.toNat < c.depth ∧ c.phys lv.toNat ≠ 0 ∧
      if op = 2#3 then paramPair c r v else ∃ w, paramIs c r.toNat w ∧ v = w.zeroExtend 64
  | _ => False

/-- The fragment holds every lane of its warp and runs no handler. The instance that its wait names is the only one, or none has been
used yet; the warp has not arrived in its generation, and nothing is owed from the last one. The task runs on this device alone. -/
def Gathers (s : State) (c : Ctx) (f : WaitForm) (x : Instance) : Prop :=
  (s.instances = [x] ∨ (s.instances = [] ∧ x.arrivals = [] ∧ x.offers = [] ∧ x.count = none ∧ x.contributions = [])) ∧
    x.task = c.team.task ∧ x.kind = f.kind ∧ x.node = f.node ∧ x.owes = [] ∧ c.task.away = [] ∧ c.ag.frames = [] ∧
    c.act = ~~~c.ag.exited ∧ c.act ≠ 0#32 ∧ (∀ en ∈ c.ag.entries, ∀ l d, en.hold ≠ .barrier l d) ∧
    (x.arrivals.map (·.1)).Nodup ∧ (∀ p ∈ x.arrivals, p.1 ≠ c.a) ∧ (∀ o ∈ x.offers, o.1 ≠ c.a) ∧
    (∀ n, x.kind = .bar n → x.count = none → x.arrivals = [])

/-- The instance with the arrival of this warp; the first one at a BAR sets the count (R171). -/
def withArrival (c : Ctx) (v : DWord) (x : Instance) : Instance :=
  { x with
    arrivals := x.arrivals ++ [(c.a, c.act)]
    count := match x.kind with
      | .bar _ => some (x.count.getD v.toNat)
      | _ => x.count }

/-- Every lane of a warp that has not exited has issued the wait (R170). -/
def Came (x : Instance) (b : Nat) (g : Agent) : Bool :=
  (List.range 32).all fun i => inMask g.exited i || x.arrivals.any fun p => p.1 == b && inMask p.2 i

/-- The warps that an instance needs have arrived (R170 to R172, R175): as many as a BAR counts, or all that have not retired. -/
def AllCame (s : State) (c : Ctx) (x : Instance) : Prop :=
  let stands (b : Nat) (g : Agent) : Prop := g.phase = .retired ∨ g.exited = allLanes ∨ Came x b g = true
  let every (l : Nat) : Prop := ∀ (u : Nat) (tm : Team), s.teams[u]? = some tm → tm.task = c.team.task →
    ∀ w, w < c.task.warps → c.task.lin l tm.logical w 0 = x.node → tm.phase ≠ .undispatched ∧
      ∀ (b : Nat) (g : Agent), s.agents[b]? = some g → g.kind = .warp → g.team = u → g.number = w → stands b g
  match x.kind with
  | .bar _ =>
    let ours (b : Nat) (g : Agent) : Prop := s.agents[b]? = some g ∧ g.kind = .warp ∧ g.team = c.ag.team
    let n := x.count.getD 0
    if 1 ≤ n ∧ n ≤ c.task.warps then
      n ≤ ((List.range s.agents.length).filter fun b =>
        (s.agent b).kind == .warp && (s.agent b).team == c.ag.team && Came x b (s.agent b) && (s.agent b).exited != allLanes).length
    else ∀ b g, ours b g → stands b g
  | .tbar l => every l
  | .coll l _ => every l

/-- Two values of the tree of R124 come together; an absent one leaves the other as it is. -/
def Joined (op : Nat) (a b r : Option RedVal) : Prop :=
  match a, b with
  | some x, some y => ∃ q, Applies op x y q ∧ r = some q
  | some x, none => r = some x
  | none, y => r = y

/-- The entries of an agent, with those that its handlers keep frozen. -/
def allEntries (g : Agent) : List Entry := g.entries ++ g.frames.flatMap (·.entries)

/-- The tree of R124 over n values: the first part is as long as the largest power of two below n. -/
inductive TreeGives (op : Nat) : List (Option RedVal) → Option RedVal → Prop
  | one (x : Option RedVal) : TreeGives op [x] x
  | join (k : Nat) (xs ys : List (Option RedVal)) (a b r : Option RedVal) : xs.length = 2 ^ k → ys ≠ [] → ys.length ≤ 2 ^ k →
      TreeGives op xs a → TreeGives op ys b → Joined op a b r → TreeGives op (xs ++ ys) r

/-- The reduction of R125 under a node, level by level: the fanouts below it, and the value that each position contributes. -/
def NodeGives (op : Nat) (val : Nat → Option RedVal) : List Nat → Nat → Option RedVal → Prop
  | [], node, r => r = val node
  | f :: rest, node, r => ∃ vs, vs.length = f ∧ (∀ i, i < f → NodeGives op val rest (node * f + i) (vs.getD i none)) ∧
      TreeGives op vs r

/-- The result of a COLL at a contributing position (R125, R126, R175): a broadcast gives the value at the lowest position, a scan
takes those up to its own or before it. -/
def CollGives (op kind : Nat) (fans : List Nat) (node : Nat) (val : Nat → Option RedVal) (pos : Nat) (v : RedVal) : Prop :=
  if kind = 3 then ∃ q, val q = some v ∧ ∀ j, j < q → val j = none
  else ∃ r, NodeGives op (fun q => if (kind = 1 → q ≤ pos) ∧ (kind = 2 → q < pos) then val q else none) fans node r ∧
    v = r.getD (identityOf op, 0#6, false)

/-- A wait writes its result: UNIFORM words with its mark in every lane, and its flags (R57, R175); no other register changes. -/
def WritesResult (g h : Agent) (d : Nat × Bool) (v : RedVal) : Prop :=
  let ws := if d.2 then lowHigh v.1 else [v.1.truncate 32]
  (∀ j, j < ws.length → h.reg (d.1 + j) = ⟨.uniform (ws.getD j 0#32), if v.2.2 then allLanes else 0#32⟩) ∧
    (∀ q, ¬ (d.1 ≤ q ∧ q < d.1 + ws.length) → h.reg q = g.reg q) ∧ h.sregs = g.sregs.raise v.2.1

/-- The contributions to a COLL before this warp's: one of each warp that has arrived, at different positions (R175). -/
def Contributed (c : Ctx) (op : Nat) (x : Instance) (own : Contribution) : Prop :=
  (∀ k ∈ x.contributions, k.agent ≠ some c.a ∧ (op = 2 ∨ k.value.toNat < 2 ^ 32)) ∧
    (∀ p ∈ x.arrivals, ∃ k ∈ x.contributions, k.agent = some p.1) ∧
    (x.contributions.Pairwise fun j k => j.agent = k.agent → j.agent = none) ∧
    ((x.contributions ++ [own]).map (·.position)).Nodup ∧ ∀ l ∈ c.task.declared, 1 ≤ l.fan ∧ l.fan < 2 ^ 16

/-! ### Tree queries and special registers -/

/-- The fanouts of declared levels, multiplied (R10, R168). -/
def fanProduct (ls : List BoundLevel) : Nat := (ls.map (·.fan)).foldr (· * ·) 1

/-- Fields laid out in a word: each value from its lowest bit on. -/
def packed (fields : List (Nat × Nat)) : Nat := (fields.map fun p => p.1 * 2 ^ p.2).foldr (· + ·) 0

/-- The fields of WSTAT (R60): DEFER, FRAGS, PREEMPTREQ, INHANDLER, MEMBEREXIT. -/
def wstatFields (c : Ctx) : List (Nat × Nat) :=
  let flag (b : Bool) : Nat := if b then 1 else 0
  [(min 31 ((c.ag.entries.map fun en => en.records.length).foldr (· + ·) 0), 19),
   ((c.ag.entries.filter fun en => en.kind == .running).length, 12), (flag c.team.preemptReq, 2), (flag (c.ag.frames != []), 1),
   (flag c.ag.sregs.memberExit, 0)]

/-- The fields of CAPCORE, CAPCLUS and CAPDIE (R63). -/
def capcoreFields (u : CoreUnit) : List (Nat × Nat) :=
  [(u.copies, 43), (u.tags, 32), (u.barriers, 24), (u.localKib, 13), (u.warps, 6), (u.regbanks, 0)]
def capclusFields (u : ClusterUnit) : List (Nat × Nat) :=
  [(u.grankib, 16), (u.cpyctx, 11), (u.array, 10), (u.winnowers, 8), (u.seqctx, 4), (u.cores, 0)]
def capdieFields (s : State) (u : DieUnit) : List (Nat × Nat) :=
  [(s.devid, 48), (u.walkers, 40), (u.cachemib, 32), (u.dramgib, 24), (u.layers, 16), (u.spareclus, 10),
   ((s.dies.filter (·.enabled)).length, 5), (u.clusters, 0)]

/-- The special registers that MFSR reads, as their words, low first (R56 to R63). -/
def specialWords (c : Ctx) (sr : BitVec 10) : Option (List Word) :=
  let warp := c.ag.kind = .warp
  let tile := c.ag.kind = .tileSeq
  match sr.toNat with
  | 0 => some [c.ag.sregs.fpcsr]
  | 1 => some [c.ag.sregs.temp]
  | 2 => some [c.ag.sregs.pstat]
  | 3 => if warp then some [BitVec.ofNat 32 ((wstatFields c).foldr (fun p n => p.1 * 2 ^ p.2 ||| n) 0)] else none
  | 4 => if tile then some [c.ag.sregs.trcc] else none
  | 5 => if tile then some (lowHigh c.ag.sregs.trct) else none
  | 6 => some ((List.range 4).map fun j => BitVec.ofNat 32 (c.ag.sregs.faultinfo.toNat / 2 ^ (32 * j) % 2 ^ 32))
  | 8 => some (lowHigh (BitVec.ofNat 64 (packed (capcoreFields (c.s.cores.getD c.core default)))))
  | 9 => some [BitVec.ofNat 32 (packed (capclusFields (c.s.clusters.getD c.cluster default)))]
  | 10 => some (lowHigh (BitVec.ofNat 64 (packed (capdieFields c.s (c.s.dies.getD c.die default)))))
  | _ => none

/-- What MTSR leaves in the special registers: reserved bits stay 0 and read-only fields stay as they are (R57 to R62). -/
def specialAfter (r : SRegs) (warp : Bool) (sr : BitVec 10) (ws : List Word) : SRegs :=
  let w := ws.getD 0 0#32
  match sr.toNat with
  | 0 => { r with fpcsr := w &&& 0x3F07#32 }
  | 1 => { r with temp := w }
  | 2 => { r with pstat := w &&& 0x303#32 }
  | 3 => { r with memberExit := w.getLsbD 0 }
  | 4 =>
    let bit (n : Nat) : Nat := if w.getLsbD n then 2 ^ n else 0
    let v := bit 0 + 2 * min 32 (w.toNat / 2 % 64) + 2 ^ 7 * max 1 (min 16 (w.toNat / 2 ^ 7 % 32)) + bit 12 + bit 16 + bit 17
    { r with trcc := BitVec.ofNat 32 v }
  | 5 => { r with trct := ws.getD 1 0#32 ++ w }
  | _ =>
    let mask := if warp then (ws.getD 1 0#32).toNat else (ws.getD 1 0#32).toNat % 2
    let v := (ws.getD 3 0#32).toNat * 2 ^ 96 + (ws.getD 2 0#32).toNat * 2 ^ 64 + mask * 2 ^ 32 + (w &&& 0xF83FF#32).toNat
    { r with faultinfo := BitVec.ofNat 128 v }

/-- The special register exists for the agent (R56). -/
def specialFor (k : AgentKind) (sr : BitVec 10) : Bool :=
  match sr.toNat with
  | 0 | 1 | 2 | 6 => true
  | 3 => k == .warp
  | 4 | 5 => k == .tileSeq
  | _ => false

/-! ### Atomics, compacting stores, streams (R203 to R207, R215, R216) -/

/-- A precise trap of some lanes (R335). -/
def trapIn (_c : Ctx) (cause : Nat) (mask : Mask) (addr access : Nat) : Trap :=
  { cause := cause, mask := mask, addr := BitVec.ofNat 64 addr, access := access, level := none, partDone := false }

/-- The state after that trap of an instruction of len words, taken from the state u. -/
def trapped (c : Ctx) (u : State) (len : Nat) (t : Trap) : State := takeTrap u c.a c.e len t

/-- Signed value of an unsigned number at a width. -/
def signedAt (w n : Nat) : Int := if n < 2 ^ (w - 1) then n else (n : Int) - (2 ^ w : Nat)

/-- The new value that R203 gives, at width w: o is the old value and b the operand. -/
def atomicResult (w : Nat) (f : Fmt) (op o b : Nat) : Nat :=
  match op with
  | 1 => (o + b) % 2 ^ w
  | 2 => o &&& b
  | 3 => o ||| b
  | 4 => o ^^^ b
  | 5 => b
  | 6 => if signedAt w b < signedAt w o then b else o
  | 7 => if signedAt w o < signedAt w b then b else o
  | 8 => min o b
  | 9 => max o b
  | 10 => if b ≤ o then 0 else o + 1
  | 11 => if o = 0 ∨ b < o then b else o - 1
  | _ => (fAdd f rne false o b).1 % 2 ^ w

/-- The form of an atomic or CAS: bytes, destination, guard, coordinate register, entry, level, order, and a lane's new
value and mark from the old ones (R203, R204). -/
structure AtomicForm where
  size : Nat
  dest : Reg
  guard : PReg
  coords : Reg
  lay : BitVec 6
  level : BitVec 4
  ord : BitVec 2
  value : Ctx → Nat → Nat → Bool → Nat × Bool

/-- The operand of a lane: a word, or a pair. -/
def atomicOperand (wide : Bool) (c : Ctx) (r : Reg) (i : Nat) : Nat :=
  if wide then (lanePair c r i).toNat else (c.ag.word r.toNat i).toNat

/-- The mark of an operand. -/
def operandMark (wide : Bool) (c : Ctx) (r : Reg) (i : Nat) : Bool := laneMark (if wide then pairRegs r else [r.toNat]) [] c i

def atomicForm : Instr → Option AtomicForm
  | .atom32 vd va ps vc lay lv op ord => atom false vd va ps vc lay lv op ord
  | .atom64 vd va ps vc lay lv op ord => atom true vd va ps vc lay lv op ord
  | .cas32 vd va vb ps vc lay lv ord => some (cas false vd va vb ps vc lay lv ord)
  | .cas64 vd va vb ps vc lay lv ord => some (cas true vd va vb ps vc lay lv ord)
  | _ => none
where
  atom (wide : Bool) (vd va : Reg) (ps : PReg) (vc : Reg) (lay : BitVec 6) (lv : BitVec 4) (op : BitVec 5)
      (ord : BitVec 2) : Option AtomicForm :=
    if 1 ≤ op.toNat ∧ op.toNat ≤ 12 then some
      { size := if wide then 8 else 4, dest := vd, guard := ps, coords := vc, lay := lay, level := lv, ord := ord
        value := fun c i o m =>
          (atomicResult (if wide then 64 else 32) (if wide then fp64 else fp32) op.toNat o (atomicOperand wide c va i),
            operandMark wide c va i || (op != 5#5 && m)) }
    else none
  cas (wide : Bool) (vd va vb : Reg) (ps : PReg) (vc : Reg) (lay : BitVec 6) (lv : BitVec 4) (ord : BitVec 2) : AtomicForm :=
    { size := if wide then 8 else 4, dest := vd, guard := ps, coords := vc, lay := lay, level := lv, ord := ord
      value := fun c i o m =>
        (if o = atomicOperand wide c vb i then atomicOperand wide c va i else o,
          m || operandMark wide c va i || operandMark wide c vb i) }

/-- The entry of an atomic, and the point at which it acts: the nearer of its level and its space's reach (R204). -/
def atomicEntry (c : Ctx) (f : AtomicForm) : Layout := c.ag.layouts.getD f.lay.toNat Layout.zero
def atomicPoint (c : Ctx) (f : AtomicForm) : Point := (pointOf true (c.phys f.level.toNat)).min (atomicEntry c f).reach

/-- Is an atomic one of those that a team issues in its turn (R272)? -/
def atomicTurn (c : Ctx) (f : AtomicForm) : Bool :=
  c.task.deterministic && ((atomicEntry c f).shared || atomicPoint c f != .core)

/-- The lanes of x with their keys, in increasing lane number. -/
def keyedLanes (x : Mask) (keys : Nat → Option Nat) : List (Nat × Option Nat) := (lanesWith (inMask x)).map fun i => (i, keys i)

/-- SHARED stores that teams of the core have buffered stand at the elements of an atomic that acts beyond the core: they come
before it at that point (R221, R224; log 45). -/
def meetsBuffered (c : Ctx) (f : AtomicForm) (ks : List (Nat × Option Nat)) (u : State) : Bool :=
  ks.any fun q => q.2.any fun k => u.bufferedBelow c.a (atomicPoint c f) k f.size

/-- The state in which the lanes ks of an atomic may go on: in its turn the team's buffer drains, for an atomic of that turn and for
one that meets such stores (R272). -/
def drainedFor (s : State) (c : Ctx) (f : AtomicForm) (ks : List (Nat × Option Nat)) : State :=
  if atomicTurn c f = true ∨ (c.task.deterministic = true ∧ Turn s c.ag.team ∧ s.bufferHeld c.ag.team = false ∧
      meetsBuffered c f ks s = true) then s.drainBuffer c.ag.team
  else s

/-- What lets the lanes ks of an atomic act now: in deterministic mode it is its team's turn (R272), a release order may be performed
(R223), and no buffered store stands at its elements (log 45). -/
def AtomicGoes (s : State) (c : Ctx) (f : AtomicForm) (ks : List (Nat × Option Nat)) : Prop :=
  (atomicTurn c f = true → Turn s c.ag.team ∧ s.bufferHeld c.ag.team = false) ∧
  (f.ord.getLsbD 1 = true → MayRelease s c.a (pointOf true (c.phys f.level.toNat))) ∧
  meetsBuffered c f ks (drainedFor s c f ks) = false

/-- What an atomic needs to complete: its level is declared, its guard passes the checks, its destination may be GENERAL, its
elements are in order, nothing still fetched stands at them (R328), and it may act now. -/
def AtomicReady (s : State) (c : Ctx) (f : AtomicForm) (keys : Nat → Option Nat) : Prop :=
  f.level.toNat < c.depth ∧ GuardClear c f.guard.toNat ∧ f.dest.toNat + f.size / 4 ≤ c.g ∧ f.dest.toNat + f.size / 4 ≤ 128 ∧
  AccessOk c (c.guardHolds f.guard.toNat) (atomicEntry c f) f.coords.toNat f.size .atomic keys ∧
  (∀ l k, inMask (c.guardHolds f.guard.toNat) l = true → keys l = some k → s.fetchHolds k f.size = false) ∧
  AtomicGoes s c f (keyedLanes (c.guardHolds f.guard.toNat) keys)

/-- The state in which an atomic acts: a release order has performed the agent's earlier accesses (R223). -/
def beforeAtomic (s : State) (c : Ctx) (f : AtomicForm) (ks : List (Nat × Option Nat)) : State :=
  let u := drainedFor s c f ks
  if f.ord.getLsbD 1 then u.release c.a (pointOf true (c.phys f.level.toNat)) else u

/-- After it, an acquire order refreshes the agent's view. -/
def afterAtomic (c : Ctx) (f : AtomicForm) (u : State) : State :=
  if f.ord.getLsbD 0 then u.refresh c.a (pointOf true (c.phys f.level.toNat)) else u

/-- Nothing is on its way to memory. -/
def Still (s : State) : Prop :=
  s.corePend = [] ∧ s.clusterPend = [] ∧ (∀ g ∈ s.agents, g.streamed = []) ∧ ∀ t ∈ s.teams, t.buffer = []

/-- Atomics on a memory, lane after lane: each reads the old value, and the next sees what it wrote (R204). -/
def atomicsOn (n : Nat) (value : Nat → Nat → Bool → Nat × Bool) :
    List (Nat × Option Nat) → Memory → Memory × List (Nat × Nat × Bool)
  | [], m => (m, [])
  | (_, none) :: rest, m => atomicsOn n value rest m
  | (i, some k) :: rest, m =>
    let old := bytesAt m k n
    let mark := (List.range n).any fun b => m.marked (k + b)
    let y := value i old mark
    let z := atomicsOn n value rest (m.perform (storeOf k n ((List.range n).map fun b => BitVec.ofNat 8 (y.1 / 2 ^ (8 * b)))
      (List.replicate (n / 4) y.2)))
    (z.1, (i, old, mark) :: z.2)

/-- What an atomic returns to a lane: the old value's words and their mark, 0 for an absent element. -/
def oldWord (outs : List (Nat × Nat × Bool)) (j l : Nat) : Word :=
  match outs.find? (·.1 == l) with
  | some (_, o, _) => BitVec.ofNat 32 (o / 2 ^ (32 * j))
  | none => 0#32
def oldMark (outs : List (Nat × Nat × Bool)) (l : Nat) : Bool :=
  match outs.find? (·.1 == l) with
  | some (_, _, m) => m
  | none => false

/-- The context of the same fragment in a later state. -/
def laterIn (c : Ctx) (u : State) : Ctx := { c with s := u, ag := u.agent c.a }

/-- The elements of the lanes of a list, from position pos on, go to memory one after another, from the state u to the
state w; one that is absent is counted alone (R205). -/
def CompactStores (c : Ctx) (l : Layout) (vs : Nat) (base : List Int) : List Nat → Word → State → State → Prop
  | [], _, u, w => w = u
  | i :: rest, pos, u, w =>
    match l.spot (base.modify 0 (· + (pos.toNat : Int))) with
    | .out => False
    | .absent => CompactStores c l vs base rest (pos + 1#32) u w
    | .at off =>
      off % 4 = 0 ∧ (l.isLocal = true → off + 4 ≤ c.task.localAlloc) ∧ (l.isGran = true → off + 4 ≤ c.task.info.granary) ∧
      ∃ k, ({ c with s := u } : Ctx).place l off .write = .key k ∧ u.fetchHolds k 4 = false ∧
        CompactStores c l vs base rest (pos + 1#32)
          (c.storeThrough l u (storeOf k 4 ((List.range 4).map (dataByte c vs i)) [(c.ag.reg vs).marked i])) w

/-- An element traps: out of bounds, beyond the limits of R192, misaligned, or not translated (R194, R198). -/
def ElementFails (c : Ctx) (l : Layout) (xs : List Int) (n : Nat) (acc : Access) (cause addr access : Nat) : Prop :=
  match l.spot xs with
  | .out => cause = 0x09 ∧ addr = 0 ∧ access = 0
  | .absent => False
  | .at off =>
    addr = off ∧
    if (l.isLocal = true ∧ c.task.localAlloc < off + n) ∨ (l.isGran = true ∧ c.task.info.granary < off + n) then
      cause = 0x08 ∧ access = 0
    else if off % n ≠ 0 then cause = 0x13 ∧ access = 0
    else c.place l off acc = .fail cause ∧ access = acc.code

/-- The state u is the state u0 with destination registers of the issuing agent written in the lanes of x, as in `LaneWrite`,
and nothing else (R198). -/
def LanesGiven (c : Ctx) (u0 u : State) (x : Mask) (outs : List LaneDest) : Prop :=
  let g := u.agent c.a
  u = u0.modAgent c.a (fun _ => g) ∧ g = { u0.agent c.a with regs := g.regs } ∧
  (∀ r, (∀ o ∈ outs, o.1 ≠ r) → g.reg r = c.ag.reg r) ∧
  ∀ o ∈ outs, ∀ i, i < 32 →
    g.word o.1 i = (if inMask x i then o.2.1 i else c.ag.word o.1 i) ∧
    (g.reg o.1).marked i = (if inMask x i then o.2.2 i else (c.ag.reg o.1).marked i)

/-- No stop signal keeps the accesses of a stream back, and a device answers them (R364). -/
def StreamOpen (s : State) (x : Stream) : Prop :=
  s.keptBack x.index = false ∧ s.keptBack x.entry = false ∧ s.silent x.index = false ∧ s.silent x.entry = false

/-- The elements that a stream gives the next n takers: those already fetched, then those of R215. -/
def StreamGives (c : Ctx) (x : Stream) (n : Nat) (key : Nat → Option Nat) (mark : Nat → Bool) : Prop :=
  ∀ e, e < n →
    match x.fifo[e]? with
    | some (k, _, p) => key e = k ∧ mark e = p
    | none => c.streamElem x (x.next + e) = .here (key e) (mark e) ∨
        (c.streamElem x (x.next + e) = .lost ∧ key e = none ∧ mark e = true)

/-- The word of each of the next n elements that has no place: what stands with it when it is fetched already, and 0 when it is
absent. That of a lost element, whose poisoned index names no place, is a free value (R215; log 49). -/
def PlacelessWords (c : Ctx) (x : Stream) (n : Nat) (word : Nat → Word) : Prop :=
  ∀ e, e < n → (∀ k w p, x.fifo[e]? = some (k, w, p) → word e = w) ∧
    (x.fifo[e]? = none → ∀ p, c.streamElem x (x.next + e) = .here none p → word e = 0#32)

/-- None of the next n elements is lost. -/
def NoneLost (c : Ctx) (x : Stream) (n : Nat) : Prop := ∀ e, e < n → x.fifo[e]? = none → c.streamElem x (x.next + e) ≠ .lost

/-- R215: element i of a stream lies at coordinate 0 plus the index X[s + i], and where the index is poisoned the element is too
and no trap is taken. The index is read where its own key k stands. -/
def IndexedElement (c : Ctx) (x : Stream) (i : Nat) : Prop :=
  let acc : Access := if x.write then .write else .read
  ∀ k, c.place1 x.index [x.start + i] 4 .read = .put k →
    let idx := bytesAt (c.s.engineMem c.a) k 4
    let p := (List.range 4).any fun b => (c.s.engineMem c.a).marked (k + b)
    let at_ := x.coords.modify 0 (· + (idx : Int))
    match c.place1 x.entry at_ x.entry.size acc with
    | .put q => c.streamElem x i = .here (some q) p
    | .skip => c.streamElem x i = .here none p
    | .fail cause addr access => c.streamElem x i = if p then .lost else .fail cause addr access (c.s.peerOf x.entry)
    | _ => True

/-- The place of a lane among those of a mask. -/
def rank (x : Mask) (l : Nat) : Nat := (lanesWith fun i => inMask x i && decide (i < l)).length

/-- The lanes of a list supply elements of stream m one after another: an element with an address joins the stream's queue
with its data and mark, or in deterministic mode its team's buffer, and the loads of its core see it at once (R216, R222,
R272). -/
def StreamTakes (c : Ctx) (m va : Nat) : List Nat → State → State → Prop
  | [], u, w => w = u
  | i :: rest, u, w =>
    let x := (u.agent c.a).stream m
    ∃ k p, (({ c with s := u } : Ctx).streamElem x x.next = .here k p ∨
        (({ c with s := u } : Ctx).streamElem x x.next = .lost ∧ k = none)) ∧
      StreamTakes c m va rest
        (match k with
          | none => u.setStream c.a m fun y => { y with next := y.next + 1 }
          | some k =>
            let mark := p || (c.ag.reg va).marked i
            let st := storeOf k x.entry.size ((List.range 4).map (dataByte c va i)) [mark]
            if x.entry.shared && c.task.deterministic then
              (u.bufferStore c.a st).setStream c.a m fun y => { y with next := y.next + 1 }
            else (((u.drainOver c.a st).supersede c.a st).showStore c.a st).setStream c.a m fun y =>
              { y with fifo := y.fifo ++ [(some k, c.ag.word va i, mark)], next := y.next + 1 }) w

/-- The word that a key gets from the tag entries, and whether the lowest entry of the key is READY (R207). -/
def tagAnswer (tags : List Tag) (key r : Word) (ready : Bool) : Prop :=
  (¬ (∃ t ∈ tags, t.state ≠ .invalid ∧ t.key = key) ∧ r = 0xFFFFFFFF#32 ∧ ready = false) ∨
  ∃ t ∈ tags, t.state ≠ .invalid ∧ t.key = key ∧ (∀ u ∈ tags, u.state ≠ .invalid → u.key = key → t.start ≤ u.start) ∧
    (ready = true ↔ t.state = .ready) ∧ r = (if t.state = .ready then BitVec.ofNat 32 t.start else 0xFFFFFFFE#32)

/-- The first registers of what traps before an access, with the access: loads, stores, atomics. -/
def accessForm (i : Instr) : Option (MemForm × Access × Nat) :=
  match loadForm i, storeForm i, atomicForm i with
  | some f, _, _ => some (f, .read, 1)
  | none, some f, _ => some (f, .write, 1)
  | none, none, some f => some (⟨f.size, f.dest, f.coords, f.lay, f.guard⟩, .atomic, 2)
  | none, none, none => none

/-- The lanes of x with a property, and the lowest lane of them. -/
def LanesAre (x m : Mask) (P : Nat → Prop) : Prop := m ≠ 0#32 ∧ ∀ i, i < 32 → (inMask m i = true ↔ inMask x i = true ∧ P i)
def IsLowest (m : Mask) (i : Nat) : Prop := inMask m i = true ∧ ∀ j, j < i → inMask m j = false

/-- The instructions whose destination must be a full register when not every lane is written (R44). -/
def laneTables (i : Instr) : Option LaneLaw :=
  [integerArithmetic, bitInstructions, immediateInstructions, pairInstructions, fp32Instructions, fp64Instructions,
    conversions, predicateReads, warpWide].findSome? fun table => table i

/-- Base and stride of a register that is not GENERAL (R46 rule 2). -/
def baseStride (v : VReg) : Option (Word × Word) :=
  match v.shape with
  | .uniform x => some (x, 0#32)
  | .affine b s => some (b, s)
  | .general _ => none

/-- The base and stride that R46 gives a result in all lanes, when no source is GENERAL: from the words of the sources. -/
def keptShape (c : Ctx) : Instr → Option (Word × Word)
  | .mov _ va _ => baseStride (c.ag.reg va.toNat)
  | .iadd _ va vb _ => both (c.ag.reg va.toNat) (c.ag.reg vb.toNat) fun a b => a + b
  | .isub _ va vb _ => both (c.ag.reg va.toNat) (c.ag.reg vb.toNat) fun a b => a - b
  | .iaddi _ va imm => (baseStride (c.ag.reg va.toNat)).map fun p => (p.1 + BitVec.ofInt 32 imm.toInt, p.2)
  | .shl _ va vb _ =>
    match (c.ag.reg vb.toNat).shape with
    | .uniform n => scaled (c.ag.reg va.toNat) fun a => if n.toNat < 32 then BitVec.ofNat 32 (a.toNat * 2 ^ n.toNat) else 0#32
    | _ => none
  | .shli _ va imm => scaled (c.ag.reg va.toNat) fun a => if imm.toNat < 32 then BitVec.ofNat 32 (a.toNat * 2 ^ imm.toNat) else 0#32
  | .imul _ va vb _ =>
    match (c.ag.reg va.toNat).shape, (c.ag.reg vb.toNat).shape with
    | _, .uniform m => scaled (c.ag.reg va.toNat) fun a => a * m
    | .uniform m, _ => scaled (c.ag.reg vb.toNat) fun b => b * m
    | _, _ => none
  | .movi _ imm => some (BitVec.ofInt 32 imm.toInt, 0#32)
  | .movi32 _ _ imm => some (imm, 0#32)
  | _ => none
where
  both (v w : VReg) (f : Word → Word → Word) : Option (Word × Word) :=
    match baseStride v, baseStride w with
    | some p, some q => some (f p.1 q.1, f p.2 q.2)
    | _, _ => none
  scaled (v : VReg) (f : Word → Word) : Option (Word × Word) := (baseStride v).map fun p => (f p.1, f p.2)

/-- The shape of register j of the result of a lane instruction that writes every lane, where it is not GENERAL (R46): UNIFORM of the
lanes' common value for SHAPE, PSUM, for LMASK, REDUX and XLANE.abs with a UNIFORM vb, and for IADD64 and ISUB64 of UNIFORM halves
(rules 3 and 6); that of MOV for SELB on P7 (R251); and a base and a stride where rules 1 and 2 give one. -/
def keptBy (c : Ctx) (i : Instr) (j : Nat) : Option (Word → Shape) :=
  let uniform (r : Nat) : Bool := match (c.ag.reg r).shape with
    | .uniform _ => true
    | _ => false
  let plain (b : Bool) : Option (Word → Shape) := if b then some .uniform else none
  let shaped (p : Option (Word × Word)) : Option (Word → Shape) :=
    p.map fun p _ => if p.2 = 0#32 then .uniform p.1 else .affine p.1 p.2
  match i with
  | .shape _ _ _ | .psum _ _ _ => plain true
  | .lmask _ _ vb _ | .redux _ _ vb _ => plain (uniform vb.toNat)
  | .xlane _ _ vb k => plain (k == 0#3 && uniform vb.toNat)
  | .iadd64 _ va vb _ | .isub64 _ va vb _ => plain ((pairRegs va ++ pairRegs vb).all uniform)
  | .selbF32 _ va _ pk | .selbBf16x2 _ va _ pk => if pk = 7#3 then shaped (baseStride (c.ag.reg va.toNat)) else none
  | .selbF64 _ va _ pk => if pk = 7#3 then shaped (baseStride (c.ag.reg (va.toNat + j))) else none
  | i => shaped (keptShape c i)

/-! ### Tasks, programs, arrivals, copies, the matrix array -/

/-- The status word of a retired task (R263): status, cause and overdue. -/
def retiredWord (t : Task) : Word := BitVec.ofNat 32 (t.status % 2 ^ 8 + 2 ^ 8 * (t.cause % 2 ^ 8) + if t.overdue then 2 ^ 16 else 0)

/-- The task that a task's own launches know by an id. -/
def isChild (s : State) (c : Ctx) (id : Word) (t : Task) : Prop :=
  s.tasks.find? (fun t => t.launcher == .task c.team.task && t.id == id.toNat) = some t
def noChild (s : State) (c : Ctx) (id : Word) : Prop :=
  s.tasks.find? (fun t => t.launcher == .task c.team.task && t.id == id.toNat) = none

/-- A fork instruction: the kind of context and the section of its code (R92, R185). -/
def forkForm : Instr → Option (AgentKind × Nat × Reg × Reg × Reg)
  | .forkTile vd va vb => some (.tileSeq, 1, vd, va, vb)
  | .forkCopy vd va vb => some (.copySeq, 2, vd, va, vb)
  | _ => none

/-- The key of an arrival word, and the operand with it, for an instruction that R197 and R214 find in order. -/
def ArrivalAt (c : Ctx) (va vb : Reg) (lay : BitVec 6) (k : Nat) (v : Word) : Prop :=
  let l := { c.ag.layouts.getD lay.toNat Layout.zero with mode := 0#8 }
  ∃ (xs : List Word) (off : Nat), 1 ≤ l.dims.toNat ∧ l.isLocal = true ∧ l.size = 8 ∧ va.toNat + l.nd ≤ c.n ∧ xs.length = l.nd ∧
    (∀ j, j < l.nd → paramIs c (va.toNat + j) (xs.getD j 0#32)) ∧ paramIs c vb.toNat v ∧
    l.spot (xs.map BitVec.toInt) = .at off ∧ off + 8 ≤ c.task.localAlloc ∧ off % 8 = 0 ∧ k = localKey c.ag.team off

/-- The fields of an arrival word (R55). -/
def wordGen (w : DWord) : Nat := w.toNat / 2 ^ 57
def wordErr (w : DWord) : Bool := w.getLsbD 56
def wordCount' (w : DWord) : Nat := w.toNat / 2 ^ 28 % 2 ^ 28
def wordTarget (w : DWord) : Nat := w.toNat % 2 ^ 28

/-- R55 and R214: what an arrival of n makes of a word. -/
def Arrived (w : DWord) (n : Nat) (r : DWord) : Prop :=
  let sum := wordCount' w + n
  let ends : Prop := wordTarget w ≠ 0 ∧ wordTarget w ≤ sum
  wordTarget r = wordTarget w ∧
  (ends → wordGen r = (wordGen w + 1) % 128) ∧ (¬ ends → wordGen r = wordGen w) ∧
  (2 ^ 28 - 1 < sum → wordCount' r = 2 ^ 28 - 1) ∧
  (sum ≤ 2 ^ 28 - 1 → (ends → wordCount' r = sum - wordTarget w) ∧ (¬ ends → wordCount' r = sum)) ∧
  (wordErr r = true ↔ wordErr w = true ∨ (ends ∧ wordTarget w < sum) ∨ 2 ^ 28 - 1 < sum)

/-- A word with a new target. -/
def withTarget (w : DWord) (n : Nat) : DWord := BitVec.ofNat 64 (w.toNat / 2 ^ 28 * 2 ^ 28 + n % 2 ^ 28)

/-- The parameter registers from r on hold these words. -/
def paramRun (c : Ctx) (r : Reg) (ws : List Word) : Prop := ∀ j, j < ws.length → paramIs c (r.toNat + j) (ws.getD j 0#32)

/-- A bit field of a word. -/
def field (w : Word) (lo n : Nat) : Nat := w.toNat / 2 ^ lo % 2 ^ n

/-- The layout entry of a number. -/
def entryOf (c : Ctx) (n : Nat) : Layout := c.ag.layouts.getD n Layout.zero

/-- The arrival word that a copy block names with the given bits: none when it is not used, else its key (R210). -/
def BlockArrival (c : Ctx) (w0 : Word) (flag at_ : Nat) (x : Word) (k : Option Nat) : Prop :=
  if field w0 flag 1 = 0 then k = none
  else
    let l := { entryOf c (field w0 at_ 6) with mode := 0#8 }
    l.dims = 1#8 ∧ l.isLocal = true ∧ l.esize = 3#8 ∧
      ∃ off, l.spot [x.toInt] = .at off ∧ off + 8 ≤ c.task.localAlloc ∧ off % 8 = 0 ∧ k = some (localKey c.ag.team off)

/-- A place among the copies of the core (R212). -/
def copyRoom (s : State) (c : Ctx) : Prop := s.copiesOn c.core < (s.cores.getD c.core default).copies

/-- The state with a copy put on the issuer's timeline under the next number; one without elements completes at once. -/
def copyStarted (c : Ctx) (u : State) (op : CopyOp) : State :=
  let op := { op with num := c.ag.copyIssued + 1, walkAt := op.walkFrom, otherAt := op.otherFrom }
  let u := withIssuer c u fun g => { g with copyIssued := op.num, copyOps := g.copyOps ++ [op] }
  if op.count = 0 then u.copyEnd c.a op false false else u

/-- CPY, GATHER and SCATTER: kind, walked coordinates, block, walked entry. -/
def copyForm : Instr → Option (CopyKind × Reg × Reg × BitVec 6)
  | .cpy va vb lay => some (.cpy, va, vb, lay)
  | .gather va vb lay => some (.gather, va, vb, lay)
  | .scatter va vb lay => some (.scatter, va, vb, lay)
  | _ => none

/-- The copy that R210 makes of a block of eight words. -/
def copyOf (c : Ctx) (kind : CopyKind) (n : Layout) (xs bs : List Word) (arr : Option Nat) : CopyOp :=
  let o := entryOf c (field (bs.getD 0 0#32) 0 6)
  { num := 0, kind := kind, walked := n, walkFrom := xs.map BitVec.toInt, other := o,
    otherFrom := ((bs.drop 4).take o.nd).map BitVec.toInt, index := entryOf c (field (bs.getD 0 0#32) 6 6),
    indexFrom := (bs.getD 3 0#32).toInt, count := (bs.getD 1 0#32).toNat, arrival := arr, tableArrival := none, tables := [] }

/-- A run of tag entries touches none of n slots from a slot on (R206). -/
def tagsOutside (tags : List Tag) (slot n : Nat) : List Tag :=
  tags.filter fun t => !(decide (t.start < slot + n) && decide (slot < t.start + t.length))

/-- The slots of a team (R206). -/
def teamSlots (s : State) (c : Ctx) : Nat := min (c.task.localAlloc / 1024) (s.cores.getD c.core default).tags

/-- An instruction of the matrix context: the registers of its operand words, and for a word whether its format is one that
R320 accepts and how many bytes its region has. -/
def matForm (i : Instr) : Option (List Reg × (Word → Bool) × Nat) :=
  match i with
  | .mmaF64 va vb _ | .mmaBf16 va vb _ | .mmaF16 va vb _ | .mmaE4m3 va vb _ | .mmaE5m2 va vb _ | .mmaB1 va vb _ _
  | .mmaI8 va vb _ => (matType i).map fun t => ([va, vb], fun w => !t.bad w, t.region)
  | .accz _ _ => some ([], fun _ => true, 0)
  | .accld va _ p | .accst va _ p => some ([va], fun w => !regionBad w (if p = 1#1 then 64 else 32), if p = 1#1 then 32768 else 16384)
  | .acccvt va _ k => some ([va], fun w => !regionBad w (8 * dcvtSize k.toNat), 4096 * dcvtSize k.toNat)
  | _ => none

/-! ### Tile instructions (R273 to R314) -/

/-- A tile instruction that reads no memory element: its parameter registers, its sources, its unit, whether the kinds of its
sources are among those it takes, the results it asks for (none when it rounds, so that their kinds are known only later),
and the register of its status word. -/
structure TileForm where
  regs : List Nat
  srcs : List (BitVec 5)
  unit : TileUnit
  kinds : List Handle → Bool := fun _ => true
  wants : List Word → List Handle → Option (List Want)
  status : Option Reg := none

/-- Source k of an instruction. -/
def source (hs : List Handle) (k : Nat) : Handle := hs.getD k Handle.zero

/-- R290, R294, R300 to R303, R309, R310, R312, R313: kind 0 is ZERO, 1 DENSE, 2 LOWRANK; each result with its format and
rank. -/
def tileForm : Instr → Option TileForm
  | .tnew h v => some
      { regs := [v.toNat], srcs := [], unit := .transfer
        wants := fun ws _ => some [(h.toNat, field (ws.getD 0 0#32) 0 2, decide (field (ws.getD 0 0#32) 2 1 = 1),
          if field (ws.getD 0 0#32) 0 2 = 0 then 0 else 64)] }
  | .tnewImm h f k => some
      { regs := [], srcs := [], unit := .transfer
        wants := fun _ _ => some [(h.toNat, k.toNat, decide (f = 1#1), if k = 0#2 then 0 else 64)] }
  | .tadd d a b _ => some
      { regs := [], srcs := [a, b], unit := .winnower
        wants := fun _ hs =>
          let f32 := (source hs 0).f32 && (source hs 1).f32
          if (source hs 0).kind = 0 ∧ (source hs 1).kind = 0 then some [(d.toNat, 0, f32, 0)]
          else if (source hs 0).kind = 1 ∨ (source hs 1).kind = 1 then some [(d.toNat, 1, f32, 64)] else none }
  | .tscal h v => some
      { regs := [v.toNat, v.toNat + 1], srcs := [h], unit := .winnower
        wants := fun ws hs =>
          let factor := fp64.val ((ws.getD 1 0#32).toNat * 2 ^ 32 + (ws.getD 0 0#32).toNat)
          let x := source hs 0
          some [if x.kind = 0 ∨ factor.isZero = true then (h.toNat, 0, x.f32, 0)
            else if x.kind = 1 ∨ factor.nonFinite = true then (h.toNat, 1, x.f32, 64) else (h.toNat, 2, x.f32, x.rank)] }
  | .tmul d a b _ _ => some
      { regs := [], srcs := [a, b], unit := .winnower
        wants := fun _ hs =>
          let f32 := (source hs 0).f32 && (source hs 1).f32
          if (source hs 0).kind = 0 ∨ (source hs 1).kind = 0 then some [(d.toNat, 0, f32, 0)]
          else if (source hs 0).kind = 1 ∧ (source hs 1).kind = 1 then some [(d.toNat, 1, f32, 64)] else none }
  | .tround d a => some
      { regs := [], srcs := [a], unit := .winnower, kinds := fun hs => (source hs 0).kind != 1
        wants := fun _ hs => if (source hs 0).kind = 0 then some [(d.toNat, 0, (source hs 0).f32, 0)] else none }
  | .tcomp d a => some
      { regs := [], srcs := [a], unit := .winnower, kinds := fun hs => (source hs 0).kind != 2
        wants := fun _ hs => if (source hs 0).kind = 0 then some [(d.toNat, 0, (source hs 0).f32, 0)] else none }
  | .tdense d a k => some
      { regs := [], srcs := [a], unit := .winnower
        wants := fun _ hs => some [(d.toNat, 1, if k = 0#2 then (source hs 0).f32 else decide (k = 2#2), 64)] }
  | .tchol h v => some
      { regs := [], srcs := [h], unit := .winnower, kinds := fun hs => (source hs 0).kind != 2, status := some v
        wants := fun _ hs => some (if (source hs 0).kind = 1 then [(h.toNat, 1, (source hs 0).f32, 64)] else []) }
  | .tqr d a q => some
      { regs := [], srcs := [a], unit := .winnower, kinds := fun hs => (source hs 0).kind != 2
        wants := fun _ hs => some [upper hs d, (q.toNat, 1, (source hs 0).f32, 64)] }
  | .tqrR d a => some
      { regs := [], srcs := [a], unit := .winnower, kinds := fun hs => (source hs 0).kind != 2
        wants := fun _ hs => some [upper hs d] }
  | .ttrsm d a b _ => some
      { regs := [], srcs := [a, b], unit := .winnower, kinds := fun hs => (source hs 0).kind == 1
        wants := fun _ hs => some [(d.toNat, (source hs 1).kind, (source hs 0).f32 && (source hs 1).f32, (source hs 1).rank)] }
  | _ => none
where
  upper (hs : List Handle) (d : BitVec 5) : Want :=
    if (source hs 0).kind = 0 then (d.toNat, 0, (source hs 0).f32, 0) else (d.toNat, 1, (source hs 0).f32, 64)

/-- The parameters that an operation keeps: those of TSCAL (R301). -/
def keptParams : Instr → List Word → List Word
  | .tscal _ _, ws => ws
  | _, _ => []

/-- A tile operation as it issues: the next number, its parameters, elements and sources, the rounding registers as they
stand (R291). -/
def issuedTile (c : Ctx) (i : Instr) (params : List Word) (keys : List (Option Nat)) (srcs : List Handle) (u : TileUnit)
    (allocated : Bool) (ps : List Placed) : TileOp :=
  { num := c.ag.tile.issued + 1, instr := i, order := c.s.seq, params := params, trcc := c.ag.sregs.trcc,
    trct := c.ag.sregs.trct, keys := keys, srcs := srcs, unit := u, started := false, allocated := allocated, dests := ps,
    results := [], elems := [], status := 0#32, flags := 0#6, capped := false, densified := false }

/-- The context's operations with one more, and the timeline with one more number when it is numbered at issue. -/
def tilePushed (c : Ctx) (u : State) (op : TileOp) (numbered : Bool) : State :=
  withIssuer c { u with seq := u.seq + 1 } fun g =>
    { g with tile := { g.tile with ops := g.tile.ops ++ [op], issued := if numbered then g.tile.issued + 1 else g.tile.issued } }

/-- The status register of an operation is held until the operation completes (R307). -/
def statusHeld (c : Ctx) (v : Option Reg) (u : State) : State :=
  match v with
  | none => u
  | some v => withIssuer c u fun g =>
      { g with tile := { g.tile with statusRegs := g.tile.statusRegs ++ [(v.toNat, c.ag.tile.issued + 1)] } }

/-- The fragment waits for its allocation point or for its completion. -/
def awaitsTile (c : Ctx) (u : State) : State := u.modEntry c.a c.e fun en => { en with hold := .allocation }

/-- No operation of the context holds a handle of the instruction (R279). -/
def FreeHandles (c : Ctx) (i : Instr) : Prop := c.ag.tile.hazard i = false

/-- A handle of the issuing context. -/
def handleOf (c : Ctx) (h : BitVec 5) : Handle := c.ag.tile.handles.getD h.toNat Handle.zero

/-- How an operation with known results goes on its way: placed, or SLAB_EMPTY with nothing changed (R276). -/
def placedOrEmpty (s : State) (c : Ctx) (i : Instr) (params : List Word) (keys : List (Option Nat)) (srcs : List Handle)
    (u : TileUnit) (wants : List Want) (after : State → State) : State :=
  match s.placeAll c.a wants with
  | none => trapped c s 1 (trapIn c 0x0C c.act 0 0)
  | some (v, ps) => retired c 1 (after (tilePushed c v (issuedTile c i params keys srcs u true ps) true))

/-- The coordinates of a tile's elements, row by row, and of n elements in a line, each coordinate modulo 2^32 (R298, R299). -/
def gridOf (ws : List Word) : List (List Int) :=
  (List.range 4096).map fun n =>
    ((ws.getD 0 0#32 + BitVec.ofNat 32 (n % 64)).toInt :: (ws.getD 1 0#32 + BitVec.ofNat 32 (n / 64)).toInt ::
      (ws.drop 2).map BitVec.toInt)
def lineOf (ws : List Word) (n : Nat) : List (List Int) :=
  (List.range n).map fun e => (ws.getD 0 0#32 + BitVec.ofNat 32 e).toInt :: (ws.drop 1).map BitVec.toInt

/-- The keys of elements in order, none for an absent one: each in bounds, within its limits, aligned, translated, and not kept
back by a stop signal. -/
def KeysOf (c : Ctx) (l : Layout) (acc : Access) (els : List (List Int)) (ks : List (Option Nat)) : Prop :=
  ks.length = els.length ∧ ∀ j, j < els.length →
    match l.spot (els.getD j []) with
    | .out => False
    | .absent => ks.getD j none = none
    | .at off => c.s.keptBack l = false ∧ off % l.size = 0 ∧ (l.isLocal = true → off + l.size ≤ c.task.localAlloc) ∧
        (l.isGran = true → off + l.size ≤ c.task.info.granary) ∧ ∃ k, c.place l off acc = .key k ∧ ks.getD j none = some k

/-- A tile entry: dimensions and element size. -/
def entryFits (l : Layout) (dims size : Nat) : Prop := dims ≤ l.nd ∧ 1 ≤ l.nd ∧ l.size = size
def sizeOf' (f32 : Bool) : Nat := if f32 then 4 else 8

/-! ### Traps, modes, boot, events -/

/-- The handler that a trap at depth d is delivered to: the d-th region of the task's chain, while d is below 4 and its
HANDLER is not 0; WATCHDOG has none (R336). -/
def handlerFor (c : Ctx) (t : Trap) (h : DWord) : Prop :=
  t.cause ≠ 0x1A ∧ c.ag.frames.length < 4 ∧ h ≠ 0#64 ∧ ∃ r, c.task.chain[c.ag.frames.length]? = some r ∧ r.handler = h

/-- FAULTINFO of a trap (R62): CAUSE, ACCESS, LEVELV, LEVEL, MASK, ADDR; a sequencer holds MASK bit 0 alone. Where LEVELV is 0,
LEVEL is that of TRAP.esc's FAULTINFO, else 0 (R342). -/
def faultWords (warp : Bool) (t : Trap) (v : BitVec 128) : Prop :=
  v.toNat % 2 ^ 8 = t.cause % 2 ^ 8 ∧ v.toNat / 2 ^ 8 % 2 ^ 2 = t.access % 4 ∧ v.toNat / 2 ^ 10 % 2 ^ 5 = 0 ∧
  v.toNat / 2 ^ 15 % 2 = (if t.level.isSome then 1 else 0) ∧ v.toNat / 2 ^ 16 % 2 ^ 4 = t.level.getD t.stale % 2 ^ 4 ∧
  v.toNat / 2 ^ 20 % 2 ^ 12 = 0 ∧ v.toNat / 2 ^ 32 % 2 ^ 32 = (if warp then t.mask.toNat else t.mask.toNat % 2) ∧
  v.toNat / 2 ^ 64 = t.addr.toNat

/-- The entries of a handler: one that runs, with the lanes of MASK (R337). -/
def handlerEntries (warp : Bool) (h : DWord) (m : Mask) : List Entry :=
  { Entry.free with kind := .running, pc := h, mask := m } :: List.replicate (if warp then 7 else 0) Entry.free

/-- What entry into a handler saves (R337, R343), and beside it the device of a PEER trap with its address (R365; log 39). -/
def savedFrame (c : Ctx) (len : Nat) (t : Trap) : Frame :=
  { entries := c.ag.entries, wide := c.ag.wide, fpcsr := c.ag.sregs.fpcsr, temp := c.ag.sregs.temp,
    pstat := c.ag.sregs.pstat, faultinfo := c.ag.sregs.faultinfo, entry := c.e, pc := c.en.pc,
    next := c.en.pc + BitVec.ofNat 64 (4 * len), lanes := t.mask, partDone := t.partDone, peer := t.peer.map (·, t.addr) }

/-- Instructions of the tile sequencer alone (R79, R347). -/
def tileOnly (i : Instr) : Bool :=
  match i with
  | .commit _ | .tnew _ _ | .tnewImm _ _ _ | .tfree _ | .tslab _ _ | .tload _ _ _ _ | .tstore _ _ _ | .tlrld _ _ _ _
  | .tlrst _ _ _ | .tadd _ _ _ _ | .tscal _ _ | .tmul _ _ _ _ _ | .tround _ _ | .tcomp _ _ | .tdense _ _ _ | .tinfo _ _
  | .tnorm _ _ _ | .tgemm _ _ _ _ _ _ _ | .tchol _ _ | .tlu _ _ _ | .tqr _ _ _ | .tqrR _ _ | .ttrsm _ _ _ _ | .tmv _ _ _ _ => true
  | i => (matForm i).isSome

/-- Instructions of warps alone: the L set, and the U-set instructions that act on lanes or teams (R79). -/
def warpOnly (i : Instr) : Bool :=
  match i with
  | .bra _ _ | .bru _ _ | .exit _ | .reconv _ | .wide | .endwide | .bar _ _ | .tbar _ | .coll _ _ _ _ _ | .dsync | .tktake | .tkpass
  | .lookup _ _ _ | .cstore _ _ _ _ _ | .spop _ _ _ | .spush _ _ _ | .atom32 _ _ _ _ _ _ _ _ | .atom64 _ _ _ _ _ _ _ _ => true
  | i => (laneTables i).isSome || (compares i).isSome || (predicateLogic i).isSome || (accessForm i).isSome

/-- A trap of every active lane at the instruction's address, with ACCESS 3 (R335). -/
def trapHere (c : Ctx) (cause : Nat) : Trap :=
  { cause := cause, mask := c.act, addr := c.en.pc, access := 3, level := none, partDone := false }

/-- The level that an instruction names and checks first (R81). -/
def levelOf : Instr → Option (BitVec 4)
  | .tbar l | .coll l _ _ _ _ | .atom32 _ _ _ _ _ l _ _ | .atom64 _ _ _ _ _ l _ _ | .cas32 _ _ _ _ _ _ l _
  | .cas64 _ _ _ _ _ _ l _ => some l
  | .phase l | .fenceAr l | .fenceRel l | .fenceAcq l | .tfence l | .ifence l | .levelId l _ _ | .levelSize l _ _ | .tlbinv l _
  | .tlbinvAll l => some l
  | _ => none

/-- A reply line of a mailbox (R362): the record's SEQ, two results, zeros elsewhere. -/
def replyBytes (seq r0 r1 : DWord) : List Byte :=
  let eight (v : DWord) : List Byte := (List.range 8).map fun b => BitVec.ofNat 8 (v.toNat / 2 ^ (8 * b))
  eight seq ++ List.replicate 8 0#8 ++ eight r0 ++ eight r1 ++ List.replicate 32 0#8

/-- The state u after a reply in mailbox mb: the 64 bytes of its reply line, the words of that line unmarked, and the record
noted as acted on. -/
def replied (u : State) (mb : Nat) (seq r0 r1 : DWord) : State :=
  { u with
    mem := u.mem.perform (storeOf (u.mailboxes.getD mb default).reply 64 (replyBytes seq r0 r1) [])
    mailboxes := u.mailboxes.modify mb fun m => { m with lastSeq := seq, waiting := none } }

/-- A new record with an OP and its arguments stands in a mailbox that the host has set up (R362). -/
def RecordWaits (s : State) (mb op : Nat) (r : Record) : Prop :=
  s.booted = true ∧ mb < s.mailboxes.length ∧
  let m := s.mailboxes.getD mb default
  let b := m.request
  m.request ≠ 0 ∧ m.waiting = none ∧ r.seq ≠ m.lastSeq ∧
  r.seq = BitVec.ofNat 64 (bytesAt s.mem b 8) ∧ op = bytesAt s.mem (b + 8) 2 ∧ r.op = op ∧
  r.arg0 = BitVec.ofNat 64 (bytesAt s.mem (b + 16) 8) ∧ r.arg1 = BitVec.ofNat 64 (bytesAt s.mem (b + 24) 8) ∧
  (r.clean = true ↔ (∀ j, j < 6 → s.mem.read (b + 10 + j) = 0#8) ∧ ∀ j, j < 32 → s.mem.read (b + 32 + j) = 0#8)

/-- A mailbox knows a task by an id. -/
def MailTask (s : State) (mb : Nat) (id : DWord) (t : Task) : Prop :=
  s.tasks.find? (fun t => t.launcher == .mailbox mb && t.id == id.toNat) = some t
def statusReturned (u : State) (mb : Nat) (id : DWord) : State :=
  { u with mailboxes := u.mailboxes.modify mb fun m =>
      { m with statuses := m.statuses.map fun p => if p.1 = id.toNat then (p.1, p.2.1, true) else p } }

/-- An active agent's entry e is the one that waits for a service, with its argument and the pair for the result (R344). -/
def ServiceWaits (s : State) (a e n : Nat) (arg : DWord) (d : Nat) : Prop :=
  (s.agent a).phase = .active ∧ ((s.agent a).entry e).hold = .service n arg d ∧ e < (s.agent a).entries.length ∧
  ∀ j m x y, ((s.agent a).entry j).hold = .service m x y → j = e

/-- The service has been served: a PHASE at the launch domain, the result in its pair, the next instruction, the SYSC being the one that
the agent has completed last (R267, R344). -/
def served (u : State) (a e d : Nat) (r : DWord) : State :=
  (((u.release a .home).refresh a .home).modAgent a fun g =>
    { g.writeWords d false (lowHigh r) with issuedAt := (g.entry e).pc }).complete a e 1

/-- The device with every resident team off its core, Granary runs and slots as they are (R267, R275). -/
def allStopped (s : State) : State :=
  { s with
    teams := s.teams.map fun (tm : Team) => if tm.phase = .resident then { tm with phase := .suspended } else tm
    agents := s.agents.map fun (g : Agent) =>
      if (s.team g.team).phase = .resident ∧ g.phase ≠ .retired then { g with phase := .saved } else g }

/-- The keys of n bytes that the kernel reaches in a space. -/
def KernelBytes (s : State) (die space : Nat) (va : DWord) (n : Nat) (acc : Access) (keys : Nat → Nat) : Prop :=
  ∀ j, j < n → s.helmKey die space (va + BitVec.ofNat 64 j) acc = .ok (keys j)

/-- The measurement of a digest into register k (R372): MSk := SHA3-256(MSk ∥ digest). -/
def measured (u : State) (k : Nat) (digest : List Byte) : State :=
  { u with measures := u.measures.modify k fun m => sha3 (m ++ digest) }

/-! ### Launches (R11 to R20, R36, R37, R40, R92, R258, R259) -/

/-- The number that n bytes of a list from an offset on hold, lowest byte first (R5), and whether they are zero. -/
def numAt (b : List Byte) (off n : Nat) : Nat := ((List.range n).map fun j => (b.getD (off + j) 0#8).toNat * 256 ^ j).sum
def zeroAt (b : List Byte) (off n : Nat) : Prop := ∀ j, j < n → b.getD (off + j) 0#8 = 0#8

/-- The launch packet that 192 bytes hold (R258). -/
def PacketIs (b : List Byte) (p : Packet) : Prop :=
  let flag (n : Nat) (x : Bool) : Prop := x = true ↔ numAt b 0x0C 4 / 2 ^ n % 2 = 1
  let lo (k : Nat) : Nat := numAt b (0x60 + 12 * k) 8
  let length (k : Nat) : Nat := numAt b (0x68 + 12 * k) 4
  p.code = BitVec.ofNat 64 (numAt b 0 8) ∧ p.entry = numAt b 8 4 ∧ flag 0 p.coresident ∧ flag 1 p.abandon ∧ flag 2 p.system ∧
  p.pk = ((List.range 16).map fun k => numAt b (0x10 + 2 * k) 2) ∧ p.region = BitVec.ofNat 64 (numAt b 0x30 8) ∧
  p.deadline = BitVec.ofNat 64 (numAt b 0x38 8) ∧ p.args = BitVec.ofNat 64 (numAt b 0x40 8) ∧
  p.ranges = (((List.range 8).filter fun k => decide (lo k / 2 ^ 62 ≠ 0)).map fun k =>
    { mode := lo k / 2 ^ 62, start := (BitVec.ofNat 57 (lo k % 2 ^ 57)).signExtend 64, length := length k }) ∧
  (p.wellFormed = true ↔ numAt b 0x0C 4 < 8 ∧ zeroAt b 0x48 24 ∧ ∀ k, k < 8 → lo k / 2 ^ 57 % 32 = 0 ∧
    (lo k / 2 ^ 62 = 0 → lo k % 2 ^ 57 = 0 ∧ length k = 0) ∧ (lo k / 2 ^ 62 ≠ 0 → length k ≠ 0))

/-- Two ranges of bytes, start and size, share none. -/
def Apart (x y : Nat × Nat) : Prop := ∀ k, ¬ ((x.1 ≤ k ∧ k < x.1 + x.2) ∧ (y.1 ≤ k ∧ k < y.1 + y.2))

/-- The code object at an address passes the checks of R259, and this is what the Helm keeps of it (R92): every part that it reads is
mapped readable and not poisoned, and each rule on the header, the tree records and the section entries holds. -/
def CodeOk (s : State) (die space : Nat) (code : DWord) (i : CodeInfo) : Prop :=
  ∃ h t4 t sb : List Byte,
    let treeOff := numAt h 0x10 4
    let nsect := numAt h 0x18 4
    let d := numAt t4 0 1
    let record (k : Nat) : List Byte := (t.drop (4 + 20 * k)).take 20
    let depth := if 1 ≤ d ∧ d ≤ 16 then d else 0
    let sect (k : Nat) : Nat × Nat × Nat := (numAt sb (24 * k) 1, numAt sb (24 * k + 8) 8, numAt sb (24 * k + 16) 8)
    let part (k : Nat) : Nat × Nat := ((sect k).2.1, (sect k).2.2)
    let inFile (k : Nat) : Prop := k < nsect ∧ (sect k).1 ≠ 5
    code.toNat % 64 = 0 ∧ s.readClean die space code 128 = some h ∧
    s.readClean die space (code + BitVec.ofNat 64 treeOff) 4 = some t4 ∧
    s.readClean die space (code + BitVec.ofNat 64 treeOff) (4 + 20 * depth) = some t ∧
    s.readClean die space (code + BitVec.ofNat 64 (numAt h 0x14 4)) (24 * nsect) = some sb ∧
    numAt h 0 4 = 0x58444E47 ∧ numAt h 4 2 = 1 ∧ zeroAt h 0x34 76 ∧ 1 ≤ numAt h 6 1 ∧ numAt h 6 1 ≤ 128 ∧
    numAt h 7 1 ≤ numAt h 6 1 ∧ numAt h 0x0C 4 % 256 = 0 ∧
    (∀ k, k < depth → zeroAt (record k) 19 1 ∧ (numAt (record k) 18 1 ≤ 7 ∨ numAt (record k) 18 1 = 0xFF) ∧
      (∃ n, 1 ≤ n ∧ n ≤ 15 ∧ (∀ j, j < n → (record k).getD j 0#8 ≠ 0#8) ∧ zeroAt (record k) n (16 - n)) ∧
      ∀ j, j < k → (record j).take 16 ≠ (record k).take 16) ∧
    (∀ k, k < nsect → zeroAt sb (24 * k + 1) 7 ∧ (sect k).1 ≤ 6 ∧ ∀ j, j < k → (sect j).1 ≠ (sect k).1) ∧
    (∃ k, k < nsect ∧ (sect k).1 = 0 ∧ (sect k).2.2 ≠ 0) ∧
    (∀ k, inFile k → (∀ j, inFile j → j ≠ k → Apart (part j) (part k)) ∧
      ∀ x ∈ [(0, 128), (treeOff, 4 + 20 * depth), (numAt h 0x14 4, 24 * nsect), (numAt h 0x1C 4, 64 * numAt h 0x20 4),
        (numAt h 0x24 4, 16 * numAt h 0x28 4), (numAt h 0x2C 4, if numAt h 0x2C 4 = 0 then 0 else numAt h 0x30 4)],
        Apart x (part k)) ∧
    (∀ k, k < nsect → (sect k).1 = 5 → (sect k).2.2 = numAt h 8 4) ∧
    ((∀ k, k < nsect → (sect k).1 ≠ 5) → numAt h 8 4 = 0) ∧
    i = { regsN := numAt h 6 1, regsG := numAt h 7 1, localSize := numAt h 8 4, granary := numAt h 0x0C 4
          tree := (List.range depth).map fun k => { fan := numAt (record k) 16 2, phys := min 8 (numAt (record k) 18 1) }
          sections := (List.range nsect).map sect }

/-- The blocks from a region up to its root, at most 16, each aligned, mapped readable and writable to the launcher and with its
reserved bits zero, with their own fields and their OVERRIDE (R36, R40). A page that is not dirty yet counts as writable (log 24). -/
def ChainFrom (s : State) (die space : Nat) : Nat → DWord → List (Region × Word) → Prop
  | n + 1, va, (r, ov) :: rest =>
    ∃ bm, s.readVa die space va 256 = some bm ∧
      let b := bm.map (·.1)
      let flag (k : Nat) : Bool := decide (numAt b 0x25 1 / 2 ^ k % 2 = 1)
      va.toNat % 256 = 0 ∧ (∃ k, s.helmKey die space va .read = .ok k) ∧
      ((∃ k, s.helmKey die space va .write = .ok k) ∨ s.helmKey die space va .write = .error 0x10) ∧
      numAt b 0x24 1 < 8 ∧ numAt b 0x25 1 < 8 ∧ zeroAt b 0x26 2 ∧ numAt b 0x48 4 < 2 ^ 12 ∧ zeroAt b 0x50 176 ∧
      ov = BitVec.ofNat 32 (numAt b 0x48 4) ∧
      r = { va := va, cores := numAt b 8 4, pages := numAt b 0x0C 4, localBytes := numAt b 0x10 8, granary := numAt b 0x18 8
            slabs := numAt b 0x20 4, prio := numAt b 0x24 1, preemptible := flag 0, deterministic := flag 1, reqsign := flag 2
            handler := BitVec.ofNat 64 (numAt b 0x28 8), watchdog := numAt b 0x30 8, qlimit := numAt b 0x4C 4 } ∧
      if numAt b 0 8 = 0 then rest = [] else ChainFrom s die space n (BitVec.ofNat 64 (numAt b 0 8)) rest
  | _, _, _ => False

/-- The effective values of a chain, the root last (R37): a block's own field where its OVERRIDE bit is set, else its parent's; a
budget never exceeds the parent's, 0 being no limit. -/
def Effective : List (Region × Word) → List Region → Prop
  | [], e => e = []
  | (r, ov) :: rest, e => ∃ up, Effective rest up ∧
    match up with
    | [] => e = [r]
    | p :: _ => ∃ x : Region, e = x :: up ∧ x.va = r.va ∧
      let budget (bit own parent y : Nat) : Prop :=
        let v := if ov.getLsbD bit then own else parent
        y = if v = 0 then parent else if parent = 0 then v else min v parent
      budget 0 r.cores p.cores x.cores ∧ budget 1 r.pages p.pages x.pages ∧ budget 2 r.localBytes p.localBytes x.localBytes ∧
      budget 3 r.granary p.granary x.granary ∧ budget 4 r.slabs p.slabs x.slabs ∧
      x.prio = (if ov.getLsbD 5 then r.prio else p.prio) ∧
      x.preemptible = (if ov.getLsbD 6 then r.preemptible else p.preemptible) ∧
      x.deterministic = (if ov.getLsbD 7 then r.deterministic else p.deterministic) ∧
      x.reqsign = (if ov.getLsbD 8 then r.reqsign else p.reqsign) ∧
      x.handler = (if ov.getLsbD 9 then r.handler else p.handler) ∧
      x.watchdog = (if ov.getLsbD 10 then r.watchdog else p.watchdog) ∧
      x.qlimit = (if ov.getLsbD 11 then r.qlimit else p.qlimit)

/-- Cap of R12 up to the device: the largest number of enabled instances of level c in one enabled instance of level q. -/
def CapLaw (s : State) : Prop :=
  let sum (l : List Nat) : Nat := l.foldr (· + ·) 0
  let unit (q core : Nat) : Nat := if q = 2 then core else if q = 3 then core / 4 else if q = 4 then core / 64 else 0
  let units (q : Nat) : List Nat :=
    if q = 2 then s.liveCores else if q = 3 then s.liveClusters else if q = 4 then s.liveDies else [0]
  let count (c q u : Nat) : Nat :=
    let cores := s.liveCores.filter fun k => unit q k == u
    let warps := sum (cores.map fun k => (s.cores.getD k default).warps)
    match c with
    | 0 => 32 * warps
    | 1 => warps
    | 2 => cores.length
    | 3 => (s.liveClusters.filter fun k => q == 5 || k / 16 == u).length
    | _ => s.liveDies.length
  (∀ c, s.cap c c = 1) ∧ s.cap 0 1 = 32 ∧
  ∀ c q, c < q → 2 ≤ q → q ≤ 5 → (∀ u ∈ units q, count c q u ≤ s.cap c q) ∧
    (s.cap c q = 0 ∨ ∃ u ∈ units q, count c q u = s.cap c q)

/-- Resolution (R15): level k of d, with its explicit code ph k or 8 for any and its fanout f k, gets the code p k, none when none
fits, from the leaf to the root. -/
def Resolved (s : State) (top d : Nat) (ph f : Nat → Nat) (p : Nat → Option Nat) : Prop :=
  ∀ k, k < d →
    let above := (((List.range k).filter fun j => ph j != 8).getLast?.map ph).getD top
    let below := (((List.range d).filter fun j => decide (k < j) && (p j).isSome).head?.bind p).getD 0
    let fits (c : Nat) : Prop :=
      let m := f k * (((List.range d).filter fun j => decide (k < j) && p j == some c).map f).prod
      if c = 0 then m ≤ 32 else c = above ∨ m ≤ s.cap c above
    (ph k ≠ 8 → p k = some (ph k)) ∧
    (ph k = 8 → (p k = none → ∀ c, below ≤ c → c ≤ above → ¬ fits c) ∧
      ∀ c, p k = some c → below ≤ c ∧ c ≤ above ∧ fits c ∧ ∀ x, below ≤ x → x < c → ¬ fits x)

/-- A level of fanout 1 is inserted just above the first level with a lower code, when no level has the code (R15). -/
def Inserted (c : Nat) (ls b : List BoundLevel) : Prop :=
  ((∃ l ∈ ls, l.phys = c) → b = ls) ∧
  ((∀ l ∈ ls, l.phys ≠ c) → ∃ hi lo, ls = hi ++ lo ∧ b = hi ++ ⟨1, c, false⟩ :: lo ∧ (∀ l ∈ hi, c < l.phys) ∧
    ∀ l, lo.head? = some l → l.phys < c)

/-- Every maximal run above LANE fits the level just above it (R15). -/
def RunsFit (s : State) (top : Nat) (b : List BoundLevel) : Prop :=
  ∀ hi run lo c, b = hi ++ run ++ lo → run ≠ [] → 0 < c → (∀ l ∈ run, l.phys = c) →
    (∀ l, hi.getLast? = some l → l.phys ≠ c) → (∀ l, lo.head? = some l → l.phys ≠ c) →
    (run.map (·.fan)).prod ≤ s.cap c ((hi.getLast?.map (·.phys)).getD top)

/-- A cluster serves a task (R18), and a core meets R17, R18 and the warp condition of R20 for teams of w warps. -/
def servesFor (i : CodeInfo) (u : ClusterUnit) : Prop :=
  let present (kind : Nat) : Prop := ∃ x ∈ i.sections, x.1 = kind ∧ x.2.2 ≠ 0
  i.granary ≤ 1024 * (u.grankib - 1024) ∧ (present 1 → 1 ≤ u.seqctx ∧ 1 ≤ u.winnowers ∧ u.array = 1) ∧ (present 2 → 1 ≤ u.cpyctx)
def warpCost (i : CodeInfo) : Nat := (128 * i.regsG + 8 * (i.regsN - i.regsG) + 255) / 256 * 256
def allocated (i : CodeInfo) : Nat := (i.localSize + 1023) / 1024 * 1024

/-- The budget checks of R17 to R19, in that order, on a binding: the fault, or none. -/
def BudgetsGive (s : State) (i : CodeInfo) (top : Nat) (r : Region) (together : Bool) (b : List BoundLevel) (out : Option Nat) :
    Prop :=
  let fans (P : Nat → Bool) : Nat := ((b.filter fun l => P l.phys).map (·.fan)).prod
  let w := fans (· == 1)
  let t := fans (2 ≤ ·)
  let up := fans (2 < ·)
  let cap := s.cap 2 3
  let k := if b.any (·.phys == 3) then up else up * ((fans (· == 2) + cap - 1) / max 1 cap)
  let core (c : Nat) : CoreUnit := s.cores.getD c default
  let cluster (c : Nat) : ClusterUnit := s.clusters.getD c default
  let exceeds (budget n : Nat) : Prop := budget ≠ 0 ∧ budget < n
  let regs : Prop := ∀ c ∈ s.liveCores, 16384 * (core c).regbanks < w * warpCost i
  let local_ : Prop := (∀ c ∈ s.liveCores, 1024 * (core c).localKib < allocated i) ∨ exceeds r.localBytes (allocated i)
  let gran : Prop := (∀ c ∈ s.liveClusters, ¬ servesFor i (cluster c)) ∨ exceeds r.granary i.granary
  let fitting (cs : List Nat) : Prop := cs.Nodup ∧ ∀ c, c ∈ cs ↔ c ∈ s.liveCores ∧ w * warpCost i ≤ 16384 * (core c).regbanks ∧
    allocated i ≤ 1024 * (core c).localKib ∧ w ≤ (core c).warps ∧ servesFor i (cluster (c / 4))
  let apart : Prop := together = true ∧ (exceeds r.cores t ∨ exceeds r.localBytes (t * allocated i) ∨ exceeds r.granary (i.granary * k) ∨
    ∃ cs, fitting cs ∧ (if top ≤ 5 then 1 else s.devices top) * cs.length < t)
  (regs → out = some 0x43) ∧ (¬ regs → local_ → out = some 0x44) ∧ (¬ regs → ¬ local_ → gran → out = some 0x45) ∧
  (¬ regs → ¬ local_ → ¬ gran → apart → out = some 0x46) ∧ (¬ regs → ¬ local_ → ¬ gran → ¬ apart → out = none)

/-- Bind() of R15 with the faults of R16 in their order: TREE_MISMATCH, BIND_ORDER, LANE_PRODUCT, BIND_FANOUT, and those of R17 to
R19; or the bound levels, the root first. -/
def BindGives (s : State) (i : CodeInfo) (pk : List Nat) (top : Nat) (r : Region) (together : Bool)
    (out : Except Nat (List BoundLevel)) : Prop :=
  let d := i.tree.length
  let fan (k : Nat) : Nat := (i.tree.getD k default).fan
  let ph (k : Nat) : Nat := (i.tree.getD k default).phys
  let f (k : Nat) : Nat := if fan k = 0 then pk.getD k 0 else fan k
  let mismatch : Prop := d < 1 ∨ 16 < d ∨ (∃ k, d ≤ k ∧ pk.getD k 0 ≠ 0) ∨
    ∃ k, k < d ∧ fan k ≠ 0 ∧ pk.getD k 0 ≠ 0 ∧ pk.getD k 0 ≠ fan k
  let disorder : Prop := ∃ k, k < d ∧ ph k ≠ 8 ∧ (top < ph k ∨ ∃ j, j < k ∧ ph j ≠ 8 ∧ ph j < ph k)
  (mismatch → out = .error 0x47) ∧ (¬ mismatch → disorder → out = .error 0x40) ∧
  (¬ mismatch → ¬ disorder → ∃ p, Resolved s top d ph f p ∧
    let lanes := (((List.range d).filter fun k => p k == some 0).map f).prod
    let unfit : Prop := ∃ k, k < d ∧ ((fan k = 0 ∧ pk.getD k 0 = 0) ∨ p k = none)
    (lanes ≠ 32 → out = .error 0x42) ∧ (lanes = 32 → unfit → out = .error 0x41) ∧
    (lanes = 32 → ¬ unfit → ∃ b1 b,
      Inserted 2 ((List.range d).map fun k => ⟨f k, (p k).getD 0, true⟩) b1 ∧ Inserted 1 b1 b ∧
      (¬ RunsFit s top b → out = .error 0x41) ∧
      (RunsFit s top b → ∃ fault, BudgetsGive s i top r together b fault ∧
        out = match fault with
          | some x => .error x
          | none => .ok b)))

/-- Acceptance (R16): REGION and CODE_SIGNATURE, then binding; a packet that binds gives a task with the packet's fields, the chain's
effective values, its binding, and its dependences (R264). -/
def CheckLaw (s : State) (who : LaunchBy) (p : Packet) : Prop :=
  ((∀ raw, ¬ ChainFrom s who.die who.space 16 p.region raw) ∨ (∀ i, ¬ CodeOk s who.die who.space p.code i) →
    s.check who p = .error 0x49) ∧
  ∀ raw chain i, ChainFrom s who.die who.space 16 p.region raw → Effective raw chain → CodeOk s who.die who.space p.code i →
    let r := chain.headD default
    let within : Prop := who.parent = none ∨ ∃ t own rest, who.parent = some t ∧ (s.task t).chain = own :: rest ∧
      ∃ x ∈ chain, x.va = own.va
    let text : Prop := ∃ x ∈ i.sections, x.1 = 0 ∧ p.entry < x.2.2
    let ok : Prop := p.wellFormed = true ∧ (p.system = true → who.parent = none) ∧ within ∧ p.entry % 4 = 0 ∧ text
    let top := if p.system then 7 else 5
    let together := p.coresident || r.deterministic
    (¬ ok → s.check who p = .error 0x49) ∧
    (ok → ∃ o, s.readCode who.die who.space p.code = some o ∧ o.info = i ∧
      let signed : Prop := r.reqsign = true → s.signed who.die who.space p.code o = true
      (¬ signed → s.check who p = .error 0x48) ∧
      (signed → ∃ out, BindGives s i p.pk top r together out ∧
        (∀ fault, out = .error fault → s.check who p = .error fault) ∧
        ∀ b, out = .ok b → ∃ t, s.check who p = .ok t ∧
          t = { t with launcher := who.launcher, id := who.id, space := who.space, code := p.code, info := i, entry := p.entry
                       coresident := together, abandon := p.abandon, system := p.system, domain := top, pk := p.pk, binding := b
                       args := p.args, ranges := p.ranges, chain := chain, issuingDie := who.die
                       deadlines := [(who.die, p.deadline)], order := s.seq, phase := .queued, overdue := false } ∧
          ∀ n, n ∈ t.deps ↔ n < s.tasks.length ∧ (s.task n).phase ≠ .retired ∧ (s.task n).space = who.space ∧
            (s.task n).chain.head?.map (·.va) = some p.region ∧ n ∉ s.ancestors s.tasks.length who.parent ∧
            ∃ x ∈ p.ranges, ∃ y ∈ (s.task n).ranges, ¬ Apart (x.start.toNat, x.length) (y.start.toNat, y.length) ∧
              (2 ≤ x.mode ∨ 2 ≤ y.mode)))

/-- A tile instruction's operation as a unit finds it: at the head of its context's operations. -/
def HeadTile (s : State) (a : Nat) (op : TileOp) (rest : List TileOp) : Prop := (s.agent a).tile.ops = op :: rest ∧ a < s.agents.length

/-! ### Values that tiles hold (R121 to R123, R281 to R287, R292, R300 to R314)

An `Fl` is an FP64 code with the flags of the steps that led to it; each of its operations is one Fl64 of the manual. -/

/-- s0 + x(lo) · y(lo) + … of n terms in increasing index, each step one fused rounding (R121, R283). -/
def fusedSum (x y : Nat → Fl) (s0 : Fl) (lo : Nat) : Nat → Fl
  | 0 => s0
  | n + 1 => flFma (x (lo + n)) (y (lo + n)) (fusedSum x y s0 lo n)

/-- RoundTo of an FP64 value in a tile's format. -/
def storeCode (f32 : Bool) (x : Fl) : Nat := (roundVal (if f32 then fp32 else fp64) rne false (fp64.val x.1)).1

/-- RoundTo of the product of a scale and a value (R301). -/
def scaleCode (f32 : Bool) (s x : Fl) : Nat :=
  match mulVal (fp64.val s.1) (fp64.val x.1) with
  | some v => (roundVal (if f32 then fp32 else fp64) rne false v).1
  | none => (if f32 then fp32 else fp64).nanCode

/-- Element n of a handle's run as it is stored, and widened (R108). -/
def runCode (s : State) (cl : Nat) (x : Handle) (n : Nat) : Nat :=
  s.mem.readNat (granKey cl (1024 * x.slab) + sizeOf' x.f32 * n) (sizeOf' x.f32)
def runElem (s : State) (cl : Nat) (x : Handle) (n : Nat) : Fl := widened x.f32 (runCode s cl x n)

/-- The factors and the elements of a tile (R273, R292), read transposed when t says so (R302). -/
def factorU (s : State) (cl : Nat) (x : Handle) (t : Bool) (i p : Nat) : Fl :=
  runElem s cl x ((if t then 64 * x.cap else 0) + 64 * p + i)
def factorV (s : State) (cl : Nat) (x : Handle) (t : Bool) (i p : Nat) : Fl := factorU s cl x (!t) i p
def denseElem (s : State) (cl : Nat) (x : Handle) (t : Bool) (i j : Nat) : Fl :=
  runElem s cl x (if t then 64 * j + i else 64 * i + j)
def elemOf (s : State) (cl : Nat) (x : Handle) (i j : Nat) : Fl :=
  match x.kind with
  | 1 => denseElem s cl x false i j
  | 2 => fusedSum (factorU s cl x false i) (factorV s cl x false j) Fl.zero 0 x.rank
  | _ => Fl.zero

/-- Low-rank factors of m columns. -/
structure Factors where
  m : Nat
  u : Nat → Nat → Fl
  v : Nat → Nat → Fl

/-- The factors of a tile: none of a ZERO one. -/
def Factors.of (s : State) (cl : Nat) (x : Handle) : Factors :=
  ⟨if x.kind = 2 then x.rank else 0, factorU s cl x false, factorV s cl x false⟩

/-- The columns of two pairs of factors, one after the other. -/
def Factors.join (x y : Factors) : Factors :=
  ⟨x.m + y.m, fun i p => if p < x.m then x.u i p else y.u i (p - x.m), fun i p => if p < x.m then x.v i p else y.v i (p - x.m)⟩

def signedFl (neg : Bool) (x : Fl) : Fl := if neg then flNeg x else x

/-- The factors of a product with a LOWRANK operand (R302). -/
def Factors.product (s : State) (cl : Nat) (a b : Handle) (ta tb : Bool) : Factors :=
  let (ua, va, ub, vb) := (factorU s cl a ta, factorV s cl a ta, factorU s cl b tb, factorV s cl b tb)
  if b.kind = 1 then
    ⟨a.rank, ua, fun i p => fusedSum (fun l => denseElem s cl b tb l i) (fun l => va l p) Fl.zero 0 64⟩
  else if a.kind = 1 then
    ⟨b.rank, fun i p => fusedSum (denseElem s cl a ta i) (fun l => ub l p) Fl.zero 0 64, vb⟩
  else
    let w (p q : Nat) : Fl := fusedSum (fun l => va l p) (fun l => ub l q) Fl.zero 0 64
    if a.rank ≤ b.rank then ⟨a.rank, ua, fun i p => fusedSum (vb i) (w p) Fl.zero 0 b.rank⟩
    else ⟨b.rank, fun i q => fusedSum (ua i) (fun p => w p q) Fl.zero 0 a.rank, vb⟩

/-- The unrounded factors of an operation that rounds, and whether its result is FP32 (R281, R300, R302, R303, R309). -/
def factorsFor (s : State) (cl : Nat) (i : Instr) (hs : List Handle) : Option (Factors × Bool) :=
  let (a, b, c) := (source hs 0, source hs 1, source hs 2)
  match i with
  | .tround _ _ => if a.kind = 2 then some (Factors.of s cl a, a.f32) else none
  | .tadd _ _ _ k =>
    if a.kind = 1 ∨ b.kind = 1 ∨ (a.kind = 0 ∧ b.kind = 0) then none
    else
      let y := Factors.of s cl b
      some ((Factors.of s cl a).join ⟨y.m, y.u, fun i p => signedFl (k == 1#4) (y.v i p)⟩, a.f32 && b.f32)
  | .tmul _ _ _ tb ta =>
    if a.kind = 0 ∨ b.kind = 0 ∨ (a.kind = 1 ∧ b.kind = 1) then none
    else some (Factors.product s cl a b (ta == 1#1) (tb == 1#1), a.f32 && b.f32)
  | .tgemm _ _ _ _ tb ta sub =>
    if a.kind = 0 ∨ b.kind = 0 ∨ (a.kind = 1 ∧ b.kind = 1) ∨ c.kind = 1 then none
    else
      let y := Factors.product s cl a b (ta == 1#1) (tb == 1#1)
      some ((Factors.of s cl c).join ⟨y.m, fun i p => signedFl (sub == 1#1) (y.u i p), y.v⟩, a.f32 && b.f32 && c.f32)
  | _ => none

/-- The identity. -/
def identityFl (i j : Nat) : Fl := if i = j then Fl.one else Fl.zero

/-- HQR (R284): Q, of 64 rows, and R, from a matrix of m columns. W j is the matrix before column j, P j is Q before reflector
j − 1 is applied. -/
def HqrOf (w0 : Nat → Nat → Fl) (m : Nat) (q r : Nat → Nat → Fl) : Prop :=
  ∃ (w p : Nat → Nat → Nat → Fl) (beta tau : Nat → Fl) (v : Nat → Nat → Fl),
    (∀ i k, i < 64 → k < m → w 0 i k = w0 i k ∧ p m i k = identityFl i k) ∧
    (∀ j, j < m →
      let nrm := flSqrt (fusedSum (fun i => w j i j) (fun i => w j i j) Fl.zero j (64 - j))
      let turned (x : Nat → Nat → Fl) (i k : Nat) : Fl :=
        flFma (flNeg (flMul (tau j) (fusedSum (v j) (fun i => x i k) Fl.zero j (64 - j)))) (v j i) (x i k)
      (if nrm.isZero = true then
        (tau j).1 = 0 ∧ beta j = Fl.zero ∧ ∀ i k, i < 64 → j < k → k < m → w (j + 1) i k = w j i k
      else
        beta j = (if (w j j j).nonneg then flNeg nrm else nrm) ∧ tau j = flDiv (flSub (beta j) (w j j j)) (beta j) ∧
        v j j = Fl.one ∧ (∀ i, j < i → i < 64 → v j i = flDiv (w j i j) (flSub (w j j j) (beta j))) ∧
        ∀ i k, i < 64 → j < k → k < m → w (j + 1) i k = if i < j then w j i k else turned (w j) i k) ∧
      (∀ i k, i < 64 → k < m → p j i k = if (tau j).isZero = true ∨ i < j then p (j + 1) i k else turned (p (j + 1)) i k) ∧
      let flip (x : Fl) : Fl := signedFl (flLt (beta j) Fl.zero) x
      (∀ k, k < m → r j k = flip (if k < j then Fl.zero else if k = j then beta j else w (j + 1) j k)) ∧
      ∀ i, i < 64 → q i j = flip (p 0 i j))

/-- The matrices G and Y of the Jacobi step. -/
abbrev Mats := (Nat → Nat → Fl) × (Nat → Nat → Fl)

/-- One pair of a sweep, and whether it is rotated (R285 step 3). -/
def PairOf (m p q : Nat) (a b : Mats) (rotated : Bool) : Prop :=
  let dot (j k : Nat) : Fl := fusedSum (fun i => a.1 i j) (fun i => a.1 i k) Fl.zero 0 m
  let g := dot p q
  if flLt (flMul (epsOf m) (flSqrt (flMul (dot p p) (dot q q)))) (flAbs g) = true then
    let z := flDiv (flSub (dot q q) (dot p p)) (flMul Fl.two g)
    let t := if flLt twoTo500 (flAbs z) then flDiv Fl.one (flMul Fl.two z)
      else flDiv (if z.nonneg then Fl.one else flNeg Fl.one) (flAdd (flAbs z) (flSqrt (flFma z z Fl.one)))
    let c := flDiv Fl.one (flSqrt (flFma t t Fl.one))
    let s := flMul c t
    let turned (x : Nat → Nat → Fl) (i k : Nat) : Fl :=
      if k = p then fl2 c (x i p) (flNeg s) (x i q) else if k = q then fl2 s (x i p) c (x i q) else x i k
    rotated = true ∧ ∀ i k, i < m → k < m → b.1 i k = turned a.1 i k ∧ b.2 i k = turned a.2 i k
  else rotated = false ∧ ∀ i k, i < m → k < m → b.1 i k = a.1 i k ∧ b.2 i k = a.2 i k

/-- The pairs of a list one after another. -/
def PairsOf (m : Nat) : List (Nat × Nat) → Mats → Mats → Bool → Prop
  | [], a, b, rotated => rotated = false ∧ ∀ i k, i < m → k < m → b.1 i k = a.1 i k ∧ b.2 i k = a.2 i k
  | (p, q) :: rest, a, b, rotated => ∃ c r r', PairOf m p q a c r ∧ PairsOf m rest c b r' ∧ rotated = (r || r')

/-- At most n sweeps, cyclic by rows, up to one that rotates nothing. -/
def SweepsOf (m : Nat) : Nat → Mats → Mats → Prop
  | 0, a, b => ∀ i k, i < m → k < m → b.1 i k = a.1 i k ∧ b.2 i k = a.2 i k
  | n + 1, a, b => ∃ c rotated,
      PairsOf m ((List.range m).flatMap fun p => (List.range (m - 1 - p)).map fun i => (p, p + 1 + i)) a c rotated ∧
      if rotated = true then SweepsOf m n c b else ∀ i k, i < m → k < m → b.1 i k = c.1 i k ∧ b.2 i k = c.2 i k

/-- A rank rounding (R283 to R287) of factors of m columns, or of a dense tile U with V the identity: without NF it gives ZERO
or LOWRANK, or leaves a dense tile above CAP as it is; with NF it gives the DENSE result of R282. -/
def RankRounding (trcc : Word) (trct : DWord) (m : Nat) (u v : Nat → Nat → Fl) (dense : Bool) (out : RoundOut) : Prop :=
  let cap := field trcc 1 6
  let tolBad : Prop := (fp64.val trct.toNat).isNan = true ∨
    ((fp64.val trct.toNat).isNeg = true ∧ (fp64.val trct.toNat).isZero = false)
  let tol : Fl → Prop := fun x => (tolBad ∨ (fp64.val trct.toNat).isZero = true → x = Fl.zero) ∧
    (¬ tolBad → (fp64.val trct.toNat).isZero = false → x = Fl.of trct.toNat)
  let reads (bad : Fl → Bool) : Prop := ∃ i p, i < 64 ∧ p < m ∧ (bad (u i p) = true ∨ bad (v i p) = true)
  (reads (fun x => x.val.nonFinite) → out.flags &&& flagNF ≠ 0#6 ∧
    (out.flags &&& flagNV ≠ 0#6 ↔ tolBad ∨ reads Fl.isNan)) ∧
  (out.flags &&& flagNF ≠ 0#6 → out.capped = false ∧ out.densified = false ∧ ∃ rows, out.tile = .dense rows ∧
    ∀ i j, i < 64 → j < 64 → at2 rows i j = fusedSum (u i) (v j) Fl.zero 0 m) ∧
  (out.flags &&& flagNF = 0#6 →
    (tolBad → out.flags = flagNV) ∧ (¬ tolBad → out.flags = 0#6) ∧ out.densified = false ∧
    ∃ (qu ru qv rv : Nat → Nat → Fl) (b : Mats) (sig tail : Nat → Fl) (ord : Nat → Nat) (r : Nat) (t thr : Fl),
      HqrOf u m qu ru ∧ (if dense = true then qv = identityFl ∧ rv = identityFl else HqrOf v m qv rv) ∧
      SweepsOf m (field trcc 7 5) (fun i j => fusedSum (ru i) (rv j) Fl.zero 0 m, identityFl) b ∧
      (∀ j, j < m → sig j = flSqrt (fusedSum (fun i => b.1 i j) (fun i => b.1 i j) Fl.zero 0 m)) ∧
      (∀ n, n < m → ord n < m ∧ ∀ k, k < n → ord k ≠ ord n ∧ flLt (sig (ord k)) (sig (ord n)) = false ∧
        (flLt (sig (ord n)) (sig (ord k)) = false → ord k < ord n)) ∧
      tail m = Fl.zero ∧ (∀ n, n < m → tail n = flFma (sig (ord n)) (sig (ord n)) (tail (n + 1))) ∧
      tol t ∧ thr = (if field trcc 0 1 = 1 then flMul t t else flMul (flMul t t) (tail 0)) ∧
      ((tail 0).isZero = true → r = 0) ∧
      ((tail 0).isZero = false → r ≤ m ∧ flLt thr (tail r) = false ∧ ∀ n, n < r → flLt thr (tail n) = true) ∧
      if dense = true ∧ cap < r then
        out.capped = false ∧ ∃ rows, out.tile = .dense rows ∧ ∀ i j, i < 64 → j < 64 → at2 rows i j = u i j
      else
        out.capped = decide (cap < r) ∧
        if min r cap = 0 then out.tile = .zero
        else ∃ us vs, out.tile = .low us vs ∧ us.length = min r cap ∧ vs.length = min r cap ∧ ∀ n, n < min r cap →
          let x (i : Nat) : Fl := fusedSum (qu i) (fun k => b.1 k (ord n)) Fl.zero 0 m
          let y (i : Nat) : Fl := fusedSum (qv i) (fun k => b.2 k (ord n)) Fl.zero 0 m
          ∃ top, top < 64 ∧ (∀ i, i < 64 → flLt (flAbs (x top)) (flAbs (x i)) = false) ∧
            (∀ i, i < top → flLt (flAbs (x i)) (flAbs (x top)) = true) ∧
            ∀ i, i < 64 → at2 us n i = signedFl (flLt (x top) Fl.zero) (x i) ∧ at2 vs n i = signedFl (flLt (x top) Fl.zero) (y i))

/-- A result: its kind, format and rank, and its stored elements. -/
def Stored (v : TileValue) (kind : Nat) (f32 : Bool) (rank n : Nat) (w : Nat → Nat) : Prop :=
  v.kind = kind ∧ v.f32 = f32 ∧ v.rank = rank ∧ v.words.length = n ∧ ∀ j, j < n → v.words.getD j 0 = w j

/-- The one result of an operation. -/
def OneResult (r : TileOp) (kind : Nat) (f32 : Bool) (rank n : Nat) (w : Nat → Nat) : Prop :=
  ∃ v, r.results = [v] ∧ Stored v kind f32 rank n w
def DenseResult (r : TileOp) (f32 : Bool) (e : Nat → Nat → Nat) : Prop := OneResult r 1 f32 64 4096 fun n => e (n / 64) (n % 64)
def ZeroResult (r : TileOp) (f32 : Bool) : Prop := OneResult r 0 f32 0 0 fun _ => 0

/-- What a rounding gives, as it is stored (R286). -/
def StoredRounding (r : TileOp) (f32 : Bool) (out : RoundOut) : Prop :=
  r.capped = out.capped ∧ r.densified = out.densified ∧
  match out.tile with
  | .zero => ZeroResult r f32
  | .dense rows => DenseResult r f32 fun i j => storeCode f32 (at2 rows i j)
  | .low u v => OneResult r 2 f32 u.length (128 * u.length) fun n =>
      storeCode f32 (if n < 64 * u.length then at2 u (n / 64) (n % 64) else at2 v (n / 64 - u.length) (n % 64))

/-- Columns 0 to n − 1 of TCHOL's L (R310). -/
def CholeskyOf (a l : Nat → Nat → Fl) (n : Nat) : Prop :=
  ∀ j, j < n →
    let d := fusedSum (fun k => flNeg (l j k)) (l j) (a j j) 0 j
    flLt Fl.zero d = true ∧ l j j = flSqrt d ∧
      ∀ i, j < i → i < 64 → l i j = flDiv (fusedSum (fun k => flNeg (l i k)) (l j) (a i j) 0 j) (l j j)

/-- The magnitude by which TLU picks a pivot: a NaN counts as +Inf. -/
def pivotMagnitude (x : Fl) : Nat := if x.isNan then fp64.infCode else x.1 % 2 ^ 63

/-- TLU (R311): the matrix before each column, and the pivots. -/
def LuOf (a : Nat → Nat → Fl) (w : Nat → Nat → Nat → Fl) (piv : Nat → Nat) : Prop :=
  (∀ i k, i < 64 → k < 64 → w 0 i k = a i k) ∧
  ∀ j, j < 64 → ∃ c : Nat → Fl,
    (∀ i, i < 64 → c i = fusedSum (fun k => flNeg (w j i k)) c (w j i j) 0 (min i j)) ∧
    j ≤ piv j ∧ piv j < 64 ∧ (∀ i, j ≤ i → i < 64 → pivotMagnitude (c i) ≤ pivotMagnitude (c (piv j))) ∧
    (∀ i, j ≤ i → i < piv j → pivotMagnitude (c i) < pivotMagnitude (c (piv j))) ∧
    let col (i k : Nat) : Fl := if k = j then c i else w j i k
    let moved (i k : Nat) : Fl := if i = j then col (piv j) k else if i = piv j then col j k else col i k
    ∀ i k, i < 64 → k < 64 →
      w (j + 1) i k = if k = j ∧ j < i ∧ (moved j j).isZero = false then flDiv (moved i j) (moved j j) else moved i k

/-- Subst(M, b) (R313). -/
def SubstOf (lower unit : Bool) (mat : Nat → Nat → Fl) (b x : Nat → Fl) : Prop :=
  ∀ i, i < 64 →
    let s := if lower then fusedSum (fun k => flNeg (mat i k)) x (b i) 0 i
      else fusedSum (fun k => flNeg (mat i k)) x (b i) (i + 1) (63 - i)
    x i = if unit then s else flDiv s (mat i i)

/-- The rounded sum or difference of two FP64 codes in a tile's format (R300). -/
def tileSum (f32 sub : Bool) (a b : Nat) : Nat :=
  (addVal (if f32 then fp32 else fp64) rne false (fp64.val a) (fp64.val (if sub then (b + 2 ^ 63) % 2 ^ 64 else b))).1

/-- An element of memory as an operation reads it, widened; an absent one is +0. -/
def memElem (s : State) (a : Nat) (f32 : Bool) (keys : List (Option Nat)) (n : Nat) : Fl :=
  match keys.getD n none with
  | some k => widened f32 ((s.engineMem a).readNat k (sizeOf' f32))
  | none => widened f32 0

/-- The same as it is stored: its bytes, not widened. -/
def memCode (s : State) (a : Nat) (f32 : Bool) (keys : List (Option Nat)) (n : Nat) : Nat :=
  match keys.getD n none with
  | some k => bytesAt (s.engineMem a) k (sizeOf' f32)
  | none => 0

/-- The accesses by which TSTORE, TLRST, TLU and TMV store their elements, in order: absent ones store nothing (R298, R299, R311,
R314). -/
def elementStores (op : TileOp) : List Store :=
  let (size, keys) : Nat × List (Option Nat) := match op.instr with
    | .tstore _ _ _ | .tlrst _ _ _ => (if (op.srcs.getD 0 Handle.zero).f32 then 4 else 8, op.keys)
    | .tlu _ _ _ => (4, op.keys)
    | .tmv _ _ _ _ => (if op.params = [4#32] then 4 else 8, op.keys.drop 64)
    | _ => (8, [])
  (keys.zip op.elems).flatMap fun x => match x.1 with
    | some k => [storeOf k size ((List.range size).map fun b => BitVec.ofNat 8 (x.2.1 / 2 ^ (8 * b))) (List.replicate (size / 4) x.2.2)]
    | none => []

/-- The bytes of the elements that an operation reads when a unit takes it, with those that TMV writes (R288, R308, R314). -/
def peerReads (op : TileOp) : List Nat :=
  match op.instr with
  | .tload _ _ _ _ | .tlrld _ _ _ _ | .tmv _ _ _ _ => op.keys.filterMap id
  | _ => []

/-- A byte is not another device's, or a port that is up leads there and no stop signal keeps requests back (R364). -/
def PeerAnswers (s : State) (k : Nat) : Prop :=
  let d := k / 2 ^ 64 % 2 ^ 64
  keyKind k = 3 → s.reachable d = true ∧ s.stoppedTo d 0 = false

/-- A byte is not another device's, or a port that is up leads there (R364). -/
def PeerReached (s : State) (k : Nat) : Prop := keyKind k = 3 → s.reachable (k / 2 ^ 64 % 2 ^ 64) = true

/-- The register words that TNORM, TCHOL and TLU write as they complete, with their marks: the norm, or the status word (R304,
R307). -/
def tileWords (op : TileOp) : Option (Nat × Bool × List Word) :=
  let x := op.elems.getD 0 (0, false)
  match op.instr with
  | .tnorm _ v _ => some (v.toNat, x.2, lowHigh (BitVec.ofNat 64 x.1))
  | .tchol _ v | .tlu _ v _ => some (v.toNat, false, [op.status])
  | _ => none

/-- The values of DENSE, ZERO, loaded and copied results, and of what TNORM, TMV, TSTORE and TLRST give (R294, R298 to R304, R309,
R314). -/
def TileArithmetic (s : State) (a : Nat) (op : TileOp) : Prop :=
  let cl := s.clusterOf a
  let r := s.tileCompute a op
  let (x, y, z) := (source op.srcs 0, source op.srcs 1, source op.srcs 2)
  let dest := ((op.dests.head?).map (·.2.1)).getD Handle.zero
  let copied (h : Handle) : Prop := OneResult r h.kind h.f32 h.rank (if h.kind = 1 then 4096 else if h.kind = 2 then 128 * h.rank else 0)
    fun n => runCode s cl h (if h.kind = 2 ∧ 64 * h.rank ≤ n then 64 * h.cap + (n - 64 * h.rank) else n)
  match op.instr with
  | .tnew _ _ | .tnewImm _ _ _ =>
    if dest.kind = 0 then ZeroResult r dest.f32 else DenseResult r dest.f32 fun _ _ => 0
  | .tslab _ _ => copied x
  | .tload _ _ _ f => op.keys.length = 4096 → DenseResult r (f == 1#1) fun i j => memCode s a (f == 1#1) op.keys (64 * i + j)
  | .tlrld _ _ _ f => OneResult r 2 (f == 1#1) (op.keys.length / 128) op.keys.length (memCode s a (f == 1#1) op.keys)
  | .tlrst _ _ _ => x.kind = 2 → r.elems.length = 128 * x.rank ∧ ∀ n, n < 128 * x.rank →
      (r.elems.getD n (0, false)).1 = runCode s cl x (if n < 64 * x.rank then n else 64 * x.cap + (n - 64 * x.rank))
  | .tadd _ _ _ k =>
    let f32 := x.f32 && y.f32
    (x.kind = 0 → y.kind = 0 → ZeroResult r f32) ∧
    (x.kind = 1 ∨ y.kind = 1 → DenseResult r f32 fun i j => tileSum f32 (k == 1#4) (elemOf s cl x i j).1 (elemOf s cl y i j).1)
  | .tscal _ _ =>
    let f : Fl := Fl.of ((op.params.getD 1 0#32).toNat * 2 ^ 32 + (op.params.getD 0 0#32).toNat)
    if x.kind = 0 ∨ f.isZero = true then ZeroResult r x.f32
    else if x.kind = 1 ∨ f.val.nonFinite = true then DenseResult r x.f32 fun i j => scaleCode x.f32 f (elemOf s cl x i j)
    else OneResult r 2 x.f32 x.rank (128 * x.rank) fun n =>
      if n < 64 * x.rank then scaleCode x.f32 f (runElem s cl x n) else runCode s cl x (64 * x.cap + (n - 64 * x.rank))
  | .tmul _ _ _ tb ta =>
    let f32 := x.f32 && y.f32
    (x.kind = 0 ∨ y.kind = 0 → ZeroResult r f32) ∧
    (x.kind = 1 → y.kind = 1 → DenseResult r f32 fun i j => storeCode f32
      (fusedSum (denseElem s cl x (ta == 1#1) i) (fun l => denseElem s cl y (tb == 1#1) l j) Fl.zero 0 64))
  | .tround _ _ => x.kind = 0 → ZeroResult r x.f32
  | .tcomp _ _ => x.kind = 0 → ZeroResult r x.f32
  | .tdense _ _ _ => DenseResult r dest.f32 fun i j => storeCode dest.f32 (elemOf s cl x i j)
  | .tgemm _ _ _ _ tb ta sub =>
    let f32 := x.f32 && y.f32 && z.f32
    (x.kind = 0 ∨ y.kind = 0 → copied z) ∧
    (x.kind = 1 → y.kind = 1 → DenseResult r f32 fun i j => storeCode f32 (fusedSum
      (fun l => signedFl (sub == 1#1) (denseElem s cl x (ta == 1#1) i l)) (fun l => denseElem s cl y (tb == 1#1) l j)
      (elemOf s cl z i j) 0 64)) ∧
    (x.kind ≠ 0 → y.kind ≠ 0 → x.kind = 2 ∨ y.kind = 2 → z.kind = 1 →
      let p := Factors.product s cl x y (ta == 1#1) (tb == 1#1)
      DenseResult r f32 fun i j => storeCode f32
        (fusedSum (fun n => signedFl (sub == 1#1) (p.u i n)) (p.v j) (elemOf s cl z i j) 0 p.m))
  | .tnorm _ _ k =>
    let gram (f : Nat → Nat → Fl) (p q : Nat) : Fl := fusedSum (fun i => f i p) (fun i => f i q) Fl.zero 0 64
    let n := x.rank
    let n2 := fusedSum (fun e => gram (factorU s cl x false) (e / n) (e % n)) (fun e => gram (factorV s cl x false) (e / n) (e % n))
      Fl.zero 0 (n * n)
    let sq : Nat := match x.kind with
      | 1 => (fusedSum (runElem s cl x) (runElem s cl x) Fl.zero 0 4096).1
      | 2 => if flLt n2 Fl.zero then 0 else n2.1
      | _ => 0
    (r.elems.headD (0, false)).1 = if k = 1#1 then sq else (fSqrt fp64 rne sq).1
  | .tstore _ _ _ => r.elems.length = 4096 ∧
      ∀ n, n < 4096 → (r.elems.getD n (0, false)).1 = storeCode x.f32 (elemOf s cl x (n / 64) (n % 64))
  | .tmv _ _ _ k =>
    let (t, sub, set) := (k.getLsbD 0, k.getLsbD 1, k.getLsbD 2)
    let f32 : Bool := op.params == [4#32]
    let y0 (i : Nat) : Fl := if set then Fl.zero else memElem s a f32 op.keys (64 + i)
    op.keys.length = 128 → r.elems.length = 64 ∧ ∀ i, i < 64 → (r.elems.getD i (0, false)).1 = storeCode f32 (
      match x.kind with
      | 1 => fusedSum (fun j => signedFl sub (denseElem s cl x t i j)) (memElem s a f32 op.keys) (y0 i) 0 64
      | 2 => fusedSum (fun p => signedFl sub (factorU s cl x t i p))
          (fun p => fusedSum (fun j => factorV s cl x t j p) (memElem s a f32 op.keys) Fl.zero 0 64) (y0 i) 0 x.rank
      | _ => y0 i)
  | _ => True

/-- The values of the roundings and factorisations (R281 to R287, R303, R310 to R313). -/
def TileKernels (s : State) (a : Nat) (op : TileOp) : Prop :=
  let cl := s.clusterOf a
  let r := s.tileCompute a op
  let (x, y) := (source op.srcs 0, source op.srcs 1)
  let dense (i j : Nat) : Fl := denseElem s cl x false i j
  let code (f : Nat → Nat → Fl) (i p : Nat) : Fl := Fl.of (f i p).1
  (∀ f f32, factorsFor s cl op.instr op.srcs = some (f, f32) → 1 ≤ f.m → f.m ≤ 64 →
    ∃ out, RankRounding op.trcc op.trct f.m (code f.u) (code f.v) false out ∧ StoredRounding r f32 out) ∧
  match op.instr with
  | .tcomp _ _ => x.kind = 1 → ∃ out, RankRounding op.trcc op.trct 64 dense identityFl true out ∧ StoredRounding r x.f32 out
  | .tchol _ _ =>
    (x.kind = 0 → r.results = op.results ∧ r.status = 1#32) ∧
    (x.kind = 1 → ∃ l n, n ≤ 64 ∧ CholeskyOf dense l n ∧
      if n = 64 then r.status = op.status ∧ DenseResult r x.f32 fun i j => if j ≤ i then storeCode x.f32 (l i j) else 0
      else flLt Fl.zero (fusedSum (fun k => flNeg (l n k)) (l n) (dense n n) 0 n) = false ∧ r.results = [] ∧
        r.status = BitVec.ofNat 32 (256 * n + 1))
  | .tlu _ _ _ =>
    x.kind = 1 → ∃ w piv, LuOf dense w piv ∧ (DenseResult r x.f32 fun i j => storeCode x.f32 (w 64 i j)) ∧
      r.elems.length = 64 ∧ (∀ j, j < 64 → (r.elems.getD j (0, false)).1 = piv j) ∧
      ((∀ j, j < 64 → (w 64 j j).isZero = false) → r.status = 0#32) ∧
      ∀ j, j < 64 → (w 64 j j).isZero = true → (∀ i, i < j → (w 64 i i).isZero = false) → r.status = BitVec.ofNat 32 (256 * j + 2)
  | .tqr _ _ _ | .tqrR _ _ =>
    let second (rest : List TileValue) (e : Nat → Nat → Nat) : Prop :=
      match op.instr with
      | .tqrR _ _ => rest = []
      | _ => ∃ v, rest = [v] ∧ Stored v 1 x.f32 64 4096 fun n => e (n / 64) (n % 64)
    (x.kind = 0 → ∃ v rest, r.results = v :: rest ∧ v.kind = 0 ∧ second rest fun i j => storeCode x.f32 (identityFl i j)) ∧
    (x.kind = 1 → ∃ q u v rest, HqrOf dense 64 q u ∧ r.results = v :: rest ∧
      (Stored v 1 x.f32 64 4096 fun n => if n % 64 < n / 64 then 0 else storeCode x.f32 (u (n / 64) (n % 64))) ∧
      second rest fun i j => storeCode x.f32 (q i j))
  | .ttrsm _ _ _ k =>
    let (right, up, t, unit) := (k.getLsbD 0, k.getLsbD 1, k.getLsbD 2, k.getLsbD 3)
    let f32 := x.f32 && y.f32
    let mat (i j : Nat) : Fl := denseElem s cl x (t != right) i j
    let solve (b e : Nat → Fl) : Prop := SubstOf ((up == t) != right) unit mat b e
    x.kind = 1 →
      (y.kind = 0 → ZeroResult r f32) ∧
      (y.kind = 1 → ∃ e : Nat → Nat → Fl, (∀ n, n < 64 → if right then solve (elemOf s cl y n) (e n) else solve (fun i => elemOf s cl y i n) fun i => e i n) ∧
        DenseResult r f32 fun i j => storeCode f32 (e i j)) ∧
      (y.kind = 2 → ∃ e : Nat → Nat → Fl, (∀ p, p < y.rank → solve (fun i => (if right then factorV else factorU) s cl y false i p) fun i => e i p) ∧
        OneResult r 2 f32 y.rank (128 * y.rank) fun n => storeCode f32 (
          if decide (n < 64 * y.rank) = right then
            (if right then factorU s cl y false (n % 64) (n / 64) else factorV s cl y false (n % 64) (n / 64 - y.rank))
          else e (n % 64) (if right then n / 64 - y.rank else n / 64)))
  | _ => True

/-! ### Sums of the matrix array (R121 to R123, R322) -/

/-- The rounded exact sum of eight products of codes, from term lo on (R122). -/
def GroupSum (f : Fmt) (a b : Nat → Nat) (lo t : Nat) : Prop :=
  let x (k : Nat) : FVal := f.val (a (lo + k))
  let y (k : Nat) : FVal := f.val (b (lo + k))
  let inf (n : Bool) : Prop := ∃ k, k < 8 ∧ (x k).isNan = false ∧ (y k).isNan = false ∧
    ((x k).nonFinite = true ∨ (y k).nonFinite = true) ∧ ((x k).isNeg != (y k).isNeg) = n
  let nan : Prop := (∃ k, k < 8 ∧ ((x k).isNan = true ∨ (y k).isNan = true ∨ ((x k).nonFinite = true ∧ (y k).isZero = true) ∨
    ((x k).isZero = true ∧ (y k).nonFinite = true))) ∨ (inf true ∧ inf false)
  (nan → t = fp32.nanCode) ∧ (¬ nan → inf true → t = fp32.signBit + fp32.infCode) ∧ (¬ nan → inf false → t = fp32.infCode) ∧
  (¬ nan → ¬ inf true → ¬ inf false →
    ((∀ k, k < 8 → ((x k).isZero = true ∨ (y k).isZero = true) ∧ ((x k).isNeg != (y k).isNeg) = true) → t = fp32.signBit) ∧
    ((∃ k, k < 8 ∧ ¬ (((x k).isZero = true ∨ (y k).isZero = true) ∧ ((x k).isNeg != (y k).isNeg) = true)) →
      t = (roundDyadic fp32 rne false false
        ((List.range 8).foldl (fun d k => d.add ((x k).dyadic.mul (y k).dyadic)) ⟨0, 0⟩)).1))

/-- The new word of an accumulator from its old one and k products of operand codes. -/
def NewWord (i : Instr) (k : Nat) (a b : Nat → Nat) (old new : Nat) : Prop :=
  let grouped (f : Fmt) : Prop := ∃ acc : Nat → Nat, acc 0 = old ∧ new = acc (k / 8) ∧
    ∀ g, g < k / 8 → ∃ t, GroupSum f a b (8 * g) t ∧ acc (g + 1) = (fAdd fp32 rne false (acc g) t).1
  let whole (f : Nat → Nat → Int) : Prop := (new : Int) = ((old : Int) + ((List.range k).map fun j => f (a j) (b j)).sum) % 2 ^ 32
  match i with
  | .mmaF64 _ _ _ => new = (fusedSum (fun j => Fl.of (a j)) (fun j => Fl.of (b j)) (Fl.of old) 0 k).1
  | .mmaBf16 _ _ _ => grouped bf16
  | .mmaF16 _ _ _ => grouped fp16
  | .mmaE4m3 _ _ _ => grouped e4m3
  | .mmaE5m2 _ _ _ => grouped e5m2
  | .mmaB1 _ _ _ op => whole fun x y => ((if op = 1#1 then x * y else (x + y) % 2 : Nat) : Int)
  | .mmaI8 _ _ _ => whole fun x y => signedAt 8 x * signedAt 8 y
  | _ => True

/-- The accumulator of an MMA and the size of its words. -/
def mmaTarget : Instr → Option (BitVec 6 × Nat)
  | .mmaF64 _ _ d => some (d, 8)
  | .mmaBf16 _ _ d | .mmaF16 _ _ d | .mmaE4m3 _ _ d | .mmaE5m2 _ _ d | .mmaI8 _ _ d | .mmaB1 _ _ d _ => some (d, 4)
  | _ => none

/-- Operand element (r, k) with its mark. -/
def operandAt (x : List (List (Nat × Bool))) (r k : Nat) : Nat × Bool := (x.getD r []).getD k (0, false)

/-- Element (r, k) of a matrix operand that lies in a region: w names its start and its order, n columns of elements of so many
bits (R318). -/
def regionElement (s : State) (a : Nat) (w : Word) (n bits r k : Nat) : Nat × Bool :=
  let at_ := (if w.getLsbD 30 then k * 64 + r else r * n + k) * bits
  let o := 256 * (w.toNat % 2 ^ 26) + at_ / 8
  let key := s.granByte (s.clusterOf a) (s.taskOf a) (o ^^^ o / 128 % 8 * 16)
  let m := s.engineMem a
  if bits < 8 then ((m.read key).toNat / 2 ^ (at_ % 8) % 2 ^ bits, m.marked key)
  else (bytesAt m key (bits / 8), (List.range (bits / 8)).any fun b => m.marked (key + b))

/-- A word of a region that ACCLD, ACCST or ACCCVT names, elements of e bytes (R318, R324): its key. It is the word h of element
(i, j). -/
def regionWordKey (s : State) (a : Nat) (w : Word) (e i j h : Nat) : Nat :=
  let o := 256 * (w.toNat % 2 ^ 26) + (if w.getLsbD 30 then 64 * j + i else 64 * i + j) * e + 4 * h
  s.granByte (s.clusterOf a) (s.taskOf a) (o ^^^ o / 128 % 8 * 16)

/-- What the down-converter makes of a slot word (R319): FP64 unchanged but for a NaN, FP32 widened, FP32 rounded to BF16, FP16,
E4M3 or E5M2 by RNE or RZ, or I32 rounded to I8. The size of the result is beside it. -/
def downConverted (code x : Nat) : Nat × Nat :=
  let turned (f source : Fmt) (mode : Mode) (size : Nat) : Nat × Nat := ((roundVal f mode false (source.val x)).1, size)
  match code with
  | 0 => turned fp64 fp64 rne 8
  | 1 => turned fp64 fp32 rne 8
  | 2 => turned bf16 fp32 rne 2
  | 3 => turned bf16 fp32 rz 2
  | 4 => turned fp16 fp32 rne 2
  | 5 => turned fp16 fp32 rz 2
  | 6 => turned e4m3 fp32 rne 1
  | 7 => turned e4m3 fp32 rz 1
  | 8 => turned e5m2 fp32 rne 1
  | 9 => turned e5m2 fp32 rz 1
  | _ => ((max (-128) (min 127 (BitVec.ofNat 32 x).toInt) % 256).toNat, 1)

/-- What ACCZ, ACCLD, ACCST and ACCCVT leave in memory t, from s and the operand rows that the operation has fetched (R323 to
R325): for each word or element its bytes, and its mark. -/
def AccMoves (s t : State) (a : Nat) (op : MatOp) : Prop :=
  let slot (d : BitVec 6) (w n : Nat) : Nat := s.slotKey (s.clusterOf a) d.toNat + w * n
  match op.instr with
  | .accz d n => ∀ k, k < 4096 * (n.toNat + 1) →
      bytesAt t.mem (slot d 4 k) 4 = 0 ∧ t.mem.marked (slot d 4 k) = false
  | .accld _ d p =>
    let w := p.toNat + 1
    (op.opA.length = 64 ∧ ∀ row ∈ op.opA, row.length = 64 * w ∧ ∀ x ∈ row, x.1 < 2 ^ 32) →
    ∀ i j h, i < 64 → j < 64 → h < w →
      let x := operandAt op.opA i (w * j + h)
      let key := slot d 4 (w * (64 * i + j) + h)
      bytesAt t.mem key 4 = x.1 ∧ (t.mem.marked key = true ↔ x.2 = true)
  | .accst _ d p =>
    let w := p.toNat + 1
    ∀ i j h, i < 64 → j < 64 → h < w →
      let key := regionWordKey s a op.wordA (4 * w) i j h
      let old := slot d 4 (w * (64 * i + j) + h)
      bytesAt t.mem key 4 = bytesAt s.mem old 4 ∧ (s.mem.struck = [] → (t.mem.marked key = true ↔ s.mem.marked old = true))
  | .acccvt _ d k =>
    let n := if k = 0#4 then 8 else 4
    k.toNat ≤ 10 → ∀ i j, i < 64 → j < 64 →
      let old := slot d n (64 * i + j)
      let x := downConverted k.toNat (bytesAt s.mem old n)
      let key := regionWordKey s a op.wordA x.2 i j 0
      bytesAt t.mem key x.2 = x.1 ∧ ((∃ b, b < n ∧ s.mem.marked (old + b) = true) → t.mem.marked key = true)
  | _ => True

/-! ### Format expansion (R104 to R112, R331, R333) -/

/-- Bits of a source element, elements of a block, bytes of a destination element (R331). -/
def cpyxBits (sf : Nat) : Nat := [8, 8, 4, 8, 8, 4, 4, 3].getD sf 8
def cpyxBlock (sf : Nat) : Nat := [32, 32, 16, 1, 1, 1, 1, 128].getD sf 1
def cpyxSize (d : Nat) : Nat := [8, 4, 2, 2, 1, 1, 1, 1].getD d 1

/-- The byte that an element of one byte holds, with its mark; an absent one reads 0. -/
def elementByte (m : Memory) : ElemAt → Nat × Bool
  | .bytes (k :: _) => ((m.read k).toNat, m.marked k)
  | _ => (0, false)

/-- Byte n of the source stream (R333). -/
def streamByte (s : State) (a : Nat) (op : CopyOp) (n : Nat) : ElemAt :=
  s.elementAt a op.other (op.otherFrom.modify 0 (· + (n : Int))) .read

/-- Entry n of the table of block b, with its mark (R112): of the slot that the CPYX named when it issued, of the tables that it
has waited for (R334), or of the block's element of X. -/
def bookEntry (s : State) (a : Nat) (op : CopyOp) (sf : Nat) (named : List (Word × Bool)) (waits : Bool) (b n : Nat) : Nat × Bool :=
  let listed (l : List (Word × Bool)) : Nat × Bool := ((l.getD n (0#32, false)).1.toNat, (l.getD n (0#32, false)).2)
  let m := s.engineMem a
  if sf = 6 then listed named
  else if waits then listed (op.tables.getD b [])
  else match s.elementAt a op.index [op.indexFrom + (b : Int)] .read with
    | .bytes ks =>
      let (x, y) := (ks.getD (2 * n) 0, ks.getD (2 * n + 1) 0)
      ((m.read x).toNat + 256 * (m.read y).toNat, m.marked x || m.marked y)
    | _ => (0, false)

/-- The code of a value in the target of an expansion: rounded to nearest even, saturated for INT8, the test for greater than 0 for
B1 (R333). -/
def targetCode (d : Nat) (v : FVal) : Nat :=
  let rounded (f : Fmt) : Nat := (roundVal f rne false v).1
  match d with
  | 0 => rounded fp64
  | 1 => rounded fp32
  | 2 => rounded bf16
  | 3 => rounded fp16
  | 4 => rounded e4m3
  | 5 => rounded e5m2
  | 6 => ((roundInt (-128) 127 rne v).1 % 256).toNat
  | _ => match v with
    | .fin neg m _ => if neg = false ∧ m ≠ 0 then 1 else 0
    | .inf neg => if neg then 0 else 1
    | .nan _ => 0

/-- Element i expanded: its code in the target, its mark, and whether the scale code of its block is 0xFF (R110, R111, R333). -/
def expandedElement (s : State) (a : Nat) (op : CopyOp) (sf d : Nat) (extra : BitVec 16) (named : List (Word × Bool)) (waits : Bool)
    (i : Nat) : Nat × Bool × Bool :=
  let m := s.engineMem a
  let byte (n : Nat) : Nat × Bool := elementByte m (streamByte s a op n)
  let (w, b) := (cpyxBits sf, i / cpyxBlock sf)
  let (x, y) := (byte (i * w / 8), byte (i * w / 8 + 1))
  let code := (x.1 + 256 * y.1) / 2 ^ (i * w % 8) % 2 ^ w
  let scale : Nat × Bool := if sf ≤ 2 then elementByte m (s.elementAt a op.index [op.indexFrom + (b : Int)] .read) else (127, false)
  let entry : Nat × Bool := if sf < 6 then (0, false) else bookEntry s a op sf named waits b code
  let plain : FVal := if 6 ≤ sf then bf16.val entry.1 else if sf % 3 = 0 then e4m3.val code else if sf % 3 = 1 then e5m2.val code
    else if code = 8 then bf16.val extra.toNat else e2m1.val code
  let value : FVal := if scale.1 = 255 then .nan false else match plain with
    | .fin neg n e => .fin neg n (e + (scale.1 : Int) - 127)
    | v => v
  (targetCode d value, x.2 || (decide (8 < i * w % 8 + w) && y.2) || scale.2 || entry.2, scale.1 == 255)

/-- Everything that element i is expanded from can be read (R211). -/
def ExpansionReads (s : State) (a : Nat) (op : CopyOp) (sf : Nat) (waits : Bool) (i : Nat) : Prop :=
  let w := cpyxBits sf
  let b := i / cpyxBlock sf
  streamByte s a op (i * w / 8) ≠ .fail ∧ (8 < i * w % 8 + w → streamByte s a op (i * w / 8 + 1) ≠ .fail) ∧
  (sf ≤ 2 ∨ (sf = 7 ∧ waits = false) → s.elementAt a op.index [op.indexFrom + (b : Int)] .read ≠ .fail) ∧
  (sf = 7 → waits = true → b < op.tables.length ∧ op.tables.getD b [] ≠ [])

/-! ### Walks, marks and records of the events -/

/-- Mark word w and the next ones, n of them, as struck (R356). -/
def struck (m : Memory) (w n : Nat) : Memory :=
  let ms := (List.range n).map fun j => (w + j, true)
  (m.setMarks ms).setStrucks ms

/-- Words of a local memory or a Granary are struck: in every view, and in the handles of the tiles that hold them (R274, R356). -/
def struckNear (s : State) (w n : Nat) : State :=
  { s with
    mem := struck s.mem w n
    agents := s.agents.zipIdx.map fun (g, i) =>
      { g with view := struck g.view w n, tile := { g.tile with handles := g.tile.handles.map fun h =>
        let first := granKey (s.clusterOf i) (1024 * h.slab)
        { h with psn := h.psn || decide (h.slabs ≠ 0 ∧ first < 4 * w + 4 * n ∧ 4 * w < first + 1024 * h.slabs) } } } }

/-- Fields of a page-table entry (R350, R351): a valid entry that may stand at a level of a walk, a leaf, a leaf that fits its
level, its page number, and the size of its page. -/
def entryOk (n : Nat) : Bool :=
  n % 2 == 1 && !(n / 4 % 2 == 1 && n / 2 % 2 == 0) && n / 2 ^ 61 % 4 != 3 && n / 2 ^ 60 % 2 == 0
def isLeaf (n : Nat) : Bool := n / 2 % 2 == 1 || n / 8 % 2 == 1
def pageOf (n : Nat) : Nat := n / 2 ^ 10 % 2 ^ 44
def napot (n : Nat) : Bool := n / 2 ^ 63 == 1
def leafFits (level n : Nat) : Bool :=
  decide (level ≤ 3) && pageOf n % 2 ^ (9 * level) == 0 && (!napot n || (level == 0 && pageOf n % 16 == 8))
def sizeAt (level n : Nat) : Nat := if level = 0 ∧ napot n = true then 2 ^ 16 else 2 ^ (12 + 9 * level)

/-- What a walk for a VA finds from a table of a level down: a leaf with its level and its address, or a page fault (R231, R350). -/
def WalkFinds (m : Memory) (va : Nat) : Nat → Nat → Option (Nat × DWord × Nat) → Prop
  | 0, _, r => r = none
  | level + 1, table, r =>
    let addr := table * 4096 + 8 * (va / 2 ^ (12 + 9 * level) % 512)
    let n := bytesAt m addr 8
    if entryOk n then
      if isLeaf n then r = if leafFits level n then some (level, BitVec.ofNat 64 n, addr) else none
      else if napot n then r = none
      else WalkFinds m va level (pageOf n) r
    else r = none

/-- The valid non-leaf entries that a walk for a VA reads from a table of a level down: level, entry, address (R231, R350, R352). -/
def walkReads (m : Memory) (va : Nat) : Nat → Nat → List (Nat × DWord × Nat)
  | 0, _ => []
  | level + 1, table =>
    let addr := table * 4096 + 8 * (va / 2 ^ (12 + 9 * level) % 512)
    let n := bytesAt m addr 8
    if level = 0 ∨ entryOk n = false ∨ isLeaf n = true ∨ napot n = true then []
    else (level, BitVec.ofNat 64 n, addr) :: walkReads m va level (pageOf n)

/-- A cached non-leaf entry leads to a VA; it is not what memory holds at its address (R352). -/
abbrev walkLeads (w : WalkEntry) (va : Nat) : Prop := w.va ≤ va ∧ va < w.va + 2 ^ (12 + 9 * w.level)
def walkOld (m : Memory) (w : WalkEntry) : Bool := bytesAt m w.slot 8 != w.pte.toNat

/-- The level and the table at which a walk begins: that of a cached non-leaf entry, or the root (R350, R352). -/
def beginsAt (root : Nat) : Option WalkEntry → Nat × Nat
  | some w => (w.level, pageOf w.pte.toNat)
  | none => (5, root)

/-- A cached entry without some cores, or, with no cores named, none at all. -/
def walkWithout (w : WalkEntry) (cores : Option (List Nat)) : Option WalkEntry :=
  cores.map fun cs => { w with gone := w.gone ++ cs.filter fun c => !w.gone.contains c }

/-- The cached non-leaf entries without those of a die that lead to a VA of a space and are older than memory (R345). -/
def walksSeen (m : Memory) (die space va : Nat) (ws : List WalkEntry) : List WalkEntry :=
  ws.filter fun w => !(w.die == die && w.space == space && decide (walkLeads w va) && walkOld m w)

/-- What a leaf gives an access to a VA, in the order of R350: PERM, then PAGE for A or D, then the physical address. -/
def LeafGives (s : State) (level n va : Nat) (acc : Access) (r : Except Nat Nat) : Prop :=
  let pa := pageOf n * 4096 / sizeAt level n * sizeAt level n + va % sizeAt level n
  let reads : Prop := acc = .read ∨ acc = .atomic
  let writes : Prop := acc = .write ∨ acc = .atomic
  let perm : Prop := n / 16 % 2 = 0 ∨ (reads ∧ n / 2 % 2 = 0) ∨ (writes ∧ n / 4 % 2 = 0) ∨ (acc = .fetch ∧ n / 8 % 2 = 0) ∨
    ∃ d, s.dieOfPhys pa = some d ∧ d ≠ n / 2 ^ 54 % 4
  let page : Prop := n / 64 % 2 = 0 ∨ (writes ∧ n / 128 % 2 = 0)
  (perm → r = .error 0x11) ∧ (¬ perm → page → r = .error 0x10) ∧ (¬ perm → ¬ page → r = .ok pa)

/-- Bits 63 to 56 of a VA are all equal (R350). -/
def wholeVa (va : DWord) : Bool := va.toNat / 2 ^ 56 == 0 || va.toNat / 2 ^ 56 == 255

/-- The level-0 entry of a VA stands at an address, every upper level of the walk from a table down being a valid non-leaf (R345). -/
def LeafEntryAt (m : Memory) (va : Nat) : Nat → Nat → Nat → Prop
  | 0, _, _ => False
  | 1, table, addr => addr = table * 4096 + 8 * (va / 2 ^ 12 % 512)
  | level + 2, table, addr =>
    let n := bytesAt m (table * 4096 + 8 * (va / 2 ^ (12 + 9 * (level + 1)) % 512)) 8
    entryOk n = true ∧ isLeaf n = false ∧ napot n = false ∧ LeafEntryAt m va (level + 1) (pageOf n) addr

/-- PGMAP (R345), by an agent of a die for a VA in a task's table, makes v of the state u and gives a status: INELIGIBLE 4, ALREADY
1, BUDGET 3, EMPTY 2, or MAPPED 0 with a page of zeros from the pool of die HOME. Walks of the die read what it wrote or found from
then on, and reach it by no cached entry older than its home; those of the other dies may still read the entry as it was (R228). -/
def PageMapped (u v : State) (die task : Nat) (va : DWord) (status : Nat) : Prop :=
  let t := u.task task
  let leaf (addr : Nat) : Prop := wholeVa va = true ∧
    ∃ root, u.spaceRoot t.space = some root ∧ LeafEntryAt u.mem (va.toNat % 2 ^ 57) 5 root addr
  let valid (addr : Nat) : Prop := bytesAt u.mem addr 8 % 2 = 1
  let touchable (addr : Nat) : Prop := bytesAt u.mem addr 8 / 2 ^ 57 % 2 = 1
  let spent : Prop := ∃ r ∈ t.chain, r.pages ≠ 0 ∧ r.pages ≤ (u.pagesOf t.space r.va).length
  let seen (addr : Nat) : List (Nat × Nat × DWord) := u.unseen.filter fun p => !(p.1 == die && p.2.1 == addr)
  ((∀ addr, leaf addr → ¬ valid addr ∧ ¬ touchable addr) → status = 4 ∧ v = u) ∧
  ∀ addr, leaf addr →
    (valid addr → status = 1 ∧ v = { u with unseen := seen addr, walks := walksSeen u.mem die t.space (va.toNat % 2 ^ 57) u.walks }) ∧
    (¬ valid addr → touchable addr →
      let e := bytesAt u.mem addr 8
      let bit (n : Nat) : Nat := e / 2 ^ n % 2 * 2 ^ n
      let pool := (u.dies.getD (e / 2 ^ 54 % 4) default).pool
      (spent → status = 3 ∧ v = u) ∧
      (¬ spent → pool = [] → status = 2 ∧ v = u) ∧
      (¬ spent → ∀ page rest, pool = page :: rest → page < 2 ^ 44 →
        let entry := 0xD7 + 2 ^ 10 * page + bit 54 + bit 55 + bit 56 + bit 58 + 2 ^ 59
        let inPage (k : Nat) : Prop := 4096 * page ≤ k ∧ k < 4096 * page + 4096
        let others := (List.range u.dies.length).filter (· != die)
        status = 0 ∧
        v = { u with
          dies := u.dies.modify (e / 2 ^ 54 % 4) fun x => { x with pool := rest }, mem := v.mem, pagesUsed := v.pagesUsed
          pageSlots := u.pageSlots ++ [(page, addr)], walks := walksSeen v.mem die t.space (va.toNat % 2 ^ 57) u.walks
          unseen := seen addr ++ others.map fun d => (d, addr, BitVec.ofNat 64 e) } ∧
        (Kept u → bytesAt v.mem addr 8 = entry ∧ ∀ k, k < addr ∨ addr + 8 ≤ k →
          (inPage k → v.mem.read k = 0#8 ∧ v.mem.marked k = false) ∧
          (¬ inPage k → v.mem.read k = u.mem.read k ∧ v.mem.marked k = u.mem.marked k)) ∧
        ((t.chain.map (·.va)).Nodup → ∀ r ∈ t.chain, v.pagesOf t.space r.va = u.pagesOf t.space r.va ++ [page])))

/-- Does a TLBINV name a TLB entry (R346)? -/
def invNames (v : TlbInv) (t : Tlb) : Bool :=
  t.space == v.space && v.dies.contains t.die && match v.va with
    | none => true
    | some va => wholeVa va && decide (t.va ≤ va.toNat % 2 ^ 57 ∧ va.toNat % 2 ^ 57 < t.va + sizeAt t.level t.pte.toNat)

/-- Does a TLBINV name the translations that a cached non-leaf entry leads to (R346)? -/
def invReaches (v : TlbInv) (w : WalkEntry) : Bool :=
  w.space == v.space && v.dies.contains w.die && match v.va with
    | none => true
    | some va => wholeVa va && decide (walkLeads w (va.toNat % 2 ^ 57))

/-- The TLB without the pages of a space that hold a VA, the walk caches without the entries that lead to them or are older than
memory, and every entry seen by every walk (R368). -/
def shotDown (u : State) (space va : Nat) : State :=
  { u with
    unseen := []
    tlbs := u.tlbs.filter fun t => !(t.space == space && decide (t.va ≤ va ∧ va < t.va + sizeAt t.level t.pte.toNat))
    walks := u.walks.filter fun w => !(walkOld u.mem w || w.space == space && decide (walkLeads w va)) }

/-- The bytes and marks that an access from another device leaves where it finds the value old with the mark m (R203, R204). -/
def peerLeaves (q : PeerReq) (old : Nat) (m : Bool) : Option (List Byte × List Bool) :=
  let value (n : Nat) (p : Bool) : Option (List Byte × List Bool) :=
    some ((List.range q.size).map fun b => BitVec.ofNat 8 (n / 2 ^ (8 * b)), List.replicate (q.size / 4) p)
  match q.op with
  | .load => none
  | .store bytes poison => if bytes.length = q.size then some (bytes, poison) else none
  | .atomic op v p =>
    value (atomicResult (8 * q.size) (if q.size = 8 then fp64 else fp32) op old (v % 2 ^ (8 * q.size))) (p || (op != 5 && m))
  | .cas new compare p => value (if old = compare % 2 ^ (8 * q.size) then new else old) (p || m)

/-- A spare takes the place of a failed unit, or the counts fall (R375). -/
def spareRecord (u : State) (x : SpareUnit) : State := { u with checks := u.checks ++ [.spare x] }

end Sys2Proof

open Sys2Proof Sys2Proof.Machine

/-- IADD, ISUB, IMUL, IMULH, IMAD, IMIN and IMAX write the exact result modulo 2^32 in each executing lane, and change no
other register, lane, flag, predicate or byte of memory (R133, R127, R50). -/
def Obligations.IntegerArithmeticLanes : Prop := LaneLaws integerArithmetic

/-- AND to ROT, POPC to BREV, BFX to BSEL, PACK, UNPK, MOV and FNEGABS give the bits that R133 to R135, R138, R143 and
R151 name, and change nothing else. -/
def Obligations.BitInstructionLanes : Prop := LaneLaws bitInstructions

/-- The immediate instructions and the moves of constants (R137, R138); the 64-bit integer forms, SHAPE and MOVP (R136, R152, R153);
RAND gives the four words of Philox-4×32 after its ten rounds (R154). -/
def Obligations.ImmediateAndPairLanes : Prop := LaneLaws immediateInstructions ∧ LaneLaws pairInstructions

/-- The FP32 instructions write their result in each executing lane and merge the flags of those lanes into FPCSR; so do the FP64
and the packed instructions (R141 to R147). Add, subtract, multiply, fused multiply-add, divide, square root, reciprocal, its square
root and FSCALB give RoundTo of the exact value: the grid value that the mode chooses, or the overflow result, with its flags (R108,
R114 to R116, R119); the special operands are those of R141, R142, R144 and R146, with the canonical NaNs of R107. FEXP2, FLOG2 and FSIGM
give the results that R144 names for special operands and exact cases; at other arguments the value is the model's evaluation. RoundTo in
every format is stated as well (R105, R107). -/
def Obligations.FloatingPointLanes : Prop := LaneLaws fp32Instructions ∧ LaneLaws fp64Instructions ∧ RoundingLaw

/-- CVT gives RoundTo or RoundInt of the exact value of its source element, placed as R149 says (R105, R114, R117, R148); CVTS gives
SRound with the draw of its second source (R118, R150); SELB copies an operand at a hard code and rounds p·a + (1 − p)·b once at a
fractional one (R250, R251). -/
def Obligations.ConversionLanes : Prop := LaneLaws conversions

/-- The hard and the soft compares write code, lineage and poison of the destination predicate in each executing lane
(R139, R140, R243 to R245), and so do PLOG, PCONST and COLLAPSE (R246 to R249); a write of P7 is discarded (R49). A soft compare at
temperature zero, and so at every TEMP that R242 counts as zero, gives the code of the hard one (R256); above it, its argument is
formed by two roundings to FP32, and where R244 names no exact result the code is the model's own evaluation (UNVERIFIED, log 50). -/
def Obligations.PredicateWrites : Prop := PredLaws compares ∧ PredLaws predicateLogic

/-- PGRAD.cmp gives +0 at temperature zero and else RoundTo of (c/65535)(1 − c/65535)/T, PGRAD.lin RoundTo of c/65535, PSUM RoundTo of
the sum of the executing lanes' probabilities, and PQUERY lineage, fraction and poison (R242, R252 to R254). -/
def Obligations.PredicateReadLanes : Prop := LaneLaws predicateReads

/-- LMASK, XLANE, REDUX, SCAN, MATCH, ELECT, REBAL and WSORT give every active lane the result that R177 to R184 name, and
note exited members (R176); REDUX and SCAN combine the members in the pairwise tree of R124, an absent position contributing nothing. -/
def Obligations.WarpWideLanes : Prop := LaneLaws warpWide

/-- The register forms of the scalar instructions, in 32 and in 64 bits, and the immediate and literal forms, on a warp and on a
sequencer (R131, R155 to R157); a GENERAL source traps SHAPE (R47); SMOV.l0 reads lane 0 of any register of a warp, 0 when
that lane has exited (R155). That this 0 is unmarked is the model's reading (DEDUCED, log 15): R155 names no mark. -/
def Obligations.ScalarForms : Prop :=
  ScalarLaws scalarRegister ∧ ScalarLaws scalarImmediates ∧
  (∀ (s : State) (c : Ctx) (i : Instr) (law : ScalarLaw), Runs s c →
    (scalarRegister i = some law ∨ scalarImmediates i = some law) → (∃ r ∈ law.srcs, uniformOf (c.ag.reg r) = none) →
    exec i s = .next (trapped c s law.len (trapIn c 0x04 c.act 0 0))) ∧
  ∀ (s : State) (c : Ctx) (vd va : Reg) (wide : Bool), WarpRuns s c → vd.toNat + (if wide then 2 else 1) ≤ 128 →
    ∃ t, exec (.smov vd va (if wide then 3#3 else 2#3)) s = .next t ∧
      WordWrite c t 1 vd.toNat
        ((List.range (if wide then 2 else 1)).map fun j => otherWord c (va.toNat + j) 0)
        ((List.range (if wide then 2 else 1)).any fun j => otherMark c (va.toNat + j) 0)

/-- R194: an element in bounds lies at BASE plus its coordinates times the strides, modulo 2^64, swizzled in local and Granary
entries; a coordinate outside its extent traps under BOUNDS 0, makes the element absent under BOUNDS 1, and is moved to the
nearest one inside under BOUNDS 2. -/
def Obligations.ElementAddress : Prop :=
  ∀ (l : Layout) (xs : List Int),
    (InBounds l xs → l.spot xs = .at (swizzled l (linearOffset l xs))) ∧
    ((∀ k, k < l.nd → 1 ≤ l.ext k) →
      (l.bounds = 0 → ¬ InBounds l xs → l.spot xs = .out) ∧
      (l.bounds = 1 → ¬ InBounds l xs → l.spot xs = .absent) ∧
      (l.bounds = 2 → l.spot xs = .at (swizzled l (linearOffset l
        ((List.range l.nd).map fun k => max 0 (min (xs.getD k 0) (l.ext k - 1)))))))

/-- A load writes, in each executing lane, the bytes that the agent's view holds at the element, lowest byte first and
zero-extended, or 0 for an absent element, with the marks of the words; it changes no memory and no other register
(R197 to R201, R222). -/
def Obligations.LoadLanes : Prop :=
  ∀ (s : State) (c : Ctx) (i : Instr) (f : MemForm) (keys : Nat → Option Nat), WarpRuns s c → loadForm i = some f →
    GuardClear c f.guard.toNat → f.data.toNat + wordCount f.size ≤ c.g → f.data.toNat + wordCount f.size ≤ 128 →
    AccessOk c (c.guardHolds f.guard.toNat) (formLayout c f) f.coords.toNat f.size .read keys →
    ∃ t, exec i s = .next t ∧
      LaneWrite c t 1 (c.guardHolds f.guard.toNat)
        ((List.range (wordCount f.size)).map fun j => loadedWord c f keys j) (afterGuard c f.guard.toNat c.ag.sregs)

/-- A plain store puts the data of each executing lane at its element, the highest lane last, and changes no other byte of
memory and no register (R197 to R202, R221, R222; the order of lanes and the marks of narrow stores are log 12). In deterministic
mode a store through a SHARED entry joins its team's buffer of 256 entries, and the warp's loads see it at once (R222). Outside local
memory it changes no memory yet; a later refresh at the core shows it over every store of the core that was buffered before it,
whichever team's (R222, R235). Local memory, whose point is the core at every level (R220), takes its bytes at once, so that its entry
has nothing left to perform. Without room the store waits for the team's turn, in which the buffer drains first (R202, R272; the entries
that it takes, the order of buffered stores, and local memory taking its bytes at once are log 45). -/
def Obligations.StoreLanes : Prop :=
  ∀ (s : State) (c : Ctx) (i : Instr) (f : MemForm) (keys : Nat → Option Nat), WarpRuns s c → Kept s → storeForm i = some f →
    GuardClear c f.guard.toNat →
    AccessOk c (c.guardHolds f.guard.toNat) (formLayout c f) f.coords.toNat f.size .write keys →
    (∀ l k, inMask (c.guardHolds f.guard.toNat) l = true → keys l = some k → s.fetchHolds k f.size = false) →
    let placed : Prop := ∀ l k b, inMask (c.guardHolds f.guard.toNat) l = true → keys l = some k → b < f.size →
      (keyKind (k + b) = 1 ↔ (formLayout c f).isLocal = true)
    (((formLayout c f).shared && c.task.deterministic) = false → NoneStreamed s c.core → placed →
      ∃ t, exec i s = .next t ∧
        StoreEffect c t (c.guardHolds f.guard.toNat) (formLayout c f).isLocal keys f.data.toNat f.size
          (afterGuard c f.guard.toNat c.ag.sregs)) ∧
    (((formLayout c f).shared && c.task.deterministic) = true → c.guardHolds f.guard.toNat ≠ 0#32 →
      let sts := issuedStores c (c.guardHolds f.guard.toNat) keys f.data.toNat f.size
      let buffered (u : State) : State := retired c 1 (withSoft c f.guard (sts.foldl (fun u st => u.bufferStore c.a st) u))
      let room := c.team.buffer.length + sts.length ≤ 256
      let turn := (Turn s c.ag.team ∨ c.team.buffer = []) ∧ s.bufferHeld c.ag.team = false
      (room → exec i s = .next (buffered s) ∧ ((buffered s).agent c.a).view = c.ag.view.performAll sts ∧
        (c.ag.team < s.teams.length →
          ((buffered s).team c.ag.team).buffer.map (·.store) = c.team.buffer.map (·.store) ++ sts) ∧
        ((formLayout c f).isLocal = true → placed → NoneStreamed s c.core → (buffered s).mem = s.mem.performAll sts ∧
          (c.ag.team < s.teams.length →
            ∀ b ∈ ((buffered s).team c.ag.team).buffer.drop c.team.buffer.length, b.stores = [])) ∧
        ((formLayout c f).isLocal = false → placed → s.corePend = [] → NoneStreamed s c.core → (buffered s).mem = s.mem ∧
          (c.ag.team < s.teams.length → c.team.phase = .resident → c.a < s.agents.length →
            (((buffered s).refresh c.a .core).agent c.a).view = ((s.refresh c.a .core).agent c.a).view.performAll sts))) ∧
      (¬ room → turn → exec i s = .next (buffered (s.drainBuffer c.ag.team))) ∧
      (¬ room → ¬ turn → exec i s = .next (awaiting c s)))

/-- JMP goes to its target, always or when its register is not 0 (R66, R161). CALL pushes the address after it while fewer
than 16 are held, RET goes to the top one, and RECONV sets the pending reconvergence address (R162 to R164). -/
def Obligations.JumpsAndCalls : Prop :=
  ∀ (s : State) (c : Ctx) (off : BitVec 21), Runs s c →
    exec (.jmp 7#3 off) s = .next (placedAt c (s.modEntry c.a c.e (sentTo (branchTarget c off)))) ∧
    (∀ (r : BitVec 3) (w : Word), r ≠ 7#3 → paramIs c r.toNat w →
      exec (.jmp r off) s = .next (if w = 0#32 then retired c 1 s
        else placedAt c (s.modEntry c.a c.e (sentTo (branchTarget c off))))) ∧
    (c.en.stack.length < 16 → exec (.call off) s = .next (placedAt c (s.modEntry c.a c.e fun en =>
      { sentTo (branchTarget c off) en with stack := (c.en.pc + 4#64) :: en.stack }))) ∧
    (∀ (pc : DWord) (rest : List DWord), c.en.stack = pc :: rest →
      exec .ret s = .next (placedAt c (s.modEntry c.a c.e fun en => { sentTo pc en with stack := rest }))) ∧
    (c.ag.kind = .warp → exec (.reconv off) s = .next (retired c 1 (s.modEntry c.a c.e fun en =>
      { en with pending := some (branchTarget c off) })))

/-- BRA sends every lane to the target or past the branch when they agree; when they disagree it splits the fragment into
two new entries and a join, or, without two free entries or inside WIDE, it defers the lanes not taken (R24, R25, R159). BRU
goes to its target when every active lane's guard holds, past itself when none does, and traps BRU otherwise (R160). That a join
keeps its pc where the fragment that splits has no reconvergence address is the model's reading (DEDUCED, log 15): R24 names none. -/
def Obligations.Branches : Prop :=
  ∀ (s : State) (c : Ctx) (off : BitVec 21) (ps : PReg), WarpRuns s c → GuardClear c ps.toNat →
    let taken := c.guardHolds ps.toNat
    let other := c.act &&& ~~~taken
    exec (.bra off ps) s = .next (
      if other = 0#32 then placedAt c (withSoft c ps (s.modEntry c.a c.e (sentTo (branchTarget c off))))
      else if taken = 0#32 then retired c 1 (withSoft c ps s)
      else if c.ag.wide.depth = 0 ∧ 2 ≤ (freeEntries c).length then
        placedAt c (withSoft c ps (withIssuer c s fun g =>
          { g with entries := divergedEntries c taken other (branchTarget c off) ((freeEntries c).getD 0 0) ((freeEntries c).getD 1 0) }))
      else placedAt c (withSoft c ps (s.modEntry c.a c.e (deferredEntry c taken other (branchTarget c off))))) ∧
    exec (.bru ps off) s = .next (
      if taken = c.act then placedAt c ((withSoft c ps s).modEntry c.a c.e (sentTo (branchTarget c off)))
      else if taken = 0#32 then retired c 1 (withSoft c ps s)
      else takeTrap s c.a c.e 1
        { cause := 0x06, mask := c.act, addr := 0#64, access := 0, level := none, partDone := false })

/-- EXIT adds the lanes whose guard holds to those that have exited, and the rest of the fragment goes on (R32, R165). -/
def Obligations.ExitLanes : Prop :=
  ∀ (s : State) (c : Ctx) (ps : PReg), WarpRuns s c → GuardClear c ps.toNat →
    exec (.exit ps) s = .next (
      if c.guardHolds ps.toNat = 0#32 then retired c 1 (withSoft c ps s)
      else placedAt c ((withIssuer c (withSoft c ps s) fun g =>
        { g.modEntry c.e (sentTo (c.en.pc + 4#64)) with exited := g.exited ||| c.guardHolds ps.toNat }).afterExit c.a))

/-- WIDE opens a bracket in which the fragment runs with every lane, nested up to 15 deep, ENDWIDE closes it and gives the
fragment its lanes back, and NOP has no effect (R166, R167). YIELD waits until the fragments that were ready have issued, and
completes when it issues again (R167; which fragments those are is log 2). -/
def Obligations.WideYieldNop : Prop :=
  ∀ (s : State) (c : Ctx), Runs s c →
    exec .nop s = .next (retired c 1 s) ∧
    exec .yield s = .next (
      if c.en.hold = .yielded ∨ c.yieldsTo = [] then retired c 1 s
      else s.modEntry c.a c.e fun en => { en with owed := c.yieldsTo, hold := .yielded }) ∧
    (c.ag.kind = .warp → c.ag.wide.depth = 0 → exec .wide s = .next (retired c 1 (withIssuer c s fun g =>
      { g.modEntry c.e (fun en => { en with mask := wideSet c }) with
        wide := { depth := 1, entry := c.e, saved := c.en.mask, lanes := wideSet c, records := c.en.records.length } }))) ∧
    (c.ag.kind = .warp → 0 < c.ag.wide.depth → c.ag.wide.depth < 15 → exec .wide s = .next (retired c 1 (withIssuer c s fun g =>
      { g with wide := { c.ag.wide with depth := c.ag.wide.depth + 1 } }))) ∧
    (c.ag.kind = .warp → 1 < c.ag.wide.depth → exec .endwide s = .next (retired c 1 (withIssuer c s fun g =>
      { g with wide := { c.ag.wide with depth := c.ag.wide.depth - 1 } }))) ∧
    (c.ag.kind = .warp → c.ag.wide.depth = 1 → c.en.records.length ≤ c.ag.wide.records →
      c.en.mask = c.ag.wide.lanes &&& ~~~c.ag.exited → exec .endwide s = .next (retired c 1 (withIssuer c s fun g =>
        { g.modEntry c.e (fun en => { en with mask := c.ag.wide.saved &&& ~~~c.ag.exited }) with
          wide := { depth := 0, entry := 0, saved := 0#32, lanes := 0#32, records := 0 } })))

/-- A boundary leaves a split table alone when each of its entries is free, or runs with lanes that have not exited and has come
neither to its reconvergence address nor, with a deferral record, to that of the record, or is a join that still misses lanes
(R24 to R26, R32). Where one entry has come to its record's address, its deferred lanes take over, or, when they have run, the
record ends and the lanes go on together (R25). Where one has come to its reconvergence address without a record, it is freed and
its lanes have arrived at the join, which runs once none is missing (R26). The last clause is the model's reading, not R166's words
(DEDUCED, log 15): while a WIDE bracket is open, the records that its fragment had before and its reconvergence are suspended. -/
def Obligations.QuietBoundary : Prop :=
  ∀ (g : Agent),
    ((∀ en ∈ g.entries, QuietEntry g.exited en) → g.settle = g) ∧
    (∀ (i : Nat) (en : Entry) (r : Deferral) (rest : List Deferral), g.wide.depth = 0 → g.entries[i]? = some en →
      (∀ j x, g.entries[j]? = some x → j ≠ i → QuietEntry g.exited x) →
      NoneExited g.exited en → en.kind = .running → en.records = r :: rest → r.target = some en.pc →
      let next : Entry := if r.phase = false ∧ r.deferred ≠ 0#32 then
          { en with mask := r.deferred, pc := r.resume, stack := r.stack, records := { r with phase := true } :: rest }
        else { en with mask := r.full, records := rest }
      QuietEntry g.exited next → g.settle = { g with entries := g.entries.set i next }) ∧
    (∀ (i p : Nat) (en join : Entry), g.wide.depth = 0 → i ≠ p → g.entries[i]? = some en → g.entries[p]? = some join →
      (∀ j x, g.entries[j]? = some x → j ≠ i → QuietEntry g.exited x) →
      NoneExited g.exited en → en.mask ≠ 0#32 → en.kind = .running → en.records = [] → en.reconv = some en.pc →
      en.parent = some p → join.kind = .join →
      let came := join.arrived ||| en.mask
      let next : Entry := if join.mask &&& ~~~came = 0#32 then
          { join with kind := .running, arrived := 0#32, pending := none, hold := .ready }
        else { join with arrived := came }
      QuietEntry g.exited next → g.settle = { g with entries := (g.entries.set i Entry.free).set p next }) ∧
    ∀ (i : Nat) (en : Entry), 0 < g.wide.depth → g.wide.entry = i → g.entries[i]? = some en →
      en.records.length ≤ g.wide.records → (∀ j x, g.entries[j]? = some x → j ≠ i → QuietEntry g.exited x) →
      NoneExited g.exited en → en.kind = .running → g.settle = g

/-- ID gives each thread the number of its node at a level, or the node's index within its parent, in every lane; on a sequencer it
reads the indices of the forking team, and 0 at the levels below CORE. The result is UNIFORM at a level not bound to LANE and on a
sequencer, AFFINE with stride 1 at the LANE level nearest the leaf when the number is asked for or no other level is bound to LANE, and
GENERAL at other LANE levels. SIZE gives the fanout of the level, or the product of the fanouts down to it, at most 2^32 − 1 (R168,
R169). A number above 2^32 − 1 is taken modulo 2^32, and the number on a sequencer has a 0 for each level below CORE: these two are the
model's readings, log 16. -/
def Obligations.TreeQueries : Prop :=
  ∀ (s : State) (c : Ctx) (lv : BitVec 4) (vd : Reg), Runs s c → lv.toNat < c.depth →
    (∀ (k : BitVec 6), k.toNat ≤ 1 → vd.toNat < c.g →
      ∃ t, exec (.levelId lv vd k) s = .next t ∧
        Beside s t c.a ∧ SameMemory s t ∧ OnlyRegisters c 1 (t.agent c.a) ∧ (t.agent c.a).preds = c.ag.preds ∧
        (t.agent c.a).sregs = c.ag.sregs ∧ (∀ r, r ≠ vd.toNat → (t.agent c.a).reg r = c.ag.reg r) ∧
        (∀ i, i < 32 → ((t.agent c.a).reg vd.toNat).marked i = false) ∧
        (c.ag.kind = .warp → fanProduct (c.task.declared.filter (·.phys == 0)) = 32 → ∀ i, i < 32 →
          let number := c.task.lin lv.toNat c.team.logical c.ag.number i
          (t.agent c.a).word vd.toNat i =
            BitVec.ofNat 32 (if k = 1#6 then number else number % (c.task.level lv.toNat).fan)) ∧
        (c.ag.kind = .warp →
          let levels := c.task.declared.length
          let lowest : Prop := lv.toNat < levels ∧ ∀ m, lv.toNat < m → m < levels → c.phys m ≠ 0
          let only : Prop := ∀ m, m < levels → c.phys m = 0 → m = lv.toNat
          (c.phys lv.toNat ≠ 0 → ∃ w, (t.agent c.a).reg vd.toNat = ⟨.uniform w, 0#32⟩) ∧
          (c.phys lv.toNat = 0 → lowest ∧ (k = 1#6 ∨ only) → ∃ w, (t.agent c.a).reg vd.toNat = ⟨.affine w 1#32, 0#32⟩) ∧
          (c.phys lv.toNat = 0 → ¬ (lowest ∧ (k = 1#6 ∨ only)) → ((t.agent c.a).reg vd.toNat).isGeneral = true)) ∧
        (c.ag.kind ≠ .warp → (t.agent c.a).reg vd.toNat = ⟨.uniform (BitVec.ofNat 32 (
          let number := c.task.lin lv.toNat c.team.logical 0 0
          if k = 1#6 then number else if 2 ≤ c.phys lv.toNat then number % (c.task.level lv.toNat).fan else 0)), 0#32⟩)) ∧
    (∃ t, exec (.levelSize lv vd 0#6) s = .next t ∧
      WordWrite c t 1 vd.toNat [BitVec.ofNat 32 (c.task.level lv.toNat).fan] false) ∧
    (∃ t, exec (.levelSize lv vd 1#6) s = .next t ∧
      WordWrite c t 1 vd.toNat [BitVec.ofNat 32 (min 0xFFFFFFFF (fanProduct (c.task.declared.take (lv.toNat + 1))))] false)

/-- MFSR writes the words of a special register that the agent has, UNIFORM and unpoisoned, and MTSR writes the register from
its parameter words, with reserved bits left 0 (R56 to R63, R189): WSTAT has the fields of R60, and CAPCORE, CAPCLUS and CAPDIE hold
the counts of the hosting units in the fields of R63. What WSTAT.DEFER counts in a fault handler, and above 31, is log 15; so is that
CAPCORE reads, on a sequencer context, the core of the team that forked it. -/
def Obligations.SpecialRegisters : Prop :=
  ∀ (s : State) (c : Ctx) (r : Reg) (sr : BitVec 10), Runs s c →
    (∀ ws, specialWords c sr = some ws → r.toNat + ws.length ≤ 128 →
      ∃ t, exec (.mfsr r sr) s = .next t ∧ WordWrite c t 1 r.toNat ws false) ∧
    (∀ ws, specialFor c.ag.kind sr = true → srWords sr = some ws.length →
      (∀ j, j < ws.length → paramIs c (r.toNat + j) (ws.getD j 0#32)) →
      exec (.mtsr r sr) s = .next (retired c 1 (withIssuer c s fun g =>
        { g with sregs := specialAfter c.ag.sregs (c.ag.kind == .warp) sr ws })))

/-- A wait at BAR, TBAR or COLL. While warps that the instance needs have not arrived, the fragment waits with its arrival recorded.
Its entry apart, every agent stays as it was, and so does memory, unless the warp at a BAR or TBAR has buffered SHARED stores that it
must perform beyond the core: its team's buffer then drains first, and with it the stream elements that it overlaps. The arrival of the last one completes it: every waiting fragment, also of other warps, goes on at
a boundary, BAR and a TBAR above the warp bring the team's layout entries (R53), and at a COLL every warp receives its result: the
reduction of the contributions level by level by the tree of R124, a scan up to its own position or before it, or the broadcast of the
lowest (R124 to R126, R170 to R172, R174, R175). These clauses are of a fragment that holds every lane of its warp, of a task that lies on
this device with no other instance in use. A warp that is alone passes at once, and a COLL gives it its own contribution or, as an
exclusive scan, the identity. A BAR or a TBAR, which imply PHASE, waits for the team's turn before it arrives while the warp has buffered
SHARED stores that it must perform beyond the core (R171, R172, R223, R272; that it waits so is log 45). -/
def Obligations.WaitInstances : Prop :=
  (∀ (s : State) (c : Ctx) (i : Instr) (f : WaitForm) (v : DWord), WarpRuns s c → waitForm c i = some f → WaitOffers s c v i →
    (∀ p, f.point = some p → c.ag.frames = [] → ¬ MayRelease s c.a p → exec i s = .next (awaiting c s)) ∧
    ∀ (x : Instance), Gathers s c f x → (∀ p, f.point = some p → MayRelease s c.a p) →
      let y := withArrival c v x
      let waits (en : Entry) : Prop := ∃ d, en.hold = .barrier [0] d
      (¬ AllCame s c y → ∃ t q, exec i s = .next t ∧ t.instances = [q] ∧ q.arrivals = y.arrivals ∧ q.count = y.count ∧
        (t.agent c.a).entries = (c.ag.modEntry c.e fun en => { en with hold := .barrier [0] f.dest }).entries ∧
        let owes : Prop := ∃ p, f.point = some p ∧ ∃ b ∈ c.team.buffer, b.agent = c.a ∧ beyondCore p b.store.key
        (owes → t.mem = (s.drainBuffer c.ag.team).mem) ∧ (¬ owes → t.mem = s.mem ∧ ∀ b, (t.agent b).streams = (s.agent b).streams) ∧
        ∀ b, { t.agent b with entries := [], streams := (s.agent b).streams } = { s.agent b with entries := [] } ∧
          (b ≠ c.a → (t.agent b).entries = (s.agent b).entries)) ∧
      (AllCame s c y → (∀ p, f.point = some p → ∀ z ∈ x.arrivals, MayRelease s z.1 p) →
        (∀ z ∈ x.arrivals, z.1 < s.agents.length ∧ (s.agent z.1).phase ≠ .saved ∧ (∃ en ∈ allEntries (s.agent z.1), waits en) ∧
          ∀ en ∈ allEntries (s.agent z.1), ∀ l d, en.hold = .barrier l d → l = [0] ∧ (f.dest = none → d = none)) →
        ∃ t q, exec i s = .next t ∧ t.instances = [q] ∧ q.arrivals = [] ∧ q.count = none ∧ q.contributions = [] ∧
          (t.agent c.a).entries = pastEntries c ∧
          (∀ z ∈ x.arrivals, let g := s.agent z.1
            (t.agent z.1).entries = ({ g with entries := g.entries.map fun en => match en.hold with
              | .barrier _ _ => en.advance 1
              | _ => en } : Agent).settle.entries) ∧
          (∀ b, (t.agent b).preds = (s.agent b).preds ∧
            (b ≠ c.a → (∀ z ∈ x.arrivals, z.1 ≠ b) → (t.agent b).entries = (s.agent b).entries ∧ (t.agent b).regs = (s.agent b).regs)) ∧
          (∀ b, b = c.a ∨ (∃ z ∈ x.arrivals, z.1 = b) →
            (f.dest = none → (t.agent b).regs = (s.agent b).regs) ∧
            ((∃ n, f.kind = .bar n) ∨ (∃ l, f.kind = .tbar l ∧ 2 ≤ c.phys l) →
              (t.agent b).layouts = (s.team (s.agent b).team).layouts)) ∧
          ∀ l k op low, f.kind = .coll l (8 * k + op) → k < 4 → op < 8 → IsLowest c.act low →
            let own : Contribution := { agent := some c.a, value := v, poison := false
                                        position := c.task.lin (c.task.declared.length - 1) c.team.logical c.ag.number low }
            Contributed c op x own → t.mem = s.mem ∧
            ∀ z ∈ x.contributions ++ [own], ∀ b d, z.agent = some b → b = c.a ∨ (∃ p ∈ x.arrivals, p.1 = b) →
              d.1 + (if d.2 then 2 else 1) ≤ 128 → (b = c.a → f.dest = some d) →
              (b ≠ c.a → ∀ en ∈ allEntries (s.agent b), ∀ l o, en.hold = .barrier l o → o = some d) →
              ∃ r, CollGives op k ((c.task.declared.drop (l + 1)).map (·.fan)) f.node
                  (fun q => ((x.contributions ++ [own]).find? (·.position == q)).map fun z => (z.value, 0#6, z.poison)) z.position r ∧
                WritesResult (s.agent b) (t.agent b) d r)) ∧
  ∀ (s : State) (c : Ctx) (r d : Reg) (lv : BitVec 4), WarpRuns s c → Alone s c →
    (∀ (n : BitVec 6) (w : Word), n.toNat < (s.cores.getD c.core default).barriers → paramIs c r.toNat w → MayRelease s c.a .core →
      ∃ t, exec (.bar r n) s = .next t ∧ (t.agent c.a).entries = pastEntries c ∧ (t.agent c.a).regs = c.ag.regs ∧
        (t.agent c.a).preds = c.ag.preds ∧ (t.agent c.a).layouts = c.team.layouts) ∧
    (lv.toNat < c.depth → c.phys lv.toNat ≠ 0 →
      let p := pointOf true (c.phys lv.toNat)
      (MayRelease s c.a p → ∃ t, exec (.tbar lv) s = .next t ∧ (t.agent c.a).entries = pastEntries c ∧
        (t.agent c.a).regs = c.ag.regs ∧ (t.agent c.a).preds = c.ag.preds) ∧
      (¬ MayRelease s c.a p → exec (.tbar lv) s = .next (awaiting c s))) ∧
    (∀ (k : BitVec 2) (op : BitVec 3) (w : Word) (upper : List BoundLevel), lv.toNat < c.depth → c.phys lv.toNat ≠ 0 →
      op ≠ 2#3 → paramIs c r.toNat w → c.team.logical = 0 →
      c.task.declared = upper ++ [⟨32, 0, true⟩] → (∀ l ∈ upper, l.fan = 1 ∧ 1 ≤ l.phys) →
      ∃ t, exec (.coll lv d r k op) s = .next t ∧ (t.agent c.a).entries = pastEntries c ∧
        (t.agent c.a).reg d.toNat = ⟨.uniform (if k = 2#2 then (redIdentity op.toNat).truncate 32 else w), 0#32⟩ ∧
        (∀ q, q ≠ d.toNat → (t.agent c.a).reg q = c.ag.reg q) ∧ t.mem = s.mem)

/-- PHASE and FENCE release the agent's earlier stores to the point of their level, refresh its view there, or both. A release that
must perform SHARED stores which the agent has buffered waits for its team's turn (R223, R227, R272; log 45): PHASE and FENCE note it and
the fragment goes on, while later memory instructions of the agent are held; TFENCE and IFENCE wait themselves. TFENCE
and IFENCE release to the home, IFENCE drops what the agents of its node have fetched ahead, and TFENCE waits for the issuer's
TLBINVs in its node and makes the walks of its dies read every entry as it stands at its home, so that cached non-leaf entries older
than memory serve the agents of the node no more (R222, R223, R227 to R229, R239, R345; that TFENCE and IFENCE release as far as the
home, and which dies and cores a node has, are the model's readings, log 11 and log 23). -/
def Obligations.Fences : Prop :=
  ∀ (s : State) (c : Ctx) (lv : BitVec 4), Runs s c → lv.toNat < c.depth →
    let p := pointOf (c.ag.kind == .warp) (c.phys lv.toNat)
    exec (.fenceAcq lv) s = .next (retired c 1 (s.refresh c.a p)) ∧
    (c.ag.due = [] → MayRelease s c.a p →
      exec (.phase lv) s = .next (retired c 1 ((s.release c.a p).refresh c.a p)) ∧
      exec (.fenceAr lv) s = .next (retired c 1 ((s.release c.a p).refresh c.a p)) ∧
      exec (.fenceRel lv) s = .next (retired c 1 (s.release c.a p))) ∧
    (c.ag.due ≠ [] ∨ ¬ MayRelease s c.a p →
      let noted (acquires : Bool) : State := withIssuer c s fun g => { g with due := c.ag.due ++ [(c.a, p, acquires)] }
      exec (.phase lv) s = .next (retired c 1 (noted true)) ∧ exec (.fenceAr lv) s = .next (retired c 1 (noted true)) ∧
      exec (.fenceRel lv) s = .next (retired c 1 (noted false))) ∧
    (MayRelease s c.a .home →
      let u := s.release c.a .home
      ((∀ v ∈ s.invs, v.agent = c.a → ∀ d ∈ v.dies, d ∉ c.nodeDies lv) → exec (.tfence lv) s = .next (retired c 1
        { u with
          unseen := u.unseen.filter fun p => !(c.nodeDies lv).contains p.1
          walks := u.walks.filterMap fun w =>
            if (c.nodeDies lv).contains w.die && walkOld u.mem w then walkWithout w (c.nodeCores lv) else some w })) ∧
      ((∃ v ∈ s.invs, v.agent = c.a ∧ ∃ d ∈ v.dies, d ∈ c.nodeDies lv) → exec (.tfence lv) s = .next (awaiting c u)) ∧
      exec (.ifence lv) s = .next (retired c 1 { u with fetched := u.fetched.filter fun f => !c.sameNode lv.toNat f.agent })) ∧
    (¬ MayRelease s c.a .home → ∀ i, i = .tfence lv ∨ i = .ifence lv → exec i s = .next (awaiting c s))

/-- A release to the home performs every store of the agent: none of its stores is on its way any more, and none is buffered but
to local memory, which has its bytes already (R220; log 45); with
no stream element left, no byte changes that none of the stores in flight or buffered by its team covers (R221, R223). -/
def Obligations.ReleasePerforms : Prop :=
  ∀ (s : State) (a : Nat), Kept s →
    (∀ q ∈ (s.release a .home).corePend, q.agent ≠ a) ∧ (∀ q ∈ (s.release a .home).clusterPend, q.agent ≠ a) ∧
    (∀ b ∈ ((s.release a .home).team ((s.release a .home).agent a).team).buffer, b.agent = a → keyKind b.store.key = 1) ∧
    ((∀ g ∈ s.agents, g.streamed = []) ∨
        ((s.agent a).streamed = [] ∧ ∀ b ∈ (s.team (s.agent a).team).buffer, b.agent ≠ a) →
      ∀ k, (∀ q ∈ s.corePend ++ s.clusterPend, ¬ (q.store.key ≤ k ∧ k < q.store.key + q.store.bytes.length)) →
        (∀ b ∈ (s.team (s.agent a).team).buffer, ¬ (b.store.key ≤ k ∧ k < b.store.key + b.store.bytes.length)) →
        (s.release a .home).mem.read k = s.mem.read k)

/-- DSYNC, TKTAKE and TKPASS have no effect outside deterministic mode; in it, DSYNC passes when no other team's clock is
lower, TKTAKE in the team's turn, after its buffered stores, and TKPASS passes the Lodestone on, unless the team has a fault in a
handler or at the OS cores: then it keeps the Lodestone, and it passes once the faults are resolved (R187, R188, R226, R271, R272; the
clocks of teams on other devices are as they report them, and TKPASS in a fault is log 19). The buffer drains into memory store by
store, in the order of issue (R272; what a later store has replaced is log 45). -/
def Obligations.DeterministicTurns : Prop :=
  ∀ (s : State) (c : Ctx), WarpRuns s c →
    (c.task.deterministic = false → exec .dsync s = .next (retired c 1 s) ∧ exec .tktake s = .next (retired c 1 s) ∧
      exec .tkpass s = .next (retired c 1 s)) ∧
    (let least := (∀ u ∈ s.teams, u.task = c.team.task → u.phase ≠ .retired → c.team.clock.toNat ≤ u.clock.toNat) ∧
       ∀ w ∈ c.task.away, w.retired = false → c.team.clock.toNat ≤ w.clock.toNat
     (least → exec .dsync s = .next (retired c 1 s)) ∧
     (c.task.deterministic = true → ¬ least → exec .dsync s = .next (awaiting c s))) ∧
    (let faulted : Prop := ∃ g ∈ s.agents, g.team = c.ag.team ∧ (g.frames ≠ [] ∨ ∃ e t, g.phase = .stopped e t)
     (c.task.deterministic = true → Turn s c.ag.team →
      (faulted → exec .tkpass s = .next (retired c 1 (s.modTeam c.ag.team fun m => { m with passDue := true }))) ∧
      (s.bufferHeld c.ag.team = true → exec .tktake s = .next (awaiting c s) ∧
        (¬ faulted → exec .tkpass s = .next (awaiting c s))) ∧
      (s.bufferHeld c.ag.team = false →
        exec .tktake s = .next (retired c 1 ((s.drainBuffer c.ag.team).refresh c.a .home)) ∧
        (¬ faulted → exec .tkpass s = .next (retired c 1 ((s.passLodestone c.ag.team).settleHolder c.team.task))))) ∧
     (c.task.deterministic = true → ¬ Turn s c.ag.team →
      exec .tktake s = .next (awaiting c s) ∧ exec .tkpass s = .next (retired c 1 s)) ∧
     let due : Prop := c.team.passDue = true ∧ ¬ faulted ∧ s.bufferHeld c.ag.team = false
     (due → s.settlePass c.ag.team = (s.passLodestone c.ag.team).settleHolder c.team.task) ∧
     (¬ due → s.settlePass c.ag.team = s)) ∧
    (let t := c.team.task
     let live (k : Nat) : Prop := (∃ x ∈ s.teams, x.task = t ∧ x.phase ≠ .retired ∧ x.logical = k) ∨
       ∃ x ∈ (s.task t).away, x.retired = false ∧ x.logical = k
     (s.task t).lodestone = some c.team.logical → c.ag.team < s.teams.length →
      let u := s.passLodestone c.ag.team
      let next (P : Nat → Prop) : Prop := ∃ k, (u.task t).lodestone = some k ∧ P k ∧ ∀ j, P j → k ≤ j
      (u.team c.ag.team).buffer = [] ∧ (u.team c.ag.team).passDue = false ∧
      ((∃ k, live k ∧ c.team.logical < k) → next fun k => live k ∧ c.team.logical < k) ∧
      ((∀ k, live k → k ≤ c.team.logical) → (∃ k, live k) → next live)) ∧
    (s.corePend = [] → s.clusterPend = [] → (∀ g ∈ s.agents, g.streamed = []) → c.ag.team < s.teams.length →
      (s.drainBuffer c.ag.team).mem = s.mem.performAll (c.team.buffer.flatMap Buffered.stores) ∧
      ((s.drainBuffer c.ag.team).team c.ag.team).buffer = [])

/-- LAYOUT loads a valid image of 64 bytes into a layout entry of the agent, and of its team on a warp; LAYOUT.inv clears
the entry; LAYQ reads its fields (R52, R53, R193, R195, R196). -/
def Obligations.LayoutEntries : Prop :=
  ∀ (s : State) (c : Ctx) (r : Reg) (n : BitVec 6), Runs s c →
    let put (u : State) (l : Layout) : State :=
      let u := withIssuer c u fun g => { g with layouts := g.layouts.setIfInBounds n.toNat l }
      if c.ag.kind = .warp then u.modTeam c.ag.team fun m => { m with layouts := m.layouts.setIfInBounds n.toNat l } else u
    (∀ (va : DWord) (k : Nat), paramPair c r va → va.toNat % 64 = 0 → c.place Layout.global va.toNat .read = .key k →
      (∀ j, j < 64 → c.ag.view.marked (k + j) = false) → (Layout.ofBytes (c.ag.view.readBytes k 64)).imageOk = true →
      exec (.layout r n) s = .next (retired c 1 (put s (Layout.ofBytes (c.ag.view.readBytes k 64))))) ∧
    exec (.layoutInv n) s = .next (retired c 1 (put s Layout.zero)) ∧
    (∀ (k : BitVec 4), k.toNat ≤ 10 → r.toNat + 2 ≤ 128 →
      let l := c.ag.layouts.getD n.toNat Layout.zero
      ∃ t, exec (.layq r n k) s = .next t ∧ WordWrite c t 1 r.toNat (
        if k.toNat < 4 then [l.extent.getD k.toNat 0#32]
        else if k.toNat < 8 then lowHigh (l.stride.getD (k.toNat - 4) 0#64)
        else if k.toNat = 8 then lowHigh l.base
        else if k.toNat = 9 then [BitVec.ofNat 32 (l.space.toNat + 2 ^ 8 * l.esize.toNat + 2 ^ 16 * l.dims.toNat + 2 ^ 24 * l.mode.toNat)]
        else [BitVec.ofNat 32 (l.peer.toNat + 2 ^ 16 * l.xmask.toNat)]) false)

/-- CINC, after the agent's earlier atomics (R224), adds its operand to a usage counter modulo 2^64, in deterministic mode in its team's
turn (log 45), and CRD reads one; CLOCK reads the clock of the die; SYSC 0 to 2 return the arguments, the region and the deadline of
the task; TLBINV starts an invalidation; PGMAP, in a handler, answers INELIGIBLE, ALREADY, BUDGET or EMPTY, or maps a page of zeros
(R218, R344 to R346, R348; the dies and the cores of a level's node are the model's reading, log 23; a VA that is no canonical
address counts as one without an entry, log 6). -/
def Obligations.CountersAndServices : Prop :=
  ∀ (s : State) (c : Ctx) (d r q : Reg) (lv : BitVec 4), Runs s c → d.toNat + 2 ≤ 128 →
    (∀ (w v : Word), paramIs c r.toNat w → paramIs c q.toNat v → c.task.deterministic = true → ¬ Turn s c.ag.team →
      exec (.cinc r q) s = .next (awaiting c s)) ∧
    (∀ (w v : Word), paramIs c r.toNat w → paramIs c q.toNat v → (c.task.deterministic = true → Turn s c.ag.team) →
      let u := s.toHome fun p => p.agent == c.a && p.atomic
      ∃ l, exec (.cinc r q) s = .next (retired c 1 { u with counters := l }) ∧
        (Kept s → ∀ j, State.counter { u with counters := l } j = if j = w.toNat % 2 ^ 16 then
          BitVec.ofNat 64 ((s.counter j).toNat + v.toNat) else s.counter j)) ∧
    (∀ (w : Word), paramIs c r.toNat w →
      ∃ t, exec (.crd d r) s = .next t ∧ WordWrite c t 1 d.toNat (lowHigh (s.counter (w.toNat % 2 ^ 16))) false) ∧
    (∃ t, exec (.clock d) s = .next t ∧
      WordWrite c t 1 d.toNat (lowHigh (BitVec.ofNat 64 (s.dies.getD c.die default).clock)) false) ∧
    (∃ t, exec (.sysc d r 0#10) s = .next t ∧ WordWrite c t 1 d.toNat (lowHigh c.task.args) false) ∧
    (∀ (reg : Region) (rest : List Region), c.task.chain = reg :: rest →
      ∃ t, exec (.sysc d r 1#10) s = .next t ∧ WordWrite c t 1 d.toNat (lowHigh reg.va) false) ∧
    (∃ t, exec (.sysc d r 2#10) s = .next t ∧ WordWrite c t 1 d.toNat (lowHigh (c.task.deadlineOn c.die)) false) ∧
    (∀ (va : DWord), paramPair c r va → lv.toNat < c.depth →
      exec (.tlbinv lv r) s = .next (retired c 1 { s with invs := s.invs ++
        [{ agent := c.a, space := c.task.space, dies := c.nodeDies lv, va := some va, cores := c.nodeCores lv }] })) ∧
    (lv.toNat < c.depth →
      exec (.tlbinvAll lv) s = .next (retired c 1 { s with invs := s.invs ++
        [{ agent := c.a, space := c.task.space, dies := c.nodeDies lv, va := none, cores := c.nodeCores lv }] })) ∧
    (∀ (va : DWord), paramPair c r va → c.ag.frames ≠ [] →
      ∃ u status, PageMapped s u c.die c.team.task va status ∧
        exec (.pgmap d r) s = .next (retired c 1 (withIssuer c u fun g => putWords g d [BitVec.ofNat 32 status])))

/-- An atomic reads each lane's old value at its point of coherence, writes the new one there, lane after lane, and returns
the old values; its order field releases before and acquires after. No register but its destination changes (R203, R204,
R223, R224). -/
def Obligations.AtomicLanes : Prop :=
  ∀ (s : State) (c : Ctx) (i : Instr) (f : AtomicForm) (keys : Nat → Option Nat), WarpRuns s c → atomicForm i = some f →
    AtomicReady s c f keys → c.guardHolds f.guard.toNat ≠ 0#32 →
    let x := c.guardHolds f.guard.toNat
    let ks := keyedLanes x keys
    let run := atomicRun c.a (atomicPoint c f) f.size (f.value c) ks (beforeAtomic s c f ks)
    let w := afterAtomic c f run.1
    ({ w.agent c.a with view := c.ag.view, late := c.ag.late, streams := c.ag.streams } = c.ag) ∧
    ∃ t, exec i s = .next t ∧
      LaneWrite (laterIn c w) t 2 x
        ((List.range (f.size / 4)).map fun j => (f.dest.toNat + j, oldWord run.2 j, oldMark run.2))
        (afterGuard c f.guard.toNat c.ag.sregs)

/-- In local memory, with nothing on its way, a relaxed atomic takes the old values from memory and leaves there what R203
names, with the marks of R204; every byte outside its elements is as it was. -/
def Obligations.LocalAtomics : Prop :=
  ∀ (s : State) (c : Ctx) (i : Instr) (f : AtomicForm) (keys : Nat → Option Nat), WarpRuns s c → atomicForm i = some f →
    AtomicReady s c f keys → c.guardHolds f.guard.toNat ≠ 0#32 → Kept s → Still s → c.task.deterministic = false →
    (atomicEntry c f).isLocal = true → f.ord = 0#2 →
    (∀ l k b, inMask (c.guardHolds f.guard.toNat) l = true → keys l = some k → b < f.size → keyKind (k + b) = 1) →
    ∃ t, exec i s = .next t ∧
      let y := atomicsOn f.size (f.value c) (keyedLanes (c.guardHolds f.guard.toNat) keys) s.mem
      t.mem = y.1 ∧
      (∀ l, inMask (c.guardHolds f.guard.toNat) l = true → ∀ j, j < f.size / 4 →
        (t.agent c.a).word (f.dest.toNat + j) l = oldWord y.2 j l ∧
        ((t.agent c.a).reg (f.dest.toNat + j)).marked l = oldMark y.2 l) ∧
      ∀ a, (∀ l k, inMask (c.guardHolds f.guard.toNat) l = true → keys l = some k → ¬ (k ≤ a ∧ a < k + f.size)) →
        t.mem.read a = s.mem.read a

/-- LOOKUP gives each executing lane the lowest entry of its key, and a READY one acquires the fill's writes (R207, R225;
the refresh is from the home, log 11). -/
def Obligations.LookupLanes : Prop :=
  ∀ (s : State) (c : Ctx) (vd va : Reg) (ps : PReg), WarpRuns s c → GuardClear c ps.toNat → vd.toNat + 1 ≤ c.g →
    vd.toNat + 1 ≤ 128 →
    let x := c.guardHolds ps.toNat
    ∃ (val : Nat → Word) (ready : Nat → Bool) (w t : State), exec (.lookup vd va ps) s = .next t ∧
      (∀ l, inMask x l = true → tagAnswer c.team.tags (c.ag.word va.toNat l) (val l) (ready l)) ∧
      t = (if (lanesWith (inMask x)).any ready then w.refresh c.a .home else w) ∧
      LaneWrite c w 1 x [(vd.toNat, val, laneMark [va.toNat] [] c)] (afterGuard c ps.toNat c.ag.sregs)

/-- CSTORE stores the data of the passing lanes to successive positions and adds their number to the position register. Where an
element fails, the lanes before it have stored, the position register has counted them, and the trap names that lane and those
after it, which TRET runs again (R205, R338; the position as a word that wraps is the model's reading, log 14). -/
def Obligations.CompactingStore : Prop :=
  ∀ (s : State) (c : Ctx) (vs vc : Reg) (lay : BitVec 6) (hint : BitVec 1) (ps : PReg) (xs : List Word) (pos : Word) (w : State),
    WarpRuns s c → GuardClear c ps.toNat →
    let l := c.ag.layouts.getD lay.toNat Layout.zero
    let lanes := lanesWith (inMask (c.guardHolds ps.toNat))
    1 ≤ l.dims.toNat → l.size = 4 → vc.toNat + l.nd ≤ c.n → xs.length = l.nd →
    (∀ j, j < l.nd → paramIs c (vc.toNat + j) (xs.getD j 0#32)) → paramIs c (vs.toNat + 1) pos →
    (l.shared && c.task.deterministic = true → c.team.buffer.length + lanes.length ≤ 256) → s.keptBack l = false →
    let counted (n : Nat) : State := withSoft c ps (withIssuer c w fun g =>
      g.setReg (vs.toNat + 1) ⟨.uniform (pos + BitVec.ofNat 32 n), 0#32⟩)
    (CompactStores c l vs.toNat (xs.map BitVec.toInt) lanes pos s w →
      exec (.cstore vs vc lay hint ps) s = .next (retired c 1 (counted lanes.length))) ∧
    ∀ (pre rest : List Nat) (i cause addr access : Nat), lanes = pre ++ i :: rest → s.silent l = false →
      CompactStores c l vs.toNat (xs.map BitVec.toInt) pre pos s w →
      ElementFails { c with s := w } l
        ((xs.map BitVec.toInt).modify 0 (· + ((pos + BitVec.ofNat 32 pre.length).toNat : Int))) 4 .write cause addr access →
      exec (.cstore vs vc lay hint ps) s = .next (trapped c (counted pre.length) 1
        { trapIn c cause (maskOf fun j => (i :: rest).contains j) addr access with partDone := true, peer := s.peerOf l })

/-- SETUPIS sets a stream up, SPOP gives each executing lane the next element of a read stream, and SPUSH supplies the
elements of a write stream, in increasing lane number; a poisoned index makes its element poisoned and takes no trap. Where an
element fails, the lanes before it have theirs, and the trap names that lane and those after it (R215, R216, R338; the word of an
element whose poisoned index names no place is a free value, log 49). That SETUPIS reads neither bits 31:6 of vb+0 nor vb+3 and
completes whatever they hold is the model's reading (DEDUCED, log 18), and that an element of a SPUSH through a SHARED entry joins its
team's buffer is log 45. -/
def Obligations.StreamLanes : Prop :=
  ∀ (s : State) (c : Ctx) (r m : Reg) (ps : PReg), (∀ x i, IndexedElement c x i) ∧
    (Runs s c → ∀ (va : Reg) (lay : BitVec 6) (k : BitVec 4) (xs bs : List Word),
      let n := c.ag.layouts.getD lay.toNat Layout.zero
      let ix := c.ag.layouts.getD ((bs.getD 0 0#32).toNat % 64) Layout.zero
      let old := c.ag.stream (k.toNat % 8)
      1 ≤ n.dims.toNat → n.esize.toNat ≤ 2 → va.toNat + n.nd ≤ c.n → ix.dims = 1#8 → ix.esize = 2#8 →
      xs.length = n.nd → bs.length = 4 →
      (∀ j, j < n.nd → paramIs c (va.toNat + j) (xs.getD j 0#32)) → (∀ j, j < 4 → paramIs c (r.toNat + j) (bs.getD j 0#32)) →
      (old.write = true → old.fifo = []) →
      exec (.setupis va r lay k) s = .next (retired c 1 (s.setStream c.a (k.toNat % 8) fun _ =>
        { setUp := true, write := k.getLsbD 3, entry := n, index := ix, coords := xs.map BitVec.toInt,
          start := (bs.getD 1 0#32).toInt, count := (bs.getD 2 0#32).toNat, next := 0, fifo := [] }))) ∧
    (WarpRuns s c → GuardClear c ps.toNat → c.guardHolds ps.toNat ≠ 0#32 →
      let x := c.guardHolds ps.toNat
      let n := (lanesWith (inMask x)).length
      let st := c.ag.stream m.toNat
      let failed (u : State) (lanes : List Nat) (cause addr access : Nat) (peer : Option Nat) : State := trapped c (withSoft c ps u) 1
        { trapIn c cause (maskOf fun j => lanes.contains j) addr access with partDone := true, peer := peer }
      let taken (k f : Nat) : State := { s.setStream c.a m.toNat fun _ =>
        { st with next := st.next + k, fifo := st.fifo.drop k } with freshNo := f }
      let popped (key : Nat → Option Nat) (mark : Nat → Bool) (word : Nat → Word) : LaneDest := (r.toNat,
        fun l => match key (rank x l) with
          | some k => BitVec.ofNat 32 (bytesAt c.ag.view k (min st.entry.size 4))
          | none => word (rank x l),
        fun l => mark (rank x l) || match key (rank x l) with
          | some k => c.ag.view.marked k
          | none => false)
      st.setUp = true → st.next + n ≤ st.count → StreamOpen s st →
      (∀ (key : Nat → Option Nat) (mark : Nat → Bool), st.write = false → r.toNat + 1 ≤ c.g → r.toNat + 1 ≤ 128 →
        StreamGives c st n key mark →
        ∃ (word : Nat → Word) (f : Nat) (t : State), PlacelessWords c st n word ∧ (NoneLost c st n → f = s.freshNo) ∧
          exec (.spop r m ps) s = .next t ∧
          LaneWrite (laterIn c (taken n f)) t 1 x [popped key mark word] (afterGuard c ps.toNat c.ag.sregs)) ∧
      (∀ (key : Nat → Option Nat) (mark : Nat → Bool) (pre rest : List Nat) (i cause addr access : Nat) (peer : Option Nat),
        st.write = false → r.toNat + 1 ≤ c.g → r.toNat + 1 ≤ 128 → lanesWith (inMask x) = pre ++ i :: rest →
        StreamGives c st pre.length key mark → st.fifo.length ≤ pre.length →
        c.streamElem st (st.next + pre.length) = .fail cause addr access peer →
        ∃ (word : Nat → Word) (f : Nat) (u : State), PlacelessWords c st pre.length word ∧
          (NoneLost c st pre.length → f = s.freshNo) ∧
          LanesGiven c (taken pre.length f) u (maskOf fun j => pre.contains j) [popped key mark word] ∧
          exec (.spop r m ps) s = .next (failed u (i :: rest) cause addr access peer)) ∧
      (∀ (w : State), st.write = true →
        ((st.entry.shared && c.task.deterministic) = true → c.team.buffer.length + n ≤ 256) →
        (StreamTakes c m.toNat r.toNat (lanesWith (inMask x)) s w →
          exec (.spush r m ps) s = .next (retired c 1 (withSoft c ps w))) ∧
        ∀ (pre rest : List Nat) (i cause addr access : Nat) (peer : Option Nat), lanesWith (inMask x) = pre ++ i :: rest →
          StreamTakes c m.toNat r.toNat pre s w →
          ({ c with s := w } : Ctx).streamElem ((w.agent c.a).stream m.toNat) ((w.agent c.a).stream m.toNat).next
            = .fail cause addr access peer →
          exec (.spush r m ps) s = .next (failed w (i :: rest) cause addr access peer)))

/-- What a load, a store or an atomic of executing lanes traps, in this order: LAYOUT for an entry that is invalid or of
another element size, POISON for poisoned coordinates, LAYOUT for a lane out of bounds in TRAP mode, LOCAL_BOUNDS, ALIGN,
and then, where some lanes do not translate, the cause of the lowest of them, with those lanes as MASK: the other lanes have
completed, a load's in their registers, a store's and an atomic's in memory (R197, R198, R338). ACCESS is 0 for the causes to which
R197 and R198 give none (R335). -/
def Obligations.AccessTraps : Prop :=
  ∀ (s : State) (c : Ctx) (i : Instr) (f : MemForm) (acc : Access) (len : Nat) (m : Mask) (low off : Nat),
    WarpRuns s c → accessForm i = some (f, acc, len) → GuardClear c f.guard.toNat → c.guardHolds f.guard.toNat ≠ 0#32 →
    (acc ≠ .write → f.data.toNat + wordCount f.size ≤ c.g) → (∀ g, atomicForm i = some g → g.level.toNat < c.depth) →
    let x := c.guardHolds f.guard.toNat
    let l := formLayout c f
    let ends (cause : Nat) (mask : Mask) (addr access : Nat) : Prop :=
      exec i s = .next (trapped c s len (trapIn c cause mask addr access))
    let marked (j : Nat) : Prop := ∃ k, k < l.nd ∧ (c.ag.reg (f.coords.toNat + k)).marked j = true
    let at_ (j o : Nat) : Prop := l.spot (c.coords l f.coords.toNat j) = .at o
    let exceeds (o : Nat) : Prop := (l.isLocal = true ∧ c.task.localAlloc < o + f.size) ∨ (l.isGran = true ∧ c.task.info.granary < o + f.size)
    let entryOk : Prop := 1 ≤ l.dims.toNat ∧ l.size = f.size ∧ f.coords.toNat + l.nd ≤ c.n
    let clear : Prop := entryOk ∧ ∀ j, inMask x j = true → ¬ marked j
    let inside : Prop := clear ∧ ∀ j, inMask x j = true → l.spot (c.coords l f.coords.toNat j) ≠ .out
    let within : Prop := inside ∧ ∀ j o, inMask x j = true → at_ j o → ¬ exceeds o
    let aligned : Prop := within ∧ ∀ j o, inMask x j = true → at_ j o → o % f.size = 0
    (¬ entryOk → ends 0x09 x 0 0) ∧
    (entryOk → LanesAre x m marked → ends 0x12 m 0 0) ∧
    (clear → LanesAre x m (fun j => l.spot (c.coords l f.coords.toNat j) = .out) → ends 0x09 m 0 0) ∧
    (inside → LanesAre x m (fun j => ∃ o, at_ j o ∧ exceeds o) → IsLowest m low → at_ low off → ends 0x08 m off 0) ∧
    (within → LanesAre x m (fun j => ∃ o, at_ j o ∧ o % f.size ≠ 0) → IsLowest m low → at_ low off → ends 0x13 m off 0) ∧
    (∀ (e : Nat) (keys : Nat → Option Nat), aligned → s.keptBack l = false → (s.silent l = true → c.en.hold = .peer 0) →
      LanesAre x m (fun j => ∃ o d, at_ j o ∧ (c.place l o acc).cause = some d) → IsLowest m low → at_ low off →
      (c.place l off acc).cause = some e →
      (∀ j, inMask x j = true → inMask m j = false → (∀ o, at_ j o → ∃ k, c.place l o acc = .key k ∧ keys j = some k) ∧
        ((∀ o, ¬ at_ j o) → keys j = none)) →
      let good := x &&& ~~~m
      let failed (u : State) : State :=
        trapped c (withSoft c f.guard u) len { trapIn c e m off acc.code with partDone := true, peer := s.peerOf l }
      let free : Prop := ∀ j k, inMask good j = true → keys j = some k → s.fetchHolds k f.size = false
      (acc = .read → f.data.toNat + wordCount f.size ≤ 128 →
        ∃ u, LanesGiven c s u good ((List.range (wordCount f.size)).map fun j => loadedWord c f keys j) ∧
          exec i s = .next (failed u)) ∧
      (acc = .write → free →
        let sts := issuedStores c good keys f.data.toNat f.size
        (l.shared && c.task.deterministic = true → c.team.buffer.length + sts.length ≤ 256) →
        exec i s = .next (failed (sts.foldl (c.storeThrough l) s))) ∧
      ∀ a, atomicForm i = some a → free → a.dest.toNat + a.size / 4 ≤ 128 →
        let ks := keyedLanes good keys
        AtomicGoes s c a ks →
        let run := atomicRun c.a (atomicPoint c a) a.size (a.value c) ks (beforeAtomic s c a ks)
        ∃ u, LanesGiven c (afterAtomic c a run.1) u good
            ((List.range (a.size / 4)).map fun j => (a.dest.toNat + j, oldWord run.2 j, oldMark run.2)) ∧
          exec i s = .next (failed u))

/-- A lane instruction that writes some but not all lanes of a register from G on, or every lane with a GENERAL result, traps SHAPE
in every active lane with nothing changed, and a poisoned guard, or a fractional one under STRICT, traps the lanes that have it,
before anything else (R44, R46, R50). -/
def Obligations.ShapeAndGuardTraps : Prop :=
  ∀ (s : State) (c : Ctx) (i : Instr) (law : LaneLaw) (m : Mask), WarpRuns s c → laneTables i = some law →
    (GuardClear c law.guard.toNat → c.guardHolds law.guard.toNat ≠ 0#32 →
      (∃ j, j < law.count ∧ c.g ≤ law.dest.toNat + j ∧ (c.guardHolds law.guard.toNat = allLanes → keptBy c i j = none)) →
      exec i s = .next (trapped c s law.len (trapIn c 0x04 c.act 0 0))) ∧
    (LanesAre c.act m (fun l => (c.ag.pred law.guard.toNat l).poison = true) →
      exec i s = .next (trapped c s law.len (trapIn c 0x12 m 0 0))) ∧
    ((∀ l, l < 32 → inMask c.act l = true → (c.ag.pred law.guard.toNat l).poison = false) → c.ag.sregs.strict = true →
      LanesAre c.act m (fun l => (c.ag.pred law.guard.toNat l).fractional = true) →
      exec i s = .next (trapped c s law.len (trapIn c 0x05 m 0 0)))

/-- A lane instruction that writes all lanes completes in any register where its result is not GENERAL, with the value, the flags and
the marks of its law: MOV, IADD, ISUB, IADDI, SHL, SHLI and IMUL keep shape when no source is GENERAL; MOVI, MOVI32, SHAPE, PSUM, LMASK,
REDUX, XLANE.abs, IADD64 and ISUB64 give UNIFORM where R46, R177 to R179 and R253 say so, and SELB on P7 the shape of MOV (R46 rules 1,
2, 3, 6 and 7, R251). -/
def Obligations.ShapeKept : Prop :=
  ∀ (s : State) (c : Ctx) (i : Instr) (law : LaneLaw), WarpRuns s c → laneTables i = some law →
    law.dest.toNat + law.count ≤ 128 → GuardClear c law.guard.toNat → c.guardHolds law.guard.toNat = allLanes →
    (∀ j, j < law.count → keptBy c i j ≠ none ∨ law.dest.toNat + j < c.g) →
    ∃ (val : Nat → Nat → Word) (fl : Nat → Flags) (t : State), exec i s = .next t ∧
      (∀ l, l < 32 → law.rel c l (val l) (fl l)) ∧
      LaneWrite c t law.len allLanes ((List.range law.count).map fun j => (law.dest.toNat + j, fun l => val l j, law.mark c))
        (afterGuard c law.guard.toNat (law.also c (c.ag.sregs.raise (mergedFlags allLanes fl)))) ∧
      ∀ j sh, j < law.count → keptBy c i j = some sh → ((t.agent c.a).reg (law.dest.toNat + j)).shape = sh (val 0 j)

/-- LAUNCH releases (to the home, log 11), reads its packet and answers: the task's next id and 0 when the packet binds and the queue
has room, 0 and FULL when it has none, 0 and the launch fault when it does not bind (R36, R260); R260 says only that the id is not 0
and unique, and that it counts up, from 1 on, is the model's choice (log 47; a count of 0, which no run reaches, stays). The faults are those of R16 in its order: the format of the packet
(R258), the chain of region blocks with its effective values (R36, R37, R40), the code object (R92, R259), its signature, the
binding of R15 with Cap (R12) and the budgets (R17 to R19). The model's readings here: a poisoned word of a region block is read as its
stored bits, a page of it without the D bit counts as writable, and one without the A bit as not mapped (log 25, log 24), which levels resolve first (log 25), which bytes
are signed (log 10), and that other devices count as this one (log 24). While the agent has
buffered SHARED stores, LAUNCH waits for its team's turn (R223; log 45). TWAIT and TWAIT.poll return the
status word of a retired child and 0xFFFF_FFFF for an id that names none; for one that has not retired TWAIT waits and TWAIT.poll
returns 0xFFFF_FFFE (R262, R263). -/
def Obligations.LaunchAnswers : Prop :=
  (∀ (s : State) (c : Ctx) (vd va : Reg) (addr : DWord) (b : List Byte), Runs s c → paramPair c va addr → addr.toNat % 64 = 0 →
    s.packetFault c.die c.task.space addr = none →
    (¬ MayRelease s c.a .home → exec (.launch vd va) s = .next (awaiting c s)) ∧
    (MayRelease s c.a .home → (s.release c.a .home).readClean c.die c.task.space addr 192 = some b →
    let u := s.release c.a .home
    let who : LaunchBy := { launcher := .task c.team.task, id := c.task.nextChild, space := c.task.space, die := c.die,
                            parent := some c.team.task }
    let answer (v : State) (id code : Nat) : Prop := exec (.launch vd va) s =
      .next (retired c 1 (withIssuer c v fun g => g.writeWords vd.toNat false [BitVec.ofNat 32 id, BitVec.ofNat 32 code]))
    (∀ f, u.check who (Packet.ofBytes b) = .error f → answer u 0 f) ∧
    (∀ t, u.check who (Packet.ofBytes b) = .ok t →
      let q := (t.chain.headD default).qlimit
      let limit := if q = 0 then 256 else min 4096 q
      if limit ≤ (u.tasks.filter fun x => x.phase == .queued && x.space == c.task.space &&
          x.chain.head?.map (·.va) == some (Packet.ofBytes b).region).length then answer u 0 1
      else answer ((u.enqueue t []).modTask c.team.task fun t =>
        { t with nextChild := if c.task.nextChild = 0 then t.nextChild else t.nextChild + 1 }) c.task.nextChild 0))) ∧
  (∀ (s : State) (who : LaunchBy) (b : List Byte), b.length = 192 →
    PacketIs b (Packet.ofBytes b) ∧ CapLaw s ∧ CheckLaw s who (Packet.ofBytes b)) ∧
  ∀ (s : State) (c : Ctx) (vd va : Reg) (id : Word), Runs s c → paramIs c va.toNat id →
    let ends (i : Instr) (w : Word) : Prop := ∃ t, exec i s = .next t ∧ WordWrite c t 1 vd.toNat [w] false
    (noChild s c id → ends (.twait vd va) 0xFFFFFFFF#32 ∧ ends (.twaitPoll vd va) 0xFFFFFFFF#32) ∧
    (∀ t, isChild s c id t → t.phase = .retired →
      ends (.twait vd va) (retiredWord t) ∧ ends (.twaitPoll vd va) (retiredWord t)) ∧
    (∀ t, isChild s c id t → t.phase ≠ .retired →
      exec (.twait vd va) s = .next (awaiting c s) ∧ ends (.twaitPoll vd va) 0xFFFFFFFE#32)

/-- FORK takes a free context and starts a program there at the given offset, with eight registers and a join id; without a free
context it returns 0 and 1; it never waits (R185). It performs the stores of its agent first, in both cases: that it does so as far as
the cluster, where the sequencers are, is the model's reading (DEDUCED, log 11: R223 names a release at CORE). SHARED stores of the agent
to the Granary, whose point lies at the cluster, stay buffered when it is not the team's turn: the program then owes their release, and
its memory instructions are held until it has been performed (DEDUCED from R185, R223 and R272; log 45). That the context is the lowest free one and that ids
count up are the model's choices (log 47). -/
def Obligations.ForkStarts : Prop :=
  ∀ (s : State) (c : Ctx) (i : Instr) (kind : AgentKind) (sect : Nat) (vd va vb : Reg) (off : Word) (start size : Nat),
    Runs s c → forkForm i = some (kind, sect, vd, va, vb) → paramIs c vb.toNat off →
    (∀ j, j < 8 → (uniformOf (c.ag.reg (va.toNat + j))).isSome) → vd.toNat + 2 ≤ 128 →
    c.task.info.sectionAt sect = some (start, size) → off.toNat % 4 = 0 → off.toNat < size →
    let u := if (∃ b ∈ c.team.buffer, b.agent = c.a ∧ beyondCore .core b.store.key) ∧ MayRelease s c.a .core then
      s.drainBuffer c.ag.team else s
    (s.freeContext c.cluster kind = none → exec i s = .next (retired c 1 (withIssuer c (u.sendAll c.a .cluster) fun g =>
      g.writeWords vd.toNat false [0#32, 1#32]))) ∧
    ∀ n, s.freeContext c.cluster kind = some n →
      ∃ t, exec i s = .next t ∧ t.agents.length = s.agents.length + 1 ∧ (∀ q ∈ t.corePend, q.agent ≠ c.a) ∧
        let g := t.agent s.agents.length
        g.kind = kind ∧ g.team = c.ag.team ∧ g.number = n ∧ g.phase = .active ∧
        g.due = (if MayRelease s c.a .core then [] else [(c.a, .core, true)]) ∧
        (¬ MayRelease s c.a .core → (t.team c.ag.team).buffer = c.team.buffer) ∧
        g.entries = [Entry.start (c.task.code + BitVec.ofNat 64 (start + off.toNat)) 1#32] ∧
        (∀ j, j < 128 → g.reg j = if j < 8 then
            ⟨.uniform ((uniformOf (c.ag.reg (va.toNat + j))).getD 0#32),
              if (c.ag.reg (va.toNat + j)).poison = 0#32 then 0#32 else allLanes⟩
          else ⟨.uniform 0#32, 0#32⟩) ∧
        (c.ag.team < s.teams.length → (t.team c.ag.team).joins = c.team.joins ++
          [{ id := c.team.joins.length + 1, agent := s.agents.length, result := none, consumed := false }]) ∧
        (t.agent c.a).reg vd.toNat = ⟨.uniform (BitVec.ofNat 32 (c.team.joins.length + 1)), 0#32⟩ ∧
        (t.agent c.a).reg (vd.toNat + 1) = ⟨.uniform 0#32, 0#32⟩ ∧
        (∀ r, r ≠ vd.toNat → r ≠ vd.toNat + 1 → (t.agent c.a).reg r = c.ag.reg r) ∧
        ∀ a, a < s.agents.length → a ≠ c.a → t.agent a = u.agent a

/-- RDV returns the result of a program that has ended, consumes its id and refreshes (from the home, log 11); an id that
names none returns 0xFFFF_FFFF. HALT ends a program: with its engines idle the context retires and its join has the result 0 (R186, R347). -/
def Obligations.RdvAndHalt : Prop :=
  ∀ (s : State) (c : Ctx) (vd va : Reg) (id : Word), Runs s c →
    (paramIs c va.toNat id →
      let found := c.team.joins.find? fun j => j.id == id.toNat && !j.consumed
      (found = none → ∃ t, exec (.rdv vd va) s = .next t ∧ WordWrite c t 1 vd.toNat [0xFFFFFFFF#32] false) ∧
      (∀ j r, found = some j → j.result = some r →
        exec (.rdv vd va) s = .next (retired c 1 (withIssuer c
          ((s.modTeam c.ag.team fun m =>
            { m with joins := m.joins.map fun j => if j.id = id.toNat then { j with consumed := true } else j }).refresh c.a .home)
          fun g => g.writeWords vd.toNat false [BitVec.ofNat 32 r])))) ∧
    (c.ag.kind ≠ .warp → ∃ t, exec .halt s = .next t ∧
      (t.agent c.a).phase = (if c.ag.enginesIdle then .retired else .halting) ∧
      (∀ j, c.team.joins.find? (fun j => j.agent == c.a) = some j → c.ag.team < s.teams.length →
        ∃ k ∈ (t.team c.ag.team).joins, k.id = j.id ∧ k.result = some 0))

/-- COMMIT gives the operations of the open batch the next number of the matrix timeline and returns it; TLWAIT returns once
a timeline has reached its number, and acquires (R54, R212, R326; from the home, log 11). -/
def Obligations.TimelineWaits : Prop :=
  ∀ (s : State) (c : Ctx) (vd vb : Reg) (n : DWord) (e : Word),
    (TileRuns s c → exec (.commit vd) s = .next (retired c 1 (withIssuer c s fun g =>
        { g with tile := { g.tile with
            batches := (g.tile.batches ++ [g.tile.matOps.length - g.tile.batches.foldl (· + ·) 0]).dropWhile (· == 0),
            committed := g.tile.committed + 1 } }.writeWords vd.toNat false
          (lowHigh (BitVec.ofNat 64 (c.ag.tile.committed + 1)))))) ∧
    (Runs s c → paramIs c vd.toNat e → paramPair c vb n →
      ∀ issued reads, c.ag.engine e.toNat = some (issued, reads) → n.toNat ≤ reads → n.toNat ≤ issued →
        exec (.tlwait vd vb) s = .next (retired c 1 (s.refresh c.a .home)))

/-- AEXPECT sets the target of an arrival word and arrives with 0, AARRIVE releases and arrives with its operand, AWAIT
acquires once the generation has moved; TAGSET and TAGCLR change the tag table, PREF nothing (R55, R208, R214, R217;
AWAIT refreshes from the home, log 11; AARRIVE waits for the team's turn while it must perform SHARED stores that the agent has
buffered, log 45; that an armed word whose COUNT + n passes the field still goes to its next generation, with COUNT at the top, and
that a mark on the word counts for nothing, are the model's readings, log 17). -/
def Obligations.ArrivalsAndTags : Prop :=
  ∀ (s : State) (c : Ctx) (va vb : Reg) (lay : BitVec 6) (k : Nat) (v : Word), Runs s c →
    (ArrivalAt c va vb lay k v →
      let u := s.settleBytes c.a k 8 .core
      let w := (s.release c.a (pointOf (c.ag.kind == .warp) 2)).settleBytes c.a k 8 .core
      (∃ r, Arrived (withTarget (u.mem.read64 k) v.toNat) 0 r ∧
        exec (.aexpect va vb lay) s = .next (retired c 1 (u.arriveOwn c.a k r))) ∧
      (v.toNat < 2 ^ 28 → ¬ MayRelease s c.a (pointOf (c.ag.kind == .warp) 2) →
        exec (.aarrive va vb lay) s = .next (awaiting c s)) ∧
      (v.toNat < 2 ^ 28 → MayRelease s c.a (pointOf (c.ag.kind == .warp) 2) → ∃ r, Arrived (w.mem.read64 k) v.toNat r ∧
        exec (.aarrive va vb lay) s = .next (retired c 1 (w.arriveOwn c.a k r))) ∧
      (2 ^ 28 ≤ v.toNat → exec (.aarrive va vb lay) s = .next (trapped c s 1 (trapIn c 0x16 c.act 0 0))) ∧
      (wordGen (s.mem.read64 k) ≠ v.toNat % 128 → exec (.await va vb lay) s = .next (
        if wordErr (s.mem.read64 k) = true then trapped c (s.refresh c.a .home) 1 (trapIn c 0x16 c.act 0 0)
        else retired c 1 (s.refresh c.a .home)))) ∧
    (∀ slot key, paramIs c va.toNat slot → paramIs c vb.toNat key → slot.toNat + 1 ≤ teamSlots s c →
      exec (.tagset va vb) s = .next (retired c 1 (s.modTeam c.ag.team fun m =>
        { m with tags := tagsOutside m.tags slot.toNat 1 ++
            [{ start := slot.toNat, state := .ready, key := key, length := 1, filler := none }] })) ∧
      exec (.tagclr va) s = .next (retired c 1 (s.modTeam c.ag.team fun m =>
        { m with tags := tagsOutside m.tags slot.toNat 1 }))) ∧
    ∀ h, exec (.pref va lay h) s = .next (retired c 1 s)

/-- CPY, GATHER, SCATTER, FILL and CPYX, when their checks pass and the core has a place, put one copy on
the issuer's timeline with everything it names as it stands; FILL makes its slots a PENDING run (R209 to R213, R331). The checks are
those of R209, R210 and R332, with two readings of the model (log 18): CPY does not check its unused entry X (DESIGN CHOICE), and the
reserved bits of the block are ignored (DEDUCED). -/
def Obligations.CopiesIssue : Prop :=
  ∀ (s : State) (c : Ctx) (va vb : Reg) (lay : BitVec 6) (xs bs : List Word) (arr : Option Nat), Runs s c →
    let n := entryOf c lay.toNat
    let w0 := bs.getD 0 0#32
    let o := entryOf c (field w0 0 6)
    let ix := entryOf c (field w0 6 6)
    let count := (bs.getD 1 0#32).toNat
    1 ≤ n.dims.toNat → xs.length = n.nd → bs.length = 8 →
    (∀ i kind, copyForm i = some (kind, va, vb, lay) → va.toNat + n.nd ≤ c.n → paramRun c va xs → paramRun c vb bs →
      1 ≤ o.dims.toNat → n.esize = o.esize → (kind ≠ .cpy → ix.dims = 1#8 ∧ ix.esize = 2#8) → count * n.size < 2 ^ 28 →
      BlockArrival c w0 12 13 (bs.getD 2 0#32) arr → (count ≠ 0 → copyRoom s c) →
      exec i s = .next (retired c 1 (copyStarted c s (copyOf c kind n xs bs arr)))) ∧
    (∀ (slot key : Word) (k : BitVec 4), vb.toNat + n.nd ≤ c.n → paramIs c va.toNat slot → paramIs c (va.toNat + 1) key →
      paramRun c vb xs → slot.toNat + (k.toNat + 1) ≤ teamSlots s c →
      (∀ t ∈ c.team.tags, t.state = .pending → t ∈ tagsOutside c.team.tags slot.toNat (k.toNat + 1)) →
      s.filling c.ag.team slot.toNat (k.toNat + 1) = false → (1024 * (k.toNat + 1) / n.size ≠ 0 → copyRoom s c) →
      exec (.fill va vb lay k) s = .next (retired c 1 (copyStarted c
        (s.modTeam c.ag.team fun m => { m with tags := tagsOutside m.tags slot.toNat (k.toNat + 1) ++
          [{ start := slot.toNat, state := .pending, key := key, length := k.toNat + 1,
             filler := some (c.a, c.ag.copyIssued + 1) }] })
        { num := 0, kind := .fill slot.toNat (k.toNat + 1), walked := slotLayout n.esize slot.toNat (k.toNat + 1), walkFrom := [0],
          other := n, otherFrom := xs.map BitVec.toInt, index := Layout.zero, indexFrom := 0,
          count := 1024 * (k.toNat + 1) / n.size, arrival := none, tableArrival := none, tables := [] }))) ∧
    (∀ tarr, paramRun c va xs → paramRun c vb bs → c.cpyxLayouts va n bs = true → cpyxBad bs = false →
      BlockArrival c w0 12 13 (bs.getD 2 0#32) arr → BlockArrival c w0 19 20 (bs.getD 6 0#32) tarr →
      (count ≠ 0 → copyRoom s c) →
      let f := bs.getD 3 0#32
      exec (.cpyx va vb lay) s = .next (retired c 1 (copyStarted c s
        { num := 0, kind := .cpyx (field f 0 4) (field f 4 4) (f.extractLsb' 16 16) (c.ag.codebooks.getD (field f 8 3) [])
            (decide (field w0 19 1 = 1)) (field (bs.getD 7 0#32) 0 7),
          walked := n, walkFrom := xs.map BitVec.toInt, other := o, otherFrom := [(bs.getD 4 0#32).toInt], index := ix,
          indexFrom := (bs.getD 5 0#32).toInt, count := count, arrival := arr, tableArrival := tarr, tables := [] })))

/-- CBLOAD loads the sixteen entries of a codebook: absent elements as 0, each with its mark (R330). -/
def Obligations.CodebookLoad : Prop :=
  ∀ (s : State) (c : Ctx) (va : Reg) (lay : BitVec 6) (n : BitVec 3) (xs : List Word) (keys : Nat → Option Nat), Runs s c →
    let l := entryOf c lay.toNat
    1 ≤ l.dims.toNat → l.size = 2 → va.toNat + l.nd ≤ c.n → xs.length = l.nd → paramRun c va xs →
    (∀ e : Nat, e < 16 → match l.spot ((xs.map BitVec.toInt).modify 0 (· + (e : Int))) with
      | .out => False
      | .absent => keys e = none
      | .at off => s.keptBack l = false ∧ off % 2 = 0 ∧ (l.isLocal = true → off + 2 ≤ c.task.localAlloc) ∧
          (l.isGran = true → off + 2 ≤ c.task.info.granary) ∧ ∃ k, c.place l off .read = .key k ∧ keys e = some k) →
    exec (.cbload va lay n) s = .next (retired c 1 (withIssuer c s fun g =>
      { g with codebooks := g.codebooks.set n.toNat ((List.range 16).map fun e =>
          match keys e with
          | some k => (BitVec.ofNat 32 (bytesAt (s.engineMem c.a) k 2), (s.engineMem c.a).marked k || (s.engineMem c.a).marked (k + 1))
          | none => (0#32, false)) }))

/-- Each MMA and ACC instruction of a tile sequencer, when its operand words are in order and no other context uses its
slots, joins the operations of its matrix context in issue order (R316 to R320, R327); the stores of the cluster that are on
their way to what it has still to fetch are performed then, and nothing else happens (R328; log 33). -/
def Obligations.MatrixIssue : Prop :=
  ∀ (s : State) (c : Ctx) (i : Instr) (regs : List Reg) (ok : Word → Bool) (size : Nat) (ws : List Word), TileRuns s c →
    matForm i = some (regs, ok, size) → ws.length = regs.length →
    (∀ j, j < regs.length → paramIs c (regs.getD j 0#7).toNat (ws.getD j 0#32)) → (∀ w ∈ ws, ok w = true) →
    (∀ w ∈ ws, w.getLsbD 31 = false → 256 * field w 0 26 + size ≤ c.task.info.granary) →
    s.slotsBusy c.a (touched i (ws.getD 0 0#32) (ws.getD 1 0#32)) = false →
    let u : State := { withIssuer c s fun g =>
        { g with tile := { g.tile with matOps := g.tile.matOps ++
          [{ instr := i, order := s.seq, wordA := ws.getD 0 0#32, wordB := ws.getD 1 0#32, started := false,
             opA := [], opB := [], flags := 0#6 }] } } with seq := s.seq + 1 }
    exec i s = .next (retired c 1 (u.clearRegions c.cluster)) ∧
    ((∀ g ∈ s.agents, g.streamed = []) →
      (∀ q ∈ s.corePend, q.cluster = c.cluster → u.fetchHolds q.store.key q.store.bytes.length = false) →
      u.clearRegions c.cluster = u)

/-- TNEW, TADD, TSCAL, TMUL, TROUND, TCOMP, TDENSE, TCHOL, TQR and TTRSM: a source of another kind traps TILE_KIND; an operation
whose result kinds are known is placed, numbered and goes on its way, or traps SLAB_EMPTY with nothing changed; one that rounds
joins its context unnumbered, and the fragment waits for its allocation point (R276, R277, R290, R291). TGEMM with a ZERO
factor copies C, with two DENSE factors it runs on the array, with a DENSE C on a Winnower, and otherwise it rounds (R309). Where
both results of TQR need runs, Hr takes the first one and Hq the next: this order is the model's reading (DEDUCED, log 34), as R306
gives none. -/
def Obligations.TileIssue : Prop :=
  (∀ (s : State) (c : Ctx) (i : Instr) (f : TileForm) (ws : List Word), TileRuns s c → tileForm i = some f → FreeHandles c i →
    ws.length = f.regs.length → (∀ j, j < f.regs.length → paramIs c (f.regs.getD j 0) (ws.getD j 0#32)) →
    (∀ h v, i = .tnew h v → (ws.getD 0 0#32).toNat < 8 ∧ field (ws.getD 0 0#32) 0 2 < 2) →
    let hs := f.srcs.map (handleOf c)
    exec i s = .next (
      if f.kinds hs = false then trapped c s 1 (trapIn c 0x0D c.act 0 0)
      else
        let params := keptParams i ws
        match f.wants ws hs with
        | some wants => placedOrEmpty s c i params [] hs f.unit wants (statusHeld c f.status)
        | none => awaitsTile c (tilePushed c s (issuedTile c i params [] hs f.unit false []) false))) ∧
  ∀ (s : State) (c : Ctx) (hd ha hb hc : BitVec 5) (tb ta sub : BitVec 1), TileRuns s c →
    FreeHandles c (.tgemm hd ha hb hc tb ta sub) →
    let i : Instr := .tgemm hd ha hb hc tb ta sub
    let (a, b, x) := (handleOf c ha, handleOf c hb, handleOf c hc)
    let f32 := a.f32 && b.f32 && x.f32
    exec i s = .next (
      if a.kind = 0 ∨ b.kind = 0 then
        placedOrEmpty s c i [] [] [a, b, x] .transfer [(hd.toNat, x.kind, x.f32, x.rank)] fun u => u
      else if a.kind = 1 ∧ b.kind = 1 then placedOrEmpty s c i [] [] [a, b, x] .array [(hd.toNat, 1, f32, 64)] fun u => u
      else if x.kind = 1 then placedOrEmpty s c i [] [] [a, b, x] .winnower [(hd.toNat, 1, f32, 64)] fun u => u
      else awaitsTile c (tilePushed c s (issuedTile c i [] [] [a, b, x] .winnower false []) false))

/-- The instructions that move tiles and vectors to and from memory go on their way with the keys of their elements: TLOAD,
TSTORE, TLRLD, TLRST, TLU and TMV; TLRST writes the rank, TLU holds its status register (R290, R298, R299, R307, R311, R314).
That TLU takes an entry of one dimension and that TMV checks all its elements as writes are the model's readings (log 34). -/
def Obligations.TileMoves : Prop :=
  ∀ (s : State) (c : Ctx) (h : BitVec 5) (v : Reg) (lay : BitVec 6) (f : BitVec 1) (k : BitVec 3) (xs : List Word)
    (ks : List (Option Nat)), TileRuns s c →
    let l := entryOf c lay.toNat
    let x := handleOf c h
    xs.length = l.nd → v.toNat + l.nd + 1 ≤ c.n →
    (FreeHandles c (.tload h v lay f) → paramRun c v xs → entryFits l 2 (sizeOf' (decide (f = 1#1))) → KeysOf c l .read (gridOf xs) ks →
      exec (.tload h v lay f) s = .next (placedOrEmpty s c (.tload h v lay f) xs ks [] .transfer
        [(h.toNat, 1, decide (f = 1#1), 64)] fun u => u)) ∧
    (FreeHandles c (.tstore h v lay) → paramRun c v xs → entryFits l 2 (sizeOf' x.f32) → KeysOf c l .write (gridOf xs) ks →
      exec (.tstore h v lay) s = .next (placedOrEmpty s c (.tstore h v lay) xs ks [x] .transfer [] fun u => u)) ∧
    (∀ r : Word, FreeHandles c (.tlrld h v lay f) → paramRun c v (xs ++ [r]) → 1 ≤ r.toNat → r.toNat ≤ 32 →
      entryFits l 1 (sizeOf' (decide (f = 1#1))) → KeysOf c l .read (lineOf xs (128 * r.toNat)) ks →
      exec (.tlrld h v lay f) s = .next (placedOrEmpty s c (.tlrld h v lay f) (xs ++ [r]) ks [] .transfer
        [(h.toNat, 2, decide (f = 1#1), r.toNat)] fun u => u)) ∧
    (∀ r : Word, FreeHandles c (.tlrst h v lay) → paramRun c v (xs ++ [r]) → x.kind = 2 → entryFits l 1 (sizeOf' x.f32) →
      KeysOf c l .write (lineOf xs (128 * x.rank)) ks →
      exec (.tlrst h v lay) s = .next (placedOrEmpty s c (.tlrst h v lay) (xs ++ [r]) ks [x] .transfer [] fun u =>
        withIssuer c u fun g => g.setReg (v.toNat + l.nd) ⟨.uniform (BitVec.ofNat 32 x.rank), 0#32⟩)) ∧
    (FreeHandles c (.tlu h v lay) → (∀ j, j < xs.length → paramIs c (v.toNat + 1 + j) (xs.getD j 0#32)) → x.kind = 1 →
      entryFits l 1 4 → KeysOf c l .write (lineOf xs 64) ks →
      exec (.tlu h v lay) s = .next (placedOrEmpty s c (.tlu h v lay) xs ks [x] .winnower [(h.toNat, 1, x.f32, 64)]
        (statusHeld c (some v)))) ∧
    (FreeHandles c (.tmv h v lay k) → paramRun c v xs → (entryFits l 1 4 ∨ entryFits l 1 8) → KeysOf c l .write (lineOf xs 128) ks →
      exec (.tmv h v lay k) s = .next (placedOrEmpty s c (.tmv h v lay k) [BitVec.ofNat 32 l.size] ks [x] .winnower [] fun u => u))

/-- TFREE makes a handle ZERO and gives its run back, TSLAB moves a LOWRANK tile to a run of another capacity, TINFO writes the
word of R274, and TNORM is numbered when it issues and waits for its completion (R274, R295 to R297, R304). -/
def Obligations.TileHandles : Prop :=
  ∀ (s : State) (c : Ctx) (h : BitVec 5) (v : Reg) (k : BitVec 1), TileRuns s c →
    let x := handleOf c h
    (FreeHandles c (.tfree h) → exec (.tfree h) s = .next (retired c 1 (
      if x.kind = 0 then s
      else (s.setHandle c.a h.toNat { kind := 0, f32 := x.f32, rank := 0, cap := 0, slab := 0, psn := false }).releaseRun c.a
        x.slab x.slabs))) ∧
    (∀ w : Word, FreeHandles c (.tslab h v) → paramIs c v.toNat w → 1 ≤ w.toNat → w.toNat ≤ 32 → x.kind = 2 →
      let m := max w.toNat x.rank
      let cap := if x.f32 then m + m % 2 else m
      exec (.tslab h v) s = .next (
        if cap = x.cap then retired c 1 (tilePushed c s (issuedTile c (.tslab h v) [] [] [x] .transfer true []) true)
        else
          match s.takeRun c.a (if x.f32 then cap / 2 else cap) with
          | none => trapped c s 1 (trapIn c 0x0C c.act 0 0)
          | some (u, p) => retired c 1 (tilePushed c (u.setHandle c.a h.toNat { x with cap := cap, slab := p })
              (issuedTile c (.tslab h v) [] [] [x] .transfer true [(h.toNat, { x with cap := cap, slab := p }, (x.slab, x.slabs))])
              true))) ∧
    (FreeHandles c (.tinfo h v) → v.toNat + 2 ≤ 128 →
      let slabs := if x.kind = 1 then (if x.f32 then 16 else 32) else if x.kind = 2 then (if x.f32 then x.cap / 2 else x.cap) else 0
      ∃ t, exec (.tinfo h v) s = .next t ∧ WordWrite c t 1 v.toNat (lowHigh (BitVec.ofNat 64
        (x.kind + (if x.f32 then 4 else 0) + (if x.psn then 8 else 0) + 16 * x.rank + 2 ^ 16 * x.cap +
          (if slabs = 0 then 0 else 2 ^ 32 * x.slab) + 2 ^ 48 * slabs))) false) ∧
    (FreeHandles c (.tnorm h v k) → exec (.tnorm h v k) s = .next (awaitsTile c
      (tilePushed c s (issuedTile c (.tnorm h v k) [] [] [x] .winnower true []) true)))

/-- Taking a trap adds 1 to FAULTS of the task's region and changes nothing else of memory, nor any other agent; the add is translated
afresh, and where its page does not translate it is lost and recorded (R39). With a handler at the agent's
depth, one frame saves the split table, WIDE, FPCSR, TEMP, PSTAT and FAULTINFO, FAULTINFO describes the trap, and one entry
with the lanes of MASK runs at the handler; without one, the agent stops at the OS cores (R336, R337; the frame also keeps the device
that a PEER trap names, log 39). -/
def Obligations.TrapEntry : Prop :=
  ∀ (s : State) (c : Ctx) (len : Nat) (t : Trap), Runs s c →
    let u : State := { trapped c s len t with agents := s.agents }
    let warp := c.ag.kind == .warp
    (∀ a, a ≠ c.a → (trapped c s len t).agent a = s.agent a) ∧
    (c.task.chain = [] → u = s) ∧
    (∀ r, c.task.chain.head? = some r →
      let place := s.translate (s.dieOf c.a) c.task.space (r.va + 0x40#64) .atomic
      (∀ e, place = .error e → u = { s with checks := s.checks ++ [.region r.va] }) ∧
      ∀ pa, place = .ok pa → u = { s with mem := u.mem } ∧ (∀ k, u.mem.marked k = s.mem.marked k) ∧
        (Kept s → bytesAt u.mem pa 8 = (bytesAt s.mem pa 8 + 1) % 2 ^ 64 ∧
          ∀ k, k < pa ∨ pa + 8 ≤ k → u.mem.read k = s.mem.read k)) ∧
    (∀ h, handlerFor c t h →
      let g := (trapped c s len t).agent c.a
      g.frames = savedFrame c len t :: c.ag.frames ∧
      g.entries = handlerEntries warp h t.mask ∧ g.wide.depth = 0 ∧ faultWords warp t g.sregs.faultinfo ∧
      { g.sregs with faultinfo := c.ag.sregs.faultinfo } = c.ag.sregs ∧ g.regs = c.ag.regs ∧ g.preds = c.ag.preds ∧
      g.phase = .active ∧ g.exited = c.ag.exited ∧ g.layouts = c.ag.layouts) ∧
    ((∀ h, ¬ handlerFor c t h) →
      let g := (trapped c s len t).agent c.a
      g.phase = .stopped c.e t ∧ g.frames = c.ag.frames ∧ g.regs = c.ag.regs ∧ g.preds = c.ag.preds ∧ g.sregs = c.ag.sregs)

/-- TRAP raises SOFTWARE with its immediate as ADDR, TRAP.esc raises the trap that FAULTINFO describes, and TRET returns: it
restores what entry saved and runs the faulting instruction again in the lanes of FAULTINFO.MASK, or goes past it when there
are none (R342, R343; TRAP.esc raises a PEER trap for its device while FAULTINFO holds its address, log 39; a TKPASS that the fault
has put off takes effect then, R271, log 19). -/
def Obligations.TrapAndReturn : Prop :=
  ∀ (s : State) (c : Ctx) (imm : BitVec 9), Runs s c →
    exec (.trap imm) s = .next (trapped c s 1 (trapIn c 0x17 c.act imm.toNat 0)) ∧
    (∀ f rest, c.ag.frames = f :: rest →
      (let v := c.ag.sregs.faultinfo.toNat
       let lanes : Mask := BitVec.ofNat 32 (v / 2 ^ 32)
       exec .trapEsc s = .next (trapped c s 1
        { cause := if v % 2 ^ 8 ∈ [1, 2, 3, 4, 5, 6, 7, 8, 9, 0xA, 0xB, 0xC, 0xD, 0x10, 0x11, 0x12, 0x13, 0x14, 0x15, 0x16, 0x17,
            0x19] then v % 2 ^ 8 else 0x17,
          mask := if lanes &&& c.act = 0#32 then c.act else lanes &&& c.act, addr := BitVec.ofNat 64 (v / 2 ^ 64),
          access := v / 2 ^ 8 % 4, level := if v / 2 ^ 15 % 2 = 1 then some (v / 2 ^ 16 % 2 ^ 4) else none, partDone := false,
          stale := v / 2 ^ 16 % 2 ^ 4
          peer := f.peer.bind fun q => if q.2.toNat = v / 2 ^ 64 then some q.1 else none })) ∧
      (let clear := (c.ag.entries.filter fun x => x.kind != .free).length ≤ 1 ∧ (∀ x ∈ c.ag.entries, x.records = []) ∧
        c.ag.wide.depth = 0 ∧ c.en.mask = f.lanes &&& ~~~c.ag.exited
      let again := (c.ag.sregs.faultinfo.extractLsb' 32 32 : Mask) &&& f.lanes &&& ~~~c.ag.exited
      (¬ clear → exec .tret s = .next (trapped c s 1 (trapIn c 0x14 c.act 0 0))) ∧
      (clear → exec .tret s = .next (placedAt c ((withIssuer c s fun g =>
        { g with
          entries := f.entries.modify f.entry fun en =>
            if again = 0#32 then { en with pc := f.next, hold := .ready, redo := none }
            else { en with pc := f.pc, hold := .ready, redo := if f.partDone then some again else en.redo }
          wide := f.wide, frames := rest
          sregs := { c.ag.sregs with fpcsr := f.fpcsr, temp := f.temp, pstat := f.pstat, faultinfo := f.faultinfo } }).settlePass
            c.ag.team)))))

/-- Who may run what: a tile instruction on a warp traps SEQ_ONLY and on a copy sequencer ILLEGAL, a warp's instruction on a
sequencer ILLEGAL, and HALT on a warp ILLEGAL; TRET, TRAP.esc and PGMAP outside a handler trap PRIV; a level that the tree
does not declare, or COLL at a level of lanes, traps LEVEL with its index; BAR, TBAR and COLL in a handler trap MEMBER (R79, R81,
R171, R175, R335, R345, R347; LEVEL before SHAPE is the model's order, log 22). -/
def Obligations.AgentLimits : Prop :=
  ∀ (s : State) (c : Ctx) (i : Instr), Runs s c →
    (tileOnly i = true → c.ag.kind = .warp → exec i s = .next (trapped c s 1 (trapHere c 0x02))) ∧
    (tileOnly i = true → c.ag.kind = .copySeq → exec i s = .next (trapped c s 1 (trapHere c 0x01))) ∧
    (warpOnly i = true → c.ag.kind ≠ .warp → exec i s = .next (trapped c s i.words (trapHere c 0x01))) ∧
    (c.ag.kind = .warp → exec .halt s = .next (trapped c s 1 (trapHere c 0x01))) ∧
    (∀ d r, c.ag.frames = [] → i = .tret ∨ i = .trapEsc ∨ i = .pgmap d r → exec i s = .next (trapped c s 1 (trapHere c 0x03))) ∧
    (∀ l, levelOf i = some l → c.depth ≤ l.toNat → (warpOnly i = true → c.ag.kind = .warp) →
      exec i s = .next (trapped c s i.words { trapIn c 0x07 c.act 0 0 with level := some l.toNat })) ∧
    (∀ l vd va k op, c.ag.kind = .warp → i = .coll l vd va k op → l.toNat < c.depth → c.ag.frames = [] → c.phys l.toNat = 0 →
      exec i s = .next (trapped c s 1 { trapIn c 0x07 c.act 0 0 with level := some l.toNat })) ∧
    (∀ r n l vd va k op, c.ag.kind = .warp → c.ag.frames ≠ [] →
      i = .bar r n ∨ (l.toNat < c.depth ∧ (i = .tbar l ∨ i = .coll l vd va k op)) →
      exec i s = .next (trapped c s 1 (trapIn c 0x15 c.act 0 0)))

/-- A step with an empty agenda, and a turn of the agenda that names a fragment, issue that fragment's instruction (log 2). When
its words can be fetched and decode to a well-formed instruction, the step is that instruction's exec, for that fragment, with its
registers and memory as they were; words that do not decode, or decode to an ill-formed instruction, trap ILLEGAL (R64, R73, R80, R81).
An instruction waits instead while it uses a register that a status word is still to come to (R307), and a memory instruction while a
PHASE or FENCE of its agent, or the release of the FORK that started it, has still to be performed: once it may be, it is, and the
instruction issues (R185, R227; log 45). While it waits, that a YIELD has yielded stays noted (R167), and so does the time of a PEER
access that has waited before (R364). The step notes
that the translation of the code's page has been asked for (R231; what is noted beside it is log 6). -/
def Obligations.StepRunsDecoded : Prop :=
  ∀ (s : State) (a e : Nat),
    (s.agenda = [] → s.nextFragment = some (a, e) → s.mayIssue a e = true ∧ step s = issueAt s a e) ∧
    (∀ rest, step { s with agenda := .issue a e :: rest } = issueAt { s with agenda := rest } a e) ∧
    (s.mayIssue a e = true →
      let pc := ((s.agent a).entry e).pc
      let regsN := (s.task (s.taskOf a)).info.regsN
      ∀ (ws : List Word) (u : State) (c : Ctx), ((s.passPoint a).noteIssue a e).fetchGroup a pc = Except.ok (ws, u) → issuer u = some c →
        u.mem = s.mem ∧ c.a = a ∧ c.e = e ∧ c.ag.regs = (s.agent a).regs ∧ c.ag.preds = (s.agent a).preds ∧
        c.ag.sregs = (s.agent a).sregs ∧ c.en.pc = pc ∧ c.en.mask = ((s.agent a).entry e).mask ∧
        let due := (s.agent a).due
        let paid : State := (due.foldl (fun w r => if r.2.2 then (w.release r.1 r.2.1).refresh a r.2.1 else w.release r.1 r.2.1) u).modAgent
          a fun g => { g with due := [] }
        let held : State := u.modEntry a e fun en => { en with hold := match en.hold with
          | .yielded => .yielded
          | .peer since => .peer since
          | _ => .polling }
        let notes (v w : State) : Prop := (∃ l, w = { v with asked := u.asked ++ l }) ∧
          (pc.toNat % 2 ^ 57 + 15 < 2 ^ 57 → ∃ q ∈ w.asked, q.1 = s.dieOf a ∧ q.2.1 = (s.task (s.taskOf a)).space ∧
            q.2.2.1 ≤ pc.toNat % 2 ^ 57 / 4096 ∧ pc.toNat % 2 ^ 57 / 4096 ≤ q.2.2.2)
        (∀ i len, decodeWords ws = .ok (i, len) → i.illFormed regsN = none →
          ((s.agent a).awaitsStatus i = true → issueAt s a e = .next held) ∧
          ((s.agent a).awaitsStatus i = false →
            (due = [] ∨ touchesMemory i = false → ∃ w, notes u w ∧ issueAt s a e = exec i w) ∧
            (due ≠ [] → touchesMemory i = true → (∀ r ∈ due, MayRelease u r.1 r.2.1) →
              ∃ w, notes paid w ∧ issueAt s a e = exec i w) ∧
            (touchesMemory i = true → (∃ r ∈ due, ¬ MayRelease u r.1 r.2.1) → issueAt s a e = .next held))) ∧
        (∀ err, decodeWords ws = .error err →
          ∃ w, notes u w ∧ issueAt s a e = .next (trapped c w ws.length (trapHere c 0x01))) ∧
        (∀ i len, decodeWords ws = .ok (i, len) → i.illFormed regsN ≠ none →
          ∃ w, notes u w ∧ issueAt s a e = .next (trapped c w len (trapHere c 0x01)))) ∧
    (s.mayIssue a e = true → ∀ (ws : List Word) (u : State), ((s.passPoint a).noteIssue a e).fetchGroup a
      ((s.agent a).entry e).pc = Except.ok (ws, u) → (issuer u).isSome)

/-- Decoding what encoding gives of a well-formed instruction gives it back, whatever its operands, and a group of words that
decodes is what its instruction encodes to (R64 to R78). -/
def Obligations.DecodeEncode : Prop :=
  (∀ (i : Instr) (n : Nat), isEvent i = false → i.illFormed n = none → decodeWords (encode i) = .ok (i, i.words)) ∧
  ∀ (ws : List Word) (i : Instr) (n : Nat), decodeWords ws = .ok (i, n) → encode i = ws.take n ∧ n = i.words

/-- Words written out from the encodings of R64 to R78, of each instruction set, decode to the instructions that they stand
for. -/
def Obligations.DecodedWords : Prop :=
  decodeWords [0x20081437#32] = .ok (.fadd 4#7 5#7 6#7 7#3, 1) ∧
  decodeWords [0x33102863#32] = .ok (.dfma 8#7 10#7 12#7 3#3, 1) ∧
  decodeWords [0x1B641437#32] = .ok (.icmp 6#4 2#3 5#7 6#7 7#3, 1) ∧
  decodeWords [0x62103037#32] = .ok (.ld32 8#7 12#7 3#6 0#1 7#3, 1) ∧
  decodeWords [0x5042102F#32] = .ok (.pcmp32 4#4 1#3 4#7 5#7 7#3, 1) ∧
  decodeWords [0x4008148F#32] = .ok (.cvt 4#7 5#7 0x11#7 7#3, 1) ∧
  decodeWords [0x8A50A552#32] = .ok (.smin 40#7 41#7 42#7 2#3, 1) ∧
  decodeWords [0xF050A7FF#32] = .ok (.saddi 40#7 41#7 0x3FF#10, 1) ∧
  decodeWords [0x91200005#32] = .ok (.bru 1#3 5#21, 1) ∧
  decodeWords [0x99100000#32] = .ok (.tbar 1#4, 1) ∧
  decodeWords [0xA3140001#32] = .ok (.mfsr 10#7 1#10, 1) ∧
  decodeWords [0x6F120007#32, 0x00000000#32, 0x12345678#32] = .ok (.movi32 9#7 7#3 0x12345678#32, 3)

/-- The device at reset: every unit enabled, with every count that R63 ships, four dies of 16 clusters of 4 cores and DEVID 0, no agent, team or task, memory with nothing listed, CLOCK and the usage
counters 0, the measurement registers 0, and the state well kept (R63, R348, R372; the rest, the counters of R218 among it, are the
figures of log 9 and log 1). -/
def Obligations.ResetState : Prop :=
  Kept State.reset ∧ State.reset.agents = [] ∧ State.reset.teams = [] ∧ State.reset.tasks = [] ∧
  State.reset.dies.length = 4 ∧ State.reset.devid = 0 ∧
  (∀ d ∈ State.reset.dies, d.enabled = true ∧ d.clusters = 16 ∧ d.spareclus = 2 ∧ d.layers = 11 ∧ d.dramgib = 176 ∧ d.cachemib = 128 ∧
    d.walkers = 64 ∧ d.clock = 0) ∧
  State.reset.clusters.length = 64 ∧ (∀ u ∈ State.reset.clusters, u.enabled = true ∧ u.cores = 4 ∧ u.seqctx = 8 ∧ u.winnowers = 2 ∧
    u.array = 1 ∧ u.cpyctx = 8 ∧ u.grankib = 16384 ∧ u.runs = [] ∧ u.slotHolder = none) ∧
  State.reset.cores.length = 256 ∧ (∀ u ∈ State.reset.cores, u.enabled = true ∧ u.regbanks = 32 ∧ u.warps = 64 ∧ u.localKib = 1024 ∧
    u.barriers = 64 ∧ u.tags = 1024 ∧ u.copies = 512) ∧
  (∀ n, State.reset.counter n = 0#64) ∧ (∀ k, State.reset.mem.read k = 0#8 ∧ State.reset.mem.marked k = false) ∧
  (∀ m ∈ State.reset.measures, m = List.replicate 32 0#8) ∧ State.reset.booted = false ∧ Proceeds State.reset

/-- Every step keeps the state well kept: memory in its canonical form, the list of usage counters rising. -/
def Obligations.StepKept : Prop := ∀ (s t : State), Kept s → step s = .next t → Kept t

/-- RESET_BOOT zeroes the measurement registers and measures the boot ROM, and on a good signature the kernel and its
configuration, and starts the kernel, which sets DEVID; the host sets up a mailbox and the notify line (R63, R361, R362, R371,
R372). Where the reply line lies is the model's choice (log 8), the digests and the verdict on the signature are open constants
(log 10). -/
def Obligations.BootAndHost : Prop :=
  ∀ (s : State),
    (s.booted = false → exec .resetBoot s = .next (
      let u := measured { s with measures := List.replicate 8 (List.replicate 32 0#8) } 0 Config.romDigest
      if Config.kernelSignatureOk then
        { measured (measured u 1 Config.kernelDigest) 2 Config.configDigest with booted := true, devid := s.systemId }
      else u)) ∧
    (∀ v, exec (.hostRegisterWrite .notifyBase v) s = .next { s with notifyBase := v }) ∧
    ∀ mb v, exec (.hostRegisterWrite (.mailboxBase mb) v) s = .next
      { s with mailboxes := s.mailboxes.modify mb fun m => { m with request := v, reply := v + 64 } }

/-- Each new record of a mailbox is answered as its OP asks: LAUNCH, WAIT, POLL, COUNTER, ATTEST and CLOCK, and an undefined one;
a WAIT is answered once its task has retired and the task's stores have been performed (R223, R362, R363, R367, R373). The reply
line's place and the open results (log 8, log 3), the place of the report, and what an unwritable one gives (log 38), the signing
(log 10) and the answers and shares of a SYSTEM launch (log 26) are the model's. -/
def Obligations.MailboxRecords : Prop :=
  (∀ (s : State) (mb op : Nat) (r : Record), RecordWaits s mb op r →
    let m := s.mailboxes.getD mb default
    let reply (u : State) (r0 r1 : DWord) : State := replied u mb r.seq r0 r1
    (r.clean = true →
      (op = 1 → ∀ others share,
        (r.arg0.toNat % 64 ≠ 0 ∨ s.readClean s.launchDie m.space r.arg0 192 = none →
          exec (.mailboxLaunch mb others share) s = .next (reply s 0#64 (BitVec.ofNat 64 lfRegion))) ∧
        (∀ b, r.arg0.toNat % 64 = 0 → s.readClean s.launchDie m.space r.arg0 192 = some b → (Packet.ofBytes b).system = true →
          (∃ x ∈ others, s.reachable x.1 = false ∨ s.stoppedTo x.1 3 = true) →
          exec (.mailboxLaunch mb others share) s = .next s) ∧
        (∀ b u id code, r.arg0.toNat % 64 = 0 → s.readClean s.launchDie m.space r.arg0 192 = some b → s.launchKept b (others.map (·.1)) = false →
          s.sentTo b { launcher := .mailbox mb, id := m.nextId, space := m.space, die := s.launchDie, parent := none } others share = true →
          (s.sendLaunch b (others.map (·.1))).osLaunch
              { launcher := .mailbox mb, id := m.nextId, space := m.space, die := s.launchDie, parent := none } b others share
            = (u, id, code) →
          exec (.mailboxLaunch mb others share) s = .next (reply
            (if id = 0 then u else { u with mailboxes := u.mailboxes.modify mb fun m => { m with nextId := m.nextId + 1 } })
            (BitVec.ofNat 64 id) (BitVec.ofNat 64 code)))) ∧
      (op = 2 → (s.mailStatus mb r.arg0.toNat = none → exec (.mailboxWait mb) s = .next (reply s 0xFFFFFFFF#64 0#64)) ∧
        (s.mailStatus mb r.arg0.toNat ≠ none → exec (.mailboxWait mb) s = .next
          { s with mailboxes := s.mailboxes.modify mb fun m => { m with lastSeq := r.seq, waiting := some (r.seq, r.arg0) } })) ∧
      (op = 3 → (s.mailStatus mb r.arg0.toNat = none → exec (.mailboxPoll mb) s = .next (reply s 0xFFFFFFFF#64 0#64)) ∧
        ∀ t, MailTask s mb r.arg0 t → s.mailStatus mb r.arg0.toNat ≠ none → exec (.mailboxPoll mb) s = .next (
          if t.phase = .retired then
            statusReturned (reply s (BitVec.ofNat 64 (retiredWord t).toNat) 0#64) mb r.arg0
          else reply s 0xFFFFFFFE#64 0#64)) ∧
      (op = 4 → exec (.mailboxCounter mb) s = .next (reply s (s.counter (r.arg0.toNat % 2 ^ 16)) 0#64)) ∧
      (op = 5 → ∀ b, s.readVa s.launchDie m.space r.arg0 32 = some b →
        let body := b.map (·.1) ++ s.measures.flatten ++ (List.range s.dies.length).flatMap fun d => bytesOfNat 8 (s.capdie d).toNat
        let report := body ++ (Config.mlDsaSign body).toList
        report.length = 32 + s.measures.flatten.length + 8 * s.dies.length + 2420 ∧
        ∀ u ok, s.fillBuffer s.launchDie m.space s.reportVa report = (u, ok) →
          exec (.mailboxAttest mb) s = .next (if ok then reply u s.reportVa (BitVec.ofNat 64 report.length)
            else replied { u with freshNo := u.freshNo + 2 } mb r.seq (Config.openResult u.freshNo)
              (Config.openResult (u.freshNo + 1)))) ∧
      (op = 6 → ∀ d, s.dies[r.arg0.toNat]? = some d → d.enabled = true →
        exec (.mailboxClock mb) s = .next (reply s (BitVec.ofNat 64 d.clock) 0#64))) ∧
    (r.clean = false ∨ op = 0 ∨ 7 ≤ op →
      ∃ v, exec (.mailboxUndefinedRecord mb) s = .next (replied { s with freshNo := s.freshNo + 2 } mb r.seq v 0xFFFFFFFF#64))) ∧
  ∀ (s : State) (mb : Nat) (seq id : DWord) (t : Task), (s.mailboxes.getD mb default).waiting = some (seq, id) → MailTask s mb id t →
    t.phase = .retired → s.taskPerformed t = true →
    exec (.mailboxWaitReply mb) s = .next
      (statusReturned (replied s mb seq (BitVec.ofNat 64 (retiredWord t).toNat) 0#64) mb id)

/-- SYSC from 16 on is a PHASE at the launch domain and waits for the kernel, which serves it: LOG appends the text, NOTIFY
writes its line and counts, BLKREAD and BLKWRITE move blocks, an unknown service fails; each is a PHASE again when it returns
(R344, R370, R371; the block request's layout is the model's, log 27). While the agent has buffered SHARED stores, both wait for its
team's turn (R223, R272; log 45). -/
def Obligations.KernelServices : Prop :=
  (∀ (s : State) (c : Ctx) (d r : Reg) (n : BitVec 10) (arg : DWord), Runs s c → 16 ≤ n.toNat → paramPair c r arg →
    (MayRelease s c.a .home →
      exec (.sysc d r n) s = .next ((((s.release c.a .home).refresh c.a .home)).modEntry c.a c.e fun en =>
        { en with hold := .service n.toNat arg d.toNat })) ∧
    (¬ MayRelease s c.a .home → exec (.sysc d r n) s = .next (awaiting c s))) ∧
  (∀ (s : State) (a : Nat), ¬ MayRelease s a .home → ∀ i, i = .syscLog a ∨ i = .syscNotify a ∨ i = .syscBlkread a ∨
    i = .syscBlkwrite a ∨ i = .syscUnknownService a → exec i s = .next s) ∧
  ∀ (s : State) (a e n d : Nat) (arg : DWord), ServiceWaits s a e n arg d → MayRelease s a .home →
    let die := s.dieOf a
    let space := (s.task (s.taskOf a)).space
    (n = 16 → (∀ text, s.readText die space 256 arg = some text →
        exec (.syscLog a) s = .next (served { s with kernelLog := s.kernelLog ++ [text] } a e d 0#64)) ∧
      (s.readText die space 256 arg = none → exec (.syscLog a) s = .next (served s a e d (BitVec.allOnes 64)))) ∧
    (n = 17 → exec (.syscNotify a) s = .next (
      if s.notifyBase = 0 then served s a e d 0#64
      else
        let k := s.notifyCount + 1#64
        let line := bytesOfNat 8 k.toNat ++ bytesOfNat 8 (s.task (s.taskOf a)).notifyId ++ bytesOfNat 8 arg.toNat ++ List.replicate 40 0#8
        served { s with mem := s.mem.perform (storeOf s.notifyBase 64 line []), notifyCount := k } a e d 0#64)) ∧
    (∀ b size blocks, s.readVa die space arg 64 = some b →
      let word (o : Nat) : Nat := natOfBytes (((b.map (·.1)).drop o).take 8)
      s.drives[word 0]? = some (size, blocks) → word 8 + word 16 ≤ blocks.length →
      let data := ((blocks.drop (word 8)).take (word 16)).flatten
      (n = 18 → ∀ u ok, s.fillBuffer die space (BitVec.ofNat 64 (word 24)) data = (u, ok) →
          exec (.syscBlkread a) s = .next (served u a e d (if ok then 0#64 else BitVec.allOnes 64))) ∧
      (n = 19 → ∀ keys, KernelBytes s die space (BitVec.ofNat 64 (word 24)) data.length .read keys →
        exec (.syscBlkwrite a) s = .next (served { s with drives := s.drives.modify (word 0) fun x =>
            (x.1, blocks.take (word 8) ++ overwrite (blocks.drop (word 8)) ((List.range data.length).map fun j => s.mem.read (keys j))) }
          a e d 0#64))) ∧
    (19 < n → exec (.syscUnknownService a) s = .next (served s a e d (BitVec.allOnes 64)))

/-- DEADLINE_PASS marks an unstarted task overdue, counts it in MISSED once, and retires it under ABANDON; TEAM_DISPATCH places
the team of the first dispatchable task, by deadline, then priority class, then launch order; PREEMPT_REQUEST asks, for each task
that finds no cores but would with every team off its core, preemptible teams of a strictly later deadline, the latest first, until it
would find them; TEAM_SAVE_COMPLETE suspends a team whose
agents have stopped; MIGRATE performs the stores that the task's stopped teams have buffered (R226; log 45) and moves a team, or the teams
of a co-resident task together, to another die; WATCHDOG_EXPIRY terminates a task that
has run too long (R265 to R268, R340, R341, R353). A save record restores an agent's control state, special registers, live
registers, live predicates and live handles as they were, and the other registers as at a start (R354, R355). Which cores a team
may take, which teams are asked and which move are the readings of log 30 and log 31, and what a record holds beside the bytes of
R355 is log 32. -/
def Obligations.HelmEvents : Prop :=
  ∀ (s : State) (die task team core : Nat),
    (s.deadlinePassed die task = true → exec (.deadlinePass die task) s = .next (
      let u := s.modTask task fun t => { t with overdue := true }
      let u := match (u.task task).chain.head? with
        | some r => u.addRegionCounter die (u.task task).space r.va 0x38 1
        | none => u
      if (s.task task).abandon then u.retireUnrun task 2 else u)) ∧
    (∀ n ts, s.booted = true → s.taskOrder die = n :: ts → s.deadlinePassed die n = false →
      ∀ u, s.rebind n = .ok u → ∀ tms, u.nextTeams die n = [tms] → (∀ t ∈ tms, u.hopeless t = false) →
        ∀ cores v, u.choiceOk tms cores = true → u.placeTeams tms cores = some v →
          exec (.teamDispatch die cores) s = .next v) ∧
    exec (.preemptRequest die) s = .next
      ((s.starved die).foldl (fun (u : State) p => u.requestUntil p.1 p.2 (u.victims die p.1 p.2)) s) ∧
    (let takes (t k : Nat) : Prop := s.mayLie t k = true ∧ s.clusterRoom (clusterOfCore k) (s.team t).task = true
     let wants (ts : List Nat) : Prop := s.overBudget ts = false ∧ s.placeable ts = false ∧ (∀ t ∈ ts, s.hopeless t = false) ∧
       (allStopped s).placeable ts = true
     (∀ ts k, s.gainsRoom ts k = true ↔ ∃ t ∈ ts, takes t k ∨ ((∃ r ∈ (s.team t).saved, (s.agent r.agent).kind ≠ .warp) ∧
       ∃ j, j < s.cores.length ∧ clusterOfCore j = clusterOfCore k ∧ takes t j)) ∧
     ((s.starved die).map (·.1)).Sublist (s.taskOrder die) ∧
     ∀ n ts, (n, ts) ∈ s.starved die ↔ n ∈ s.taskOrder die ∧ wants ts ∧ ∃ pre post, s.nextTeams die n = pre ++ ts :: post ∧
       ∀ x ∈ pre, ¬ wants x) ∧
    (let due (n : Nat) : Nat :=
       let t := s.task n
       let d := t.deadlineOn die
       if (∃ x ∈ t.deadlines, x.1 = die) ∨ d = BitVec.allOnes 64 then d.toNat
       else ((d.toNat + s.offset t.issuingDie die : Int) % 2 ^ 64).toNat
     let prio (n : Nat) := ((s.task n).chain.headD default).prio
     (s.taskOrder die).Nodup ∧
     (∀ n, n ∈ s.taskOrder die ↔ n < s.tasks.length ∧ (s.task n).phase ≠ .retired ∧
       (∀ x ∈ (s.task n).deps, (s.task x).phase = .retired) ∧ s.nextTeams die n ≠ []) ∧
     (s.taskOrder die).Pairwise (fun x y => due x < due y ∨ (due x = due y ∧
       (prio y < prio x ∨ (prio x = prio y ∧ (s.task x).order ≤ (s.task y).order)))) ∧
     ∀ n ts,
       let vs := s.victims die n ts
       let asked (k : Nat) : State := (vs.take k).foldl (fun u v => u.requestFor n v) s
       (∀ v, v ∈ vs ↔ v < s.teams.length ∧ (s.team v).phase = .resident ∧ (s.team v).preemptReq = false ∧
         (∃ r rest, (s.task (s.team v).task).chain = r :: rest ∧ r.preemptible = true) ∧ due n < due (s.team v).task ∧
         (∀ j ∈ s.stopsWith v, s.hasPassed j = true) ∧ s.gainsRoom ts (s.team v).core = true) ∧
       vs.Pairwise (fun x y => due (s.team y).task ≤ due (s.team x).task) ∧
       ∃ k, k ≤ vs.length ∧ s.requestUntil n ts vs = asked k ∧ (k < vs.length → (asked k).wouldPlace ts = true) ∧
         (∀ j, j < k → (asked j).wouldPlace ts = false) ∧
         ∀ j, j < s.teams.length → ((asked k).team j).preemptReq =
           ((s.team j).preemptReq || (vs.take k).any fun v => (s.stopsWith v).contains j)) ∧
    ((s.team team).phase = .resident → (s.team team).preemptReq = true → team < s.teams.length →
      (∀ a, a < s.agents.length → (s.agent a).team = team → s.agentStopped a = true) →
      ∃ t, exec (.teamSaveComplete team) s = .next t ∧ (t.team team).phase = .suspended ∧ (t.team team).preemptReq = false ∧
        (∀ a, a < s.agents.length → (s.agent a).team = team → (s.agent a).phase ≠ .retired →
          (t.agent a).phase = .saved ∧ s.saveRecord a ∈ (t.team team).saved) ∧
        (∀ a, a < s.agents.length → (s.agent a).team ≠ team → t.agent a = s.agent a)) ∧
    (s.canMigrate (s.movesWith team) core = true →
      exec (.migrate team core) s = .next (((s.movesWith team).foldl (fun u j =>
        let tm := u.team j
        ((u.rewriteDeadline tm.task (dieOfCore tm.core) (dieOfCore core)).modTeam j fun t =>
          { t with core := core, stays := false }).leaveCluster
          tm.task (clusterOfCore tm.core)) (s.drainStopped (s.team team).task)).markOverdue (dieOfCore core) (s.team team).task)) ∧
    (∃ l : List Nat, s.drainStopped task = l.foldl State.drainBuffer s ∧ l.Nodup ∧
      ∀ j, j ∈ l ↔ j < s.teams.length ∧ (s.team j).task = task ∧ (s.team j).phase = .suspended) ∧
    (∀ a, a < s.agents.length →
      let ag := s.agent a
      let live := s.liveAt a
      let t := s.restoreAgent (s.saveRecord a)
      let g := t.agent a
      let held (h : Nat) : Handle := ag.tile.handles.getD h Handle.zero
      (ag.kind ≠ .warp → ∀ h, h < 32 → (held h).kind ≤ 2 ∧ (held h).rank < 128 ∧ (held h).cap < 64 ∧ (held h).slab < 2 ^ 14 ∧
        (held h).slabs < 2 ^ 16 ∧ ((held h).slabs = 0 → (held h).slab = 0)) →
      t = s.modAgent a (fun _ => g) ∧
      g = { ag with phase := .active, regs := g.regs, preds := g.preds, tile := { ag.tile with handles := g.tile.handles }
                    due := []
                    entries := ag.entries.map fun (en : Entry) => { en with hold := .ready, owed := [], given := 0, passed := 0 } } ∧
      (∀ r, r < 128 → if live.1.getLsbD r then
          (∀ i, i < 32 → g.word r i = ag.word r i) ∧ (g.reg r).poison = (ag.reg r).poison ∧ (g.reg r).isGeneral = (ag.reg r).isGeneral
        else g.reg r = ⟨.uniform 0#32, 0#32⟩) ∧
      (∀ p i, p < 7 → i < 32 → g.pred p i = if ag.kind = .warp ∧ live.2.getLsbD p = true then ag.pred p i else ⟨0#16, 0#8, false⟩) ∧
      (∀ h, h < 32 → g.tile.handles.getD h Handle.zero =
        if ag.kind ≠ .warp ∧ live.2.getLsbD h = true then
          { held h with psn := (held h).psn || (List.range (1024 * (held h).slabs)).any fun b =>
            s.mem.marked (granKey (s.clusterOf a) (1024 * (held h).slab) + b) }
        else held h)) ∧
    (∀ d b, (s.task task).phase ≠ .retired → (s.task task).terminated = false → (s.task task).began = some (d, b) → ((s.task task).chain.headD default).watchdog ≠ 0 →
      b + ((s.task task).chain.headD default).watchdog < s.clockOf d →
      exec (.watchdogExpiry task) s = .next
        (((s.countFault d (s.task task)).report (.watchdog task)).terminateTask task 0x1A))

/-- COPY_COMPLETE: a copy moves the elements it has still to move, in the order of the walks, and ends (R210, R211, R333); one
element's bytes go from its source to its destination, and one element of an expansion is the conversion of its code, scaled, with
its mark, from the source, the index and the tables as they stand (R104 to R112, R332, R333). CPYX_TABLE_READ: the engine reads the
next block's table from its element once the arrival word lets it (R334) and no stop signal keeps the access back (R364; log 39). STREAM_FETCH and STREAM_STORE: the unit takes and stores
elements (R215, R216). MMA_OP_START: the next operation of a context fetches its operands from their regions (R318, R328), and
stores that waited for the fetch go on. MMA_OP_COMPLETE: when the array runs it (R327), an MMA writes the new words of its
accumulator with their marks (R121 to R123, R322), ACCZ zeros, ACCLD the fetched words, ACCST and ACCCVT the words of the
accumulator and what they convert to (R323 to R325), and its flags are merged. When an element is read and written is log 12; which
bytes a fetch holds, and when a fetch may come, is log 33. -/
def Obligations.EngineEvents : Prop :=
  ∀ (s : State) (a : Nat),
    (∀ (op : CopyOp), (s.agent a).copyOps.find? (fun q => q.num == op.num) = some op →
      (op.tablesReady = true →
        (∀ l ∈ [op.walked, op.other, op.index], s.keptBack l = false ∧
          (s.silent l = true → 0 < op.since ∧ op.since - 1 + 100000 ≤ s.clockOf (s.dieOf a))) →
        (∀ k, s.fetchHolds k 1 = false) →
        ((op.kind = .cpy ∨ op.kind = .gather ∨ op.kind = .scatter ∨ (∃ x y, op.kind = .fill x y)) →
          ∃ u failed, s.copyRun op a (s.engineMem a) (op.count - op.done) op.done op.walkAt op.otherAt = .done u failed ∧
            exec (.copyComplete a op.num) s = .next (u.copyEnd a op failed false)) ∧
        (∀ f d x tb w g, op.kind = .cpyx f d x tb w g →
          ∃ u failed bad, s.expandRun op a (s.engineMem a) d (op.count / perDest d - op.done) op.done op.walkAt op.bad =
              .done u failed bad ∧
            exec (.copyComplete a op.num) s = .next (u.copyEnd a op failed bad))) ∧
      (∀ i w o other, s.copyOther op a (s.engineMem a) i o = some other → op.other.size = op.walked.size →
        let n := op.walked.size
        let src := if op.kind = .scatter then s.elementAt a op.walked w .read else s.elementAt a op.other other .read
        let dst := if op.kind = .scatter then s.elementAt a op.other other .write else s.elementAt a op.walked w .write
        (src = .fail ∨ dst = .fail → s.copyElem op a (s.engineMem a) i w o = .done s true) ∧
        (src ≠ .fail → dst = .absent → s.copyElem op a (s.engineMem a) i w o = .done s false) ∧
        ∀ ks, src ≠ .fail → dst = .bytes ks → ks.Nodup → Still s → (∀ k ∈ ks, s.fetchHolds k 1 = false) →
          ∃ t, s.copyElem op a (s.engineMem a) i w o = .done t false ∧
            (∀ b, b < n → t.mem.read (ks.getD b 0) = match src with
              | .bytes js => s.mem.read (js.getD b 0)
              | _ => 0#8) ∧
            ∀ k, k ∉ ks → t.mem.read k = s.mem.read k) ∧
      (∀ sf d extra named waits g, op.kind = .cpyx sf d extra named waits g → sf < 8 → d < 8 → op.other.size = 1 →
        (sf ≤ 2 → op.index.size = 1) → (sf = 7 → op.index.size = 16) → op.walked.size = cpyxSize d →
        ∀ j w bad ks, s.elementAt a op.walked w .write = .bytes ks → ks.Nodup → Still s → (∀ k ∈ ks, s.fetchHolds k 1 = false) →
          let n := if d = 7 then 8 else 1
          let e (b : Nat) : Nat × Bool × Bool := expandedElement s a op sf d extra named (waits && sf == 7) (n * j + b)
          (∀ b, b < n → ExpansionReads s a op sf (waits && sf == 7) (n * j + b)) →
          ∃ t, s.expandElem op a (s.engineMem a) d j w bad = .done t false (bad || (List.range n).any fun b => (e b).2.2) ∧
            (∀ b, b < cpyxSize d → (t.mem.read (ks.getD b 0)).toNat =
              ((List.range n).map fun c => (e c).1 * 2 ^ c).sum / 256 ^ b % 256) ∧
            (((List.range n).any fun b => (e b).2.1) = true → ∀ k ∈ ks, t.mem.marked k = true) ∧
            ∀ k, k ∉ ks → t.mem.read k = s.mem.read k) ∧
      (∀ d x tb g k, op.kind = .cpyx 7 d x tb true g → op.tableArrival = some k → op.tables.length < op.count / 128 →
        (wordGen (s.mem.read64 k) ≠ g ∨ 16 * (op.tables.length + 1) ≤ wordCount' (s.mem.read64 k)) →
        (s.keptBack op.index = true → exec (.cpyxTableRead a op.num) s = .next s) ∧
        (s.keptBack op.index = false →
          (s.silent op.index = true → 0 < op.since ∧ op.since - 1 + 100000 ≤ s.clockOf (s.dieOf a)) →
        let seen := (s.pull (s.coreOf a) (s.clusterOf a) .home).corePoint (s.coreOf a)
        let table : List (Word × Bool) := match s.elementAt a op.index [op.indexFrom + (op.tables.length : Int)] .read with
          | .fail => []
          | e => tableOf (e.read seen op.index.size)
        exec (.cpyxTableRead a op.num) s = .next (s.modAgent a fun ag =>
          { ag with copyOps := ag.copyOps.map fun (o : CopyOp) =>
              if o.num = op.num then { o with tables := o.tables ++ [table] } else o })))) ∧
    (∀ m k p, let x := (s.agent a).stream m
      x.setUp = true → x.write = false → x.next + x.fifo.length < x.count → s.keptBack x.entry = false → s.keptBack x.index = false →
      (s.ctxOf a).streamElem x (x.next + x.fifo.length) = .here k p →
      exec (.streamFetch a m) s = .next (s.setStream a m fun x => { x with fifo := x.fifo ++ [(k, 0#32, p)] })) ∧
    (∀ m, let x := (s.agent a).stream m
      x.setUp = true → x.write = false → x.next + x.fifo.length < x.count → s.keptBack x.entry = false → s.keptBack x.index = false →
      (s.ctxOf a).streamElem x (x.next + x.fifo.length) = .lost →
      ∃ w f, exec (.streamFetch a m) s = .next
        { s.setStream a m fun x => { x with fifo := x.fifo ++ [(none, w, true)] } with freshNo := f }) ∧
    (∀ m at_ w p rest, let x := (s.agent a).stream m
      x.setUp = true → x.write = true → x.fifo = (at_, w, p) :: rest →
      let u := s.setStream a m fun x => { x with fifo := rest }
      (at_ = none → exec (.streamStore a m) s = .next u) ∧
      ∀ k, at_ = some k → s.fetchHolds k x.entry.size = false → s.keptBack x.entry = false →
        let st := storeOf k x.entry.size ((List.range 4).map fun b => BitVec.ofNat 8 (w.toNat / 2 ^ (8 * b))) [p]
        (keyKind k ≠ 1 → exec (.streamStore a m) s = .next { u with corePend := u.corePend ++ [({
          agent := a, core := u.coreOf a, cluster := u.clusterOf a, store := st, atomic := false } : Pend)] }) ∧
        (keyKind k = 1 → exec (.streamStore a m) s = .next (u.performMem st))) ∧
    (∀ (op : MatOp) (rest : List MatOp), (s.agent a).tile.matOps = op :: rest → op.started = false →
      let u := s.modAgent a fun g => { g with tile := { g.tile with matOps := s.fetchOps a op :: rest } }
      (s.fetchOps a op).started = true ∧
      (∀ ty r k, matType op.instr = some ty → r < 64 → k < ty.k →
        (op.wordA.getLsbD 31 = false → operandAt (s.fetchOps a op).opA r k = regionElement s a op.wordA ty.k ty.bits r k) ∧
        (op.wordB.getLsbD 31 = false → operandAt (s.fetchOps a op).opB r k = regionElement s a op.wordB ty.k ty.bits r k)) ∧
      (∀ v d pair i j h, op.instr = .accld v d pair → i < 64 → j < 64 → h ≤ pair.toNat →
        let key := regionWordKey s a op.wordA (4 * (pair.toNat + 1)) i j h
        let m := s.engineMem a
        operandAt (s.fetchOps a op).opA i ((pair.toNat + 1) * j + h) = (bytesAt m key 4, (List.range 4).any fun b => m.marked (key + b))) ∧
      exec (.mmaOpStart a) s = .next (u.settleHeld (s.clusterOf a)) ∧
      ((∀ t ∈ s.teams, t.buffer = []) → exec (.mmaOpStart a) s = .next u)) ∧
    (∀ (op : MatOp) (rest : List MatOp), (s.agent a).tile.matOps = op :: rest → op.started = true →
      s.arrayReaches (s.clusterOf a) op.order = true →
      (∀ st ∈ (s.matWrites a op).1.drop op.done, s.arrayHeld st.key st.bytes.length = false) →
      (s.agent a).phase = .active → a < s.agents.length → writesRegion op.instr = false ∨ Still s →
      ∃ t, exec (.mmaOpComplete a) s = .next t ∧ (t.agent a).tile.matOps = rest ∧
        t.mem = s.mem.performAll ((s.matWrites a op).1.drop op.done) ∧
        (t.agent a).sregs = (s.agent a).sregs.raise (s.matWrites a op).2 ∧ (∀ b, b ≠ a → t.agent b = s.agent b) ∧
        (op.done = 0 → AccMoves s t a op) ∧
        ∀ d w ty, mmaTarget op.instr = some (d, w) → matType op.instr = some ty → op.done = 0 →
          (∀ x, x = op.opA ∨ x = op.opB → x.length = 64 ∧ ∀ row ∈ x, row.length = ty.k ∧ ∀ e ∈ row, e.1 < 2 ^ ty.bits) →
          ∀ i j, i < 64 → j < 64 →
            let key := s.slotKey (s.clusterOf a) d.toNat + w * (64 * i + j)
            NewWord op.instr ty.k (fun k => (operandAt op.opA i k).1) (fun k => (operandAt op.opB j k).1)
              (bytesAt s.mem key w) (bytesAt t.mem key w) ∧
            ∀ b, b < w → (t.mem.marked (key + b) = true ↔ (∃ b, b < w ∧ s.mem.marked (key + b) = true) ∨
              ∃ k, k < ty.k ∧ ((operandAt op.opA i k).2 = true ∨ (operandAt op.opB j k).2 = true)))

/-- A unit takes a context's next operation and computes its result: every tile operation's elements step by step, the rank
rounding and its fallback, products, factorisations, solves and norms (R281 to R287, R292, R294, R298 to R304, R309 to R314). A
rounding's result is placed at its allocation point, or traps SLAB_EMPTY with nothing changed; completion stores the results and,
for TSTORE, TLRST, TLU and TMV, the elements in memory, writes TNORM's pair and the status word of TCHOL and TLU, merges the flags
into FPCSR and TRCC, and leaves the timeline (R276 to R280, R288, R291, R304, R307, R308). What a dense input gives when it is not
finite, sgn(-0), OF before a fallback, the stored factors of TTRSM and the marks are the readings of log 34. An operation that has still
to read or write elements of another device waits while no port reaches that one or a stop signal keeps requests back (R364), in a
terminated task too as long as a port reaches it (R340; one whose device no port reaches is dropped there, log 39). -/
def Obligations.TileUnits : Prop :=
  ∀ (s : State) (a : Nat) (op : TileOp) (rest : List TileOp),
    (HeadTile s a op rest → op.started = false → ((∃ k ∈ peerReads op, ¬ PeerAnswers s k) → exec (.winnowerStart a) s = .next s) ∧
      ((s.task (s.taskOf a)).terminated = false ∨ (∀ k ∈ peerReads op, PeerReached s k) → (∃ k ∈ peerReads op, ¬ PeerAnswers s k) →
        exec (.tileOpComplete a) s = .next s)) ∧
    (HeadTile s a op rest → op.started = false → s.unitFree (s.clusterOf a) op = true → (∀ k ∈ peerReads op, PeerAnswers s k) →
      exec (.winnowerStart a) s = .next (s.modAgent a fun g =>
        { g with tile := { g.tile with ops := { s.tileCompute a op with started := true } :: rest } }) ∧
      ((∀ h ∈ op.srcs, h.kind ≤ 2) → TileArithmetic s a op ∧ TileKernels s a op)) ∧
    ((s.agent a).tile.ops = rest ++ [op] → op.allocated = false → op.started = true → (s.agent a).phase = .active → a < s.agents.length →
      let v := op.results.headD (zeroValue false)
      let u := s.modAgent a fun g => { g with tile := { g.tile with ops := rest } }
      (s.placeAll a [((tileWrites op.instr).headD 0, v.kind, v.f32, v.rank)] = none → exec (.tileAllocationPoint a) s = .next
        (takeTrap u a 0 1 { cause := 0x0C, mask := 1#32, addr := 0#64, access := 0, level := none, partDone := false })) ∧
      (∀ w ps, s.placeAll a [((tileWrites op.instr).headD 0, v.kind, v.f32, v.rank)] = some (w, ps) →
        exec (.tileAllocationPoint a) s = .next ((w.modAgent a fun g =>
          { g with tile := { g.tile with ops := rest ++ [{ op with dests := ps, allocated := true }], issued := g.tile.issued + 1 } }).complete
            a 0 1))) ∧
    (HeadTile s a op rest → op.started = true → op.allocated = true →
      (s.task (s.taskOf a)).terminated = false ∨ (∀ st ∈ (elementStores op).drop op.done, PeerReached s st.key) →
      (∃ st ∈ (elementStores op).drop op.done, ¬ PeerAnswers s st.key) → exec (.tileOpComplete a) s = .next s) ∧
    (HeadTile s a op rest → op.started = true → op.allocated = true → (s.agent a).phase = .active →
      elementStores op = [] ∨ Still s → (∀ st ∈ (elementStores op).drop op.done, PeerAnswers s st.key) →
      (∀ st ∈ (elementStores op).drop op.done, s.fetchHolds st.key st.bytes.length = false) →
      let g := s.agent a
      ∃ t, exec (.tileOpComplete a) s = .next t ∧ (t.agent a).tile.ops = rest ∧
        (t.agent a).regs = (match tileWords op with
          | some (v, mark, ws) => (g.writeWords v mark ws).regs
          | none => g.regs) ∧
        (t.agent a).preds = g.preds ∧
        (t.agent a).sregs = { g.sregs.raise op.flags with trcc := g.sregs.trcc |||
          (if op.capped then 1#32 <<< 16 else 0#32) ||| (if op.densified then 1#32 <<< 17 else 0#32) } ∧
        (∀ hd h run v, op.dests = [(hd, h, run)] → op.results = [v] → hd < 32 →
          ((t.agent a).tile.handles.getD hd Handle.zero).psn = v.poison) ∧
        t.mem = (s.mem.performAll ((elementStores op).drop op.done)).performAll
          ((op.dests.zip op.results).flatMap fun p => storesOf (s.clusterOf a) p.1.2.1 p.2))

/-- What goes on in memory beside the instructions: translation by TLB or walk and its checks, walks fill TLBs and walk caches and
begin at the root or at a cached non-leaf entry, stores are performed, an invalidation removes its TLB entries and the cached non-leaf
entries that lead to them, errors strike words, damaged entries are dropped, spares take the place of units, the kernel serves traps,
other devices access memory (R221, R231, R346, R350, R352, R356, R357, R365, R369, R375, R376). One TLB set for a die, its oldest entry
going, walk caches without a bound, and a translation on the fly going on from the cached entry nearest the leaf are log 6; what an
error strikes is log 36 and log 44; the stores performed before an invalidation ends, for which it waits as a release does, are
log 46; the kernel's choice at a trap is log 37 and log 29; which die serves another device's access is log 39. -/
def Obligations.MemoryEvents : Prop :=
  ∀ (s : State) (n d : Nat),
    (∀ space (va : DWord) acc core, let v := va.toNat % 2 ^ 57
      (wholeVa va = false → s.translate d space va acc core = .error 0x10) ∧
      (wholeVa va = true →
        (∀ t, s.tlbFind d space v core = some t → LeafGives s t.level t.pte.toNat v acc (s.translate d space va acc core)) ∧
        (s.tlbFind d space v core = none → (s.spaceRoot space = none → s.translate d space va acc core = .error 0x10) ∧
          ∀ root, s.spaceRoot space = some root →
            let first := beginsAt root (s.walkFind d space v core)
            (WalkFinds (s.walkMem d) v first.1 first.2 none → s.translate d space va acc core = .error 0x10) ∧
            ∀ level p addr, WalkFinds (s.walkMem d) v first.1 first.2 (some (level, p, addr)) →
              LeafGives s level p.toNat v acc (s.translate d space va acc core)))) ∧
    (∀ space v core,
      let serves (w : WalkEntry) : Prop := w ∈ s.walks ∧ w.die = d ∧ w.space = space ∧ walkLeads w v ∧ w.level < 5 ∧
        ∀ k, core = some k → k ∉ w.gone
      (s.walkFind d space v core = none → ∀ w, ¬ serves w) ∧
      ∀ w, s.walkFind d space v core = some w → serves w ∧ ∀ x, serves x → w.level ≤ x.level) ∧
    (∀ space va start root, s.spaceRoot space = some root →
      let v := va % 2 ^ 57
      let asked : Prop := ∃ q ∈ s.asked, q.1 = d ∧ q.2.1 = space ∧ q.2.2.1 ≤ v / 4096 ∧ v / 4096 ≤ q.2.2.2
      let walk : Instr := .pageWalk ⟨d, start⟩ space va
      (¬ asked ∨ (s.dies.getD d default).enabled = false ∨
          (∃ k, start = some k ∧ ∀ w, s.walks[k]? = some w → ¬ (w.die = d ∧ w.space = space ∧ walkLeads w v)) → exec walk s = .next s) ∧
      ∀ from_ : Option WalkEntry, asked → (s.dies.getD d default).enabled = true →
        (start = none ∧ from_ = none ∨ ∃ k w, start = some k ∧ from_ = some w ∧ s.walks[k]? = some w ∧ w.die = d ∧ w.space = space ∧
          walkLeads w v) →
        let first := beginsAt root from_
        let gone := (from_.map (·.gone)).getD []
        let seen : List WalkEntry := (walkReads (s.walkMem d) v first.1 first.2).map fun p =>
          { die := d, space := space, level := p.1, va := v / 2 ^ (12 + 9 * p.1) * 2 ^ (12 + 9 * p.1), slot := p.2.2, pte := p.2.1
            gone := gone }
        let u : State := { s with walks := (seen.filter fun w => !s.walks.contains w) ++ s.walks }
        (WalkFinds (s.walkMem d) v first.1 first.2 none → exec walk s = .next u) ∧
        ∀ level p addr, WalkFinds (s.walkMem d) v first.1 first.2 (some (level, p, addr)) →
          let size := sizeAt level p.toNat
          let t : Tlb := { die := d, space := space, level := level, va := v / size * size, pte := p, gone := gone }
          let held := (s.tlbs.filter (·.die == d)).length
          (s.tlbs.contains t = true → exec walk s = .next u) ∧
          (s.tlbs.contains t = false → held < 16384 → exec walk s = .next { u with tlbs := t :: s.tlbs }) ∧
          (s.tlbs.contains t = false → 16384 ≤ held → ∃ j x, s.tlbs[j]? = some x ∧ x.die = d ∧
            (∀ i y, j < i → s.tlbs[i]? = some y → y.die ≠ d) ∧ exec walk s = .next { u with tlbs := t :: s.tlbs.eraseIdx j })) ∧
    (∀ p, (s.corePend ++ s.clusterPend)[n]? = some p → s.fetchHolds p.store.key p.store.bytes.length = false →
      exec (.storePerform n .cluster) s = .next (s.toCluster (· == p)) ∧ exec (.storePerform n .home) s = .next (s.toHome (· == p))) ∧
    (∀ v, s.invs[n]? = some v →
      (¬ MayRelease s v.agent .home → exec (.tlbinvComplete n) s = .next s) ∧
      (MayRelease s v.agent .home → let u := s.release v.agent .home
        exec (.tlbinvComplete n) s = .next { u with
          invs := u.invs.eraseIdx n
          tlbs := u.tlbs.filterMap fun t =>
            if invNames v t then v.cores.map fun cs => { t with gone := t.gone ++ cs.filter fun c => !t.gone.contains c } else some t
          walks := u.walks.filterMap fun w => if invReaches v w then walkWithout w v.cores else some w })) ∧
    exec (.eccCorrected n) s = .next { s with checks := s.checks ++ [.corrected n] } ∧
    (∀ lane r, exec (.eccUncorrectable (.vreg n r lane)) s = .next (s.modAgent n fun g =>
        { g with regs := vecModify g.regs r fun v =>
            ⟨v.shape, match v.shape with
              | .general _ => v.poison ||| (1#32 <<< lane)
              | _ => allLanes⟩ }) ∧
      exec (.eccUncorrectable (.preg n r lane)) s = .next (s.modAgent n fun g =>
        { g with preds := vecModify g.preds r fun l => vecModify l lane fun (x : Pred) => { x with poison := true } })) ∧
    (∀ e t, exec (.eccUncorrectable (.codebook n t e)) s = .next (s.modAgent n fun g =>
      { g with codebooks := g.codebooks.modify t fun l =>
          l.zipIdx.map fun (x : (Word × Bool) × Nat) => (x.1.1, x.1.2 || decide (x.2 / 4 = e / 4)) })) ∧
    (keyKind n = 0 → exec (.eccUncorrectable (.memory n)) s = .next { s with mem := struck s.mem (n / 8 * 2) 2 } ∧
      exec (.eccUncorrectable (.dramLine n)) s = .next { s with mem := struck s.mem (n / 64 * 16) 16 }) ∧
    (keyKind n = 1 → exec (.eccUncorrectable (.memory n)) s = .next (struckNear s (n / 4) 1)) ∧
    (keyKind n = 2 → exec (.eccUncorrectable (.memory n)) s = .next (struckNear s (n / 8 * 2) 2)) ∧
    exec (.parityDiscard (.tlb n)) s = .next { s with tlbs := s.tlbs.eraseIdx n } ∧
    exec (.parityDiscard (.walk n)) s = .next { s with walks := s.walks.eraseIdx n } ∧
    exec (.parityDiscard (.fetched n)) s = .next { s with fetched := s.fetched.eraseIdx n } ∧
    (∀ x, s.hasUnit x = true → s.otherChange x = false →
      let u : State := { s with closing := s.closing.erase x }
      let after (v : State) : Prop := exec (.spareChange x) s = .next ((spareRecord v x).keepTeams x)
      let die := s.dies.getD d default
      (s.unitClear x = false → exec (.spareChange x) s = .next { s with
        closing := if s.closing.contains x then s.closing else s.closing ++ [x]
        teams := s.teams.map fun (tm : Team) =>
          if tm.phase = TeamPhase.resident ∧ (unitCovers x tm.core ∨ (s.task tm.task).coresident = true ∧
              ∃ u ∈ s.teams, u.task = tm.task ∧ u.phase = TeamPhase.resident ∧ unitCovers x u.core = true) then
            { tm with preemptReq := true } else tm }) ∧
      (s.unitClear x = true →
        (x = .cluster d n → if 0 < die.spareclus then after (u.modDie d fun y => { y with spareclus := y.spareclus - 1 })
          else after ((u.modDie d fun y => { y with clusters := y.clusters - 1 }).modCluster (16 * d + n) fun y =>
            { y with enabled := false })) ∧
        (x = .dramLayer d → if die.spareLayer then after (u.modDie d fun y => { y with spareLayer := false })
          else after (u.modDie d fun y => { y with layers := y.layers - 1, dramgib := y.dramgib - y.dramgib / max 1 y.layers })) ∧
        (x = .registerBank n → after { u with cores := u.cores.modify n fun y => { y with regbanks := y.regbanks - 1 } }) ∧
        (x = .bearingLane n → after (u.modPort n fun p => { p with lanes := p.lanes - 1 })))) ∧
    (∀ (u : State) x j, j < u.teams.length → ((u.keepTeams x).team j) = { u.team j with
        stays := (u.team j).stays || (decide ((u.team j).phase = .suspended) && unitCovers x (u.team j).core &&
          !u.wouldPlace (u.movesWith j)) }) ∧
    (∀ j, (s.team j).stays = true → (s.team j).phase = .suspended → s.mayLie j (s.team j).core = true) ∧
    exec (.thermalThrottle d) s = .next (s.modDie d fun u => if (u.steps + 1) * 125 < 1750 then { u with steps := u.steps + 1 } else u) ∧
    (∀ e t, (s.agent n).phase = .stopped e t →
      let task := s.taskOf n
      let served := s.servePage (s.dieOf n) task t
      (∀ u, t.cause = 0x10 → served = some u → exec (.kernelTrapService n) s = .next ((u.modAgent n fun g =>
        { g.modEntry e fun en => { en with redo := if t.partDone then some t.mask else en.redo } with phase := .active }).settlePass
          (u.agent n).team)) ∧
      (t.cause ≠ 0x10 ∨ served = none → exec (.kernelTrapService n) s = .next (s.terminateTask task t.cause)) ∧
      ∀ root level p addr, t.peer = none → wholeVa t.addr = true → s.spaceRoot (s.task task).space = some root →
        WalkFinds s.mem (t.addr.toNat % 2 ^ 57) 5 root (some (level, p, addr)) →
        let p' := p ||| (if t.access = 1 ∨ t.access = 2 then 0xC0#64 else 0x40#64)
        let bytes := (List.range 8).map fun b => BitVec.ofNat 8 (p'.toNat / 2 ^ (8 * b))
        p' ≠ p → served = some
          (shotDown { s with mem := s.mem.writeBytes addr bytes } (s.task task).space (t.addr.toNat % 2 ^ 57))) ∧
    ∀ (q : PeerReq),
      (s.stoppedTo q.source 1 = true ∨ s.reachable q.source = false → exec (.peerAccess q) s = .next s) ∧
      (s.stoppedTo q.source 1 = false → s.reachable q.source = true →
        let acc : Access := match q.op with
          | .load => .read
          | .store _ _ => .write
          | _ => .atomic
        (∀ e, s.helmKey (s.liveDies.headD 0) q.space q.va acc = .error e → exec (.peerAccess q) s = .next
          { s with answers := s.answers ++ [({ device := q.source, cause := e, bytes := [], poison := [] } : Answer)] }) ∧
        ∀ k, s.helmKey (s.liveDies.headD 0) q.space q.va acc = .ok k → (acc = .atomic → q.size = 4 ∨ q.size = 8) →
          (∀ op v p, q.op = .atomic op v p → 1 ≤ op ∧ op ≤ 12) →
          ∃ t, exec (.peerAccess q) s = .next t ∧
            t.answers = s.answers ++ [({ device := q.source, cause := 0, bytes := (List.range q.size).map fun b => s.mem.read (k + b),
                                         poison := (List.range q.size).map fun b => s.mem.marked (k + b) } : Answer)] ∧
            t.mem = match peerLeaves q (bytesAt s.mem k q.size) ((List.range q.size).any fun b => s.mem.marked (k + b)) with
              | some (bytes, marks) => s.mem.perform (storeOf k q.size bytes marks)
              | none => s.mem)

/-- The Bearing links: replays count until a flit passes, eight in a row take a link down, a channel stops and resumes and keeps
a load back, a PEER access that has waited 100 microseconds faults when it issues again; a SYSTEM packet is bound here, a
collective message of a warp that an instance awaits adds a contribution, and the contribution of a warp here goes to the other
devices of the node (R364 to R366). What a stop signal keeps back, and which devices a contribution goes to, is log 39, the replay
count at reset log 36, the share of a SYSTEM launch and the devices with their answers are log 26, the teams of other devices log
19. -/
def Obligations.LinkEvents : Prop :=
  ∀ (s : State) (n chan : Nat) (p : Port), s.ports[n]? = some p →
    let flushed (u : State) : State :=
      let kept (m : CollMessage) : Bool := !u.reachable m.device || u.stoppedTo m.device 2
      { u with collQueue := u.collQueue.filter kept, collSent := u.collSent ++ u.collQueue.filter (!kept ·) }
    (p.up = true → p.replays < 8 → exec (.linkReplay n) s = .next (s.modPort n fun p => { p with replays := p.replays + 1 })) ∧
    (∀ rest, s.agenda = .outside (.flitPasses n) :: rest →
      step s = .next (({ s with agenda := rest } : State).modPort n fun p => { p with replays := 0 })) ∧
    (p.up = true → p.replays = 8 → exec (.linkDown n) s = .next (flushed
      { s.modPort n fun p => { p with up := false, replays := 0 } with checks := s.checks ++ [.linkDown n] })) ∧
    exec (.channelStop n chan) s = .next (s.modPort n fun p => { p with stopped := p.stopped.set chan true }) ∧
    exec (.channelResume n chan) s = .next (flushed (s.modPort n fun p => { p with stopped := p.stopped.set chan false })) ∧
    (∀ (c : Ctx) (i : Instr) (f : MemForm), WarpRuns s c → loadForm i = some f → GuardClear c f.guard.toNat →
      c.guardHolds f.guard.toNat ≠ 0#32 → f.data.toNat + wordCount f.size ≤ c.g →
      let l := formLayout c f
      1 ≤ l.dims.toNat → l.size = f.size → f.coords.toNat + l.nd ≤ c.n →
      (∀ j, inMask (c.guardHolds f.guard.toNat) j = true →
        (∃ o, l.spot (c.coords l f.coords.toNat j) = .at o ∧ o % f.size = 0) ∧
        ∀ k, k < l.nd → (c.ag.reg (f.coords.toNat + k)).marked j = false) →
      l.space = 3#8 → l.peer.toNat ≠ s.devid → p.up = true → p.device = l.peer.toNat →
      (∀ q ∈ s.ports, q.up = true → q.device = l.peer.toNat → q.stopped.getD 0 false = true) →
      exec i s = .next (awaiting c s)) ∧
    (∀ a, ∃ t, exec (.peerTimeout a) s = .next t ∧
      ∀ e since, a < s.agents.length → e < (s.agent a).entries.length → ((s.agent a).entry e).hold = .peer (since + 1) →
        ((t.agent a).entry e).hold = if since + 100000 ≤ s.clockOf (s.dieOf a) then .peer 0 else .peer (since + 1)) ∧
    (∀ space packet others share, s.booted = true → packet.length = 192 → (Packet.ofBytes packet).system = true →
      let by_ : LaunchBy := { launcher := .system, id := s.tasks.length + 1, space := space, die := s.launchDie, parent := none }
      s.sentTo packet by_ others share = true → p.up = true →
      exec (.systemLaunchPacket space packet others share) s = .next (s.osLaunch by_ packet others share).1) ∧
    (∀ (c : Ctx) (r d : Reg) (lv : BitVec 4) (k : BitVec 2) (op : BitVec 3) (w : Word) (low : Nat), WarpRuns s c →
      s.instances = [] → c.ag.frames = [] → c.act = ~~~c.ag.exited → IsLowest c.act low → lv.toNat < c.depth →
      c.phys lv.toNat = 7 → op ≠ 2#3 → paramIs c r.toNat w → s.collQueue = [] →
      (∀ x ∈ c.task.devices, s.reachable x = true ∧ s.stoppedTo x 2 = false) →
      let node (i : Nat) : Nat := c.task.lin lv.toNat c.team.logical c.ag.number i
      (∀ i, inMask c.act i = true → node i = node low) →
      ∃ t, exec (.coll lv d r k op) s = .next t ∧ t.collQueue = [] ∧
        t.collSent = s.collSent ++ c.task.devices.map fun x => {
          device := x, task := c.team.task, kind := .coll lv.toNat (k.toNat * 8 + op.toNat), node := node low
          position := c.task.lin (c.task.declared.length - 1) c.team.logical c.ag.number low
          value := w.zeroExtend 64, poison := false }) ∧
    ((∀ q ∈ s.ports, q.up = false) → (∀ space packet others share, exec (.systemLaunchPacket space packet others share) s = .next s) ∧
      ∀ i pos v poison, exec (.collectiveChannelMessage i pos v poison) s = .next s) ∧
    (∀ i x pos v poison, p.up = true → s.instances[i]? = some x → 6 ≤ ((s.task x.task).level x.kind.level).phys → s.awaitsFrom x pos = true →
      exec (.collectiveChannelMessage i pos v poison) s = .next
        ({ s with instances := s.instances.set i { x with contributions := x.contributions ++ [({
          agent := none, position := pos, value := v, poison := poison } : Contribution)] } }.settleInstance i))
end

