-- ==== Sys2Proof/Laws/State.lean ====
section
/-! SUPPORT. What each shared update of the state, of an agent and of an entry leaves alone: one lemma per field per
update, so that no later proof unfolds a record update. -/

namespace Sys2Proof.Machine

/-! ### State.modAgent -/

@[simp] theorem State.modAgent_dies (s : State) (a : Nat) (f : Agent → Agent) : (s.modAgent a f).dies = s.dies := rfl
@[simp] theorem State.modAgent_clusters (s : State) (a : Nat) (f : Agent → Agent) : (s.modAgent a f).clusters = s.clusters := rfl
@[simp] theorem State.modAgent_cores (s : State) (a : Nat) (f : Agent → Agent) : (s.modAgent a f).cores = s.cores := rfl
@[simp] theorem State.modAgent_devid (s : State) (a : Nat) (f : Agent → Agent) : (s.modAgent a f).devid = s.devid := rfl
@[simp] theorem State.modAgent_teams (s : State) (a : Nat) (f : Agent → Agent) : (s.modAgent a f).teams = s.teams := rfl
@[simp] theorem State.modAgent_tasks (s : State) (a : Nat) (f : Agent → Agent) : (s.modAgent a f).tasks = s.tasks := rfl
@[simp] theorem State.modAgent_instances (s : State) (a : Nat) (f : Agent → Agent) : (s.modAgent a f).instances = s.instances := rfl
@[simp] theorem State.modAgent_mem (s : State) (a : Nat) (f : Agent → Agent) : (s.modAgent a f).mem = s.mem := rfl
@[simp] theorem State.modAgent_corePend (s : State) (a : Nat) (f : Agent → Agent) : (s.modAgent a f).corePend = s.corePend := rfl
@[simp] theorem State.modAgent_clusterPend (s : State) (a : Nat) (f : Agent → Agent) : (s.modAgent a f).clusterPend = s.clusterPend := rfl
@[simp] theorem State.modAgent_coreMem (s : State) (a : Nat) (f : Agent → Agent) : (s.modAgent a f).coreMem = s.coreMem := rfl
@[simp] theorem State.modAgent_clusterMem (s : State) (a : Nat) (f : Agent → Agent) : (s.modAgent a f).clusterMem = s.clusterMem := rfl
@[simp] theorem State.modAgent_spaces (s : State) (a : Nat) (f : Agent → Agent) : (s.modAgent a f).spaces = s.spaces := rfl
@[simp] theorem State.modAgent_tlbs (s : State) (a : Nat) (f : Agent → Agent) : (s.modAgent a f).tlbs = s.tlbs := rfl
@[simp] theorem State.modAgent_walks (s : State) (a : Nat) (f : Agent → Agent) : (s.modAgent a f).walks = s.walks := rfl
@[simp] theorem State.modAgent_invs (s : State) (a : Nat) (f : Agent → Agent) : (s.modAgent a f).invs = s.invs := rfl
@[simp] theorem State.modAgent_unseen (s : State) (a : Nat) (f : Agent → Agent) : (s.modAgent a f).unseen = s.unseen := rfl
@[simp] theorem State.modAgent_asked (s : State) (a : Nat) (f : Agent → Agent) : (s.modAgent a f).asked = s.asked := rfl
@[simp] theorem State.modAgent_fetched (s : State) (a : Nat) (f : Agent → Agent) : (s.modAgent a f).fetched = s.fetched := rfl
@[simp] theorem State.modAgent_counters (s : State) (a : Nat) (f : Agent → Agent) : (s.modAgent a f).counters = s.counters := rfl
@[simp] theorem State.modAgent_pagesUsed (s : State) (a : Nat) (f : Agent → Agent) : (s.modAgent a f).pagesUsed = s.pagesUsed := rfl
@[simp] theorem State.modAgent_pageSlots (s : State) (a : Nat) (f : Agent → Agent) : (s.modAgent a f).pageSlots = s.pageSlots := rfl
@[simp] theorem State.modAgent_windowBase (s : State) (a : Nat) (f : Agent → Agent) : (s.modAgent a f).windowBase = s.windowBase := rfl
@[simp] theorem State.modAgent_windowSize (s : State) (a : Nat) (f : Agent → Agent) : (s.modAgent a f).windowSize = s.windowSize := rfl
@[simp] theorem State.modAgent_mailboxes (s : State) (a : Nat) (f : Agent → Agent) : (s.modAgent a f).mailboxes = s.mailboxes := rfl
@[simp] theorem State.modAgent_notifyBase (s : State) (a : Nat) (f : Agent → Agent) : (s.modAgent a f).notifyBase = s.notifyBase := rfl
@[simp] theorem State.modAgent_notifyCount (s : State) (a : Nat) (f : Agent → Agent) : (s.modAgent a f).notifyCount = s.notifyCount := rfl
@[simp] theorem State.modAgent_kernelLog (s : State) (a : Nat) (f : Agent → Agent) : (s.modAgent a f).kernelLog = s.kernelLog := rfl
@[simp] theorem State.modAgent_checks (s : State) (a : Nat) (f : Agent → Agent) : (s.modAgent a f).checks = s.checks := rfl
@[simp] theorem State.modAgent_measures (s : State) (a : Nat) (f : Agent → Agent) : (s.modAgent a f).measures = s.measures := rfl
@[simp] theorem State.modAgent_booted (s : State) (a : Nat) (f : Agent → Agent) : (s.modAgent a f).booted = s.booted := rfl
@[simp] theorem State.modAgent_reportVa (s : State) (a : Nat) (f : Agent → Agent) : (s.modAgent a f).reportVa = s.reportVa := rfl
@[simp] theorem State.modAgent_drives (s : State) (a : Nat) (f : Agent → Agent) : (s.modAgent a f).drives = s.drives := rfl
@[simp] theorem State.modAgent_ports (s : State) (a : Nat) (f : Agent → Agent) : (s.modAgent a f).ports = s.ports := rfl
@[simp] theorem State.modAgent_peers (s : State) (a : Nat) (f : Agent → Agent) : (s.modAgent a f).peers = s.peers := rfl
@[simp] theorem State.modAgent_racks (s : State) (a : Nat) (f : Agent → Agent) : (s.modAgent a f).racks = s.racks := rfl
@[simp] theorem State.modAgent_systemId (s : State) (a : Nat) (f : Agent → Agent) : (s.modAgent a f).systemId = s.systemId := rfl
@[simp] theorem State.modAgent_sent (s : State) (a : Nat) (f : Agent → Agent) : (s.modAgent a f).sent = s.sent := rfl
@[simp] theorem State.modAgent_answers (s : State) (a : Nat) (f : Agent → Agent) : (s.modAgent a f).answers = s.answers := rfl
@[simp] theorem State.modAgent_collQueue (s : State) (a : Nat) (f : Agent → Agent) : (s.modAgent a f).collQueue = s.collQueue := rfl
@[simp] theorem State.modAgent_collSent (s : State) (a : Nat) (f : Agent → Agent) : (s.modAgent a f).collSent = s.collSent := rfl
@[simp] theorem State.modAgent_closing (s : State) (a : Nat) (f : Agent → Agent) : (s.modAgent a f).closing = s.closing := rfl
@[simp] theorem State.modAgent_seq (s : State) (a : Nat) (f : Agent → Agent) : (s.modAgent a f).seq = s.seq := rfl
@[simp] theorem State.modAgent_freshNo (s : State) (a : Nat) (f : Agent → Agent) : (s.modAgent a f).freshNo = s.freshNo := rfl
@[simp] theorem State.modAgent_cur (s : State) (a : Nat) (f : Agent → Agent) : (s.modAgent a f).cur = s.cur := rfl
@[simp] theorem State.modAgent_issues (s : State) (a : Nat) (f : Agent → Agent) : (s.modAgent a f).issues = s.issues := rfl
@[simp] theorem State.modAgent_agenda (s : State) (a : Nat) (f : Agent → Agent) : (s.modAgent a f).agenda = s.agenda := rfl

/-! ### State.modTeam -/

@[simp] theorem State.modTeam_dies (s : State) (a : Nat) (f : Team → Team) : (s.modTeam a f).dies = s.dies := rfl
@[simp] theorem State.modTeam_clusters (s : State) (a : Nat) (f : Team → Team) : (s.modTeam a f).clusters = s.clusters := rfl
@[simp] theorem State.modTeam_cores (s : State) (a : Nat) (f : Team → Team) : (s.modTeam a f).cores = s.cores := rfl
@[simp] theorem State.modTeam_devid (s : State) (a : Nat) (f : Team → Team) : (s.modTeam a f).devid = s.devid := rfl
@[simp] theorem State.modTeam_agents (s : State) (a : Nat) (f : Team → Team) : (s.modTeam a f).agents = s.agents := rfl
@[simp] theorem State.modTeam_tasks (s : State) (a : Nat) (f : Team → Team) : (s.modTeam a f).tasks = s.tasks := rfl
@[simp] theorem State.modTeam_instances (s : State) (a : Nat) (f : Team → Team) : (s.modTeam a f).instances = s.instances := rfl
@[simp] theorem State.modTeam_mem (s : State) (a : Nat) (f : Team → Team) : (s.modTeam a f).mem = s.mem := rfl
@[simp] theorem State.modTeam_corePend (s : State) (a : Nat) (f : Team → Team) : (s.modTeam a f).corePend = s.corePend := rfl
@[simp] theorem State.modTeam_clusterPend (s : State) (a : Nat) (f : Team → Team) : (s.modTeam a f).clusterPend = s.clusterPend := rfl
@[simp] theorem State.modTeam_coreMem (s : State) (a : Nat) (f : Team → Team) : (s.modTeam a f).coreMem = s.coreMem := rfl
@[simp] theorem State.modTeam_clusterMem (s : State) (a : Nat) (f : Team → Team) : (s.modTeam a f).clusterMem = s.clusterMem := rfl
@[simp] theorem State.modTeam_spaces (s : State) (a : Nat) (f : Team → Team) : (s.modTeam a f).spaces = s.spaces := rfl
@[simp] theorem State.modTeam_tlbs (s : State) (a : Nat) (f : Team → Team) : (s.modTeam a f).tlbs = s.tlbs := rfl
@[simp] theorem State.modTeam_walks (s : State) (a : Nat) (f : Team → Team) : (s.modTeam a f).walks = s.walks := rfl
@[simp] theorem State.modTeam_invs (s : State) (a : Nat) (f : Team → Team) : (s.modTeam a f).invs = s.invs := rfl
@[simp] theorem State.modTeam_unseen (s : State) (a : Nat) (f : Team → Team) : (s.modTeam a f).unseen = s.unseen := rfl
@[simp] theorem State.modTeam_asked (s : State) (a : Nat) (f : Team → Team) : (s.modTeam a f).asked = s.asked := rfl
@[simp] theorem State.modTeam_fetched (s : State) (a : Nat) (f : Team → Team) : (s.modTeam a f).fetched = s.fetched := rfl
@[simp] theorem State.modTeam_counters (s : State) (a : Nat) (f : Team → Team) : (s.modTeam a f).counters = s.counters := rfl
@[simp] theorem State.modTeam_pagesUsed (s : State) (a : Nat) (f : Team → Team) : (s.modTeam a f).pagesUsed = s.pagesUsed := rfl
@[simp] theorem State.modTeam_pageSlots (s : State) (a : Nat) (f : Team → Team) : (s.modTeam a f).pageSlots = s.pageSlots := rfl
@[simp] theorem State.modTeam_windowBase (s : State) (a : Nat) (f : Team → Team) : (s.modTeam a f).windowBase = s.windowBase := rfl
@[simp] theorem State.modTeam_windowSize (s : State) (a : Nat) (f : Team → Team) : (s.modTeam a f).windowSize = s.windowSize := rfl
@[simp] theorem State.modTeam_mailboxes (s : State) (a : Nat) (f : Team → Team) : (s.modTeam a f).mailboxes = s.mailboxes := rfl
@[simp] theorem State.modTeam_notifyBase (s : State) (a : Nat) (f : Team → Team) : (s.modTeam a f).notifyBase = s.notifyBase := rfl
@[simp] theorem State.modTeam_notifyCount (s : State) (a : Nat) (f : Team → Team) : (s.modTeam a f).notifyCount = s.notifyCount := rfl
@[simp] theorem State.modTeam_kernelLog (s : State) (a : Nat) (f : Team → Team) : (s.modTeam a f).kernelLog = s.kernelLog := rfl
@[simp] theorem State.modTeam_checks (s : State) (a : Nat) (f : Team → Team) : (s.modTeam a f).checks = s.checks := rfl
@[simp] theorem State.modTeam_measures (s : State) (a : Nat) (f : Team → Team) : (s.modTeam a f).measures = s.measures := rfl
@[simp] theorem State.modTeam_booted (s : State) (a : Nat) (f : Team → Team) : (s.modTeam a f).booted = s.booted := rfl
@[simp] theorem State.modTeam_reportVa (s : State) (a : Nat) (f : Team → Team) : (s.modTeam a f).reportVa = s.reportVa := rfl
@[simp] theorem State.modTeam_drives (s : State) (a : Nat) (f : Team → Team) : (s.modTeam a f).drives = s.drives := rfl
@[simp] theorem State.modTeam_ports (s : State) (a : Nat) (f : Team → Team) : (s.modTeam a f).ports = s.ports := rfl
@[simp] theorem State.modTeam_peers (s : State) (a : Nat) (f : Team → Team) : (s.modTeam a f).peers = s.peers := rfl
@[simp] theorem State.modTeam_racks (s : State) (a : Nat) (f : Team → Team) : (s.modTeam a f).racks = s.racks := rfl
@[simp] theorem State.modTeam_systemId (s : State) (a : Nat) (f : Team → Team) : (s.modTeam a f).systemId = s.systemId := rfl
@[simp] theorem State.modTeam_sent (s : State) (a : Nat) (f : Team → Team) : (s.modTeam a f).sent = s.sent := rfl
@[simp] theorem State.modTeam_answers (s : State) (a : Nat) (f : Team → Team) : (s.modTeam a f).answers = s.answers := rfl
@[simp] theorem State.modTeam_collQueue (s : State) (a : Nat) (f : Team → Team) : (s.modTeam a f).collQueue = s.collQueue := rfl
@[simp] theorem State.modTeam_collSent (s : State) (a : Nat) (f : Team → Team) : (s.modTeam a f).collSent = s.collSent := rfl
@[simp] theorem State.modTeam_closing (s : State) (a : Nat) (f : Team → Team) : (s.modTeam a f).closing = s.closing := rfl
@[simp] theorem State.modTeam_seq (s : State) (a : Nat) (f : Team → Team) : (s.modTeam a f).seq = s.seq := rfl
@[simp] theorem State.modTeam_freshNo (s : State) (a : Nat) (f : Team → Team) : (s.modTeam a f).freshNo = s.freshNo := rfl
@[simp] theorem State.modTeam_cur (s : State) (a : Nat) (f : Team → Team) : (s.modTeam a f).cur = s.cur := rfl
@[simp] theorem State.modTeam_issues (s : State) (a : Nat) (f : Team → Team) : (s.modTeam a f).issues = s.issues := rfl
@[simp] theorem State.modTeam_agenda (s : State) (a : Nat) (f : Team → Team) : (s.modTeam a f).agenda = s.agenda := rfl

/-! ### State.modTask -/

@[simp] theorem State.modTask_dies (s : State) (a : Nat) (f : Task → Task) : (s.modTask a f).dies = s.dies := rfl
@[simp] theorem State.modTask_clusters (s : State) (a : Nat) (f : Task → Task) : (s.modTask a f).clusters = s.clusters := rfl
@[simp] theorem State.modTask_cores (s : State) (a : Nat) (f : Task → Task) : (s.modTask a f).cores = s.cores := rfl
@[simp] theorem State.modTask_devid (s : State) (a : Nat) (f : Task → Task) : (s.modTask a f).devid = s.devid := rfl
@[simp] theorem State.modTask_agents (s : State) (a : Nat) (f : Task → Task) : (s.modTask a f).agents = s.agents := rfl
@[simp] theorem State.modTask_teams (s : State) (a : Nat) (f : Task → Task) : (s.modTask a f).teams = s.teams := rfl
@[simp] theorem State.modTask_instances (s : State) (a : Nat) (f : Task → Task) : (s.modTask a f).instances = s.instances := rfl
@[simp] theorem State.modTask_mem (s : State) (a : Nat) (f : Task → Task) : (s.modTask a f).mem = s.mem := rfl
@[simp] theorem State.modTask_corePend (s : State) (a : Nat) (f : Task → Task) : (s.modTask a f).corePend = s.corePend := rfl
@[simp] theorem State.modTask_clusterPend (s : State) (a : Nat) (f : Task → Task) : (s.modTask a f).clusterPend = s.clusterPend := rfl
@[simp] theorem State.modTask_coreMem (s : State) (a : Nat) (f : Task → Task) : (s.modTask a f).coreMem = s.coreMem := rfl
@[simp] theorem State.modTask_clusterMem (s : State) (a : Nat) (f : Task → Task) : (s.modTask a f).clusterMem = s.clusterMem := rfl
@[simp] theorem State.modTask_spaces (s : State) (a : Nat) (f : Task → Task) : (s.modTask a f).spaces = s.spaces := rfl
@[simp] theorem State.modTask_tlbs (s : State) (a : Nat) (f : Task → Task) : (s.modTask a f).tlbs = s.tlbs := rfl
@[simp] theorem State.modTask_walks (s : State) (a : Nat) (f : Task → Task) : (s.modTask a f).walks = s.walks := rfl
@[simp] theorem State.modTask_invs (s : State) (a : Nat) (f : Task → Task) : (s.modTask a f).invs = s.invs := rfl
@[simp] theorem State.modTask_unseen (s : State) (a : Nat) (f : Task → Task) : (s.modTask a f).unseen = s.unseen := rfl
@[simp] theorem State.modTask_asked (s : State) (a : Nat) (f : Task → Task) : (s.modTask a f).asked = s.asked := rfl
@[simp] theorem State.modTask_fetched (s : State) (a : Nat) (f : Task → Task) : (s.modTask a f).fetched = s.fetched := rfl
@[simp] theorem State.modTask_counters (s : State) (a : Nat) (f : Task → Task) : (s.modTask a f).counters = s.counters := rfl
@[simp] theorem State.modTask_pagesUsed (s : State) (a : Nat) (f : Task → Task) : (s.modTask a f).pagesUsed = s.pagesUsed := rfl
@[simp] theorem State.modTask_pageSlots (s : State) (a : Nat) (f : Task → Task) : (s.modTask a f).pageSlots = s.pageSlots := rfl
@[simp] theorem State.modTask_windowBase (s : State) (a : Nat) (f : Task → Task) : (s.modTask a f).windowBase = s.windowBase := rfl
@[simp] theorem State.modTask_windowSize (s : State) (a : Nat) (f : Task → Task) : (s.modTask a f).windowSize = s.windowSize := rfl
@[simp] theorem State.modTask_mailboxes (s : State) (a : Nat) (f : Task → Task) : (s.modTask a f).mailboxes = s.mailboxes := rfl
@[simp] theorem State.modTask_notifyBase (s : State) (a : Nat) (f : Task → Task) : (s.modTask a f).notifyBase = s.notifyBase := rfl
@[simp] theorem State.modTask_notifyCount (s : State) (a : Nat) (f : Task → Task) : (s.modTask a f).notifyCount = s.notifyCount := rfl
@[simp] theorem State.modTask_kernelLog (s : State) (a : Nat) (f : Task → Task) : (s.modTask a f).kernelLog = s.kernelLog := rfl
@[simp] theorem State.modTask_checks (s : State) (a : Nat) (f : Task → Task) : (s.modTask a f).checks = s.checks := rfl
@[simp] theorem State.modTask_measures (s : State) (a : Nat) (f : Task → Task) : (s.modTask a f).measures = s.measures := rfl
@[simp] theorem State.modTask_booted (s : State) (a : Nat) (f : Task → Task) : (s.modTask a f).booted = s.booted := rfl
@[simp] theorem State.modTask_reportVa (s : State) (a : Nat) (f : Task → Task) : (s.modTask a f).reportVa = s.reportVa := rfl
@[simp] theorem State.modTask_drives (s : State) (a : Nat) (f : Task → Task) : (s.modTask a f).drives = s.drives := rfl
@[simp] theorem State.modTask_ports (s : State) (a : Nat) (f : Task → Task) : (s.modTask a f).ports = s.ports := rfl
@[simp] theorem State.modTask_peers (s : State) (a : Nat) (f : Task → Task) : (s.modTask a f).peers = s.peers := rfl
@[simp] theorem State.modTask_racks (s : State) (a : Nat) (f : Task → Task) : (s.modTask a f).racks = s.racks := rfl
@[simp] theorem State.modTask_systemId (s : State) (a : Nat) (f : Task → Task) : (s.modTask a f).systemId = s.systemId := rfl
@[simp] theorem State.modTask_sent (s : State) (a : Nat) (f : Task → Task) : (s.modTask a f).sent = s.sent := rfl
@[simp] theorem State.modTask_answers (s : State) (a : Nat) (f : Task → Task) : (s.modTask a f).answers = s.answers := rfl
@[simp] theorem State.modTask_collQueue (s : State) (a : Nat) (f : Task → Task) : (s.modTask a f).collQueue = s.collQueue := rfl
@[simp] theorem State.modTask_collSent (s : State) (a : Nat) (f : Task → Task) : (s.modTask a f).collSent = s.collSent := rfl
@[simp] theorem State.modTask_closing (s : State) (a : Nat) (f : Task → Task) : (s.modTask a f).closing = s.closing := rfl
@[simp] theorem State.modTask_seq (s : State) (a : Nat) (f : Task → Task) : (s.modTask a f).seq = s.seq := rfl
@[simp] theorem State.modTask_freshNo (s : State) (a : Nat) (f : Task → Task) : (s.modTask a f).freshNo = s.freshNo := rfl
@[simp] theorem State.modTask_cur (s : State) (a : Nat) (f : Task → Task) : (s.modTask a f).cur = s.cur := rfl
@[simp] theorem State.modTask_issues (s : State) (a : Nat) (f : Task → Task) : (s.modTask a f).issues = s.issues := rfl
@[simp] theorem State.modTask_agenda (s : State) (a : Nat) (f : Task → Task) : (s.modTask a f).agenda = s.agenda := rfl

/-! ### State.modCluster -/

@[simp] theorem State.modCluster_dies (s : State) (a : Nat) (f : ClusterUnit → ClusterUnit) : (s.modCluster a f).dies = s.dies := rfl
@[simp] theorem State.modCluster_cores (s : State) (a : Nat) (f : ClusterUnit → ClusterUnit) : (s.modCluster a f).cores = s.cores := rfl
@[simp] theorem State.modCluster_devid (s : State) (a : Nat) (f : ClusterUnit → ClusterUnit) : (s.modCluster a f).devid = s.devid := rfl
@[simp] theorem State.modCluster_agents (s : State) (a : Nat) (f : ClusterUnit → ClusterUnit) : (s.modCluster a f).agents = s.agents := rfl
@[simp] theorem State.modCluster_teams (s : State) (a : Nat) (f : ClusterUnit → ClusterUnit) : (s.modCluster a f).teams = s.teams := rfl
@[simp] theorem State.modCluster_tasks (s : State) (a : Nat) (f : ClusterUnit → ClusterUnit) : (s.modCluster a f).tasks = s.tasks := rfl
@[simp] theorem State.modCluster_instances (s : State) (a : Nat) (f : ClusterUnit → ClusterUnit) : (s.modCluster a f).instances = s.instances := rfl
@[simp] theorem State.modCluster_mem (s : State) (a : Nat) (f : ClusterUnit → ClusterUnit) : (s.modCluster a f).mem = s.mem := rfl
@[simp] theorem State.modCluster_corePend (s : State) (a : Nat) (f : ClusterUnit → ClusterUnit) : (s.modCluster a f).corePend = s.corePend := rfl
@[simp] theorem State.modCluster_clusterPend (s : State) (a : Nat) (f : ClusterUnit → ClusterUnit) : (s.modCluster a f).clusterPend = s.clusterPend := rfl
@[simp] theorem State.modCluster_coreMem (s : State) (a : Nat) (f : ClusterUnit → ClusterUnit) : (s.modCluster a f).coreMem = s.coreMem := rfl
@[simp] theorem State.modCluster_clusterMem (s : State) (a : Nat) (f : ClusterUnit → ClusterUnit) : (s.modCluster a f).clusterMem = s.clusterMem := rfl
@[simp] theorem State.modCluster_spaces (s : State) (a : Nat) (f : ClusterUnit → ClusterUnit) : (s.modCluster a f).spaces = s.spaces := rfl
@[simp] theorem State.modCluster_tlbs (s : State) (a : Nat) (f : ClusterUnit → ClusterUnit) : (s.modCluster a f).tlbs = s.tlbs := rfl
@[simp] theorem State.modCluster_walks (s : State) (a : Nat) (f : ClusterUnit → ClusterUnit) : (s.modCluster a f).walks = s.walks := rfl
@[simp] theorem State.modCluster_invs (s : State) (a : Nat) (f : ClusterUnit → ClusterUnit) : (s.modCluster a f).invs = s.invs := rfl
@[simp] theorem State.modCluster_unseen (s : State) (a : Nat) (f : ClusterUnit → ClusterUnit) : (s.modCluster a f).unseen = s.unseen := rfl
@[simp] theorem State.modCluster_asked (s : State) (a : Nat) (f : ClusterUnit → ClusterUnit) : (s.modCluster a f).asked = s.asked := rfl
@[simp] theorem State.modCluster_fetched (s : State) (a : Nat) (f : ClusterUnit → ClusterUnit) : (s.modCluster a f).fetched = s.fetched := rfl
@[simp] theorem State.modCluster_counters (s : State) (a : Nat) (f : ClusterUnit → ClusterUnit) : (s.modCluster a f).counters = s.counters := rfl
@[simp] theorem State.modCluster_pagesUsed (s : State) (a : Nat) (f : ClusterUnit → ClusterUnit) : (s.modCluster a f).pagesUsed = s.pagesUsed := rfl
@[simp] theorem State.modCluster_pageSlots (s : State) (a : Nat) (f : ClusterUnit → ClusterUnit) : (s.modCluster a f).pageSlots = s.pageSlots := rfl
@[simp] theorem State.modCluster_windowBase (s : State) (a : Nat) (f : ClusterUnit → ClusterUnit) : (s.modCluster a f).windowBase = s.windowBase := rfl
@[simp] theorem State.modCluster_windowSize (s : State) (a : Nat) (f : ClusterUnit → ClusterUnit) : (s.modCluster a f).windowSize = s.windowSize := rfl
@[simp] theorem State.modCluster_mailboxes (s : State) (a : Nat) (f : ClusterUnit → ClusterUnit) : (s.modCluster a f).mailboxes = s.mailboxes := rfl
@[simp] theorem State.modCluster_notifyBase (s : State) (a : Nat) (f : ClusterUnit → ClusterUnit) : (s.modCluster a f).notifyBase = s.notifyBase := rfl
@[simp] theorem State.modCluster_notifyCount (s : State) (a : Nat) (f : ClusterUnit → ClusterUnit) : (s.modCluster a f).notifyCount = s.notifyCount := rfl
@[simp] theorem State.modCluster_kernelLog (s : State) (a : Nat) (f : ClusterUnit → ClusterUnit) : (s.modCluster a f).kernelLog = s.kernelLog := rfl
@[simp] theorem State.modCluster_checks (s : State) (a : Nat) (f : ClusterUnit → ClusterUnit) : (s.modCluster a f).checks = s.checks := rfl
@[simp] theorem State.modCluster_measures (s : State) (a : Nat) (f : ClusterUnit → ClusterUnit) : (s.modCluster a f).measures = s.measures := rfl
@[simp] theorem State.modCluster_booted (s : State) (a : Nat) (f : ClusterUnit → ClusterUnit) : (s.modCluster a f).booted = s.booted := rfl
@[simp] theorem State.modCluster_reportVa (s : State) (a : Nat) (f : ClusterUnit → ClusterUnit) : (s.modCluster a f).reportVa = s.reportVa := rfl
@[simp] theorem State.modCluster_drives (s : State) (a : Nat) (f : ClusterUnit → ClusterUnit) : (s.modCluster a f).drives = s.drives := rfl
@[simp] theorem State.modCluster_ports (s : State) (a : Nat) (f : ClusterUnit → ClusterUnit) : (s.modCluster a f).ports = s.ports := rfl
@[simp] theorem State.modCluster_peers (s : State) (a : Nat) (f : ClusterUnit → ClusterUnit) : (s.modCluster a f).peers = s.peers := rfl
@[simp] theorem State.modCluster_racks (s : State) (a : Nat) (f : ClusterUnit → ClusterUnit) : (s.modCluster a f).racks = s.racks := rfl
@[simp] theorem State.modCluster_systemId (s : State) (a : Nat) (f : ClusterUnit → ClusterUnit) : (s.modCluster a f).systemId = s.systemId := rfl
@[simp] theorem State.modCluster_sent (s : State) (a : Nat) (f : ClusterUnit → ClusterUnit) : (s.modCluster a f).sent = s.sent := rfl
@[simp] theorem State.modCluster_answers (s : State) (a : Nat) (f : ClusterUnit → ClusterUnit) : (s.modCluster a f).answers = s.answers := rfl
@[simp] theorem State.modCluster_collQueue (s : State) (a : Nat) (f : ClusterUnit → ClusterUnit) : (s.modCluster a f).collQueue = s.collQueue := rfl
@[simp] theorem State.modCluster_collSent (s : State) (a : Nat) (f : ClusterUnit → ClusterUnit) : (s.modCluster a f).collSent = s.collSent := rfl
@[simp] theorem State.modCluster_closing (s : State) (a : Nat) (f : ClusterUnit → ClusterUnit) : (s.modCluster a f).closing = s.closing := rfl
@[simp] theorem State.modCluster_seq (s : State) (a : Nat) (f : ClusterUnit → ClusterUnit) : (s.modCluster a f).seq = s.seq := rfl
@[simp] theorem State.modCluster_freshNo (s : State) (a : Nat) (f : ClusterUnit → ClusterUnit) : (s.modCluster a f).freshNo = s.freshNo := rfl
@[simp] theorem State.modCluster_cur (s : State) (a : Nat) (f : ClusterUnit → ClusterUnit) : (s.modCluster a f).cur = s.cur := rfl
@[simp] theorem State.modCluster_issues (s : State) (a : Nat) (f : ClusterUnit → ClusterUnit) : (s.modCluster a f).issues = s.issues := rfl
@[simp] theorem State.modCluster_agenda (s : State) (a : Nat) (f : ClusterUnit → ClusterUnit) : (s.modCluster a f).agenda = s.agenda := rfl

/-! ### State.modDie -/

@[simp] theorem State.modDie_clusters (s : State) (a : Nat) (f : DieUnit → DieUnit) : (s.modDie a f).clusters = s.clusters := rfl
@[simp] theorem State.modDie_cores (s : State) (a : Nat) (f : DieUnit → DieUnit) : (s.modDie a f).cores = s.cores := rfl
@[simp] theorem State.modDie_devid (s : State) (a : Nat) (f : DieUnit → DieUnit) : (s.modDie a f).devid = s.devid := rfl
@[simp] theorem State.modDie_agents (s : State) (a : Nat) (f : DieUnit → DieUnit) : (s.modDie a f).agents = s.agents := rfl
@[simp] theorem State.modDie_teams (s : State) (a : Nat) (f : DieUnit → DieUnit) : (s.modDie a f).teams = s.teams := rfl
@[simp] theorem State.modDie_tasks (s : State) (a : Nat) (f : DieUnit → DieUnit) : (s.modDie a f).tasks = s.tasks := rfl
@[simp] theorem State.modDie_instances (s : State) (a : Nat) (f : DieUnit → DieUnit) : (s.modDie a f).instances = s.instances := rfl
@[simp] theorem State.modDie_mem (s : State) (a : Nat) (f : DieUnit → DieUnit) : (s.modDie a f).mem = s.mem := rfl
@[simp] theorem State.modDie_corePend (s : State) (a : Nat) (f : DieUnit → DieUnit) : (s.modDie a f).corePend = s.corePend := rfl
@[simp] theorem State.modDie_clusterPend (s : State) (a : Nat) (f : DieUnit → DieUnit) : (s.modDie a f).clusterPend = s.clusterPend := rfl
@[simp] theorem State.modDie_coreMem (s : State) (a : Nat) (f : DieUnit → DieUnit) : (s.modDie a f).coreMem = s.coreMem := rfl
@[simp] theorem State.modDie_clusterMem (s : State) (a : Nat) (f : DieUnit → DieUnit) : (s.modDie a f).clusterMem = s.clusterMem := rfl
@[simp] theorem State.modDie_spaces (s : State) (a : Nat) (f : DieUnit → DieUnit) : (s.modDie a f).spaces = s.spaces := rfl
@[simp] theorem State.modDie_tlbs (s : State) (a : Nat) (f : DieUnit → DieUnit) : (s.modDie a f).tlbs = s.tlbs := rfl
@[simp] theorem State.modDie_walks (s : State) (a : Nat) (f : DieUnit → DieUnit) : (s.modDie a f).walks = s.walks := rfl
@[simp] theorem State.modDie_invs (s : State) (a : Nat) (f : DieUnit → DieUnit) : (s.modDie a f).invs = s.invs := rfl
@[simp] theorem State.modDie_unseen (s : State) (a : Nat) (f : DieUnit → DieUnit) : (s.modDie a f).unseen = s.unseen := rfl
@[simp] theorem State.modDie_asked (s : State) (a : Nat) (f : DieUnit → DieUnit) : (s.modDie a f).asked = s.asked := rfl
@[simp] theorem State.modDie_fetched (s : State) (a : Nat) (f : DieUnit → DieUnit) : (s.modDie a f).fetched = s.fetched := rfl
@[simp] theorem State.modDie_counters (s : State) (a : Nat) (f : DieUnit → DieUnit) : (s.modDie a f).counters = s.counters := rfl
@[simp] theorem State.modDie_pagesUsed (s : State) (a : Nat) (f : DieUnit → DieUnit) : (s.modDie a f).pagesUsed = s.pagesUsed := rfl
@[simp] theorem State.modDie_pageSlots (s : State) (a : Nat) (f : DieUnit → DieUnit) : (s.modDie a f).pageSlots = s.pageSlots := rfl
@[simp] theorem State.modDie_windowBase (s : State) (a : Nat) (f : DieUnit → DieUnit) : (s.modDie a f).windowBase = s.windowBase := rfl
@[simp] theorem State.modDie_windowSize (s : State) (a : Nat) (f : DieUnit → DieUnit) : (s.modDie a f).windowSize = s.windowSize := rfl
@[simp] theorem State.modDie_mailboxes (s : State) (a : Nat) (f : DieUnit → DieUnit) : (s.modDie a f).mailboxes = s.mailboxes := rfl
@[simp] theorem State.modDie_notifyBase (s : State) (a : Nat) (f : DieUnit → DieUnit) : (s.modDie a f).notifyBase = s.notifyBase := rfl
@[simp] theorem State.modDie_notifyCount (s : State) (a : Nat) (f : DieUnit → DieUnit) : (s.modDie a f).notifyCount = s.notifyCount := rfl
@[simp] theorem State.modDie_kernelLog (s : State) (a : Nat) (f : DieUnit → DieUnit) : (s.modDie a f).kernelLog = s.kernelLog := rfl
@[simp] theorem State.modDie_checks (s : State) (a : Nat) (f : DieUnit → DieUnit) : (s.modDie a f).checks = s.checks := rfl
@[simp] theorem State.modDie_measures (s : State) (a : Nat) (f : DieUnit → DieUnit) : (s.modDie a f).measures = s.measures := rfl
@[simp] theorem State.modDie_booted (s : State) (a : Nat) (f : DieUnit → DieUnit) : (s.modDie a f).booted = s.booted := rfl
@[simp] theorem State.modDie_reportVa (s : State) (a : Nat) (f : DieUnit → DieUnit) : (s.modDie a f).reportVa = s.reportVa := rfl
@[simp] theorem State.modDie_drives (s : State) (a : Nat) (f : DieUnit → DieUnit) : (s.modDie a f).drives = s.drives := rfl
@[simp] theorem State.modDie_ports (s : State) (a : Nat) (f : DieUnit → DieUnit) : (s.modDie a f).ports = s.ports := rfl
@[simp] theorem State.modDie_peers (s : State) (a : Nat) (f : DieUnit → DieUnit) : (s.modDie a f).peers = s.peers := rfl
@[simp] theorem State.modDie_racks (s : State) (a : Nat) (f : DieUnit → DieUnit) : (s.modDie a f).racks = s.racks := rfl
@[simp] theorem State.modDie_systemId (s : State) (a : Nat) (f : DieUnit → DieUnit) : (s.modDie a f).systemId = s.systemId := rfl
@[simp] theorem State.modDie_sent (s : State) (a : Nat) (f : DieUnit → DieUnit) : (s.modDie a f).sent = s.sent := rfl
@[simp] theorem State.modDie_answers (s : State) (a : Nat) (f : DieUnit → DieUnit) : (s.modDie a f).answers = s.answers := rfl
@[simp] theorem State.modDie_collQueue (s : State) (a : Nat) (f : DieUnit → DieUnit) : (s.modDie a f).collQueue = s.collQueue := rfl
@[simp] theorem State.modDie_collSent (s : State) (a : Nat) (f : DieUnit → DieUnit) : (s.modDie a f).collSent = s.collSent := rfl
@[simp] theorem State.modDie_closing (s : State) (a : Nat) (f : DieUnit → DieUnit) : (s.modDie a f).closing = s.closing := rfl
@[simp] theorem State.modDie_seq (s : State) (a : Nat) (f : DieUnit → DieUnit) : (s.modDie a f).seq = s.seq := rfl
@[simp] theorem State.modDie_freshNo (s : State) (a : Nat) (f : DieUnit → DieUnit) : (s.modDie a f).freshNo = s.freshNo := rfl
@[simp] theorem State.modDie_cur (s : State) (a : Nat) (f : DieUnit → DieUnit) : (s.modDie a f).cur = s.cur := rfl
@[simp] theorem State.modDie_issues (s : State) (a : Nat) (f : DieUnit → DieUnit) : (s.modDie a f).issues = s.issues := rfl
@[simp] theorem State.modDie_agenda (s : State) (a : Nat) (f : DieUnit → DieUnit) : (s.modDie a f).agenda = s.agenda := rfl

/-! ### State.modMem -/

@[simp] theorem State.modMem_dies (s : State) (f : Memory → Memory) : (s.modMem f).dies = s.dies := rfl
@[simp] theorem State.modMem_clusters (s : State) (f : Memory → Memory) : (s.modMem f).clusters = s.clusters := rfl
@[simp] theorem State.modMem_cores (s : State) (f : Memory → Memory) : (s.modMem f).cores = s.cores := rfl
@[simp] theorem State.modMem_devid (s : State) (f : Memory → Memory) : (s.modMem f).devid = s.devid := rfl
@[simp] theorem State.modMem_agents (s : State) (f : Memory → Memory) : (s.modMem f).agents = s.agents := rfl
@[simp] theorem State.modMem_teams (s : State) (f : Memory → Memory) : (s.modMem f).teams = s.teams := rfl
@[simp] theorem State.modMem_tasks (s : State) (f : Memory → Memory) : (s.modMem f).tasks = s.tasks := rfl
@[simp] theorem State.modMem_instances (s : State) (f : Memory → Memory) : (s.modMem f).instances = s.instances := rfl
@[simp] theorem State.modMem_corePend (s : State) (f : Memory → Memory) : (s.modMem f).corePend = s.corePend := rfl
@[simp] theorem State.modMem_clusterPend (s : State) (f : Memory → Memory) : (s.modMem f).clusterPend = s.clusterPend := rfl
@[simp] theorem State.modMem_coreMem (s : State) (f : Memory → Memory) : (s.modMem f).coreMem = s.coreMem := rfl
@[simp] theorem State.modMem_clusterMem (s : State) (f : Memory → Memory) : (s.modMem f).clusterMem = s.clusterMem := rfl
@[simp] theorem State.modMem_spaces (s : State) (f : Memory → Memory) : (s.modMem f).spaces = s.spaces := rfl
@[simp] theorem State.modMem_tlbs (s : State) (f : Memory → Memory) : (s.modMem f).tlbs = s.tlbs := rfl
@[simp] theorem State.modMem_walks (s : State) (f : Memory → Memory) : (s.modMem f).walks = s.walks := rfl
@[simp] theorem State.modMem_invs (s : State) (f : Memory → Memory) : (s.modMem f).invs = s.invs := rfl
@[simp] theorem State.modMem_unseen (s : State) (f : Memory → Memory) : (s.modMem f).unseen = s.unseen := rfl
@[simp] theorem State.modMem_asked (s : State) (f : Memory → Memory) : (s.modMem f).asked = s.asked := rfl
@[simp] theorem State.modMem_fetched (s : State) (f : Memory → Memory) : (s.modMem f).fetched = s.fetched := rfl
@[simp] theorem State.modMem_counters (s : State) (f : Memory → Memory) : (s.modMem f).counters = s.counters := rfl
@[simp] theorem State.modMem_pagesUsed (s : State) (f : Memory → Memory) : (s.modMem f).pagesUsed = s.pagesUsed := rfl
@[simp] theorem State.modMem_pageSlots (s : State) (f : Memory → Memory) : (s.modMem f).pageSlots = s.pageSlots := rfl
@[simp] theorem State.modMem_windowBase (s : State) (f : Memory → Memory) : (s.modMem f).windowBase = s.windowBase := rfl
@[simp] theorem State.modMem_windowSize (s : State) (f : Memory → Memory) : (s.modMem f).windowSize = s.windowSize := rfl
@[simp] theorem State.modMem_mailboxes (s : State) (f : Memory → Memory) : (s.modMem f).mailboxes = s.mailboxes := rfl
@[simp] theorem State.modMem_notifyBase (s : State) (f : Memory → Memory) : (s.modMem f).notifyBase = s.notifyBase := rfl
@[simp] theorem State.modMem_notifyCount (s : State) (f : Memory → Memory) : (s.modMem f).notifyCount = s.notifyCount := rfl
@[simp] theorem State.modMem_kernelLog (s : State) (f : Memory → Memory) : (s.modMem f).kernelLog = s.kernelLog := rfl
@[simp] theorem State.modMem_checks (s : State) (f : Memory → Memory) : (s.modMem f).checks = s.checks := rfl
@[simp] theorem State.modMem_measures (s : State) (f : Memory → Memory) : (s.modMem f).measures = s.measures := rfl
@[simp] theorem State.modMem_booted (s : State) (f : Memory → Memory) : (s.modMem f).booted = s.booted := rfl
@[simp] theorem State.modMem_reportVa (s : State) (f : Memory → Memory) : (s.modMem f).reportVa = s.reportVa := rfl
@[simp] theorem State.modMem_drives (s : State) (f : Memory → Memory) : (s.modMem f).drives = s.drives := rfl
@[simp] theorem State.modMem_ports (s : State) (f : Memory → Memory) : (s.modMem f).ports = s.ports := rfl
@[simp] theorem State.modMem_peers (s : State) (f : Memory → Memory) : (s.modMem f).peers = s.peers := rfl
@[simp] theorem State.modMem_racks (s : State) (f : Memory → Memory) : (s.modMem f).racks = s.racks := rfl
@[simp] theorem State.modMem_systemId (s : State) (f : Memory → Memory) : (s.modMem f).systemId = s.systemId := rfl
@[simp] theorem State.modMem_sent (s : State) (f : Memory → Memory) : (s.modMem f).sent = s.sent := rfl
@[simp] theorem State.modMem_answers (s : State) (f : Memory → Memory) : (s.modMem f).answers = s.answers := rfl
@[simp] theorem State.modMem_collQueue (s : State) (f : Memory → Memory) : (s.modMem f).collQueue = s.collQueue := rfl
@[simp] theorem State.modMem_collSent (s : State) (f : Memory → Memory) : (s.modMem f).collSent = s.collSent := rfl
@[simp] theorem State.modMem_closing (s : State) (f : Memory → Memory) : (s.modMem f).closing = s.closing := rfl
@[simp] theorem State.modMem_seq (s : State) (f : Memory → Memory) : (s.modMem f).seq = s.seq := rfl
@[simp] theorem State.modMem_freshNo (s : State) (f : Memory → Memory) : (s.modMem f).freshNo = s.freshNo := rfl
@[simp] theorem State.modMem_cur (s : State) (f : Memory → Memory) : (s.modMem f).cur = s.cur := rfl
@[simp] theorem State.modMem_issues (s : State) (f : Memory → Memory) : (s.modMem f).issues = s.issues := rfl
@[simp] theorem State.modMem_agenda (s : State) (f : Memory → Memory) : (s.modMem f).agenda = s.agenda := rfl

/-! ### State.report -/

@[simp] theorem State.report_dies (s : State) (c : Check) : (s.report c).dies = s.dies := rfl
@[simp] theorem State.report_clusters (s : State) (c : Check) : (s.report c).clusters = s.clusters := rfl
@[simp] theorem State.report_cores (s : State) (c : Check) : (s.report c).cores = s.cores := rfl
@[simp] theorem State.report_devid (s : State) (c : Check) : (s.report c).devid = s.devid := rfl
@[simp] theorem State.report_agents (s : State) (c : Check) : (s.report c).agents = s.agents := rfl
@[simp] theorem State.report_teams (s : State) (c : Check) : (s.report c).teams = s.teams := rfl
@[simp] theorem State.report_tasks (s : State) (c : Check) : (s.report c).tasks = s.tasks := rfl
@[simp] theorem State.report_instances (s : State) (c : Check) : (s.report c).instances = s.instances := rfl
@[simp] theorem State.report_mem (s : State) (c : Check) : (s.report c).mem = s.mem := rfl
@[simp] theorem State.report_corePend (s : State) (c : Check) : (s.report c).corePend = s.corePend := rfl
@[simp] theorem State.report_clusterPend (s : State) (c : Check) : (s.report c).clusterPend = s.clusterPend := rfl
@[simp] theorem State.report_coreMem (s : State) (c : Check) : (s.report c).coreMem = s.coreMem := rfl
@[simp] theorem State.report_clusterMem (s : State) (c : Check) : (s.report c).clusterMem = s.clusterMem := rfl
@[simp] theorem State.report_spaces (s : State) (c : Check) : (s.report c).spaces = s.spaces := rfl
@[simp] theorem State.report_tlbs (s : State) (c : Check) : (s.report c).tlbs = s.tlbs := rfl
@[simp] theorem State.report_walks (s : State) (c : Check) : (s.report c).walks = s.walks := rfl
@[simp] theorem State.report_invs (s : State) (c : Check) : (s.report c).invs = s.invs := rfl
@[simp] theorem State.report_unseen (s : State) (c : Check) : (s.report c).unseen = s.unseen := rfl
@[simp] theorem State.report_asked (s : State) (c : Check) : (s.report c).asked = s.asked := rfl
@[simp] theorem State.report_fetched (s : State) (c : Check) : (s.report c).fetched = s.fetched := rfl
@[simp] theorem State.report_counters (s : State) (c : Check) : (s.report c).counters = s.counters := rfl
@[simp] theorem State.report_pagesUsed (s : State) (c : Check) : (s.report c).pagesUsed = s.pagesUsed := rfl
@[simp] theorem State.report_pageSlots (s : State) (c : Check) : (s.report c).pageSlots = s.pageSlots := rfl
@[simp] theorem State.report_windowBase (s : State) (c : Check) : (s.report c).windowBase = s.windowBase := rfl
@[simp] theorem State.report_windowSize (s : State) (c : Check) : (s.report c).windowSize = s.windowSize := rfl
@[simp] theorem State.report_mailboxes (s : State) (c : Check) : (s.report c).mailboxes = s.mailboxes := rfl
@[simp] theorem State.report_notifyBase (s : State) (c : Check) : (s.report c).notifyBase = s.notifyBase := rfl
@[simp] theorem State.report_notifyCount (s : State) (c : Check) : (s.report c).notifyCount = s.notifyCount := rfl
@[simp] theorem State.report_kernelLog (s : State) (c : Check) : (s.report c).kernelLog = s.kernelLog := rfl
@[simp] theorem State.report_measures (s : State) (c : Check) : (s.report c).measures = s.measures := rfl
@[simp] theorem State.report_booted (s : State) (c : Check) : (s.report c).booted = s.booted := rfl
@[simp] theorem State.report_reportVa (s : State) (c : Check) : (s.report c).reportVa = s.reportVa := rfl
@[simp] theorem State.report_drives (s : State) (c : Check) : (s.report c).drives = s.drives := rfl
@[simp] theorem State.report_ports (s : State) (c : Check) : (s.report c).ports = s.ports := rfl
@[simp] theorem State.report_peers (s : State) (c : Check) : (s.report c).peers = s.peers := rfl
@[simp] theorem State.report_racks (s : State) (c : Check) : (s.report c).racks = s.racks := rfl
@[simp] theorem State.report_systemId (s : State) (c : Check) : (s.report c).systemId = s.systemId := rfl
@[simp] theorem State.report_sent (s : State) (c : Check) : (s.report c).sent = s.sent := rfl
@[simp] theorem State.report_answers (s : State) (c : Check) : (s.report c).answers = s.answers := rfl
@[simp] theorem State.report_collQueue (s : State) (c : Check) : (s.report c).collQueue = s.collQueue := rfl
@[simp] theorem State.report_collSent (s : State) (c : Check) : (s.report c).collSent = s.collSent := rfl
@[simp] theorem State.report_closing (s : State) (c : Check) : (s.report c).closing = s.closing := rfl
@[simp] theorem State.report_seq (s : State) (c : Check) : (s.report c).seq = s.seq := rfl
@[simp] theorem State.report_freshNo (s : State) (c : Check) : (s.report c).freshNo = s.freshNo := rfl
@[simp] theorem State.report_cur (s : State) (c : Check) : (s.report c).cur = s.cur := rfl
@[simp] theorem State.report_issues (s : State) (c : Check) : (s.report c).issues = s.issues := rfl
@[simp] theorem State.report_agenda (s : State) (c : Check) : (s.report c).agenda = s.agenda := rfl

/-! ### State.modEntry -/

@[simp] theorem State.modEntry_dies (s : State) (a e : Nat) (f : Entry → Entry) : (s.modEntry a e f).dies = s.dies := rfl
@[simp] theorem State.modEntry_clusters (s : State) (a e : Nat) (f : Entry → Entry) : (s.modEntry a e f).clusters = s.clusters := rfl
@[simp] theorem State.modEntry_cores (s : State) (a e : Nat) (f : Entry → Entry) : (s.modEntry a e f).cores = s.cores := rfl
@[simp] theorem State.modEntry_devid (s : State) (a e : Nat) (f : Entry → Entry) : (s.modEntry a e f).devid = s.devid := rfl
@[simp] theorem State.modEntry_teams (s : State) (a e : Nat) (f : Entry → Entry) : (s.modEntry a e f).teams = s.teams := rfl
@[simp] theorem State.modEntry_tasks (s : State) (a e : Nat) (f : Entry → Entry) : (s.modEntry a e f).tasks = s.tasks := rfl
@[simp] theorem State.modEntry_instances (s : State) (a e : Nat) (f : Entry → Entry) : (s.modEntry a e f).instances = s.instances := rfl
@[simp] theorem State.modEntry_mem (s : State) (a e : Nat) (f : Entry → Entry) : (s.modEntry a e f).mem = s.mem := rfl
@[simp] theorem State.modEntry_corePend (s : State) (a e : Nat) (f : Entry → Entry) : (s.modEntry a e f).corePend = s.corePend := rfl
@[simp] theorem State.modEntry_clusterPend (s : State) (a e : Nat) (f : Entry → Entry) : (s.modEntry a e f).clusterPend = s.clusterPend := rfl
@[simp] theorem State.modEntry_coreMem (s : State) (a e : Nat) (f : Entry → Entry) : (s.modEntry a e f).coreMem = s.coreMem := rfl
@[simp] theorem State.modEntry_clusterMem (s : State) (a e : Nat) (f : Entry → Entry) : (s.modEntry a e f).clusterMem = s.clusterMem := rfl
@[simp] theorem State.modEntry_spaces (s : State) (a e : Nat) (f : Entry → Entry) : (s.modEntry a e f).spaces = s.spaces := rfl
@[simp] theorem State.modEntry_tlbs (s : State) (a e : Nat) (f : Entry → Entry) : (s.modEntry a e f).tlbs = s.tlbs := rfl
@[simp] theorem State.modEntry_walks (s : State) (a e : Nat) (f : Entry → Entry) : (s.modEntry a e f).walks = s.walks := rfl
@[simp] theorem State.modEntry_invs (s : State) (a e : Nat) (f : Entry → Entry) : (s.modEntry a e f).invs = s.invs := rfl
@[simp] theorem State.modEntry_unseen (s : State) (a e : Nat) (f : Entry → Entry) : (s.modEntry a e f).unseen = s.unseen := rfl
@[simp] theorem State.modEntry_asked (s : State) (a e : Nat) (f : Entry → Entry) : (s.modEntry a e f).asked = s.asked := rfl
@[simp] theorem State.modEntry_fetched (s : State) (a e : Nat) (f : Entry → Entry) : (s.modEntry a e f).fetched = s.fetched := rfl
@[simp] theorem State.modEntry_counters (s : State) (a e : Nat) (f : Entry → Entry) : (s.modEntry a e f).counters = s.counters := rfl
@[simp] theorem State.modEntry_pagesUsed (s : State) (a e : Nat) (f : Entry → Entry) : (s.modEntry a e f).pagesUsed = s.pagesUsed := rfl
@[simp] theorem State.modEntry_pageSlots (s : State) (a e : Nat) (f : Entry → Entry) : (s.modEntry a e f).pageSlots = s.pageSlots := rfl
@[simp] theorem State.modEntry_windowBase (s : State) (a e : Nat) (f : Entry → Entry) : (s.modEntry a e f).windowBase = s.windowBase := rfl
@[simp] theorem State.modEntry_windowSize (s : State) (a e : Nat) (f : Entry → Entry) : (s.modEntry a e f).windowSize = s.windowSize := rfl
@[simp] theorem State.modEntry_mailboxes (s : State) (a e : Nat) (f : Entry → Entry) : (s.modEntry a e f).mailboxes = s.mailboxes := rfl
@[simp] theorem State.modEntry_notifyBase (s : State) (a e : Nat) (f : Entry → Entry) : (s.modEntry a e f).notifyBase = s.notifyBase := rfl
@[simp] theorem State.modEntry_notifyCount (s : State) (a e : Nat) (f : Entry → Entry) : (s.modEntry a e f).notifyCount = s.notifyCount := rfl
@[simp] theorem State.modEntry_kernelLog (s : State) (a e : Nat) (f : Entry → Entry) : (s.modEntry a e f).kernelLog = s.kernelLog := rfl
@[simp] theorem State.modEntry_checks (s : State) (a e : Nat) (f : Entry → Entry) : (s.modEntry a e f).checks = s.checks := rfl
@[simp] theorem State.modEntry_measures (s : State) (a e : Nat) (f : Entry → Entry) : (s.modEntry a e f).measures = s.measures := rfl
@[simp] theorem State.modEntry_booted (s : State) (a e : Nat) (f : Entry → Entry) : (s.modEntry a e f).booted = s.booted := rfl
@[simp] theorem State.modEntry_reportVa (s : State) (a e : Nat) (f : Entry → Entry) : (s.modEntry a e f).reportVa = s.reportVa := rfl
@[simp] theorem State.modEntry_drives (s : State) (a e : Nat) (f : Entry → Entry) : (s.modEntry a e f).drives = s.drives := rfl
@[simp] theorem State.modEntry_ports (s : State) (a e : Nat) (f : Entry → Entry) : (s.modEntry a e f).ports = s.ports := rfl
@[simp] theorem State.modEntry_peers (s : State) (a e : Nat) (f : Entry → Entry) : (s.modEntry a e f).peers = s.peers := rfl
@[simp] theorem State.modEntry_racks (s : State) (a e : Nat) (f : Entry → Entry) : (s.modEntry a e f).racks = s.racks := rfl
@[simp] theorem State.modEntry_systemId (s : State) (a e : Nat) (f : Entry → Entry) : (s.modEntry a e f).systemId = s.systemId := rfl
@[simp] theorem State.modEntry_sent (s : State) (a e : Nat) (f : Entry → Entry) : (s.modEntry a e f).sent = s.sent := rfl
@[simp] theorem State.modEntry_answers (s : State) (a e : Nat) (f : Entry → Entry) : (s.modEntry a e f).answers = s.answers := rfl
@[simp] theorem State.modEntry_collQueue (s : State) (a e : Nat) (f : Entry → Entry) : (s.modEntry a e f).collQueue = s.collQueue := rfl
@[simp] theorem State.modEntry_collSent (s : State) (a e : Nat) (f : Entry → Entry) : (s.modEntry a e f).collSent = s.collSent := rfl
@[simp] theorem State.modEntry_closing (s : State) (a e : Nat) (f : Entry → Entry) : (s.modEntry a e f).closing = s.closing := rfl
@[simp] theorem State.modEntry_seq (s : State) (a e : Nat) (f : Entry → Entry) : (s.modEntry a e f).seq = s.seq := rfl
@[simp] theorem State.modEntry_freshNo (s : State) (a e : Nat) (f : Entry → Entry) : (s.modEntry a e f).freshNo = s.freshNo := rfl
@[simp] theorem State.modEntry_cur (s : State) (a e : Nat) (f : Entry → Entry) : (s.modEntry a e f).cur = s.cur := rfl
@[simp] theorem State.modEntry_issues (s : State) (a e : Nat) (f : Entry → Entry) : (s.modEntry a e f).issues = s.issues := rfl
@[simp] theorem State.modEntry_agenda (s : State) (a e : Nat) (f : Entry → Entry) : (s.modEntry a e f).agenda = s.agenda := rfl

/-! ### State.setFrac -/

@[simp] theorem State.setFrac_dies (s : State) (a : Nat) : (s.setFrac a).dies = s.dies := rfl
@[simp] theorem State.setFrac_clusters (s : State) (a : Nat) : (s.setFrac a).clusters = s.clusters := rfl
@[simp] theorem State.setFrac_cores (s : State) (a : Nat) : (s.setFrac a).cores = s.cores := rfl
@[simp] theorem State.setFrac_devid (s : State) (a : Nat) : (s.setFrac a).devid = s.devid := rfl
@[simp] theorem State.setFrac_teams (s : State) (a : Nat) : (s.setFrac a).teams = s.teams := rfl
@[simp] theorem State.setFrac_tasks (s : State) (a : Nat) : (s.setFrac a).tasks = s.tasks := rfl
@[simp] theorem State.setFrac_instances (s : State) (a : Nat) : (s.setFrac a).instances = s.instances := rfl
@[simp] theorem State.setFrac_mem (s : State) (a : Nat) : (s.setFrac a).mem = s.mem := rfl
@[simp] theorem State.setFrac_corePend (s : State) (a : Nat) : (s.setFrac a).corePend = s.corePend := rfl
@[simp] theorem State.setFrac_clusterPend (s : State) (a : Nat) : (s.setFrac a).clusterPend = s.clusterPend := rfl
@[simp] theorem State.setFrac_coreMem (s : State) (a : Nat) : (s.setFrac a).coreMem = s.coreMem := rfl
@[simp] theorem State.setFrac_clusterMem (s : State) (a : Nat) : (s.setFrac a).clusterMem = s.clusterMem := rfl
@[simp] theorem State.setFrac_spaces (s : State) (a : Nat) : (s.setFrac a).spaces = s.spaces := rfl
@[simp] theorem State.setFrac_tlbs (s : State) (a : Nat) : (s.setFrac a).tlbs = s.tlbs := rfl
@[simp] theorem State.setFrac_walks (s : State) (a : Nat) : (s.setFrac a).walks = s.walks := rfl
@[simp] theorem State.setFrac_invs (s : State) (a : Nat) : (s.setFrac a).invs = s.invs := rfl
@[simp] theorem State.setFrac_unseen (s : State) (a : Nat) : (s.setFrac a).unseen = s.unseen := rfl
@[simp] theorem State.setFrac_asked (s : State) (a : Nat) : (s.setFrac a).asked = s.asked := rfl
@[simp] theorem State.setFrac_fetched (s : State) (a : Nat) : (s.setFrac a).fetched = s.fetched := rfl
@[simp] theorem State.setFrac_counters (s : State) (a : Nat) : (s.setFrac a).counters = s.counters := rfl
@[simp] theorem State.setFrac_pagesUsed (s : State) (a : Nat) : (s.setFrac a).pagesUsed = s.pagesUsed := rfl
@[simp] theorem State.setFrac_pageSlots (s : State) (a : Nat) : (s.setFrac a).pageSlots = s.pageSlots := rfl
@[simp] theorem State.setFrac_windowBase (s : State) (a : Nat) : (s.setFrac a).windowBase = s.windowBase := rfl
@[simp] theorem State.setFrac_windowSize (s : State) (a : Nat) : (s.setFrac a).windowSize = s.windowSize := rfl
@[simp] theorem State.setFrac_mailboxes (s : State) (a : Nat) : (s.setFrac a).mailboxes = s.mailboxes := rfl
@[simp] theorem State.setFrac_notifyBase (s : State) (a : Nat) : (s.setFrac a).notifyBase = s.notifyBase := rfl
@[simp] theorem State.setFrac_notifyCount (s : State) (a : Nat) : (s.setFrac a).notifyCount = s.notifyCount := rfl
@[simp] theorem State.setFrac_kernelLog (s : State) (a : Nat) : (s.setFrac a).kernelLog = s.kernelLog := rfl
@[simp] theorem State.setFrac_checks (s : State) (a : Nat) : (s.setFrac a).checks = s.checks := rfl
@[simp] theorem State.setFrac_measures (s : State) (a : Nat) : (s.setFrac a).measures = s.measures := rfl
@[simp] theorem State.setFrac_booted (s : State) (a : Nat) : (s.setFrac a).booted = s.booted := rfl
@[simp] theorem State.setFrac_reportVa (s : State) (a : Nat) : (s.setFrac a).reportVa = s.reportVa := rfl
@[simp] theorem State.setFrac_drives (s : State) (a : Nat) : (s.setFrac a).drives = s.drives := rfl
@[simp] theorem State.setFrac_ports (s : State) (a : Nat) : (s.setFrac a).ports = s.ports := rfl
@[simp] theorem State.setFrac_peers (s : State) (a : Nat) : (s.setFrac a).peers = s.peers := rfl
@[simp] theorem State.setFrac_racks (s : State) (a : Nat) : (s.setFrac a).racks = s.racks := rfl
@[simp] theorem State.setFrac_systemId (s : State) (a : Nat) : (s.setFrac a).systemId = s.systemId := rfl
@[simp] theorem State.setFrac_sent (s : State) (a : Nat) : (s.setFrac a).sent = s.sent := rfl
@[simp] theorem State.setFrac_answers (s : State) (a : Nat) : (s.setFrac a).answers = s.answers := rfl
@[simp] theorem State.setFrac_collQueue (s : State) (a : Nat) : (s.setFrac a).collQueue = s.collQueue := rfl
@[simp] theorem State.setFrac_collSent (s : State) (a : Nat) : (s.setFrac a).collSent = s.collSent := rfl
@[simp] theorem State.setFrac_closing (s : State) (a : Nat) : (s.setFrac a).closing = s.closing := rfl
@[simp] theorem State.setFrac_seq (s : State) (a : Nat) : (s.setFrac a).seq = s.seq := rfl
@[simp] theorem State.setFrac_freshNo (s : State) (a : Nat) : (s.setFrac a).freshNo = s.freshNo := rfl
@[simp] theorem State.setFrac_cur (s : State) (a : Nat) : (s.setFrac a).cur = s.cur := rfl
@[simp] theorem State.setFrac_issues (s : State) (a : Nat) : (s.setFrac a).issues = s.issues := rfl
@[simp] theorem State.setFrac_agenda (s : State) (a : Nat) : (s.setFrac a).agenda = s.agenda := rfl

/-! ### Agent.modEntry -/

@[simp] theorem Agent.modEntry_kind (g : Agent) (e : Nat) (f : Entry → Entry) : (g.modEntry e f).kind = g.kind := rfl
@[simp] theorem Agent.modEntry_team (g : Agent) (e : Nat) (f : Entry → Entry) : (g.modEntry e f).team = g.team := rfl
@[simp] theorem Agent.modEntry_number (g : Agent) (e : Nat) (f : Entry → Entry) : (g.modEntry e f).number = g.number := rfl
@[simp] theorem Agent.modEntry_phase (g : Agent) (e : Nat) (f : Entry → Entry) : (g.modEntry e f).phase = g.phase := rfl
@[simp] theorem Agent.modEntry_regs (g : Agent) (e : Nat) (f : Entry → Entry) : (g.modEntry e f).regs = g.regs := rfl
@[simp] theorem Agent.modEntry_preds (g : Agent) (e : Nat) (f : Entry → Entry) : (g.modEntry e f).preds = g.preds := rfl
@[simp] theorem Agent.modEntry_exited (g : Agent) (e : Nat) (f : Entry → Entry) : (g.modEntry e f).exited = g.exited := rfl
@[simp] theorem Agent.modEntry_wide (g : Agent) (e : Nat) (f : Entry → Entry) : (g.modEntry e f).wide = g.wide := rfl
@[simp] theorem Agent.modEntry_frames (g : Agent) (e : Nat) (f : Entry → Entry) : (g.modEntry e f).frames = g.frames := rfl
@[simp] theorem Agent.modEntry_sregs (g : Agent) (e : Nat) (f : Entry → Entry) : (g.modEntry e f).sregs = g.sregs := rfl
@[simp] theorem Agent.modEntry_layouts (g : Agent) (e : Nat) (f : Entry → Entry) : (g.modEntry e f).layouts = g.layouts := rfl
@[simp] theorem Agent.modEntry_view (g : Agent) (e : Nat) (f : Entry → Entry) : (g.modEntry e f).view = g.view := rfl
@[simp] theorem Agent.modEntry_late (g : Agent) (e : Nat) (f : Entry → Entry) : (g.modEntry e f).late = g.late := rfl
@[simp] theorem Agent.modEntry_copyIssued (g : Agent) (e : Nat) (f : Entry → Entry) : (g.modEntry e f).copyIssued = g.copyIssued := rfl
@[simp] theorem Agent.modEntry_copyOps (g : Agent) (e : Nat) (f : Entry → Entry) : (g.modEntry e f).copyOps = g.copyOps := rfl
@[simp] theorem Agent.modEntry_codebooks (g : Agent) (e : Nat) (f : Entry → Entry) : (g.modEntry e f).codebooks = g.codebooks := rfl
@[simp] theorem Agent.modEntry_streams (g : Agent) (e : Nat) (f : Entry → Entry) : (g.modEntry e f).streams = g.streams := rfl
@[simp] theorem Agent.modEntry_tile (g : Agent) (e : Nat) (f : Entry → Entry) : (g.modEntry e f).tile = g.tile := rfl
@[simp] theorem Agent.modEntry_sect (g : Agent) (e : Nat) (f : Entry → Entry) : (g.modEntry e f).sect = g.sect := rfl
@[simp] theorem Agent.modEntry_due (g : Agent) (e : Nat) (f : Entry → Entry) : (g.modEntry e f).due = g.due := rfl
@[simp] theorem Agent.modEntry_issuedAt (g : Agent) (e : Nat) (f : Entry → Entry) : (g.modEntry e f).issuedAt = g.issuedAt := rfl

/-! ### Agent.settle -/

@[simp] theorem Agent.settle_kind (g : Agent) : (g.settle).kind = g.kind := rfl
@[simp] theorem Agent.settle_team (g : Agent) : (g.settle).team = g.team := rfl
@[simp] theorem Agent.settle_number (g : Agent) : (g.settle).number = g.number := rfl
@[simp] theorem Agent.settle_phase (g : Agent) : (g.settle).phase = g.phase := rfl
@[simp] theorem Agent.settle_regs (g : Agent) : (g.settle).regs = g.regs := rfl
@[simp] theorem Agent.settle_preds (g : Agent) : (g.settle).preds = g.preds := rfl
@[simp] theorem Agent.settle_exited (g : Agent) : (g.settle).exited = g.exited := rfl
@[simp] theorem Agent.settle_wide (g : Agent) : (g.settle).wide = g.wide := rfl
@[simp] theorem Agent.settle_frames (g : Agent) : (g.settle).frames = g.frames := rfl
@[simp] theorem Agent.settle_sregs (g : Agent) : (g.settle).sregs = g.sregs := rfl
@[simp] theorem Agent.settle_layouts (g : Agent) : (g.settle).layouts = g.layouts := rfl
@[simp] theorem Agent.settle_view (g : Agent) : (g.settle).view = g.view := rfl
@[simp] theorem Agent.settle_late (g : Agent) : (g.settle).late = g.late := rfl
@[simp] theorem Agent.settle_copyIssued (g : Agent) : (g.settle).copyIssued = g.copyIssued := rfl
@[simp] theorem Agent.settle_copyOps (g : Agent) : (g.settle).copyOps = g.copyOps := rfl
@[simp] theorem Agent.settle_codebooks (g : Agent) : (g.settle).codebooks = g.codebooks := rfl
@[simp] theorem Agent.settle_streams (g : Agent) : (g.settle).streams = g.streams := rfl
@[simp] theorem Agent.settle_tile (g : Agent) : (g.settle).tile = g.tile := rfl
@[simp] theorem Agent.settle_sect (g : Agent) : (g.settle).sect = g.sect := rfl
@[simp] theorem Agent.settle_due (g : Agent) : (g.settle).due = g.due := rfl
@[simp] theorem Agent.settle_issuedAt (g : Agent) : (g.settle).issuedAt = g.issuedAt := rfl

/-! ### Agent.setReg -/

@[simp] theorem Agent.setReg_kind (g : Agent) (r : Nat) (v : VReg) : (g.setReg r v).kind = g.kind := rfl
@[simp] theorem Agent.setReg_team (g : Agent) (r : Nat) (v : VReg) : (g.setReg r v).team = g.team := rfl
@[simp] theorem Agent.setReg_number (g : Agent) (r : Nat) (v : VReg) : (g.setReg r v).number = g.number := rfl
@[simp] theorem Agent.setReg_phase (g : Agent) (r : Nat) (v : VReg) : (g.setReg r v).phase = g.phase := rfl
@[simp] theorem Agent.setReg_preds (g : Agent) (r : Nat) (v : VReg) : (g.setReg r v).preds = g.preds := rfl
@[simp] theorem Agent.setReg_entries (g : Agent) (r : Nat) (v : VReg) : (g.setReg r v).entries = g.entries := rfl
@[simp] theorem Agent.setReg_exited (g : Agent) (r : Nat) (v : VReg) : (g.setReg r v).exited = g.exited := rfl
@[simp] theorem Agent.setReg_wide (g : Agent) (r : Nat) (v : VReg) : (g.setReg r v).wide = g.wide := rfl
@[simp] theorem Agent.setReg_frames (g : Agent) (r : Nat) (v : VReg) : (g.setReg r v).frames = g.frames := rfl
@[simp] theorem Agent.setReg_sregs (g : Agent) (r : Nat) (v : VReg) : (g.setReg r v).sregs = g.sregs := rfl
@[simp] theorem Agent.setReg_layouts (g : Agent) (r : Nat) (v : VReg) : (g.setReg r v).layouts = g.layouts := rfl
@[simp] theorem Agent.setReg_view (g : Agent) (r : Nat) (v : VReg) : (g.setReg r v).view = g.view := rfl
@[simp] theorem Agent.setReg_late (g : Agent) (r : Nat) (v : VReg) : (g.setReg r v).late = g.late := rfl
@[simp] theorem Agent.setReg_copyIssued (g : Agent) (r : Nat) (v : VReg) : (g.setReg r v).copyIssued = g.copyIssued := rfl
@[simp] theorem Agent.setReg_copyOps (g : Agent) (r : Nat) (v : VReg) : (g.setReg r v).copyOps = g.copyOps := rfl
@[simp] theorem Agent.setReg_codebooks (g : Agent) (r : Nat) (v : VReg) : (g.setReg r v).codebooks = g.codebooks := rfl
@[simp] theorem Agent.setReg_streams (g : Agent) (r : Nat) (v : VReg) : (g.setReg r v).streams = g.streams := rfl
@[simp] theorem Agent.setReg_tile (g : Agent) (r : Nat) (v : VReg) : (g.setReg r v).tile = g.tile := rfl
@[simp] theorem Agent.setReg_sect (g : Agent) (r : Nat) (v : VReg) : (g.setReg r v).sect = g.sect := rfl
@[simp] theorem Agent.setReg_due (g : Agent) (r : Nat) (v : VReg) : (g.setReg r v).due = g.due := rfl
@[simp] theorem Agent.setReg_issuedAt (g : Agent) (r : Nat) (v : VReg) : (g.setReg r v).issuedAt = g.issuedAt := rfl

/-! ### Agent.setPred -/

@[simp] theorem Agent.setPred_kind (g : Agent) (p : Nat) (x : Mask) (f : Nat → Pred) : (g.setPred p x f).kind = g.kind := rfl
@[simp] theorem Agent.setPred_team (g : Agent) (p : Nat) (x : Mask) (f : Nat → Pred) : (g.setPred p x f).team = g.team := rfl
@[simp] theorem Agent.setPred_number (g : Agent) (p : Nat) (x : Mask) (f : Nat → Pred) : (g.setPred p x f).number = g.number := rfl
@[simp] theorem Agent.setPred_phase (g : Agent) (p : Nat) (x : Mask) (f : Nat → Pred) : (g.setPred p x f).phase = g.phase := rfl
@[simp] theorem Agent.setPred_regs (g : Agent) (p : Nat) (x : Mask) (f : Nat → Pred) : (g.setPred p x f).regs = g.regs := rfl
@[simp] theorem Agent.setPred_entries (g : Agent) (p : Nat) (x : Mask) (f : Nat → Pred) : (g.setPred p x f).entries = g.entries := rfl
@[simp] theorem Agent.setPred_exited (g : Agent) (p : Nat) (x : Mask) (f : Nat → Pred) : (g.setPred p x f).exited = g.exited := rfl
@[simp] theorem Agent.setPred_wide (g : Agent) (p : Nat) (x : Mask) (f : Nat → Pred) : (g.setPred p x f).wide = g.wide := rfl
@[simp] theorem Agent.setPred_frames (g : Agent) (p : Nat) (x : Mask) (f : Nat → Pred) : (g.setPred p x f).frames = g.frames := rfl
@[simp] theorem Agent.setPred_sregs (g : Agent) (p : Nat) (x : Mask) (f : Nat → Pred) : (g.setPred p x f).sregs = g.sregs := rfl
@[simp] theorem Agent.setPred_layouts (g : Agent) (p : Nat) (x : Mask) (f : Nat → Pred) : (g.setPred p x f).layouts = g.layouts := rfl
@[simp] theorem Agent.setPred_view (g : Agent) (p : Nat) (x : Mask) (f : Nat → Pred) : (g.setPred p x f).view = g.view := rfl
@[simp] theorem Agent.setPred_late (g : Agent) (p : Nat) (x : Mask) (f : Nat → Pred) : (g.setPred p x f).late = g.late := rfl
@[simp] theorem Agent.setPred_copyIssued (g : Agent) (p : Nat) (x : Mask) (f : Nat → Pred) : (g.setPred p x f).copyIssued = g.copyIssued := rfl
@[simp] theorem Agent.setPred_copyOps (g : Agent) (p : Nat) (x : Mask) (f : Nat → Pred) : (g.setPred p x f).copyOps = g.copyOps := rfl
@[simp] theorem Agent.setPred_codebooks (g : Agent) (p : Nat) (x : Mask) (f : Nat → Pred) : (g.setPred p x f).codebooks = g.codebooks := rfl
@[simp] theorem Agent.setPred_streams (g : Agent) (p : Nat) (x : Mask) (f : Nat → Pred) : (g.setPred p x f).streams = g.streams := rfl
@[simp] theorem Agent.setPred_tile (g : Agent) (p : Nat) (x : Mask) (f : Nat → Pred) : (g.setPred p x f).tile = g.tile := rfl
@[simp] theorem Agent.setPred_sect (g : Agent) (p : Nat) (x : Mask) (f : Nat → Pred) : (g.setPred p x f).sect = g.sect := rfl
@[simp] theorem Agent.setPred_due (g : Agent) (p : Nat) (x : Mask) (f : Nat → Pred) : (g.setPred p x f).due = g.due := rfl
@[simp] theorem Agent.setPred_issuedAt (g : Agent) (p : Nat) (x : Mask) (f : Nat → Pred) : (g.setPred p x f).issuedAt = g.issuedAt := rfl

/-! ### Entry.advance -/

@[simp] theorem Entry.advance_kind (en : Entry) (len : Nat) : (en.advance len).kind = en.kind := rfl
@[simp] theorem Entry.advance_mask (en : Entry) (len : Nat) : (en.advance len).mask = en.mask := rfl
@[simp] theorem Entry.advance_reconv (en : Entry) (len : Nat) : (en.advance len).reconv = en.reconv := rfl
@[simp] theorem Entry.advance_parent (en : Entry) (len : Nat) : (en.advance len).parent = en.parent := rfl
@[simp] theorem Entry.advance_stack (en : Entry) (len : Nat) : (en.advance len).stack = en.stack := rfl
@[simp] theorem Entry.advance_pending (en : Entry) (len : Nat) : (en.advance len).pending = en.pending := rfl
@[simp] theorem Entry.advance_records (en : Entry) (len : Nat) : (en.advance len).records = en.records := rfl
@[simp] theorem Entry.advance_arrived (en : Entry) (len : Nat) : (en.advance len).arrived = en.arrived := rfl
@[simp] theorem Entry.advance_owed (en : Entry) (len : Nat) : (en.advance len).owed = en.owed := rfl
@[simp] theorem Entry.advance_given (en : Entry) (len : Nat) : (en.advance len).given = en.given := rfl
@[simp] theorem Entry.advance_passed (en : Entry) (len : Nat) : (en.advance len).passed = en.passed := rfl
@[simp] theorem Entry.advance_turn (en : Entry) (len : Nat) : (en.advance len).turn = en.turn := rfl

/-! ### SRegs.raise -/

@[simp] theorem SRegs.raise_temp (r : SRegs) (f : BitVec 6) : (r.raise f).temp = r.temp := rfl
@[simp] theorem SRegs.raise_pstat (r : SRegs) (f : BitVec 6) : (r.raise f).pstat = r.pstat := rfl
@[simp] theorem SRegs.raise_memberExit (r : SRegs) (f : BitVec 6) : (r.raise f).memberExit = r.memberExit := rfl
@[simp] theorem SRegs.raise_trcc (r : SRegs) (f : BitVec 6) : (r.raise f).trcc = r.trcc := rfl
@[simp] theorem SRegs.raise_trct (r : SRegs) (f : BitVec 6) : (r.raise f).trct = r.trct := rfl
@[simp] theorem SRegs.raise_faultinfo (r : SRegs) (f : BitVec 6) : (r.raise f).faultinfo = r.faultinfo := rfl

/-! ### SRegs.setFrac -/

@[simp] theorem SRegs.setFrac_fpcsr (r : SRegs) : (r.setFrac).fpcsr = r.fpcsr := rfl
@[simp] theorem SRegs.setFrac_temp (r : SRegs) : (r.setFrac).temp = r.temp := rfl
@[simp] theorem SRegs.setFrac_memberExit (r : SRegs) : (r.setFrac).memberExit = r.memberExit := rfl
@[simp] theorem SRegs.setFrac_trcc (r : SRegs) : (r.setFrac).trcc = r.trcc := rfl
@[simp] theorem SRegs.setFrac_trct (r : SRegs) : (r.setFrac).trct = r.trct := rfl
@[simp] theorem SRegs.setFrac_faultinfo (r : SRegs) : (r.setFrac).faultinfo = r.faultinfo := rfl

/-! ### What the updates write -/

@[simp] theorem State.modMem_mem (s : State) (f : Memory → Memory) : (s.modMem f).mem = f s.mem := rfl
@[simp] theorem Entry.advance_pc (en : Entry) (len : Nat) : (en.advance len).pc = en.pc + BitVec.ofNat 64 (4 * len) := rfl
@[simp] theorem Entry.advance_hold (en : Entry) (len : Nat) : (en.advance len).hold = .ready := rfl
@[simp] theorem Entry.advance_redo (en : Entry) (len : Nat) : (en.advance len).redo = none := rfl
@[simp] theorem State.modAgent_length (s : State) (a : Nat) (f : Agent → Agent) :
    (s.modAgent a f).agents.length = s.agents.length := by simp [State.modAgent]
@[simp] theorem State.modEntry_length (s : State) (a e : Nat) (f : Entry → Entry) :
    (s.modEntry a e f).agents.length = s.agents.length := by simp [State.modEntry]

theorem State.modAgent_agent (s : State) (a b : Nat) (f : Agent → Agent) (ha : a < s.agents.length) :
    (s.modAgent a f).agent b = if a = b then f (s.agent b) else s.agent b := by
  unfold State.agent State.modAgent
  simp only [List.getD_eq_getElem?_getD, List.getElem?_modify]
  by_cases h : a = b
  · subst h; simp [ha]
  · simp [h]

@[simp] theorem State.modAgent_same (s : State) (a : Nat) (f : Agent → Agent) (ha : a < s.agents.length) :
    (s.modAgent a f).agent a = f (s.agent a) := by simp [State.modAgent_agent, ha]

@[simp] theorem State.modAgent_other (s : State) (a b : Nat) (f : Agent → Agent) (h : a ≠ b) :
    (s.modAgent a f).agent b = s.agent b := by
  unfold State.agent State.modAgent
  simp [List.getD_eq_getElem?_getD, h]

@[simp] theorem State.modAgent_team (s : State) (a t : Nat) (f : Agent → Agent) : (s.modAgent a f).team t = s.team t := rfl
@[simp] theorem State.modAgent_task (s : State) (a t : Nat) (f : Agent → Agent) : (s.modAgent a f).task t = s.task t := rfl
@[simp] theorem State.modTeam_agent (s : State) (a t : Nat) (f : Team → Team) : (s.modTeam t f).agent a = s.agent a := rfl
@[simp] theorem State.modTeam_task (s : State) (a t : Nat) (f : Team → Team) : (s.modTeam t f).task a = s.task a := rfl

theorem Agent.modEntry_entry (g : Agent) (e i : Nat) (f : Entry → Entry) (he : e < g.entries.length) :
    (g.modEntry e f).entry i = if e = i then f (g.entry i) else g.entry i := by
  unfold Agent.entry Agent.modEntry
  simp only [List.getD_eq_getElem?_getD, List.getElem?_modify]
  by_cases h : e = i
  · subst h; simp [he]
  · simp [h]

end Sys2Proof.Machine
end

