-- ==== Sys2Proof/Laws/Lanes.lean ====
section
/-! SUPPORT. Lane masks, registers and predicates: what a lane reads after a write. -/

namespace Sys2Proof.Machine

/-! ### Masks -/

theorem maskFold_getLsbD (f : Nat → Bool) (l : List Nat) (m : Mask) (i : Nat) (hi : i < 32) :
    (l.foldl (fun m i => if f i then m ||| (1#32 <<< i) else m) m).getLsbD i = (m.getLsbD i || (decide (i ∈ l) && f i)) := by
  induction l generalizing m with
  | nil => simp
  | cons j rest ih =>
    rw [List.foldl_cons, ih]
    by_cases hji : i = j
    · subst hji
      cases f i <;> simp [hi]
    · have h1 : (1#32 <<< j).getLsbD i = false := by
        simp only [BitVec.getLsbD_shiftLeft, BitVec.getLsbD_one]
        by_cases hlt : i < j
        · simp [hlt]
        · have : i - j ≠ 0 := by omega
          simp [this]
      cases hf : f j <;> simp [h1, hji]

/-- A mask built from a test holds the lanes that pass it. -/
@[simp] theorem inMask_maskOf (f : Nat → Bool) (i : Nat) : inMask (maskOf f) i = (decide (i < 32) && f i) := by
  unfold inMask maskOf
  by_cases hi : i < 32
  · rw [maskFold_getLsbD f laneList 0#32 i hi]
    simp [laneList, hi]
  · rw [BitVec.getLsbD_of_ge _ _ (by omega)]
    simp [hi]

theorem mem_lanesOf (m : Mask) (i : Nat) : i ∈ lanesOf m ↔ i < 32 ∧ inMask m i = true := by
  simp [lanesOf, laneList]

theorem inMask_lt {m : Mask} {i : Nat} (h : inMask m i = true) : i < 32 := by
  by_contra hi
  rw [inMask, BitVec.getLsbD_of_ge _ _ (by omega)] at h
  exact absurd h (by decide)

theorem inMask_and (a b : Mask) (i : Nat) : inMask (a &&& b) i = (inMask a i && inMask b i) := BitVec.getLsbD_and ..

theorem inMask_allLanes {i : Nat} (hi : i < 32) : inMask allLanes i = true := by
  rw [inMask, allLanes, BitVec.getLsbD_allOnes, decide_eq_true hi]

theorem mask_ext {a b : Mask} (h : ∀ i, i < 32 → inMask a i = inMask b i) : a = b :=
  BitVec.eq_of_getLsbD_eq h

/-! ### Vectors -/

theorem vec_getD_set {α : Type} {n : Nat} (v : Vector α n) (i j : Nat) (x d : α) :
    (v.setIfInBounds i x).getD j d = if i = j ∧ i < n then x else v.getD j d := by
  by_cases hj : j < n
  · by_cases hij : i = j
    · subst hij; simp [Vector.getD, hj]
    · simp [Vector.getD, hj, hij]
  · by_cases hij : i = j
    · subst hij; simp [Vector.getD, hj]
    · simp [Vector.getD, hj, hij]

theorem vec_getD_ofFn {α : Type} {n : Nat} (f : Fin n → α) (i : Nat) (d : α) (h : i < n) :
    (Vector.ofFn f).getD i d = f ⟨i, h⟩ := by
  simp [Vector.getD, h]

/-! ### Registers -/

theorem Agent.reg_setReg (g : Agent) (r q : Nat) (v : VReg) (h : r < 128) :
    (g.setReg r v).reg q = if r = q then v else g.reg q := by
  simp [Agent.reg, Agent.setReg, vec_getD_set, h]

@[simp] theorem Agent.modEntry_reg (g : Agent) (e q : Nat) (f : Entry → Entry) : (g.modEntry e f).reg q = g.reg q := rfl
@[simp] theorem Agent.settle_reg (g : Agent) (q : Nat) : g.settle.reg q = g.reg q := rfl
@[simp] theorem Agent.setPred_reg (g : Agent) (p q : Nat) (x : Mask) (f : Nat → Pred) : (g.setPred p x f).reg q = g.reg q := rfl
@[simp] theorem Agent.modEntry_pred (g : Agent) (e p i : Nat) (f : Entry → Entry) :
    (g.modEntry e f).pred p i = g.pred p i := rfl
@[simp] theorem Agent.settle_pred (g : Agent) (p i : Nat) : g.settle.pred p i = g.pred p i := rfl
@[simp] theorem Agent.setReg_pred (g : Agent) (r p i : Nat) (v : VReg) : (g.setReg r v).pred p i = g.pred p i := rfl

/-- Writing P0 to P6 in some lanes; a write of P7 is discarded and P7 reads true (R49). -/
theorem Agent.pred_setPred (g : Agent) (p q i : Nat) (x : Mask) (f : Nat → Pred) (hi : i < 32) :
    (g.setPred p x f).pred q i =
      if q = 7 then Pred.always else if p = q ∧ p < 7 ∧ inMask x i then f i else g.pred q i := by
  unfold Agent.pred Agent.setPred
  by_cases hq : q = 7
  · simp [hq]
  · simp only [hq, if_false, vec_getD_set]
    by_cases hpq : p = q ∧ p < 7
    · obtain ⟨rfl, hp⟩ := hpq
      simp only [hp, and_self, if_true, true_and, vec_getD_ofFn _ _ _ hi]
      split
      · rfl
      · simp [Agent.pred, hq]
    · simp only [hpq, if_false]
      have : ¬ (p = q ∧ p < 7 ∧ inMask x i = true) := fun h => hpq ⟨h.1, h.2.1⟩
      simp [this]

theorem VReg.ofWord_lane (w : Word) (p : Bool) (i : Nat) : (VReg.ofWord w p).lane i = w := rfl

theorem VReg.ofWord_marked (w : Word) (p : Bool) {i : Nat} (hi : i < 32) : (VReg.ofWord w p).marked i = p := by
  cases p
  · simp [VReg.ofWord, VReg.marked, inMask]
  · exact inMask_allLanes hi

/-! ### Writing a destination (R46) -/

/-- What the shape promised for a full write must say: each lane's value. -/
def LaneOut.coherent (o : LaneOut) : Prop :=
  ∀ sh, o.full = some sh → ∀ i, i < 32 → VReg.lane ⟨sh, 0#32⟩ i = o.val i

theorem LaneOut.apply_lane (o : LaneOut) (hc : o.coherent) (old : VReg) (x : Mask) (i : Nat) (hi : i < 32) :
    (o.apply old x).lane i = if inMask x i then o.val i else old.lane i := by
  unfold LaneOut.apply
  by_cases h : x = allLanes ∧ o.full.isSome
  · obtain ⟨hx, hf⟩ := h
    obtain ⟨sh, hsh⟩ := Option.isSome_iff_exists.1 hf
    simp only [hx, hsh, Option.isSome_some, and_self, if_true, Option.getD_some, inMask_allLanes hi]
    exact hc sh hsh i hi
  · simp only [h, if_false]
    simp [VReg.lane, laneList, hi]

theorem LaneOut.apply_marked (o : LaneOut) (old : VReg) (x : Mask) (i : Nat) (hi : i < 32) :
    (o.apply old x).marked i = if inMask x i then o.mark i else old.marked i := by
  unfold LaneOut.apply VReg.marked
  simp [hi]

theorem Agent.foldOuts_reg_other (outs : List LaneOut) (g : Agent) (x : Mask) (r : Nat) (h : ∀ o ∈ outs, o.reg ≠ r) :
    (outs.foldl (fun g o => g.setReg o.reg (o.apply (g.reg o.reg) x)) g).reg r = g.reg r := by
  induction outs generalizing g with
  | nil => rfl
  | cons o rest ih =>
    rw [List.foldl_cons, ih _ fun o ho => h o (by simp [ho])]
    have hne := h o (by simp)
    simp [Agent.reg, Agent.setReg, vec_getD_set, hne]

theorem Agent.foldOuts_frame (outs : List LaneOut) (g : Agent) (x : Mask) :
    outs.foldl (fun g o => g.setReg o.reg (o.apply (g.reg o.reg) x)) g =
      { g with regs := (outs.foldl (fun g o => g.setReg o.reg (o.apply (g.reg o.reg) x)) g).regs } := by
  induction outs generalizing g with
  | nil => rfl
  | cons o rest ih =>
    rw [List.foldl_cons, ih]
    simp [Agent.setReg]

/-- A write of several destinations changes registers alone. -/
theorem Agent.writeOuts_frame (g : Agent) (x : Mask) (outs : List LaneOut) :
    g.writeOuts x outs = { g with regs := (g.writeOuts x outs).regs } := by
  unfold Agent.writeOuts
  split
  · rfl
  · exact Agent.foldOuts_frame outs g x

theorem Agent.writeOuts_other (g : Agent) (x : Mask) (outs : List LaneOut) (r : Nat) (h : ∀ o ∈ outs, o.reg ≠ r) :
    (g.writeOuts x outs).reg r = g.reg r := by
  unfold Agent.writeOuts
  split
  · rfl
  · exact Agent.foldOuts_reg_other outs g x r h

/-- A destination written once holds, in every lane, what the write says. -/
theorem Agent.foldOuts_reg (outs : List LaneOut) (g : Agent) (x : Mask) (o : LaneOut) (ho : o ∈ outs) (hr : o.reg < 128)
    (hd : (outs.map (·.reg)).Nodup) :
    (outs.foldl (fun g o => g.setReg o.reg (o.apply (g.reg o.reg) x)) g).reg o.reg = o.apply (g.reg o.reg) x := by
  induction outs generalizing g with
  | nil => cases ho
  | cons p rest ih =>
    rw [List.foldl_cons]
    simp only [List.map_cons, List.nodup_cons, List.mem_map, not_exists, not_and] at hd
    rcases List.mem_cons.1 ho with rfl | hmem
    · rw [Agent.foldOuts_reg_other rest _ x _ fun q hq => hd.1 q hq, Agent.reg_setReg _ _ _ _ hr, if_pos rfl]
    · rw [ih _ hmem hd.2]
      have hne : p.reg ≠ o.reg := fun h => hd.1 o hmem h.symm
      rw [show (g.setReg p.reg (p.apply (g.reg p.reg) x)).reg o.reg = g.reg o.reg by
        simp [Agent.reg, Agent.setReg, vec_getD_set, hne]]

theorem Agent.writeOuts_lane (g : Agent) (x : Mask) (outs : List LaneOut) (o : LaneOut) (ho : o ∈ outs) (hr : o.reg < 128)
    (hd : (outs.map (·.reg)).Nodup) (hc : o.coherent) (i : Nat) (hi : i < 32) :
    (g.writeOuts x outs).word o.reg i = if inMask x i then o.val i else g.word o.reg i := by
  unfold Agent.writeOuts Agent.word
  split
  · rename_i hx; simp [hx, inMask]
  · rw [Agent.foldOuts_reg outs g x o ho hr hd, LaneOut.apply_lane o hc _ _ _ hi]

theorem Agent.writeOuts_marked (g : Agent) (x : Mask) (outs : List LaneOut) (o : LaneOut) (ho : o ∈ outs) (hr : o.reg < 128)
    (hd : (outs.map (·.reg)).Nodup) (i : Nat) (hi : i < 32) :
    ((g.writeOuts x outs).reg o.reg).marked i = if inMask x i then o.mark i else (g.reg o.reg).marked i := by
  unfold Agent.writeOuts
  split
  · rename_i hx; simp [hx, inMask]
  · rw [Agent.foldOuts_reg outs g x o ho hr hd, LaneOut.apply_marked o _ _ _ hi]

end Sys2Proof.Machine
end

