-- ==== Sys2Proof/Laws/Finish.lean ====
section
/-! SUPPORT. How an instruction runs and ends: what the issuer is, what the guard lets through, what completion leaves
alone. -/

namespace Sys2Proof.Machine

/-! ### The issuer -/

/-- What an issuer says: the agent and the entry it names exist, are active and running, and c is made of them. -/
theorem issuer_spec {s : State} {c : Ctx} (h : issuer s = some c) :
    s.cur = some (c.a, c.e) ∧ c.s = s ∧ c.ag = s.agent c.a ∧ c.en = c.ag.entry c.e ∧ c.a < s.agents.length ∧
      c.e < c.ag.entries.length ∧ c.ag.phase = .active ∧ c.en.kind = .running ∧ c.team = s.team c.ag.team ∧
      c.task = s.task c.team.task := by
  unfold issuer at h
  split at h
  · cases h
  · rename_i a e hcur
    split at h
    · cases h
    · rename_i ag hag
      split at h
      · cases h
      · rename_i en hen
        split at h
        · rename_i hcond
          cases h
          have h1 := List.getElem?_eq_some_iff.1 hag
          have h2 := List.getElem?_eq_some_iff.1 hen
          obtain ⟨hl1, he1⟩ := h1
          obtain ⟨hl2, he2⟩ := h2
          refine ⟨hcur, rfl, ?_, ?_, hl1, hl2, hcond.1, hcond.2, rfl, rfl⟩
          · simp [State.agent, hag]
          · simp [Agent.entry, hen]
        · cases h

theorem onAny_eq {s : State} {c : Ctx} (h : issuer s = some c) (len : Nat) (k : Ctx → Done) :
    onAny s len k = .next (finish c len (k c)) := by simp [onAny, h]

theorem onWarp_eq {s : State} {c : Ctx} (h : WarpRuns s c) (len : Nat) (k : Ctx → Done) :
    onWarp s len k = .next (finish c len (k c)) := by simp [onWarp, onAny, h.1, h.2]

theorem onTile_eq {s : State} {c : Ctx} (h : TileRuns s c) (len : Nat) (k : Ctx → Done) :
    onTile s len k = .next (finish c len (k c)) := by simp [onTile, onAny, h.1, h.2]

/-- An encoded instruction answers a next state whenever a fragment issues. -/
theorem onAny_next {s : State} {c : Ctx} (h : issuer s = some c) (len : Nat) (k : Ctx → Done) :
    ∃ t, onAny s len k = .next t := ⟨_, onAny_eq h len k⟩

/-! ### The guard -/

theorem guardPoisoned_zero {c : Ctx} {p : Nat} (h : GuardClear c p) : c.guardPoisoned p = 0#32 := by
  refine mask_ext fun i hi => ?_
  rw [Ctx.guardPoisoned, inMask_maskOf]
  cases ha : inMask c.act i
  · simp [inMask]
  · simp [(h i hi ha).1, inMask]

theorem guardFractional_zero {c : Ctx} {p : Nat} : c.guardFractional p = 0#32 ↔ guardSoft c p = false := by
  constructor
  · intro h
    simp only [guardSoft, List.any_eq_false, List.mem_range]
    intro i hi hb
    have := congrArg (fun m => inMask m i) h
    simp only [Ctx.guardFractional, inMask_maskOf, hi, decide_true, Bool.true_and] at this
    rw [hb] at this
    simp [inMask] at this
  · intro h
    refine mask_ext fun i hi => ?_
    simp only [guardSoft, List.any_eq_false, List.mem_range] at h
    rw [Ctx.guardFractional, inMask_maskOf, show (inMask c.act i && (c.ag.pred p i).fractional) = false by
      simpa using h i hi]
    simp [inMask]

/-- A guard that passes its checks: the rest of the instruction runs in the lanes whose code reaches one half, and
PSTAT.FRAC records a fractional one. -/
theorem guarded_eq {c : Ctx} {p : Nat} (h : GuardClear c p) (k : Mask → Done) :
    c.guarded p k =
      if guardSoft c p then (k (c.guardHolds p)).map (fun s => s.setFrac c.a) else k (c.guardHolds p) := by
  unfold Ctx.guarded
  rw [if_neg (by simp [guardPoisoned_zero h])]
  by_cases hs : guardSoft c p
  · have hf : c.guardFractional p ≠ 0#32 := fun hz => by simp [guardFractional_zero.1 hz] at hs
    have hst : c.ag.sregs.strict = false := by
      by_contra hst
      simp only [guardSoft, List.any_eq_true, List.mem_range, Bool.and_eq_true] at hs
      obtain ⟨i, hi, ha, hb⟩ := hs
      rw [(h i hi ha).2 (by simpa using hst)] at hb
      exact absurd hb (by decide)
    simp [hf, hst, hs]
  · have hf : c.guardFractional p = 0#32 := guardFractional_zero.2 (by simpa using hs)
    simp [hf, hs]

/-! ### Completion -/

theorem countIssue_agents (s : State) (a : Nat) : (s.countIssue a).agents = s.agents := rfl

theorem countIssue_agent (s : State) (a b : Nat) : (s.countIssue a).agent b = s.agent b := rfl

theorem countIssue_mem (s : State) (a : Nat) : (s.countIssue a).mem = s.mem := rfl

/-- What the counting of issued instructions sees of an agent. -/
abbrev SameIssue (g h : Agent) : Prop := g.kind = h.kind ∧ g.team = h.team ∧ g.issuedAt = h.issuedAt

/-- The counting of issued instructions commutes with a change of an agent that keeps what it sees. -/
theorem countIssue_modAgent (s : State) (a : Nat) (f : Agent → Agent) (ha : a < s.agents.length)
    (hf : SameIssue (f (s.agent a)) (s.agent a)) :
    (s.modAgent a f).countIssue a = (s.countIssue a).modAgent a f := by
  have hag := State.modAgent_same s a f ha
  have hc : (s.modAgent a f).counts a = s.counts a := by
    unfold State.counts State.taskOf
    rw [hag, hf.1, hf.2.1]
    rfl
  unfold State.countIssue
  rw [hc, hag, hf.2.1, hf.2.2]
  rfl

/-- A change of the issuing agent alone, then completion: the agent is changed, then it moves on. -/
theorem complete_modAgent {s : State} {c : Ctx} (h : issuer s = some c) (len : Nat) (f : Agent → Agent)
    (hf : SameIssue (f c.ag) c.ag) :
    (s.modAgent c.a f).complete c.a c.e len =
      (s.countIssue c.a).modAgent c.a fun g => ((f g).modEntry c.e (·.advance len)).settle := by
  obtain ⟨-, -, hag, -, ha, -⟩ := issuer_spec h
  unfold State.complete State.boundary State.modEntry
  have e1 : (s.modAgent c.a f).modAgent c.a (·.modEntry c.e (·.advance len)) =
      s.modAgent c.a (fun g => (f g).modEntry c.e (·.advance len)) := by
    simp [State.modAgent, List.modify_modify_eq, Function.comp_def]
  rw [e1, countIssue_modAgent s c.a _ ha (by rw [hag] at hf; exact hf)]
  simp [State.modAgent, List.modify_modify_eq, Function.comp_def]

/-- A change of the issuing agent alone leaves the rest of the device. -/
theorem beside_modAgent (s : State) (a : Nat) (f : Agent → Agent) : Beside s ((s.countIssue a).modAgent a f) a := by
  refine ⟨?_, ?_, ?_⟩
  · have : s.agents = (s.countIssue a).agents := (countIssue_agents s a).symm
    rw [this]; rfl
  · simp [countIssue_agents]
  · intro b hb
    rw [State.modAgent_other _ _ _ _ (Ne.symm hb), countIssue_agent]

theorem sameMemory_modAgent (s : State) (a : Nat) (f : Agent → Agent) :
    SameMemory s ((s.countIssue a).modAgent a f) := by
  intro k
  rw [State.modAgent_mem, countIssue_mem]
  exact ⟨rfl, rfl⟩

/-- An agent whose registers, predicates and special registers alone were changed, and which then moved on. -/
theorem onlyRegisters_intro (c : Ctx) (len : Nat) (g : Agent)
    (hg : g = { c.ag with regs := g.regs, preds := g.preds, sregs := g.sregs }) :
    OnlyRegisters c len ((g.modEntry c.e (·.advance len)).settle) := by
  unfold OnlyRegisters
  conv_lhs => rw [hg]
  rfl

/-- Completion of an instruction that writes lanes of registers (R44, R46, R57). -/
theorem laneWrite_complete {s : State} {c : Ctx} (h : issuer s = some c) (len : Nat) (x : Mask) (outs : List LaneOut)
    (sr : SRegs) (hr : ∀ o ∈ outs, o.reg < 128) (hd : (outs.map (·.reg)).Nodup) (hc : ∀ o ∈ outs, o.coherent) :
    LaneWrite c ((s.modAgent c.a fun g => { g.writeOuts x outs with sregs := sr }).complete c.a c.e len) len x
      (outs.map fun o => (o.reg, o.val, o.mark)) sr := by
  obtain ⟨-, hs, hag, -, ha, -⟩ := issuer_spec h
  have hfr := Agent.writeOuts_frame c.ag x outs
  rw [complete_modAgent h len _ (by refine ⟨?_, ?_, ?_⟩ <;> rw [hfr])]
  have hst : ((s.countIssue c.a).modAgent c.a fun g =>
      (({ g.writeOuts x outs with sregs := sr } : Agent).modEntry c.e (·.advance len)).settle).agent c.a =
      (({ c.ag.writeOuts x outs with sregs := sr } : Agent).modEntry c.e (·.advance len)).settle := by
    rw [State.modAgent_same _ _ _ (by rw [countIssue_agents]; exact ha), countIssue_agent, hag]
  unfold LaneWrite
  rw [hst]
  refine ⟨by rw [hs]; exact beside_modAgent s c.a _, by rw [hs]; exact sameMemory_modAgent s c.a _, ?_, ?_, rfl, ?_, ?_⟩
  · exact onlyRegisters_intro c len _ (by rw [hfr])
  · show (c.ag.writeOuts x outs).preds = _
    rw [hfr]
  · intro r hr'
    show (c.ag.writeOuts x outs).reg r = _
    refine Agent.writeOuts_other _ _ _ _ fun o ho => ?_
    exact hr' _ (List.mem_map.2 ⟨o, ho, rfl⟩)
  · intro o ho i hi
    obtain ⟨o', ho', rfl⟩ := List.mem_map.1 ho
    exact ⟨Agent.writeOuts_lane _ _ _ o' ho' (hr o' ho') hd (hc o' ho') i hi,
      Agent.writeOuts_marked _ _ _ o' ho' (hr o' ho') hd i hi⟩

/-! ### Guarded lane instructions -/

/-- A change of an agent is what it makes of that agent. -/
theorem modAgent_congr (s : State) (a : Nat) (f g : Agent → Agent) (h : f (s.agent a) = g (s.agent a)) :
    s.modAgent a f = s.modAgent a g := by
  unfold State.modAgent
  congr 1
  refine List.ext_getElem? fun i => ?_
  simp only [List.getElem?_modify]
  by_cases hi : a = i
  · subst hi
    cases hx : s.agents[a]? with
    | none => simp
    | some x =>
      have : s.agent a = x := by simp [State.agent, hx]
      simp [this ▸ h]
  · simp [hi]

theorem modAgent_self (s : State) (a : Nat) (f : Agent → Agent) (h : f (s.agent a) = s.agent a) : s.modAgent a f = s := by
  rw [modAgent_congr s a f id h]
  unfold State.modAgent
  simp

theorem modAgent_modAgent (s : State) (a : Nat) (f g : Agent → Agent) :
    (s.modAgent a f).modAgent a g = s.modAgent a (fun x => g (f x)) := by
  simp [State.modAgent, List.modify_modify_eq, Function.comp_def]

/-- No flag raised leaves the special registers (R57). -/
@[simp] theorem SRegs.raise_zero (r : SRegs) : r.raise 0#6 = r := by simp [SRegs.raise, mergeFpcsr]

/-- The write of a lane instruction, after its SHAPE check. -/
theorem writeLanes_eq {c : Ctx} (h : issuer c.s = some c) (x : Mask) (outs : List LaneOut) (fl : Flags)
    (hfit : ∀ o ∈ outs, o.reg < c.g ∨ o.general x = false) :
    c.writeLanes x outs fl = .retire (c.s.modAgent c.a fun g =>
      { g.writeOuts x outs with sregs := c.ag.sregs.raise (if x = 0#32 then 0#6 else fl) }) := by
  obtain ⟨-, -, hag, -⟩ := issuer_spec h
  unfold Ctx.writeLanes
  by_cases hx : x = 0#32
  · rw [if_pos hx, modAgent_self]
    simp [Agent.writeOuts, hx, hag]
  · rw [if_neg hx, if_neg, if_neg hx, Ctx.upd]
    · exact congrArg Done.retire (modAgent_congr _ _ _ _ (by rw [hag]))
    simp only [List.any_eq_true, Bool.and_eq_true, decide_eq_true_eq, not_exists, not_and]
    intro o ho hge hgen
    rcases hfit o ho with h1 | h1
    · exact absurd h1 (by omega)
    · rw [h1] at hgen; exact absurd hgen (by decide)

/-- A guarded lane instruction that passes its checks completes: its destinations are written in the lanes whose guard
holds, and the flags of those lanes are merged (R50, R57). -/
theorem guarded_lanes_complete {s : State} {c : Ctx} (h : issuer s = some c) (len p : Nat) (hg : GuardClear c p)
    (outs : Mask → List LaneOut) (fl : Mask → Flags)
    (hfit : ∀ o ∈ outs (c.guardHolds p), o.reg < c.g ∨ o.general (c.guardHolds p) = false)
    (hr : ∀ o ∈ outs (c.guardHolds p), o.reg < 128) (hd : ((outs (c.guardHolds p)).map (·.reg)).Nodup)
    (hc : ∀ o ∈ outs (c.guardHolds p), o.coherent) :
    ∃ t, finish c len (c.guarded p fun x => c.writeLanes x (outs x) (fl x)) = t ∧
      LaneWrite c t len (c.guardHolds p) ((outs (c.guardHolds p)).map fun o => (o.reg, o.val, o.mark))
        (afterGuard c p (c.ag.sregs.raise (if c.guardHolds p = 0#32 then 0#6 else fl (c.guardHolds p)))) := by
  have hs := (issuer_spec h).2.1
  have h' : issuer c.s = some c := by rw [hs]; exact h
  refine ⟨_, rfl, ?_⟩
  rw [guarded_eq hg, writeLanes_eq h' _ _ _ hfit]
  have key : finish c len (if guardSoft c p = true then Done.map (fun s => s.setFrac c.a) (.retire (c.s.modAgent c.a fun g =>
        { g.writeOuts (c.guardHolds p) (outs (c.guardHolds p)) with
          sregs := c.ag.sregs.raise (if c.guardHolds p = 0#32 then 0#6 else fl (c.guardHolds p)) }))
      else .retire (c.s.modAgent c.a fun g =>
        { g.writeOuts (c.guardHolds p) (outs (c.guardHolds p)) with
          sregs := c.ag.sregs.raise (if c.guardHolds p = 0#32 then 0#6 else fl (c.guardHolds p)) })) =
      (s.modAgent c.a fun g => { g.writeOuts (c.guardHolds p) (outs (c.guardHolds p)) with
        sregs := afterGuard c p (c.ag.sregs.raise (if c.guardHolds p = 0#32 then 0#6 else fl (c.guardHolds p))) }).complete
          c.a c.e len := by
    by_cases hs' : guardSoft c p = true
    · simp only [hs', if_true, Done.map, finish, State.setFrac, afterGuard, modAgent_modAgent, hs]
    · simp only [hs', finish, afterGuard, hs]
      rfl
  rw [key]
  exact laneWrite_complete h len _ _ _ hr hd hc

end Sys2Proof.Machine
end

