-- ==== Sys2Proof/Laws/Memory.lean ====
section
/-! SUPPORT. Memory keeps its canonical form under every operation, and reads back what was written. -/

namespace Sys2Proof.Machine

/-- Is a key above the bound of a rising list? -/
def aboveBound : Option Nat → Nat → Prop
  | none, _ => True
  | some l, k => l < k

theorem cellsWf_cons {lo : Option Nat} {k : Nat} {b : Byte} {rest : List Host.Cell} :
    cellsWf lo ((k, b) :: rest) = true ↔ aboveBound lo k ∧ b ≠ 0#8 ∧ cellsWf (some k) rest = true := by
  cases lo <;> simp [cellsWf, aboveBound, and_assoc]

theorem marksWf_cons {lo : Option Nat} {k : Nat} {rest : List Nat} :
    marksWf lo (k :: rest) = true ↔ aboveBound lo k ∧ marksWf (some k) rest = true := by
  cases lo <;> simp [marksWf, aboveBound]

theorem aboveBound_trans {lo : Option Nat} {k j : Nat} (h : aboveBound lo k) (hj : k < j) : aboveBound lo j := by
  cases lo with
  | none => trivial
  | some l => exact Nat.lt_trans h hj

theorem cellsWf_weaken {lo : Option Nat} {k : Nat} {l : List Host.Cell} (h : aboveBound lo k)
    (hl : cellsWf (some k) l = true) : cellsWf lo l = true := by
  cases l with
  | nil => cases lo <;> rfl
  | cons c rest =>
    obtain ⟨j, b⟩ := c
    rw [cellsWf_cons] at hl ⊢
    exact ⟨aboveBound_trans h hl.1, hl.2⟩

theorem marksWf_weaken {lo : Option Nat} {k : Nat} {l : List Nat} (h : aboveBound lo k)
    (hl : marksWf (some k) l = true) : marksWf lo l = true := by
  cases l with
  | nil => cases lo <;> rfl
  | cons j rest =>
    rw [marksWf_cons] at hl ⊢
    exact ⟨aboveBound_trans h hl.1, hl.2⟩

theorem cellsWrite_wf (l : List Host.Cell) (a : Nat) (v : Byte) :
    ∀ lo, aboveBound lo a → cellsWf lo l = true → cellsWf lo (cellsWrite l a v) = true := by
  induction l with
  | nil =>
    intro lo ha _
    by_cases hv : v = 0#8
    · cases lo <;> simp [cellsWrite, hv, cellsWf]
    · simp only [cellsWrite, hv, if_false, cellsWf_cons]
      exact ⟨ha, hv, rfl⟩
  | cons c rest ih =>
    obtain ⟨k, b⟩ := c
    intro lo ha hl
    have hl' := cellsWf_cons.1 hl
    simp only [cellsWrite]
    split
    · rename_i hak
      split
      · exact hl
      · rename_i hv
        exact cellsWf_cons.2 ⟨ha, hv, cellsWf_cons.2 ⟨hak, hl'.2⟩⟩
    · split
      · rename_i hak
        split
        · exact cellsWf_weaken hl'.1 hl'.2.2
        · rename_i hv
          exact cellsWf_cons.2 ⟨ha, hv, hak ▸ hl'.2.2⟩
      · exact cellsWf_cons.2 ⟨hl'.1, hl'.2.1, ih _ (show k < a by omega) hl'.2.2⟩

theorem markWrite_wf (l : List Nat) (a : Nat) (v : Bool) :
    ∀ lo, aboveBound lo a → marksWf lo l = true → marksWf lo (markWrite l a v) = true := by
  induction l with
  | nil =>
    intro lo ha _
    cases v
    · cases lo <;> rfl
    · exact marksWf_cons.2 ⟨ha, rfl⟩
  | cons k rest ih =>
    intro lo ha hl
    have hl' := marksWf_cons.1 hl
    simp only [markWrite]
    split
    · rename_i hak
      cases v
      · exact hl
      · exact marksWf_cons.2 ⟨ha, marksWf_cons.2 ⟨hak, hl'.2⟩⟩
    · split
      · cases v
        · exact marksWf_weaken hl'.1 hl'.2
        · exact hl
      · exact marksWf_cons.2 ⟨hl'.1, ih _ (show k < a by omega) hl'.2⟩

theorem cellsRead_below {l : List Host.Cell} {a k : Nat} (h : cellsWf (some k) l = true) (ha : a ≤ k) :
    cellsRead l a = 0#8 := by
  induction l generalizing k with
  | nil => rfl
  | cons c rest ih =>
    obtain ⟨j, b⟩ := c
    have h' := cellsWf_cons.1 h
    have hj : k < j := h'.1
    simp only [cellsRead, show a ≠ j by omega, if_false]
    exact ih h'.2.2 (by omega)

theorem cellsRead_write (l : List Host.Cell) (a b : Nat) (v : Byte) :
    ∀ lo, cellsWf lo l = true → cellsRead (cellsWrite l a v) b = if b = a then v else cellsRead l b := by
  induction l with
  | nil =>
    intro lo _
    by_cases hv : v = 0#8 <;> by_cases hb : b = a <;> simp [cellsWrite, cellsRead, hv, hb]
  | cons c rest ih =>
    obtain ⟨k, w⟩ := c
    intro lo hl
    have hl' := cellsWf_cons.1 hl
    simp only [cellsWrite]
    split
    · rename_i hak
      by_cases hb : b = a
      · subst hb
        have hr : cellsRead rest b = 0#8 := cellsRead_below hl'.2.2 (by omega)
        by_cases hv : v = 0#8
        · simp [hv, cellsRead, show b ≠ k by omega, hr]
        · simp [hv, cellsRead]
      · by_cases hv : v = 0#8 <;> simp [hv, cellsRead, hb]
    · split
      · rename_i hak
        subst hak
        by_cases hb : b = a
        · subst hb
          by_cases hv : v = 0#8
          · simp [hv, cellsRead_below hl'.2.2 (Nat.le_refl _)]
          · simp [hv, cellsRead]
        · by_cases hv : v = 0#8 <;> simp [hv, cellsRead, hb]
      · rename_i h1 h2
        simp only [cellsRead]
        split
        · rename_i hbk
          have hne : b ≠ a := by omega
          simp [hne]
        · exact ih _ hl'.2.2

theorem markRead_below {l : List Nat} {a k : Nat} (h : marksWf (some k) l = true) (ha : a ≤ k) :
    markRead l a = false := by
  induction l generalizing k with
  | nil => rfl
  | cons j rest ih =>
    have h' := marksWf_cons.1 h
    have hj : k < j := h'.1
    simp only [markRead, Bool.or_eq_false_iff, beq_eq_false_iff_ne]
    exact ⟨by omega, ih h'.2 (by omega)⟩

theorem markRead_write (l : List Nat) (a b : Nat) (v : Bool) :
    ∀ lo, marksWf lo l = true → markRead (markWrite l a v) b = if b = a then v else markRead l b := by
  induction l with
  | nil =>
    intro lo _
    cases v <;> by_cases hb : b = a <;> simp [markWrite, markRead, hb]
  | cons k rest ih =>
    intro lo hl
    have hl' := marksWf_cons.1 hl
    simp only [markWrite]
    split
    · rename_i hak
      by_cases hb : b = a
      · subst hb
        have hr : markRead rest b = false := markRead_below hl'.2 (by omega)
        cases v <;> simp [markRead, hr, show b ≠ k by omega]
      · cases v <;> simp [markRead, hb]
    · split
      · rename_i hak
        subst hak
        by_cases hb : b = a
        · subst hb
          cases v
          · simp [markRead_below hl'.2 (Nat.le_refl _)]
          · simp [markRead]
        · cases v <;> simp [markRead, hb]
      · rename_i h1 h2
        simp only [markRead]
        rw [ih _ hl'.2]
        by_cases hb : b = a
        · have hk : b ≠ k := by omega
          simp [hb, show a ≠ k by omega]
        · simp [hb]

/-! ### Memory -/

theorem Memory.wf_iff (m : Memory) : m.wf = true ↔
    cellsWf none m.cells = true ∧ marksWf none m.marks = true ∧ marksWf none m.struck = true := by
  simp [Memory.wf, and_assoc]

theorem Memory.write_wf (m : Memory) (k : Nat) (b : Byte) (h : m.wf = true) : (m.write k b).wf = true := by
  rw [Memory.wf_iff] at h ⊢
  exact ⟨cellsWrite_wf _ _ _ _ trivial h.1, h.2⟩

theorem Memory.mark_wf (m : Memory) (w : Nat) (v : Bool) (h : m.wf = true) : (m.mark w v).wf = true := by
  rw [Memory.wf_iff] at h ⊢
  exact ⟨h.1, markWrite_wf _ _ _ _ trivial h.2.1, h.2.2⟩

theorem Memory.setStruck_wf (m : Memory) (w : Nat) (v : Bool) (h : m.wf = true) : (m.setStruck w v).wf = true := by
  rw [Memory.wf_iff] at h ⊢
  exact ⟨h.1, h.2.1, markWrite_wf _ _ _ _ trivial h.2.2⟩

theorem Memory.writeBytes_wf (bs : List Byte) (m : Memory) (k : Nat) (h : m.wf = true) :
    (m.writeBytes k bs).wf = true := by
  induction bs generalizing m k with
  | nil => exact h
  | cons b rest ih => exact ih _ _ (m.write_wf k b h)

theorem Memory.setMarks_wf (ms : List (Nat × Bool)) (m : Memory) (h : m.wf = true) : (m.setMarks ms).wf = true := by
  induction ms generalizing m with
  | nil => exact h
  | cons p rest ih => exact ih _ (m.mark_wf p.1 p.2 h)

theorem Memory.setStrucks_wf (ms : List (Nat × Bool)) (m : Memory) (h : m.wf = true) : (m.setStrucks ms).wf = true := by
  induction ms generalizing m with
  | nil => exact h
  | cons p rest ih => exact ih _ (m.setStruck_wf p.1 p.2 h)

theorem Memory.perform_wf (m : Memory) (st : Store) (h : m.wf = true) : (m.perform st).wf = true :=
  Memory.setStrucks_wf _ _ (Memory.setStrucks_wf _ _ (Memory.setMarks_wf _ _ (Memory.setMarks_wf _ _
    (Memory.writeBytes_wf _ _ _ h))))

theorem cellsWf_filter (p : Host.Cell → Bool) (l : List Host.Cell) :
    ∀ lo, cellsWf lo l = true → cellsWf lo (l.filter p) = true := by
  induction l with
  | nil => exact fun _ h => h
  | cons c rest ih =>
    intro lo h
    obtain ⟨hk, hb, hr⟩ := cellsWf_cons.1 h
    rw [List.filter_cons]
    split
    · exact cellsWf_cons.2 ⟨hk, hb, ih _ hr⟩
    · exact cellsWf_weaken hk (ih _ hr)

theorem marksWf_filter (p : Nat → Bool) (l : List Nat) :
    ∀ lo, marksWf lo l = true → marksWf lo (l.filter p) = true := by
  induction l with
  | nil => exact fun _ h => h
  | cons c rest ih =>
    intro lo h
    obtain ⟨hk, hr⟩ := marksWf_cons.1 h
    rw [List.filter_cons]
    split
    · exact marksWf_cons.2 ⟨hk, ih _ hr⟩
    · exact marksWf_weaken hk (ih _ hr)

theorem Memory.clear_wf (m : Memory) (k n : Nat) (h : m.wf = true) : (m.clear k n).wf = true := by
  rw [Memory.wf_iff] at h ⊢
  exact ⟨cellsWf_filter _ _ _ h.1, marksWf_filter _ _ _ h.2.1, marksWf_filter _ _ _ h.2.2⟩

theorem Memory.strike_wf (m : Memory) (w n : Nat) (h : m.wf = true) : (m.strike w n).wf = true :=
  Memory.setStrucks_wf _ _ (Memory.setMarks_wf _ _ h)

theorem Memory.performAll_wf (sts : List Store) (m : Memory) (h : m.wf = true) : (m.performAll sts).wf = true := by
  induction sts generalizing m with
  | nil => exact h
  | cons st rest ih => exact ih _ (m.perform_wf st h)

theorem overlay_wf (m : Memory) (ps : List Pend) (h : m.wf = true) : (overlay m ps).wf = true :=
  Memory.performAll_wf _ _ h

theorem Memory.read_write (m : Memory) (h : m.wf = true) (k a : Nat) (b : Byte) :
    (m.write k b).read a = if a = k then b else m.read a :=
  cellsRead_write _ _ _ _ none ((m.wf_iff.1 h).1)

theorem Memory.marked_mark (m : Memory) (h : m.wf = true) (w a : Nat) (v : Bool) :
    (m.mark w v).marked a = if a / 4 = w then v else m.marked a :=
  markRead_write _ _ _ _ none ((m.wf_iff.1 h).2.1)

@[simp] theorem Memory.mark_read (m : Memory) (w a : Nat) (v : Bool) : (m.mark w v).read a = m.read a := rfl
@[simp] theorem Memory.write_marked (m : Memory) (k a : Nat) (b : Byte) : (m.write k b).marked a = m.marked a := rfl

@[simp] theorem Memory.setMarks_read (ms : List (Nat × Bool)) (m : Memory) (a : Nat) :
    (m.setMarks ms).read a = m.read a := by
  induction ms generalizing m with
  | nil => rfl
  | cons p rest ih => exact ih (m.mark p.1 p.2)

@[simp] theorem Memory.setStrucks_read (ms : List (Nat × Bool)) (m : Memory) (a : Nat) :
    (m.setStrucks ms).read a = m.read a := by
  induction ms generalizing m with
  | nil => rfl
  | cons p rest ih => exact ih (m.setStruck p.1 p.2)

@[simp] theorem Memory.setStrucks_marked (ms : List (Nat × Bool)) (m : Memory) (a : Nat) :
    (m.setStrucks ms).marked a = m.marked a := by
  induction ms generalizing m with
  | nil => rfl
  | cons p rest ih => exact ih (m.setStruck p.1 p.2)

/-- A byte read after bytes were written: the byte written to it, or what it held. -/
theorem Memory.read_writeBytes (bs : List Byte) (m : Memory) (h : m.wf = true) (k a : Nat) :
    (m.writeBytes k bs).read a = if k ≤ a ∧ a < k + bs.length then bs.getD (a - k) 0#8 else m.read a := by
  induction bs generalizing m k with
  | nil => simp [Memory.writeBytes, show ¬ (k ≤ a ∧ a < k) by omega]
  | cons b rest ih =>
    rw [Memory.writeBytes, ih _ (m.write_wf k b h), Memory.read_write m h]
    by_cases h1 : a = k
    · subst h1; simp [show ¬ (a + 1 ≤ a) by omega]
    · by_cases h2 : k + 1 ≤ a ∧ a < k + 1 + rest.length
      · rw [if_pos h2, if_pos ⟨by omega, by simp only [List.length_cons]; omega⟩,
          show a - k = (a - (k + 1)) + 1 by omega, List.getD_cons_succ]
      · rw [if_neg h2, if_neg h1, if_neg (by simp only [List.length_cons]; omega)]

/-- Performing a store changes the bytes from its key on and no other byte. -/
theorem Memory.read_perform (m : Memory) (h : m.wf = true) (st : Store) (a : Nat) :
    (m.perform st).read a =
      if st.key ≤ a ∧ a < st.key + st.bytes.length then st.bytes.getD (a - st.key) 0#8 else m.read a := by
  rw [Memory.perform, Memory.setStrucks_read, Memory.setStrucks_read, Memory.setMarks_read, Memory.setMarks_read,
    Memory.read_writeBytes _ _ h]

end Sys2Proof.Machine
end

