-- ==== Sys2Proof/Laws/Order.lean ====
section
/-! SUPPORT. What a release must perform and when it may be performed (R220, R223, R272), and what the issue of an instruction does
before its meaning (R227, R231). -/

namespace Sys2Proof.Machine

/-- A point meets a key beyond the core: not in local memory, and at the core only in the Granary (R220). -/
theorem forKey_ne_core (p : Point) (k : Nat) : p.forKey k ≠ .core ↔ keyKind k ≠ 1 ∧ (p = .core → keyKind k = 2) := by
  unfold Point.forKey
  by_cases h1 : keyKind k = 1
  · simp [h1]
  · by_cases h2 : keyKind k = 2 <;> simp [h1, h2]

theorem owesStores_iff (s : State) (a : Nat) (p : Point) : s.owesStores a p = true ↔
    ∃ b ∈ (s.team (s.agent a).team).buffer, b.agent = a ∧ keyKind b.store.key ≠ 1 ∧ (p = .core → keyKind b.store.key = 2) := by
  simp only [State.owesStores, State.bufferOf, List.any_eq_true, List.mem_filter, bne_iff_ne, beq_iff_eq, forKey_ne_core, and_assoc]

/-- A release that need perform no buffered store, or whose team has its turn and no fetch in the way, may be performed. -/
theorem mayRelease_iff (s : State) (a : Nat) (p : Point) : s.mayRelease a p = true ↔
    s.owesStores a p = false ∨ (s.inTurn (s.agent a).team = true ∧ s.bufferHeld (s.agent a).team = false) := by
  simp [State.mayRelease]

theorem inTurn_iff (s : State) (t : Nat) : s.inTurn t = true ↔
    (s.task (s.team t).task).lodestone = some (s.team t).logical ∧ (s.team t).passDue = false := by
  simp [State.inTurn]

theorem release_of_none_owed {s : State} {a : Nat} {p : Point} (h : s.owesStores a p = false) : s.release a p = s.sendAll a p := by
  simp [State.release, State.drainFor, h]

/-- An instruction issues in the state as it is, or after the releases that waited, all of which may be performed. -/
theorem afterDue_cases {s t : State} {a : Nat} {i : Instr} (h : s.afterDue a i = some t) :
    (t = s ∧ ((s.agent a).due = [] ∨ touchesMemory i = false)) ∨
      ((∀ r ∈ (s.agent a).due, s.mayRelease r.1 r.2.1 = true) ∧ s.payDue a = some t) := by
  unfold State.afterDue at h
  split at h
  · rename_i hc
    exact .inl ⟨(Option.some.inj h).symm, by simpa using hc⟩
  · refine .inr ⟨?_, h⟩
    by_contra hn
    rw [State.payDue, if_neg (by simpa using hn)] at h
    cases h

/-- A buffered store whose bytes an access has all replaced leaves nothing to perform: so it is with one to local memory. -/
theorem stores_without_self (b : Buffered) (h : b.gone = []) (hb : b.store.bytes ≠ []) : (b.without b.store).stores = [] := by
  have hn : 0 < b.store.bytes.length := List.length_pos_iff.2 hb
  have ho : b.store.overlaps b.store = true := by simp [Store.overlaps, hn]
  have hg : (b.without b.store) = { b with gone := (List.range b.store.bytes.length).map (b.store.key + ·) } := by
    simp [Buffered.without, ho, h]
  have hc (k : Nat) : ((List.range b.store.bytes.length).map (b.store.key + ·)).contains k = true ↔
      b.store.key ≤ k ∧ k < b.store.key + b.store.bytes.length := by
    simp only [List.contains_iff_mem, List.mem_map, List.mem_range]
    exact ⟨fun ⟨i, hi, e⟩ => by omega, fun ⟨h1, h2⟩ => ⟨k - b.store.key, by omega, by omega⟩⟩
  have hne : (List.range b.store.bytes.length).map (b.store.key + ·) ≠ [] := by simpa using hb
  rw [hg, Buffered.stores, if_neg hne]
  have hm : (b.store.marks.filter fun w => (List.range 4).any fun i => decide (b.store.key ≤ 4 * w.1 + i) &&
      decide (4 * w.1 + i < b.store.key + b.store.bytes.length) &&
        !((List.range b.store.bytes.length).map (b.store.key + ·)).contains (4 * w.1 + i)) = [] := by
    rw [List.filter_eq_nil_iff]
    intro w _ hw
    obtain ⟨i, _, hi⟩ := List.any_eq_true.1 hw
    simp only [Bool.and_eq_true, decide_eq_true_eq, Bool.not_eq_true', ← Bool.not_eq_true, hc] at hi
    omega
  simp only [hm, if_pos, List.nil_append, List.filterMap_eq_nil_iff]
  intro p hp
  have := List.mem_zipIdx hp
  rw [if_pos ((hc _).2 ⟨by omega, by omega⟩)]

/-- Dropping cached non-leaf entries touches nothing else. -/
@[simp] theorem dropWalks_mem (s : State) (f : WalkEntry → Bool) (cs : Option (List Nat)) : (s.dropWalks f cs).mem = s.mem := rfl
@[simp] theorem dropWalks_agents (s : State) (f : WalkEntry → Bool) (cs : Option (List Nat)) : (s.dropWalks f cs).agents = s.agents := rfl
@[simp] theorem dropWalks_teams (s : State) (f : WalkEntry → Bool) (cs : Option (List Nat)) : (s.dropWalks f cs).teams = s.teams := rfl
@[simp] theorem dropWalks_tasks (s : State) (f : WalkEntry → Bool) (cs : Option (List Nat)) : (s.dropWalks f cs).tasks = s.tasks := rfl
@[simp] theorem dropWalks_tlbs (s : State) (f : WalkEntry → Bool) (cs : Option (List Nat)) : (s.dropWalks f cs).tlbs = s.tlbs := rfl

/-- An entry that stays in the walk caches was there, but perhaps for more cores. -/
theorem dropWalks_from {s : State} {f : WalkEntry → Bool} {cs : Option (List Nat)} {w : WalkEntry} (h : w ∈ (s.dropWalks f cs).walks) :
    ∃ v ∈ s.walks, { v with gone := w.gone } = w ∧ ∀ c ∈ v.gone, c ∈ w.gone := by
  obtain ⟨v, hv, e⟩ := List.mem_filterMap.1 h
  refine ⟨v, hv, ?_⟩
  split at e
  · obtain ⟨l, _, rfl⟩ := Option.map_eq_some_iff.1 e
    exact ⟨rfl, fun c hc => List.mem_append_left _ hc⟩
  · cases e; exact ⟨rfl, fun _ hc => hc⟩

/-- Noting translations changes no other field. -/
theorem ask_eq (s : State) (a : Nat) (ps : List (Nat × Nat)) : ∃ l, s.ask a ps = { s with asked := s.asked ++ l } := ⟨_, rfl⟩
theorem noteAsked_eq (s : State) (a e : Nat) (i : Instr) : ∃ l, s.noteAsked a e i = { s with asked := s.asked ++ l } := ⟨_, rfl⟩

end Sys2Proof.Machine
end

