-- ==== Sys2Proof/Tests/Slice0.lean ====
section
/-! SUPPORT. Tests of this model: words of the manual's encodings, ill-formed terms, the manual's own examples, and states that
meet the hypotheses of the statements. -/

namespace Sys2Proof.Tests

open Sys2Proof Sys2Proof.Machine

set_option Elab.async false

/-! ### Small states -/

/-- A GENERAL register by lane, a UNIFORM one. -/
def gen (f : Nat → Nat) : VReg := ⟨.general ((List.range 32).map fun i => BitVec.ofNat 32 (f i)), 0#32⟩
def uni (n : Nat) : VReg := ⟨.uniform (BitVec.ofNat 32 n), 0#32⟩

/-- A layout entry. -/
def lay (space esize mode base : Nat) (ext str : List Nat) : Layout :=
  { base := BitVec.ofNat 64 base, space := BitVec.ofNat 8 space, esize := BitVec.ofNat 8 esize
    dims := BitVec.ofNat 8 ext.length, mode := BitVec.ofNat 8 mode, peer := 0#16, xmask := 0#16
    extent := (List.range 4).map fun k => BitVec.ofNat 32 (ext.getD k 0)
    stride := (List.range 4).map fun k => BitVec.ofNat 64 (str.getD k 0) }

/-- The state of log 28 with one agent, whose registers V1 to V29 and layout entries serve the tests: V1 holds the lane number,
V4 is AFFINE, V5 holds 0x4000 as a pair, every other is UNIFORM. Entries: 1 local words, 2 global words, 3 arrival words,
4 local words with BOUNDS 1, 5 global halves, 6 a global grid of doubles, 7 a grid of words. -/
def made (kind : AgentKind) (f : State → State) : State :=
  let task (t : Task) : Task :=
    { t with info := { t.info with localSize := 4096, granary := 4096, sections := [(0, 0, 4096), (1, 4096, 4096), (2, 8192, 4096)] } }
  let regs : List (Nat × VReg) := [(1, gen id), (2, uni 5), (3, uni 2), (4, ⟨.affine 3#32 2#32, 0#32⟩), (5, uni 0x4000), (6, uni 0),
    (7, uni 1), (8, uni 0x4100), (9, uni 0)]
  let lays : List (Nat × Layout) := [(1, lay 1 2 0 0 [64] [4]), (2, lay 0 2 0 0x4000 [64] [4]), (3, lay 1 3 0 0 [8] [8]),
    (4, lay 1 2 1 0 [4] [4]), (5, lay 0 1 0 0x4000 [64] [2]), (6, lay 0 3 0 0x100000 [64, 64] [8, 512]),
    (7, lay 0 2 0 0x100000 [4096] [4])]
  let s := State.reset.placeWords [] kind
  f ((s.modTask 0 task).modAgent 0 fun g =>
    { regs.foldl (fun (g : Agent) p => g.setReg p.1 p.2) g with
      layouts := lays.foldl (fun (l : Vector Layout 64) p => l.setIfInBounds p.1 p.2) g.layouts })

/-- What the first agent of a state sees. -/
def see (s : State) : Ctx :=
  let g := s.agent 0
  let t := s.team g.team
  { s := s, a := 0, e := 0, ag := g, en := g.entry 0, team := t, task := s.task t.task, act := (g.entry 0).mask }

def aWarp : State := made .warp id
def aTile : State := made .tileSeq id
def aCopy : State := made .copySeq id

/-- A property of every lane of a mask, from the 32 lanes. -/
theorem lanes {x : Mask} {P : Nat → Prop} (h : ∀ i, i < 32 → inMask x i = true → P i) (i : Nat) (hi : inMask x i = true) : P i :=
  h i (BitVec.lt_of_getLsbD hi) hi

/-! ### States that meet the hypotheses of the statements -/

/-- A law of a table on a warp whose guard passes and whose destination may be GENERAL. -/
def LaneReady (laws : Instr → Option LaneLaw) (i : Instr) : Prop :=
  ∃ s c law, WarpRuns s c ∧ laws i = some law ∧ GuardClear c law.guard.toNat ∧ law.dest.toNat + law.count ≤ c.g ∧
    law.dest.toNat + law.count ≤ 128 ∧ c.guardHolds law.guard.toNat ≠ 0#32

theorem guard_p7 : GuardClear (see aWarp) 7 := by unfold GuardClear; decide +kernel
theorem full_p7 : (see aWarp).guardHolds 7 = allLanes := by decide +kernel
theorem sees : WarpRuns aWarp (see aWarp) := ⟨rfl, rfl⟩
theorem seesTile : TileRuns aTile (see aTile) := ⟨rfl, rfl⟩
theorem seesCopy : Runs aCopy (see aCopy) := rfl

theorem ready {laws : Instr → Option LaneLaw} {i : Instr} (law : LaneLaw) (h : laws i = some law) (hg : law.guard = 7#3)
    (hd : law.dest.toNat + law.count ≤ 128) : LaneReady laws i :=
  ⟨aWarp, see aWarp, law, sees, h, by rw [hg]; exact guard_p7, hd, hd, by rw [hg]; exact (full_p7 ▸ by decide)⟩

theorem witness_integerArithmetic : LaneReady integerArithmetic (.iadd 127#7 1#7 2#7 7#3) := ready _ rfl rfl (by decide)
theorem witness_bitInstructions : LaneReady bitInstructions (.bfi 3#7 1#7 2#7 7#3) := ready _ rfl rfl (by decide)
theorem witness_immediateAndPair :
    LaneReady immediateInstructions (.movi32 9#7 7#3 0xFFFFFFFF#32) ∧ LaneReady pairInstructions (.rand 124#7 2#7 4#7 7#3) :=
  ⟨ready _ rfl rfl (by decide), ready _ rfl rfl (by decide)⟩
theorem witness_floatingPoint :
    LaneReady fp32Instructions (.fadd 4#7 5#7 6#7 7#3) ∧ LaneReady fp64Instructions (.dfma 126#7 10#7 12#7 7#3) :=
  ⟨ready _ rfl rfl (by decide), ready _ rfl rfl (by decide)⟩
theorem witness_rounding : fp64.finite = false ∧ e2m1.finite = true := by decide
theorem witness_conversions :
    LaneReady conversions (.cvt 4#7 5#7 0x11#7 7#3) ∧ LaneReady conversions (.selbF64 4#7 6#7 8#7 0#3) :=
  ⟨ready _ rfl rfl (by decide), ready _ rfl rfl (by decide)⟩
theorem witness_predicateReads : LaneReady predicateReads (.pgrad 4#7 0#3 1#7 7#3) := ready _ rfl rfl (by decide)
theorem witness_warpWide : LaneReady warpWide (.xlane 4#7 1#7 2#7 3#3) := ready _ rfl rfl (by decide)
theorem witness_predicateWrites :
    (∃ law, compares (.icmp 9#4 6#3 1#7 2#7 7#3) = some law ∧ GuardClear (see aWarp) law.guard.toNat) ∧
    ∃ law, predicateLogic (.plog 7#3 0#3 1#3 6#5 7#3) = some law ∧ GuardClear (see aWarp) law.guard.toNat :=
  ⟨⟨_, rfl, guard_p7⟩, ⟨_, rfl, guard_p7⟩⟩
theorem witness_scalarForms :
    (∃ law, scalarRegister (.smulh 126#7 2#7 6#7 3#3) = some law ∧ ∀ r ∈ law.srcs, (uniformOf ((see aWarp).ag.reg r)).isSome) ∧
    (∃ law, scalarImmediates (.saddi 3#7 2#7 0x3FF#10) = some law ∧ ∀ r ∈ law.srcs, (uniformOf ((see aCopy).ag.reg r)).isSome) ∧
    (∃ law, scalarRegister (.smin 40#7 2#7 1#7 2#3) = some law ∧ ∃ r ∈ law.srcs, uniformOf ((see aWarp).ag.reg r) = none) ∧
    WarpRuns aWarp (see aWarp) ∧ Runs aCopy (see aCopy) :=
  ⟨⟨_, rfl, by decide +kernel⟩, ⟨_, rfl, by decide +kernel⟩, ⟨_, rfl, 1, by decide, by decide +kernel⟩, sees, seesCopy⟩

theorem witness_elementAddress :
    InBounds (lay 1 2 0 0 [64] [4]) [63] ∧ ¬ InBounds (lay 1 2 0 0 [64] [4]) [64] ∧ ¬ InBounds (lay 1 2 1 0 [4] [4]) [-1] ∧
    (∀ k, k < (lay 1 2 2 0 [4] [4]).nd → 1 ≤ (lay 1 2 2 0 [4] [4]).ext k) ∧ (lay 1 2 0 0 [64] [4]).bounds = 0 ∧
    (lay 1 2 1 0 [4] [4]).bounds = 1 ∧ (lay 1 2 2 0 [4] [4]).bounds = 2 := by
  unfold InBounds; decide

/-- Lane 0 of a warp runs alone. -/
def oneLane (s : State) : State := s.modEntry 0 0 fun en => { en with mask := 1#32 }
theorem only0 {i : Nat} (hi : inMask 1#32 i = true) : i = 0 := by
  have h : ∀ j, j < 32 → inMask 1#32 j = true → j = 0 := by decide
  exact h i (BitVec.lt_of_getLsbD hi) hi

/-- Words of lane 0 through the entries 1 (local), 2 (global) and 4 (absent at 5): coordinates in V3 and V2. -/
theorem local0 : AccessOk (see (oneLane aWarp)) 1#32 (lay 1 2 0 0 [64] [4]) 3 4 .write fun _ => some (localKey 0 8) := by
  refine ⟨by decide, rfl, by decide +kernel, fun i hi => ?_⟩
  obtain rfl := only0 hi
  refine ⟨by decide +kernel, ?_⟩
  unfold ElementOk
  rw [show (lay 1 2 0 0 [64] [4]).spot ((see (oneLane aWarp)).coords (lay 1 2 0 0 [64] [4]) 3 0) = .at 8 by decide +kernel]
  exact ⟨by decide, by decide +kernel, by decide +kernel, by decide +kernel, _, rfl, rfl⟩
theorem atomic0 : AccessOk (see (oneLane aWarp)) 1#32 (lay 1 2 0 0 [64] [4]) 3 4 .atomic fun _ => some (localKey 0 8) := by
  refine ⟨by decide, rfl, by decide +kernel, fun i hi => ?_⟩
  obtain rfl := only0 hi
  refine ⟨by decide +kernel, ?_⟩
  unfold ElementOk
  rw [show (lay 1 2 0 0 [64] [4]).spot ((see (oneLane aWarp)).coords (lay 1 2 0 0 [64] [4]) 3 0) = .at 8 by decide +kernel]
  exact ⟨by decide, by decide +kernel, by decide +kernel, by decide +kernel, _, rfl, rfl⟩
theorem global0 : AccessOk (see (oneLane aWarp)) 1#32 (lay 0 2 0 0x4000 [64] [4]) 3 4 .read fun _ => some 0x4008 := by
  refine ⟨by decide, rfl, by decide +kernel, fun i hi => ?_⟩
  obtain rfl := only0 hi
  refine ⟨by decide +kernel, ?_⟩
  unfold ElementOk
  rw [show (lay 0 2 0 0x4000 [64] [4]).spot ((see (oneLane aWarp)).coords (lay 0 2 0 0x4000 [64] [4]) 3 0) = .at 0x4008 by decide +kernel]
  exact ⟨by decide, by decide +kernel, by decide +kernel, by decide +kernel, 0x4008, by decide +kernel, rfl⟩

theorem kept_aWarp : Kept (oneLane aWarp) := ⟨by decide +kernel, List.Pairwise.nil⟩
theorem clear0 : GuardClear (see (oneLane aWarp)) 7 ∧ (see (oneLane aWarp)).guardHolds 7 = 1#32 := by
  unfold GuardClear; decide +kernel

theorem witness_loadLanes : WarpRuns (oneLane aWarp) (see (oneLane aWarp)) ∧ (loadForm (.ld32 127#7 3#7 2#6 0#1 7#3)).isSome ∧
    GuardClear (see (oneLane aWarp)) 7 ∧ 127 + wordCount 4 ≤ (see (oneLane aWarp)).g ∧
    formLayout (see (oneLane aWarp)) ⟨4, 127#7, 3#7, 2#6, 7#3⟩ = lay 0 2 0 0x4000 [64] [4] ∧
    (see (oneLane aWarp)).guardHolds 7 = 1#32 ∧ AccessOk (see (oneLane aWarp)) 1#32 (lay 0 2 0 0x4000 [64] [4]) 3 4 .read fun _ => some 0x4008 :=
  ⟨⟨rfl, rfl⟩, rfl, clear0.1, by decide +kernel, by decide +kernel, clear0.2, global0⟩

theorem witness_storeLanes : (storeForm (.st32 2#7 3#7 1#6 0#1 7#3)).isSome ∧ Kept (oneLane aWarp) ∧
    formLayout (see (oneLane aWarp)) ⟨4, 2#7, 3#7, 1#6, 7#3⟩ = lay 1 2 0 0 [64] [4] ∧
    (oneLane aWarp).fetchHolds (localKey 0 8) 4 = false ∧ (see (oneLane aWarp)).task.deterministic = false ∧
    (see (oneLane aWarp)).ag.streamed = [] ∧ (∀ b, b < 4 → keyKind (localKey 0 8 + b) = 1) ∧
    AccessOk (see (oneLane aWarp)) 1#32 (lay 1 2 0 0 [64] [4]) 3 4 .write fun _ => some (localKey 0 8) :=
  ⟨rfl, kept_aWarp, by decide +kernel, by decide +kernel, by decide +kernel, by decide +kernel, by decide, local0⟩

/-- The same through a SHARED entry of a deterministic task: with room in the buffer, and with its 256 entries taken, in the team's
turn and before it. -/
def buffering (n : Nat) (turn : Bool) : State :=
  (((oneLane aWarp).modAgent 0 fun g => { g with layouts := g.layouts.setIfInBounds 10 (lay 0 2 4 0x4000 [64] [4]) }).modTask 0 fun t =>
    { t with chain := [{ (default : Region) with deterministic := true }], lodestone := if turn then some 0 else some 1 }).modTeam 0
      fun t => { t with buffer := (List.range n).map fun i => { agent := 0, store := storeOf (0x8000 + 4 * i) 4 [] [] } }
theorem witness_bufferedStores : ∀ p ∈ [(0, false), (256, true), (256, false)], let s := buffering p.1 p.2
    (see s).guardHolds 7 = 1#32 ∧ ((formLayout (see s) ⟨4, 2#7, 3#7, 10#6, 7#3⟩).shared && (see s).task.deterministic) = true ∧
    (see s).team.buffer.length = p.1 ∧
    (issuedStores (see s) 1#32 (fun _ => some 0x4008) 2 4).length = 1 ∧
    (((see s).task.lodestone == some (see s).team.logical || (see s).team.buffer == []) && !s.bufferHeld (see s).ag.team) =
      (p.2 || p.1 == 0) ∧
    s.corePend = [] ∧ (∀ g ∈ s.agents, g.streamed = []) ∧ (see s).ag.team < s.teams.length := by decide +kernel

/-- A SHARED entry over local memory, with room in the buffer. -/
def localShared : State := (buffering 0 false).modAgent 0 fun g => { g with layouts := g.layouts.setIfInBounds 10 (lay 1 2 4 0 [64] [4]) }
theorem witness_localShared : WarpRuns localShared (see localShared) ∧ Kept localShared ∧ (see localShared).guardHolds 7 = 1#32 ∧
    formLayout (see localShared) ⟨4, 2#7, 3#7, 10#6, 7#3⟩ = lay 1 2 4 0 [64] [4] ∧ (lay 1 2 4 0 [64] [4]).isLocal = true ∧
    ((lay 1 2 4 0 [64] [4]).shared && (see localShared).task.deterministic) = true ∧ NoneStreamed localShared (see localShared).core ∧
    (∀ b, b < 4 → keyKind (localKey 0 8 + b) = 1) ∧ localShared.fetchHolds (localKey 0 8) 4 = false ∧
    AccessOk (see localShared) 1#32 (lay 1 2 4 0 [64] [4]) 3 4 .write fun _ => some (localKey 0 8) := by
  refine ⟨⟨rfl, rfl⟩, ⟨by decide +kernel, List.Pairwise.nil⟩, by decide +kernel, by decide +kernel, rfl, by decide +kernel,
    by unfold NoneStreamed; decide +kernel, by decide, by decide +kernel, by decide, rfl, by decide +kernel, fun i hi => ?_⟩
  obtain rfl := only0 hi
  refine ⟨by decide +kernel, ?_⟩
  unfold ElementOk
  rw [show (lay 1 2 4 0 [64] [4]).spot ((see localShared).coords (lay 1 2 4 0 [64] [4]) 3 0) = .at 8 by decide +kernel]
  exact ⟨by decide, by decide +kernel, by decide +kernel, by decide +kernel, _, rfl, rfl⟩

/-- An atomic of lane 0 in local memory: the hypotheses of the two statements about atomics. -/
theorem witness_atomics :
    ∃ f, atomicForm (.atom32 127#7 2#7 7#3 3#7 1#6 1#4 12#5 0#2) = some f ∧
      AtomicReady (oneLane aWarp) (see (oneLane aWarp)) f (fun _ => some (localKey 0 8)) ∧ Kept (oneLane aWarp) ∧
      Still (oneLane aWarp) ∧ (see (oneLane aWarp)).task.deterministic = false ∧
      (atomicEntry (see (oneLane aWarp)) f).isLocal = true ∧ f.ord = 0#2 ∧ (see (oneLane aWarp)).guardHolds 7 ≠ 0#32 := by
  refine ⟨_, rfl, ⟨by decide +kernel, clear0.1, by decide +kernel, by decide, ?_, ?_, fun h => absurd h ?_, fun h => absurd h ?_, ?_⟩, kept_aWarp, ?_, by decide +kernel,
    by decide +kernel, rfl, by rw [clear0.2]; decide⟩
  · show AccessOk _ ((see (oneLane aWarp)).guardHolds 7) _ _ _ _ _
    rw [clear0.2]
    have h : (see (oneLane aWarp)).ag.layouts.getD 1 Layout.zero = lay 1 2 0 0 [64] [4] := by decide +kernel
    unfold atomicEntry
    exact h.symm ▸ atomic0
  · intro l k _ hk; cases hk; decide +kernel
  · decide +kernel
  · decide
  · decide +kernel
  · exact ⟨rfl, rfl, by decide +kernel, by decide +kernel⟩

theorem witness_jumpsAndCalls :
    Runs aWarp (see aWarp) ∧ paramIs (see aWarp) 6 0#32 ∧ paramIs (see aWarp) 2 5#32 ∧ (see aWarp).en.stack.length < 16 ∧
    ∃ s pc rest, Runs s (see s) ∧ (see s).en.stack = pc :: rest ∧ (see s).en.stack.length = 15 :=
  ⟨rfl, by unfold paramIs; decide +kernel, by unfold paramIs; decide +kernel, by decide +kernel,
    aWarp.modEntry 0 0 fun en => { en with stack := List.replicate 15 8#64 }, 8#64, List.replicate 14 8#64, rfl, rfl, rfl⟩

/-- P0 to P6 of every lane, by register and lane. -/
def withPreds (f : Nat → Nat → Pred) (s : State) : State :=
  s.modAgent 0 fun g => { g with preds := Vector.ofFn fun p => Vector.ofFn fun l => f p.val l.val }

/-- P1 is 1 in lanes 0 to 15 and 0 in the others, P2 is 1/2 everywhere, P3 poisoned in lane 31, P4 is 1, P5 is 0. -/
def split : State := withPreds (fun p l => match p with
  | 1 => ⟨if l < 16 then 65535#16 else 0#16, 0#8, false⟩
  | 2 => ⟨32768#16, 0#8, false⟩
  | 3 => ⟨65535#16, 0#8, l == 31⟩
  | 4 => ⟨65535#16, 0#8, false⟩
  | _ => Pred.zero) aWarp

/-- BRA and BRU under a guard that splits the lanes, one that all take, one that none takes; EXIT of half the lanes. -/
theorem witness_branches : WarpRuns split (see split) ∧ GuardClear (see split) 1 ∧ GuardClear (see split) 4 ∧ GuardClear (see split) 5 ∧
    (see split).guardHolds 1 = 0xFFFF#32 ∧ (see split).guardHolds 4 = allLanes ∧ (see split).guardHolds 5 = 0#32 ∧
    2 ≤ (freeEntries (see split)).length :=
  ⟨⟨rfl, rfl⟩, by unfold GuardClear; decide +kernel, by unfold GuardClear; decide +kernel, by unfold GuardClear; decide +kernel,
    by decide +kernel, by decide +kernel, by decide +kernel, by decide +kernel⟩

/-- The guards of the traps: P3 is poisoned in one lane, P2 fractional under STRICT in every lane; a register from G on. -/
theorem witness_shapeAndGuardTraps :
    LanesAre (see split).act 0x80000000#32 (fun l => ((see split).ag.pred 3 l).poison = true) ∧
    (let s := split.modAgent 0 fun g => { g with sregs := { g.sregs with fpcsr := 4#32 } }
     WarpRuns s (see s) ∧ (see s).ag.sregs.strict = true ∧
     LanesAre (see s).act allLanes (fun l => ((see s).ag.pred 2 l).fractional = true)) ∧
    (let s := split.modTask 0 fun t => { t with info := { t.info with regsG := 16 } }
     WarpRuns s (see s) ∧ (see s).g < 16 + 1 ∧ (see s).guardHolds 1 = 0xFFFF#32) ∧
    (laneTables (.iadd 16#7 1#7 2#7 1#3)).isSome ∧ (see aWarp).guardHolds 7 = allLanes ∧
    keptBy (see aWarp) (.iadd 16#7 1#7 2#7 7#3) 0 = none ∧ (keptBy (see aWarp) (.iadd 16#7 4#7 2#7 7#3) 0).isSome :=
  ⟨⟨by decide, by decide +kernel⟩, ⟨⟨rfl, rfl⟩, by decide +kernel, by decide, by decide +kernel⟩,
    ⟨⟨rfl, rfl⟩, by decide +kernel, by decide +kernel⟩, rfl, full_p7, by decide +kernel, by decide +kernel⟩

theorem witness_shapeKept : (see aWarp).guardHolds 7 = allLanes ∧ keptShape (see aWarp) (.iadd 127#7 4#7 2#7 7#3) = some (8#32, 2#32) ∧
    keptShape (see aWarp) (.shli 3#7 4#7 31#10) = some (0x80000000#32, 0#32) ∧
    ((keptBy (see aWarp) (.selbF64 126#7 2#7 8#7 7#3) 0).isSome && (keptBy (see aWarp) (.selbF64 126#7 2#7 8#7 7#3) 1).isSome &&
      (keptBy (see aWarp) (.psum 127#7 0#3 7#3) 0).isSome && (keptBy (see aWarp) (.redux 127#7 1#7 2#7 1#3) 0).isSome &&
      (keptBy (see aWarp) (.iadd64 126#7 2#7 6#7 7#3) 1).isSome) = true := by decide +kernel

/-- The bracket of WIDE: closed, open once, open 14 deep. -/
def wideAt (n : Nat) : State :=
  aWarp.modAgent 0 fun g => { g with wide := { depth := n, entry := 0, saved := 1#32, lanes := allLanes, records := 0 } }
theorem witness_wide : Runs (wideAt 0) (see (wideAt 0)) ∧ (see (wideAt 0)).ag.wide.depth = 0 ∧ Runs (wideAt 14) (see (wideAt 14)) ∧
    (see (wideAt 14)).ag.wide.depth < 15 ∧ 1 < (see (wideAt 14)).ag.wide.depth ∧ (see (wideAt 1)).ag.wide.depth = 1 ∧
    (see (wideAt 1)).en.records.length ≤ (see (wideAt 1)).ag.wide.records ∧
    (see (wideAt 1)).en.mask = (see (wideAt 1)).ag.wide.lanes &&& ~~~(see (wideAt 1)).ag.exited :=
  ⟨rfl, rfl, rfl, by decide, by decide, rfl, by decide, by decide +kernel⟩

theorem witness_quietBoundary : ∀ en ∈ (see aWarp).ag.entries, en.mask &&& (see aWarp).ag.exited = 0#32 ∧
    en.arrived &&& (see aWarp).ag.exited = 0#32 ∧ en.records = [] ∧
    (en.kind = .running → en.mask ≠ 0#32 ∧ en.reconv ≠ some en.pc) ∧ (en.kind = .join → en.mask &&& ~~~en.arrived ≠ 0#32) := by
  decide +kernel
/-- An entry at the address 8 of its deferral record, of which half the lanes are deferred or all have run; one at its
reconvergence address with its join, which misses its lanes alone or others too. -/
def recordAt (ran : Bool) : Deferral :=
  { resume := 16#64, deferred := 0xFF00#32, full := 0xFFFF#32, target := some 8#64, stack := [], phase := ran }
def deferredAt (ran : Bool) : Entry :=
  { Entry.free with kind := .running, pc := 8#64, mask := 0xFF#32, records := [recordAt ran] }
def branchAt : Entry := { Entry.free with kind := .running, pc := 8#64, mask := 0xFF#32, reconv := some 8#64, parent := some 0 }
def joinOf (m : Mask) : Entry := { Entry.free with kind := .join, pc := 8#64, mask := m, arrived := 0xFF00#32 }
theorem witness_boundaryMoves :
    (∀ ran ∈ [true, false], NoneExited 0#32 (deferredAt ran) ∧ (deferredAt ran).records = [recordAt ran] ∧
      (recordAt ran).target = some (deferredAt ran).pc) ∧
    QuietEntry 0#32 { deferredAt false with mask := 0xFF00#32, pc := 16#64, stack := [], records := [{ recordAt false with phase := true }] } ∧
    QuietEntry 0#32 { deferredAt true with mask := 0xFFFF#32, records := [] } ∧
    (NoneExited 0#32 branchAt ∧ branchAt.mask ≠ 0#32 ∧ branchAt.reconv = some branchAt.pc ∧ branchAt.parent = some 0) ∧
    (let j := joinOf 0xFFFF#32
     j.kind = .join ∧ j.mask &&& ~~~(j.arrived ||| branchAt.mask) = 0#32 ∧
       QuietEntry 0#32 { j with kind := .running, arrived := 0#32, pending := none, hold := .ready }) ∧
    (let j := joinOf 0xFFFFFF#32
     j.mask &&& ~~~(j.arrived ||| branchAt.mask) ≠ 0#32 ∧ QuietEntry 0#32 { j with arrived := j.arrived ||| branchAt.mask }) ∧
    (0 < (wideAt 1).agents.length ∧ 0 < ((wideAt 1).agent 0).wide.depth ∧ ((wideAt 1).agent 0).wide.entry = 0 ∧
      ((wideAt 1).agent 0).entries.length = 8 ∧ NoneExited 0#32 (((wideAt 1).agent 0).entry 0)) := by
  refine ⟨by unfold NoneExited; decide, ⟨by unfold NoneExited; decide, fun _ => ⟨by decide, ?_⟩, by decide⟩,
    ⟨by unfold NoneExited; decide, fun _ => ⟨by decide, ?_⟩, by decide⟩, by unfold NoneExited; decide,
    ⟨by decide, by decide, by unfold NoneExited; decide, fun _ => ⟨by decide, ?_⟩, by decide⟩,
    ⟨by decide, by unfold NoneExited; decide, fun h => absurd h (by decide), by decide⟩, by unfold NoneExited; decide +kernel⟩
  · exact (by decide : some 8#64 ≠ some 16#64)
  all_goals exact (by decide : none ≠ some 8#64)
/-- Another entry 10, and a register. -/
def withEntry (l : Layout) (s : State) : State := s.modAgent 0 fun g => { g with layouts := g.layouts.setIfInBounds 10 l }
def withReg (r : Nat) (v : VReg) (s : State) : State := s.modAgent 0 fun g => g.setReg r v

/-- Lane 0 with a poisoned coordinate; out of bounds at 64 of 64; a byte past local memory; misaligned at its last words; at a VA
that no page maps. -/
def poisoned0 : State := withReg 3 ⟨.uniform 2#32, 1#32⟩ (oneLane aWarp)
def outside0 : State := withReg 3 (uni 64) (oneLane aWarp)
def over0 : State := withEntry (lay 1 2 0 4093 [64] [0]) (oneLane aWarp)
def askew0 : State := withEntry (lay 1 2 0 4090 [64] [0]) (oneLane aWarp)
def unmapped0 : State := withEntry (lay 0 2 0 (2 ^ 39) [64] [0]) (oneLane aWarp)
theorem witness_accessTraps :
    WarpRuns (oneLane aWarp) (see (oneLane aWarp)) ∧ (accessForm (.ld32 127#7 3#7 0#6 0#1 7#3)).isSome ∧
    ¬ (1 ≤ ((see (oneLane aWarp)).ag.layouts.getD 0 Layout.zero).dims.toNat) ∧
    (WarpRuns poisoned0 (see poisoned0) ∧ LanesAre 1#32 1#32 fun j => ∃ k, k < 1 ∧ ((see poisoned0).ag.reg (3 + k)).marked j = true) ∧
    (WarpRuns outside0 (see outside0) ∧ LanesAre 1#32 1#32 fun j =>
      (lay 1 2 0 0 [64] [4]).spot ((see outside0).coords (lay 1 2 0 0 [64] [4]) 3 j) = .out) ∧
    (WarpRuns over0 (see over0) ∧ (lay 1 2 0 4093 [64] [0]).spot ((see over0).coords (lay 1 2 0 4093 [64] [0]) 3 0) = .at 4093 ∧
      (see over0).task.localAlloc < 4093 + 4) ∧
    (WarpRuns askew0 (see askew0) ∧ (lay 1 2 0 4090 [64] [0]).spot ((see askew0).coords (lay 1 2 0 4090 [64] [0]) 3 0) = .at 4090 ∧
      4090 + 4 ≤ (see askew0).task.localAlloc ∧ 4090 % 4 ≠ 0) ∧
    (WarpRuns unmapped0 (see unmapped0) ∧
      (lay 0 2 0 (2 ^ 39) [64] [0]).spot ((see unmapped0).coords (lay 0 2 0 (2 ^ 39) [64] [0]) 3 0) = .at (2 ^ 39) ∧
      (see unmapped0).place (lay 0 2 0 (2 ^ 39) [64] [0]) (2 ^ 39) .read = .fail 0x10) ∧ IsLowest 1#32 0 :=
  ⟨⟨rfl, rfl⟩, rfl, by decide +kernel, ⟨⟨rfl, rfl⟩, by unfold LanesAre; decide +kernel⟩,
    ⟨⟨rfl, rfl⟩, by unfold LanesAre; decide +kernel⟩, ⟨⟨rfl, rfl⟩, by decide +kernel, by decide +kernel⟩,
    ⟨⟨rfl, rfl⟩, by decide +kernel, by decide +kernel, by decide⟩, ⟨⟨rfl, rfl⟩, by decide +kernel, by decide +kernel⟩,
    by unfold IsLowest; decide⟩

/-- Lanes 0 and 1 of a warp, at VA 0x4000 and at one that no page maps: lane 0 goes on, lane 1 traps. -/
def twoLanes : State := withEntry (lay 0 2 0 0x4000 [64] [2 ^ 39]) (aWarp.modEntry 0 0 fun en => { en with mask := 3#32 })
theorem witness_mixedLanes : WarpRuns twoLanes (see twoLanes) ∧ (see twoLanes).guardHolds 7 = 3#32 ∧
    (∀ i ∈ [Instr.ld32 127#7 1#7 10#6 0#1 7#3, .st32 2#7 1#7 10#6 0#1 7#3, .atom32 127#7 2#7 7#3 1#7 10#6 1#4 1#5 0#2],
      (accessForm i).isSome = true) ∧ (1#4).toNat < (see twoLanes).depth ∧
    (let l := (see twoLanes).ag.layouts.getD 10 Layout.zero
     twoLanes.keptBack l = false ∧ twoLanes.silent l = false ∧
      (∀ acc ∈ [Access.read, .write, .atomic], ((see twoLanes).place l (0x4000 + 2 ^ 39) acc).cause = some 0x10 ∧
        (see twoLanes).place l 0x4000 acc = .key 0x4000) ∧
      l.spot ((see twoLanes).coords l 1 0) = .at 0x4000 ∧ l.spot ((see twoLanes).coords l 1 1) = .at (0x4000 + 2 ^ 39)) ∧
    IsLowest 2#32 1 ∧ twoLanes.fetchHolds 0x4000 4 = false ∧ (see twoLanes).task.deterministic = false :=
  ⟨⟨rfl, rfl⟩, by decide +kernel, by decide +kernel, by decide +kernel, by decide +kernel, by unfold IsLowest; decide, by decide +kernel,
    by decide +kernel⟩

theorem witness_treeQueries : (1 : Nat) < (see aWarp).depth ∧ (see aWarp).depth = 2 ∧ (see aWarp).ag.kind = .warp ∧
    fanProduct ((see aWarp).task.declared.filter (·.phys == 0)) = 32 ∧ (127 : Nat) < (see aWarp).g := by decide +kernel

theorem witness_treeSequencer : Runs aTile (see aTile) ∧ (see aTile).ag.kind ≠ .warp ∧
    (∀ l < 2, l < (see aTile).depth) ∧ (see aTile).phys 0 = 2 ∧ (see aTile).phys 1 = 0 := ⟨rfl, by decide +kernel⟩

theorem witness_specialRegisters :
    (specialWords (see aWarp) 10#10).isSome ∧ (specialWords (see aWarp) 3#10).isSome ∧ (specialWords (see aTile) 5#10).isSome ∧
    specialFor (see aWarp).ag.kind 6#10 = true ∧ srWords 6#10 = some 4 ∧ srWords 5#10 = some 2 ∧
    specialFor (see aTile).ag.kind 5#10 = true ∧
    ∀ j, j < 4 → uniformOf ((see aWarp).ag.reg (5 + j)) = some ([0x4000#32, 0#32, 1#32, 0x4100#32].getD j 0#32) ∧
      ((see aWarp).ag.reg (5 + j)).poison = 0#32 := by decide +kernel

theorem alone : Alone aWarp (see aWarp) := by
  refine ⟨rfl, by decide +kernel, by decide +kernel, by decide +kernel, rfl, rfl, by decide +kernel, by decide +kernel, rfl, rfl, rfl, ?_⟩
  have h : ∀ en ∈ (see aWarp).ag.entries, en.hold = .ready := by decide +kernel
  intro en he l d; rw [h en he]; simp

theorem witness_waitsAlone : WarpRuns aWarp (see aWarp) ∧ Alone aWarp (see aWarp) ∧
    (63 : Nat) < (aWarp.cores.getD (see aWarp).core default).barriers ∧ paramIs (see aWarp) 2 5#32 ∧
    (0 : Nat) < (see aWarp).depth ∧ (see aWarp).phys 0 ≠ 0 ∧ (see aWarp).team.logical = 0 ∧ MayRelease aWarp 0 .core ∧
    (see aWarp).task.declared = [⟨1, 2, true⟩] ++ [⟨32, 0, true⟩] :=
  ⟨sees, alone, by decide +kernel, by unfold paramIs; decide +kernel, by decide +kernel, by decide +kernel, rfl, by decide +kernel,
    by decide +kernel⟩

/-- Two warps of a team, with a level bound to WARP; the other one waits at a COLL at level 0, to which it has contributed 7, or has
not arrived. -/
def gathering (came : Bool) : Instance :=
  { task := 0, kind := .coll 0 0, node := 0, arrivals := if came then [(1, allLanes)] else []
    offers := if came then [(1, allLanes, 7#64, false)] else [], count := none, owes := []
    contributions := if came then [{ agent := some 1, position := 32, value := 7#64, poison := false }] else [] }
def twoWarps (came : Bool) : State :=
  let s := aWarp.modTask 0 fun t =>
    { t with binding := [⟨1, 2, true⟩, ⟨2, 1, true⟩, ⟨32, 0, true⟩], info := { t.info with tree := [⟨1, 2⟩, ⟨2, 1⟩, ⟨32, 0⟩] } }
  let other : Agent := { s.agent 0 with number := 1 }
  { s with
    instances := [gathering came]
    agents := s.agents ++ [if came then other.modEntry 0 fun en => { en with hold := .barrier [0] (some (9, false)) } else other] }
theorem ofTwo {P : Nat → Agent → Prop} {s : State} (h : s.agents.length = 2) (h0 : ∀ g, s.agents[0]? = some g → P 0 g)
    (h1 : ∀ g, s.agents[1]? = some g → P 1 g) (b : Nat) (g : Agent) (hb : s.agents[b]? = some g) : P b g := by
  match b with
  | 0 => exact h0 g hb
  | 1 => exact h1 g hb
  | n + 2 => simp [List.getElem?_eq_none (show s.agents.length ≤ n + 2 by omega)] at hb
theorem gathers (came : Bool) : ∃ f, waitForm (see (twoWarps came)) (.coll 0#4 9#7 2#7 0#2 0#3) = some f ∧ f.point = none ∧
    f.dest = some (9, false) ∧ Gathers (twoWarps came) (see (twoWarps came)) f (gathering came) := by
  refine ⟨_, rfl, rfl, rfl, .inl rfl, rfl, rfl, ?_, rfl, rfl, rfl, ?_, ?_, ?_, ?_, ?_, ?_, ?_⟩
  · cases came <;> decide +kernel
  · cases came <;> decide +kernel
  · cases came <;> decide +kernel
  · have h : ∀ en ∈ (see (twoWarps came)).ag.entries, en.hold = .ready := by cases came <;> decide +kernel
    intro en he l d; rw [h en he]; simp
  · cases came <;> decide
  · cases came <;> decide
  · cases came <;> decide
  · intro n hn; cases hn
theorem witness_waitInstances :
    (∀ came, WarpRuns (twoWarps came) (see (twoWarps came)) ∧ WaitOffers (twoWarps came) (see (twoWarps came)) 5#64 (.coll 0#4 9#7 2#7 0#2 0#3)) ∧
    ¬ AllCame (twoWarps false) (see (twoWarps false)) (withArrival (see (twoWarps false)) 5#64 (gathering false)) ∧
    AllCame (twoWarps true) (see (twoWarps true)) (withArrival (see (twoWarps true)) 5#64 (gathering true)) ∧
    (∀ z ∈ (gathering true).arrivals, z.1 < (twoWarps true).agents.length ∧ ((twoWarps true).agent z.1).phase ≠ .saved) ∧
    IsLowest (see (twoWarps true)).act 0 ∧
    Contributed (see (twoWarps true)) 0 (gathering true) { agent := some 0, position := 0, value := 5#64, poison := false } := by
  refine ⟨fun came => ⟨⟨rfl, rfl⟩, ?_⟩, ?_, ?_, by decide +kernel, by unfold IsLowest; decide +kernel, ?_⟩
  · refine ⟨by cases came <;> decide +kernel, by cases came <;> decide +kernel, ?_⟩
    rw [if_neg (by decide)]
    exact ⟨5#32, by unfold paramIs; cases came <;> decide +kernel, rfl⟩
  · intro h
    have h1 := (h 0 ((twoWarps false).team 0) (by decide +kernel) (by decide +kernel) 1 (by decide +kernel) (by decide +kernel)).2 1
      ((twoWarps false).agent 1) (by decide +kernel) (by decide +kernel) (by decide +kernel) (by decide +kernel)
    exact absurd h1 (by decide +kernel)
  · intro u tm hu _ w _ _
    match u with
    | 0 =>
      refine ⟨?_, ?_⟩
      · have : tm = (twoWarps true).team 0 := by
          have h : (twoWarps true).teams[0]? = some ((twoWarps true).team 0) := by decide +kernel
          rw [h] at hu; exact (Option.some.inj hu).symm
        rw [this]; decide +kernel
      · refine ofTwo (by decide +kernel) (fun g hg _ _ _ => ?_) (fun g hg _ _ _ => ?_)
        · have h : (twoWarps true).agents[0]? = some ((twoWarps true).agent 0) := by decide +kernel
          rw [h] at hg; obtain rfl := Option.some.inj hg
          decide +kernel
        · have h : (twoWarps true).agents[1]? = some ((twoWarps true).agent 1) := by decide +kernel
          rw [h] at hg; obtain rfl := Option.some.inj hg
          decide +kernel
    | n + 1 => simp [List.getElem?_eq_none (show (twoWarps true).teams.length ≤ n + 1 by
        have : (twoWarps true).teams.length = 1 := by decide +kernel
        omega)] at hu
  · unfold Contributed; decide +kernel
/-- The tree of R124 of three values, the middle one absent. -/
theorem witness_tree : TreeGives 0 [some (1#64, 0#6, false), none, some (2#64, 0#6, false)] (some (3#64, 0#6, false)) :=
  .join 1 [_, _] [_] (some (1#64, 0#6, false)) (some (2#64, 0#6, false)) _ rfl (by simp) (by decide)
    (.join 0 [_] [_] (some (1#64, 0#6, false)) none _ rfl (by simp) (by decide) (.one _) (.one _) rfl) (.one _)
    ⟨(3#64, 0#6, false), ⟨0#6, rfl, rfl, .inr (by decide), by decide, rfl⟩, rfl⟩

/-- A store to the Granary stands in the buffer, and it is not the team's turn: no release, not even at the core, may be performed. -/
def granBuffered : State := (buffering 0 false).modTeam 0 fun t =>
  { t with buffer := [{ agent := 0, store := storeOf (granKey 0 8) 4 [] [] }] }
theorem witness_granaryBuffered : WarpRuns granBuffered (see granBuffered) ∧ (see granBuffered).ag.frames = [] ∧
    (∀ p ∈ [Point.core, .cluster, .home], ¬ MayRelease granBuffered 0 p) ∧ paramIs (see granBuffered) 2 5#32 ∧
    (63 : Nat) < (granBuffered.cores.getD (see granBuffered).core default).barriers ∧
    (∀ j, j < 8 → (uniformOf ((see granBuffered).ag.reg ((9#7).toNat + j))).isSome) ∧ paramIs (see granBuffered) 6 0#32 ∧
    (see granBuffered).task.info.sectionAt 1 = some (4096, 4096) ∧ granBuffered.freeContext (see granBuffered).cluster .tileSeq = some 0 :=
  ⟨⟨rfl, rfl⟩, rfl, by decide +kernel, by unfold paramIs; decide +kernel, by decide +kernel, by decide +kernel,
    by unfold paramIs; decide +kernel, by decide +kernel, by decide +kernel⟩

/-- The first of two warps to come to BAR 63, in its team's turn and with a store to the Granary in the buffer. -/
def barrierFirst : State := (({ twoWarps false with instances := [] } : State).modTask 0 fun t =>
  { t with chain := [{ (default : Region) with deterministic := true }], lodestone := some 0 }).modTeam 0 fun t =>
    { t with buffer := [{ agent := 0, store := storeOf (granKey 0 8) 4 [] [] }] }
def barrier63 : Instance :=
  { task := 0, kind := .bar 63, node := 0, arrivals := [], offers := [], count := none, owes := [], contributions := [] }
theorem witness_waitDrains : WarpRuns barrierFirst (see barrierFirst) ∧
    ∃ f, waitForm (see barrierFirst) (.bar 2#7 63#6) = some f ∧ f.point = some .core ∧ MayRelease barrierFirst 0 .core ∧
      WaitOffers barrierFirst (see barrierFirst) 5#64 (.bar 2#7 63#6) ∧ Gathers barrierFirst (see barrierFirst) f barrier63 ∧
      ¬ AllCame barrierFirst (see barrierFirst) (withArrival (see barrierFirst) 5#64 barrier63) ∧
      ∃ b ∈ (see barrierFirst).team.buffer, b.agent = 0 ∧ beyondCore .core b.store.key := by
  refine ⟨⟨rfl, rfl⟩, _, rfl, rfl, by decide +kernel, ⟨by decide +kernel, 5#32, by unfold paramIs; decide +kernel, rfl⟩, ?_, ?_,
    _, List.mem_singleton.2 rfl, rfl, by decide⟩
  · refine ⟨.inr ⟨rfl, rfl, rfl, rfl, rfl⟩, by decide +kernel, rfl, by decide +kernel, rfl, rfl, by decide +kernel, by decide +kernel,
      by decide +kernel, ?_, by decide, by decide, by decide, fun _ _ _ => rfl⟩
    have h : ∀ en ∈ (see barrierFirst).ag.entries, en.hold = .ready := by decide +kernel
    intro en he l d; rw [h en he]; simp
  · intro h
    have h1 := h 1 (barrierFirst.agent 1) (by decide +kernel)
    exact absurd h1 (by decide +kernel)

theorem witness_fences : (Runs aWarp (see aWarp) ∧ (see aWarp).ag.due = [] ∧ (1#4).toNat < (see aWarp).depth ∧ (∀ v ∈ aWarp.invs, v.agent ≠ (see aWarp).a) ∧
      MayRelease aWarp 0 .home) ∧
    (let s := buffering 1 false
     Runs s (see s) ∧ (1#4).toNat < (see s).depth ∧ ¬ MayRelease s 0 .home ∧ MayRelease s 0 .core) ∧ MayRelease (buffering 1 true) 0 .home :=
  ⟨⟨rfl, rfl, by decide +kernel, by decide +kernel, by decide +kernel⟩, ⟨rfl, by decide +kernel, by decide +kernel, by decide +kernel⟩,
    by decide +kernel⟩

theorem witness_releasePerforms : Kept aWarp ∧ (aWarp.agent 0).streamed = [] ∧
    (∀ q ∈ aWarp.corePend ++ aWarp.clusterPend, ¬ (q.store.key ≤ 8 ∧ 8 < q.store.key + q.store.bytes.length)) :=
  ⟨⟨by decide +kernel, List.Pairwise.nil⟩, by decide +kernel, by decide +kernel⟩

/-- With a store of the agent and one of another agent of its team in the team's buffer. -/
def twoBuffered : State := (buffering 0 false).modTeam 0 fun t =>
  { t with buffer := [{ agent := 0, store := storeOf 0x8000 4 [] [] }, { agent := 7, store := storeOf 0x8000 4 [] [], order := 1 }] }
theorem witness_releaseBuffered : Kept twoBuffered ∧ (twoBuffered.agent 0).team = 0 ∧ (∀ g ∈ twoBuffered.agents, g.streamed = []) ∧
    ∃ b ∈ (twoBuffered.team 0).buffer, b.agent = 0 := ⟨⟨by decide +kernel, List.Pairwise.nil⟩, by decide +kernel⟩

/-- The task in deterministic mode, its first team with the Lodestone. -/
def strictOrder : State := aWarp.modTask 0 fun t => { t with chain := [{ (default : Region) with deterministic := true }], lodestone := some 0 }
theorem witness_deterministicTurns : WarpRuns aWarp (see aWarp) ∧ (see aWarp).task.deterministic = false ∧
    WarpRuns strictOrder (see strictOrder) ∧ (see strictOrder).task.deterministic = true ∧
    (see strictOrder).task.lodestone = some (see strictOrder).team.logical ∧ (∀ g ∈ strictOrder.agents, g.streamed = []) ∧
    (∀ u ∈ strictOrder.teams, u.task = (see strictOrder).team.task → u.phase ≠ .retired →
      (see strictOrder).team.clock.toNat ≤ u.clock.toNat) :=
  ⟨⟨rfl, rfl⟩, by decide +kernel, ⟨rfl, rfl⟩, by decide +kernel, rfl, by decide +kernel, by decide +kernel⟩

/-- Its team's turn, with no fault and with a warp in a handler; and a TKPASS of the latter that is due once the fault is resolved. -/
def faultedTurn (n : Nat) : State := strictOrder.modAgent 0 fun g => { g with frames := List.replicate n default }
theorem witness_turns : (∀ n ∈ [0, 1], let s := faultedTurn n
      issuer s = some (see s) ∧ (see s).task.deterministic = true ∧ Turn s (see s).ag.team ∧ (see s).ag.frames.length = n ∧
      s.bufferHeld (see s).ag.team = false ∧ s.agents.all (fun g => match g.phase with | .stopped _ _ => false | _ => true) = true) ∧
    (let s := strictOrder.modTeam 0 fun t => { t with passDue := true }
     (see s).team.passDue = true ∧ ¬ Turn s (see s).ag.team ∧ s.bufferHeld (see s).ag.team = false) := by
  refine ⟨fun n hn => ?_, by decide +kernel⟩
  simp only [List.mem_cons, List.not_mem_nil, or_false] at hn
  obtain rfl | rfl := hn <;> exact ⟨rfl, by decide +kernel⟩

/-- An image of an entry of one dimension of 64 words in memory at VA 0x4000. -/
def imaged : State := aWarp.modAgent 0 fun g => { g with view := ((g.view.write 0x4009 2#8).write 0x400A 1#8).write 0x4010 64#8 }
theorem witness_layoutEntries : Runs imaged (see imaged) ∧ paramPair (see imaged) 5#7 0x4000#64 ∧
    (see imaged).place Layout.global 0x4000 .read = .key 0x4000 ∧ (∀ j, j < 64 → (see imaged).ag.view.marked (0x4000 + j) = false) ∧
    (Layout.ofBytes ((see imaged).ag.view.readBytes 0x4000 64)).imageOk = true ∧ (126#7).toNat + 2 ≤ 128 :=
  ⟨rfl, by unfold paramPair paramIs; decide +kernel, by decide +kernel, by decide +kernel, by decide +kernel, by decide⟩

/-- The agent in a handler. -/
def handled : State := (aWarp.modTask 0 fun t => { t with chain := [{ (default : Region) with va := 0x4000#64, handler := 0x4100#64 }] }).modAgent 0 fun g =>
  { g with frames := [{ (default : Frame) with lanes := allLanes }] }
theorem witness_countersAndServices : Runs aWarp (see aWarp) ∧ (126#7).toNat + 2 ≤ 128 ∧ paramIs (see aWarp) 2 5#32 ∧
    paramIs (see aWarp) 3 2#32 ∧ Kept aWarp ∧ (∃ r, (see handled).task.chain = [r]) ∧ paramPair (see aWarp) 5#7 0x4000#64 ∧
    (1#4).toNat < (see aWarp).depth ∧ paramPair (see handled) 5#7 0x4000#64 ∧ Runs handled (see handled) ∧ (see handled).ag.frames ≠ [] :=
  ⟨rfl, by decide, by unfold paramIs; decide +kernel, by unfold paramIs; decide +kernel, ⟨by decide +kernel, List.Pairwise.nil⟩,
    ⟨_, rfl⟩, by unfold paramPair paramIs; decide +kernel, by decide +kernel, by unfold paramPair paramIs; decide +kernel, rfl,
    by decide +kernel⟩

theorem witness_lookupLanes : WarpRuns aWarp (see aWarp) ∧ GuardClear (see aWarp) 7 ∧ (127#7).toNat + 1 ≤ (see aWarp).g :=
  ⟨sees, by unfold GuardClear; decide +kernel, by decide +kernel⟩

/-- CSTORE of lane 0 at position 5 of the global words, and of no lane. -/
theorem witness_compactingStore : WarpRuns (oneLane aWarp) (see (oneLane aWarp)) ∧ GuardClear (see (oneLane aWarp)) 7 ∧
    paramIs (see (oneLane aWarp)) 6 0#32 ∧ paramIs (see (oneLane aWarp)) 3 2#32 ∧
    (see (oneLane aWarp)).ag.layouts.getD 2 Layout.zero = lay 0 2 0 0x4000 [64] [4] ∧
    lanesWith (inMask ((see (oneLane aWarp)).guardHolds 7)) = [0] ∧ (see (oneLane aWarp)).task.deterministic = false ∧
    ∃ w, CompactStores (see (oneLane aWarp)) (lay 0 2 0 0x4000 [64] [4]) 2 [0] [0] 2#32 (oneLane aWarp) w := by
  refine ⟨⟨rfl, rfl⟩, clear0.1, by unfold paramIs; decide +kernel, by unfold paramIs; decide +kernel, by decide +kernel,
    by decide +kernel, by decide +kernel, ?_⟩
  unfold CompactStores
  rw [show (lay 0 2 0 0x4000 [64] [4]).spot ([0].modify 0 (· + ((2#32).toNat : Int))) = .at 0x4008 by decide +kernel]
  exact ⟨_, by decide, by decide, by decide, 0x4008, by decide +kernel, by decide +kernel, rfl⟩

/-- The same where position 2 lies outside the entry: it traps as the first element. -/
def narrowEntry : State := withEntry (lay 0 2 0 0x4000 [2] [4]) (oneLane aWarp)
theorem witness_compactingTrap : WarpRuns narrowEntry (see narrowEntry) ∧
    lanesWith (inMask ((see narrowEntry).guardHolds 7)) = [] ++ 0 :: [] ∧
    (see narrowEntry).ag.layouts.getD 10 Layout.zero = lay 0 2 0 0x4000 [2] [4] ∧
    narrowEntry.silent (lay 0 2 0 0x4000 [2] [4]) = false ∧ narrowEntry.keptBack (lay 0 2 0 0x4000 [2] [4]) = false ∧
    ElementFails (see narrowEntry) (lay 0 2 0 0x4000 [2] [4]) (([0] : List Int).modify 0 (· + (((2#32) + BitVec.ofNat 32 0).toNat : Int)))
      4 .write 0x09 0 0 := by
  refine ⟨⟨rfl, rfl⟩, by decide +kernel, by decide +kernel, by decide +kernel, by decide +kernel, ?_⟩
  unfold ElementFails
  rw [show (lay 0 2 0 0x4000 [2] [4]).spot (([0] : List Int).modify 0 (· + (((2#32) + BitVec.ofNat 32 0).toNat : Int))) = .out by
    decide +kernel]
  exact ⟨rfl, rfl, rfl⟩

/-- A read stream and a write stream over the global words through the index words at VA 0x4000, which are 0. -/
def streaming (write : Bool) : State := (oneLane aWarp).modAgent 0 fun g =>
  { g with streams := [{ setUp := true, write := write, entry := lay 0 2 0 0x8000 [64] [4], index := lay 0 2 0 0x4000 [64] [4],
                         coords := [1], start := 3, count := 4, next := 3, fifo := [] }] }
theorem witness_streamLanes :
    (Runs aWarp (see aWarp) ∧ (see aWarp).ag.layouts.getD 2 Layout.zero = lay 0 2 0 0x4000 [64] [4] ∧
      (∀ j, j < 4 → paramIs (see aWarp) (6 + j) ([0#32, 1#32, 0x4100#32, 0#32].getD j 0#32)) ∧ paramIs (see aWarp) 3 2#32 ∧
      (see aWarp).ag.layouts.getD 0 Layout.zero = Layout.zero) ∧
    (WarpRuns (streaming false) (see (streaming false)) ∧ GuardClear (see (streaming false)) 7 ∧
      (see (streaming false)).guardHolds 7 = 1#32 ∧ (127#7).toNat + 1 ≤ (see (streaming false)).g ∧
      StreamGives (see (streaming false)) ((see (streaming false)).ag.stream 0) 1 (fun _ => some 0x8004) fun _ => false) ∧
    (WarpRuns (streaming true) (see (streaming true)) ∧ (see (streaming true)).guardHolds 7 = 1#32 ∧
      ∃ w, StreamTakes (see (streaming true)) 0 2 [0] (streaming true) w) := by
  refine ⟨⟨rfl, by decide +kernel, by unfold paramIs; decide +kernel, by unfold paramIs; decide +kernel, by decide +kernel⟩,
    ⟨⟨rfl, rfl⟩, by unfold GuardClear; decide +kernel, by decide +kernel, by decide +kernel, fun e he => ?_⟩,
    ⟨rfl, rfl⟩, by decide +kernel, ?_⟩
  · obtain rfl : e = 0 := by omega
    exact .inl (by decide +kernel : (see (streaming false)).streamElem ((see (streaming false)).ag.stream 0) 3 = .here (some 0x8004) false)
  · unfold StreamTakes
    exact ⟨_, some 0x8004, false, .inl (by decide +kernel), rfl⟩

/-- The element that the streams would take next lies out of bounds: it traps LAYOUT. -/
def streamingOut (write : Bool) : State := (streaming write).setStream 0 0 fun x => { x with coords := [64] }
theorem witness_streamTraps : ∀ w ∈ [false, true], let s := streamingOut w
    issuer s = some (see s) ∧ (see s).ag.kind = .warp ∧ (see s).guardHolds 7 = 1#32 ∧ lanesWith (inMask 1#32) = [] ++ 0 :: [] ∧
    ((see s).ag.stream 0).write = w ∧ ((see s).ag.stream 0).fifo.length ≤ 0 ∧
    s.keptBack ((see s).ag.stream 0).entry = false ∧ s.silent ((see s).ag.stream 0).entry = false ∧
    (see s).streamElem ((see s).ag.stream 0) (((see s).ag.stream 0).next + 0) = .fail 0x09 0 0 none := by
  intro w hw
  simp only [List.mem_cons, List.not_mem_nil, or_false] at hw
  obtain rfl | rfl := hw <;> exact ⟨rfl, by decide +kernel⟩

/-- Words into memory, by address. -/
def poke (l : List (Nat × Nat)) (s : State) : State :=
  { s with mem := l.foldl (fun m p => m.writeBytes p.1 (bytesOfNat 4 p.2)) s.mem }

/-- A packet at VA 0x4000 that names a code object at 0x20000 (two levels, 1 CORE and 32 LANE, four registers, one section of
text) and a region, which is the root region of the launching task; a TLB entry holds the page. -/
def launchWith (region : Nat) : State :=
  let s := poke [(0x4000, 0x20000), (0x4030, region), (0x20000, 0x58444E47), (0x20004, 0x04040001), (0x20010, 0x80), (0x20014, 0xC0),
    (0x20018, 1), (0x20080, 2), (0x20084, 0x41), (0x20094, 0x20001), (0x20098, 0x42), (0x200A8, 32), (0x200C8, 0x100), (0x200D0, 16)]
    (aWarp.modTask 0 fun t => { t with chain := [{ (default : Region) with va := 0x30000#64 }] })
  { s with tlbs := [{ die := 0, space := 0, level := 3, va := 0, pte := 0xDF#64 }] }
def launchBy (c : Ctx) : LaunchBy :=
  { launcher := .task c.team.task, id := c.task.nextChild, space := c.task.space, die := c.die, parent := some c.team.task }

/-- How a launch by the agent is checked: the launch fault, none when it binds. -/
def checked (s : State) : Option (Option Nat) :=
  ((s.release (see s).a .home).readClean (see s).die (see s).task.space 0x4000#64 192).map fun b =>
    match (s.release (see s).a .home).check (launchBy (see s)) (Packet.ofBytes b) with
    | .ok _ => none
    | .error e => some e

/-- A child of the agent's task with an id. -/
def withChild (phase : TaskPhase) : State :=
  { aWarp with tasks := aWarp.tasks ++ [{ placedTask 0 0 with launcher := .task 0, id := 5, phase := phase, status := 1 }] }

theorem witness_launchAnswers :
    (∀ s ∈ [launchWith 0x30000, launchWith 1], issuer s = some (see s) ∧ paramPair (see s) 5#7 0x4000#64 ∧
      s.packetFault (see s).die (see s).task.space 0x4000#64 = none ∧ (see s).task.nextChild ≠ 0) ∧
    checked (launchWith 0x30000) = some none ∧ checked (launchWith 1) = some (some 0x49) ∧
    paramIs (see aWarp) 2 5#32 ∧ noChild aWarp (see aWarp) 5#32 ∧
    (∀ p ∈ [TaskPhase.retired, TaskPhase.queued], issuer (withChild p) = some (see (withChild p)) ∧
      paramIs (see (withChild p)) 2 5#32 ∧ ∃ t, isChild (withChild p) (see (withChild p)) 5#32 t ∧ t.phase = p) := by
  refine ⟨?_, by decide +kernel, by decide +kernel, by unfold paramIs; decide +kernel, by unfold noChild; decide +kernel, ?_⟩
  · intro s hs
    have h : ∀ s ∈ [launchWith 0x30000, launchWith 1], (uniformOf ((see s).ag.reg 5) = some 0x4000#32 ∧ ((see s).ag.reg 5).poison = 0#32) ∧
      (uniformOf ((see s).ag.reg 6) = some 0#32 ∧ ((see s).ag.reg 6).poison = 0#32) ∧
      s.packetFault (see s).die (see s).task.space 0x4000#64 = none ∧ (see s).task.nextChild ≠ 0 := by decide +kernel
    refine ⟨?_, ⟨(h s hs).1, (h s hs).2.1⟩, (h s hs).2.2⟩
    simp only [List.mem_cons, List.not_mem_nil, or_false] at hs
    obtain rfl | rfl := hs <;> rfl
  · intro p hp
    simp only [List.mem_cons, List.not_mem_nil, or_false] at hp
    obtain rfl | rfl := hp <;> exact ⟨rfl, by unfold paramIs; decide +kernel, _, rfl, rfl⟩

/-- Ranges one after the other share no byte. -/
theorem apart_of {x y : Nat × Nat} (h : x.1 + x.2 ≤ y.1 ∨ y.1 + y.2 ≤ x.1) : Apart x y := fun k hk => by omega

/-- The code object of the launch passes the checks of R259, and its region's chain is one block. -/
def launched : State := launchWith 0x30000
/-- Bytes of the launching state. -/
def readAt (va : DWord) (n : Nat) : List Byte := (launched.readClean 0 0 va n).getD []
theorem witness_codeOk : ∃ i, CodeOk launched 0 0 0x20000#64 i := by
  refine ⟨_, readAt 0x20000#64 128, readAt 0x20080#64 4, readAt 0x20080#64 44, readAt 0x200C0#64 24, by decide, by decide +kernel,
    by decide +kernel, by decide +kernel, by decide +kernel, by decide +kernel, by decide +kernel, ?_, by decide +kernel, by decide +kernel,
    by decide +kernel, by decide +kernel, ?_, ?_, ?_, ?_, ?_, by decide +kernel, rfl⟩
  · unfold zeroAt; decide +kernel
  · intro k hk
    have h2 : k < 2 := lt_of_lt_of_le hk (by decide +kernel)
    obtain rfl | rfl : k = 0 ∨ k = 1 := by omega
    all_goals refine ⟨by unfold zeroAt; decide +kernel, by decide +kernel, ⟨1, by decide, by decide, by decide +kernel, ?_⟩, by decide +kernel⟩
    all_goals unfold zeroAt; decide +kernel
  · intro k hk
    obtain rfl : k = 0 := by have : numAt (readAt 0x20000#64 128) 0x18 4 = 1 := by decide +kernel
                             omega
    refine ⟨by unfold zeroAt; decide +kernel, by decide +kernel, fun j hj => absurd hj (Nat.not_lt_zero j)⟩
  · exact ⟨0, by decide +kernel⟩
  · intro k hk
    obtain rfl : k = 0 := by have : numAt (readAt 0x20000#64 128) 0x18 4 = 1 := by decide +kernel
                             have := hk.1
                             omega
    refine ⟨fun j hj hne => absurd hj.1 ?_, fun x hx => apart_of ?_⟩
    · have : numAt (readAt 0x20000#64 128) 0x18 4 = 1 := by decide +kernel
      omega
    · revert x; decide +kernel
  · intro k hk
    obtain rfl : k = 0 := by have : numAt (readAt 0x20000#64 128) 0x18 4 = 1 := by decide +kernel
                             omega
    exact fun h => absurd h (by decide +kernel)

/-- The one block of the region's chain. -/
def chained : Region × Word := ((launched.readChain 0 0 16 0x30000#64).getD []).headD default
theorem witness_effective (r : Region × Word) : Effective [r] [r.1] := ⟨[], rfl, rfl⟩
theorem witness_chain : ChainFrom launched 0 0 16 0x30000#64 [chained] := by
  unfold ChainFrom
  refine ⟨(launched.readVa 0 0 0x30000#64 256).getD [], by decide +kernel, by decide, ⟨0x30000, by decide +kernel⟩,
    .inl ⟨0x30000, by decide +kernel⟩, by decide +kernel, by decide +kernel, ?_, by decide +kernel, ?_, by decide +kernel,
    by decide +kernel, ?_⟩
  · unfold zeroAt; decide +kernel
  · exact fun j hj => of_decide_eq_true ((List.all_eq_true.1 (by decide +kernel : ((List.range 176).all fun j => decide
      ((((launched.readVa 0 0 0x30000#64 256).getD []).map (·.1)).getD (0x50 + j) 0#8 = 0#8)) = true)) j (List.mem_range.2 hj))
  · rw [if_pos (by decide +kernel)]

/-- A fork with a text section, with a context free and with every context taken. -/
def crowded : State := { aWarp with agents := aWarp.agents ++ (List.range 64).map fun n =>
  { Agent.fresh .tileSeq 0 n 0#64 1#32 1 (Vector.replicate 64 Layout.zero) with regs := Vector.replicate 128 (uni 0) } }
theorem witness_forkStarts : Runs aWarp (see aWarp) ∧ paramIs (see aWarp) 6 0#32 ∧
    (∀ j, j < 8 → (uniformOf ((see aWarp).ag.reg ((9#7).toNat + j))).isSome) ∧ (see aWarp).task.info.sectionAt 1 = some (4096, 4096) ∧
    aWarp.freeContext (see aWarp).cluster .tileSeq = some 0 ∧ (see aWarp).ag.team < aWarp.teams.length ∧
    crowded.freeContext (see crowded).cluster .tileSeq = none ∧ Runs crowded (see crowded) ∧ paramIs (see crowded) 6 0#32 ∧
    MayRelease aWarp 0 .core ∧ MayRelease crowded 0 .core :=
  ⟨rfl, by unfold paramIs; decide +kernel, by decide +kernel, by decide +kernel, by decide +kernel, by decide +kernel, by decide +kernel, rfl,
    by unfold paramIs; decide +kernel, by decide +kernel, by decide +kernel⟩

/-- A team with the join 5 of agent 0, which has ended or not. -/
def joined (r : Option Nat) (s : State) : State :=
  s.modTeam 0 fun t => { t with joins := [{ id := 5, agent := 0, result := r, consumed := false }] }
theorem witness_rdvAndHalt : Runs aWarp (see aWarp) ∧ paramIs (see aWarp) 2 5#32 ∧
    (see aWarp).team.joins.find? (fun j => j.id == 5 && !j.consumed) = none ∧ Runs (joined (some 0) aWarp) (see (joined (some 0) aWarp)) ∧
    (see (joined (some 0) aWarp)).team.joins.find? (fun j => j.id == 5 && !j.consumed) = some ⟨5, 0, some 0, false⟩ ∧
    Runs (joined none aTile) (see (joined none aTile)) ∧ (see (joined none aTile)).ag.kind ≠ .warp ∧
    (see (joined none aTile)).team.joins.find? (fun j => j.agent == 0) = some ⟨5, 0, none, false⟩ :=
  ⟨rfl, by unfold paramIs; decide +kernel, by decide +kernel, rfl, by decide +kernel, rfl, by decide +kernel, by decide +kernel⟩

theorem witness_timelineWaits : TileRuns aTile (see aTile) ∧ paramIs (see aTile) 7 1#32 ∧ paramPair (see aTile) 9#7 0#64 ∧
    (see aTile).ag.engine 1 = some (0, 0) :=
  ⟨⟨rfl, rfl⟩, by unfold paramIs; decide +kernel, by unfold paramPair paramIs; decide +kernel, by decide +kernel⟩

/-- The arrival word at local offset 16: AEXPECT, AARRIVE of 5 and of 2^28, AWAIT of another generation. -/
def arriving (v : Nat) : State := withReg 2 (uni v) aWarp
theorem arrival2 (s : State) (v : Nat) (h : paramIs (see s) 3 2#32 ∧ paramIs (see s) 2 (BitVec.ofNat 32 v) ∧
    (see s).ag.layouts.getD 3 Layout.zero = lay 1 3 0 0 [8] [8] ∧ (see s).n = 128 ∧
    (see s).task.localAlloc = 4096 ∧ (see s).ag.team = 0) :
    ArrivalAt (see s) 3#7 2#7 3#6 (localKey 0 16) (BitVec.ofNat 32 v) := by
  obtain ⟨h1, h2, h3, h4, h5, h6⟩ := h
  unfold ArrivalAt
  rw [show ((3#6 : BitVec 6).toNat) = 3 from rfl, h3, h4, h5, h6]
  exact ⟨[2#32], 16, by decide, by decide, by decide, by decide, by decide,
    fun j hj => by obtain rfl : j = 0 := Nat.lt_one_iff.1 hj
                   exact h1, h2, by decide, by decide, by decide, rfl⟩
theorem witness_arrivalsAndTags :
    (Runs (arriving 5) (see (arriving 5)) ∧ ArrivalAt (see (arriving 5)) 3#7 2#7 3#6 (localKey 0 16) 5#32 ∧
      wordGen ((arriving 5).mem.read64 (localKey 0 16)) ≠ 5 % 128 ∧ MayRelease (arriving 5) 0 (pointOf true 2)) ∧
    (ArrivalAt (see granBuffered) 3#7 2#7 3#6 (localKey 0 16) 5#32 ∧ ¬ MayRelease granBuffered 0 (pointOf true 2)) ∧
    (Runs (arriving (2 ^ 28)) (see (arriving (2 ^ 28))) ∧
      ArrivalAt (see (arriving (2 ^ 28))) 3#7 2#7 3#6 (localKey 0 16) (BitVec.ofNat 32 (2 ^ 28))) ∧
    paramIs (see aWarp) 3 2#32 ∧ paramIs (see aWarp) 2 5#32 ∧ (2#32).toNat + 1 ≤ teamSlots aWarp (see aWarp) :=
  ⟨⟨rfl, arrival2 _ 5 (by unfold paramIs; decide +kernel), by decide +kernel, by decide +kernel⟩,
    ⟨arrival2 _ 5 (by unfold paramIs; decide +kernel), by decide +kernel⟩, ⟨rfl, arrival2 _ (2 ^ 28) (by unfold paramIs; decide +kernel)⟩,
    by unfold paramIs; decide +kernel, by unfold paramIs; decide +kernel, by decide +kernel⟩

/-- A COUNT near the top of its field, armed or not: an arrival of 5 passes the field. -/
theorem witness_arrivalBeyond : ∀ target ∈ [0, 2 ^ 28 - 1], let w := BitVec.ofNat 64 ((2 ^ 28 - 2) * 2 ^ 28 + target)
    2 ^ 28 - 1 < wordCount' w + 5 ∧ wordTarget w = target ∧ wordErr w = false := by decide +kernel

/-- More registers and entries: V16 on the block of a copy of four words from entry 1 to the walked entry through the index
entry 2; V24 on the block of an expansion of four E4M3 codes of the byte entry 11 to FP32; V32 and V33 words of accumulator
slots 0 and 4; V40 on the coordinates 100, 0 and the rank 1; V43 the FP64 number 2; entry 8 a grid of words, absent beyond
64; entry 12 a line of halves. The context's handles 1 LOWRANK of rank 1, 2 and 3 DENSE in runs of their own, all FP32. -/
def rich (s : State) : State :=
  let regs : List (Nat × Nat) := [(16, 129), (17, 4), (24, 139), (25, 4), (27, 0x13), (32, 0xA8000000), (33, 0xA8000004),
    (40, 100), (41, 0), (42, 1), (43, 0), (44, 0x40000000)]
  s.modAgent 0 fun g =>
    let g := regs.foldl (fun (g : Agent) p => g.setReg p.1 (uni p.2)) g
    { g with
      layouts := ((g.layouts.setIfInBounds 8 (lay 1 2 1 0 [64, 64] [4, 256])).setIfInBounds 11 (lay 0 0 0 0x4000 [64] [1])).setIfInBounds
        12 (lay 0 1 0 0x4000 [64] [2])
      tile := { g.tile with handles := ((g.tile.handles.setIfInBounds 1 ⟨2, true, 1, 2, 40, false⟩).setIfInBounds 2
        ⟨1, true, 64, 0, 0, false⟩).setIfInBounds 3 ⟨1, true, 64, 0, 16, false⟩ } }
def rWarp : State := rich aWarp
def rTile : State := rich aTile
def blockC : List Word := [129#32, 4#32, 0#32, 0#32, 0#32, 0#32, 0#32, 0#32]
def blockX : List Word := [139#32, 4#32, 0#32, 0x13#32, 0#32, 0#32, 0#32, 0#32]

theorem witness_copiesIssue : Runs rWarp (see rWarp) ∧ entryOf (see rWarp) 1 = lay 1 2 0 0 [64] [4] ∧
    entryOf (see rWarp) 2 = lay 0 2 0 0x4000 [64] [4] ∧ entryOf (see rWarp) 11 = lay 0 0 0 0x4000 [64] [1] ∧
    paramRun (see rWarp) 3#7 [2#32] ∧ paramRun (see rWarp) 16#7 blockC ∧ paramRun (see rWarp) 24#7 blockX ∧
    (∀ b ∈ [blockC, blockX], field (b.getD 0 0#32) 12 1 = 0 ∧ field (b.getD 0 0#32) 19 1 = 0) ∧ copyRoom rWarp (see rWarp) ∧
    (see rWarp).cpyxLayouts 3#7 (lay 1 2 0 0 [64] [4]) blockX = true ∧ cpyxBad blockX = false ∧
    paramIs (see rWarp) 7 1#32 ∧ paramIs (see rWarp) 8 0x4100#32 ∧ (1#32).toNat + 1 ≤ teamSlots rWarp (see rWarp) ∧
    (see rWarp).team.tags = [] ∧ rWarp.filling 0 1 1 = false := by
  refine ⟨rfl, by decide +kernel, by decide +kernel, by decide +kernel, by unfold paramRun paramIs; decide +kernel,
    by unfold paramRun paramIs; decide +kernel, by unfold paramRun paramIs; decide +kernel, by decide +kernel,
    by unfold copyRoom; decide +kernel, by decide +kernel, by decide +kernel, by unfold paramIs; decide +kernel,
    by unfold paramIs; decide +kernel, by decide +kernel, by decide +kernel, by decide +kernel⟩

theorem witness_codebookLoad : Runs rWarp (see rWarp) ∧ entryOf (see rWarp) 12 = lay 0 1 0 0x4000 [64] [2] ∧
    paramRun (see rWarp) 3#7 [2#32] ∧
    ∀ e : Nat, e < 16 → (lay 0 1 0 0x4000 [64] [2]).spot ([2].modify 0 (· + (e : Int))) = .at (0x4004 + 2 * e) ∧
      (see rWarp).place (lay 0 1 0 0x4000 [64] [2]) (0x4004 + 2 * e) .read = .key (0x4004 + 2 * e) :=
  ⟨rfl, by decide +kernel, by unfold paramRun paramIs; decide +kernel, by decide +kernel⟩

theorem witness_matrixIssue : TileRuns rTile (see rTile) ∧
    (matForm (.mmaI8 32#7 33#7 8#6)).map (fun f => (f.1, [0xA8000000#32, 0xA8000004#32].map f.2.1, f.2.2)) =
      some ([32#7, 33#7], [true, true], 16384) ∧ (0xA8000000#32).getLsbD 31 = true ∧ (0xA8000004#32).getLsbD 31 = true ∧
    paramIs (see rTile) 32 0xA8000000#32 ∧ paramIs (see rTile) 33 0xA8000004#32 ∧
    rTile.slotsBusy 0 (touched (.mmaI8 32#7 33#7 8#6) 0xA8000000#32 0xA8000004#32) = false ∧
    (∀ g ∈ rTile.agents, g.streamed = []) ∧ rTile.corePend = [] :=
  ⟨⟨rfl, rfl⟩, by decide +kernel, by decide, by decide, by unfold paramIs; decide +kernel, by unfold paramIs; decide +kernel,
    by decide +kernel, by decide +kernel, rfl⟩

theorem witness_tileIssue : TileRuns rTile (see rTile) ∧ (tileForm (.tscal 4#5 43#7)).isSome ∧ (tileForm (.tadd 5#5 1#5 2#5 0#4)).isSome ∧
    FreeHandles (see rTile) (.tadd 5#5 1#5 2#5 0#4) ∧ FreeHandles (see rTile) (.tscal 1#5 43#7) ∧
    paramIs (see rTile) 43 0#32 ∧ paramIs (see rTile) 44 0x40000000#32 ∧ FreeHandles (see rTile) (.tgemm 0#5 1#5 2#5 3#5 0#1 1#1 1#1) :=
  ⟨⟨rfl, rfl⟩, rfl, rfl, by unfold FreeHandles; decide +kernel, by unfold FreeHandles; decide +kernel,
    by unfold paramIs; decide +kernel, by unfold paramIs; decide +kernel, by unfold FreeHandles; decide +kernel⟩

/-- Elements whose first coordinate is 64 or more are absent. -/
theorem far_absent (x : Int) (rest : List Int) (h : 64 ≤ x) : (lay 1 2 1 0 [64, 64] [4, 256]).spot (x :: rest) = .absent := by
  have h0 : (lay 1 2 1 0 [64, 64] [4, 256]).coord 0 x = .error .absent := by
    unfold Layout.coord
    rw [show (lay 1 2 1 0 [64, 64] [4, 256]).ext 0 = 64 by decide, if_pos (Or.inr (by exact_mod_cast h))]; rfl
  have h1 : (lay 1 2 1 0 [64, 64] [4, 256]).sum (x :: rest) 1 = .error .absent := by simp [Layout.sum, h0]
  have h2 : (lay 1 2 1 0 [64, 64] [4, 256]).sum (x :: rest) 2 = .error .absent := by rw [Layout.sum, h1]
  unfold Layout.spot
  rw [show (lay 1 2 1 0 [64, 64] [4, 256]).nd = 2 from rfl, h2]
theorem absentKeys (s : State) (acc : Access) (f : Nat → Int) (g : Nat → List Int) (n : Nat) (h : ∀ j, j < n → 64 ≤ f j) :
    KeysOf (see s) (lay 1 2 1 0 [64, 64] [4, 256]) acc ((List.range n).map fun j => f j :: g j) (List.replicate n none) := by
  refine ⟨by simp, fun j hj => ?_⟩
  have hn : j < n := by simpa using hj
  rw [List.getD_eq_getElem _ _ hj, List.getElem_map, List.getElem_range, far_absent _ _ (h j hn)]
  simp [hn]
theorem past64 : ∀ k, k < 128 → 64 ≤ (100#32 + BitVec.ofNat 32 k).toInt := by decide +kernel

theorem witness_tileMoves : TileRuns rTile (see rTile) ∧ entryOf (see rTile) 8 = lay 1 2 1 0 [64, 64] [4, 256] ∧
    (∀ h : BitVec 5, h.toNat < 4 → FreeHandles (see rTile) (.tmv h 40#7 8#6 0#3) ∧ FreeHandles (see rTile) (.tlrld h 40#7 8#6 1#1)) ∧
    paramRun (see rTile) 40#7 [100#32, 0#32, 1#32] ∧ (handleOf (see rTile) 1#5).kind = 2 ∧ (handleOf (see rTile) 1#5).rank = 1 ∧
    (handleOf (see rTile) 2#5).kind = 1 ∧ (handleOf (see rTile) 2#5).f32 = true ∧ entryFits (lay 1 2 1 0 [64, 64] [4, 256]) 2 4 ∧
    KeysOf (see rTile) (lay 1 2 1 0 [64, 64] [4, 256]) .read (gridOf [100#32, 0#32]) (List.replicate 4096 none) ∧
    KeysOf (see rTile) (lay 1 2 1 0 [64, 64] [4, 256]) .write (lineOf [100#32, 0#32] 64) (List.replicate 64 none) :=
  ⟨⟨rfl, rfl⟩, by decide +kernel, by unfold FreeHandles; decide +kernel, by unfold paramRun paramIs; decide +kernel, by decide +kernel,
    by decide +kernel, by decide +kernel, by decide +kernel, by unfold entryFits; decide, absentKeys _ _ _ _ _ fun j _ => past64 _ (by omega),
    absentKeys _ _ _ _ _ fun j hj => past64 j (by omega)⟩

theorem witness_tileHandles : TileRuns rTile (see rTile) ∧ FreeHandles (see rTile) (.tfree 2#5) ∧ FreeHandles (see rTile) (.tslab 1#5 42#7) ∧
    paramIs (see rTile) 42 1#32 ∧ (handleOf (see rTile) 1#5).kind = 2 ∧ FreeHandles (see rTile) (.tinfo 1#5 50#7) ∧
    FreeHandles (see rTile) (.tnorm 2#5 50#7 1#1) :=
  ⟨⟨rfl, rfl⟩, by unfold FreeHandles; decide +kernel, by unfold FreeHandles; decide +kernel, by unfold paramIs; decide +kernel,
    by decide +kernel, by unfold FreeHandles; decide +kernel, by unfold FreeHandles; decide +kernel⟩

/-- The block of the task's region translates, or its page is not mapped. -/
theorem witness_faultsCounter :
    (∃ r, (see handled).task.chain.head? = some r ∧
      handled.translate (handled.dieOf 0) (see handled).task.space (r.va + 0x40#64) .atomic = .ok 0x4040) ∧
    (let s := handled.modTask 0 fun t => { t with chain := [{ (default : Region) with va := BitVec.ofNat 64 (2 ^ 48) }] }
     ∃ r, (see s).task.chain.head? = some r ∧ s.translate (s.dieOf 0) (see s).task.space (r.va + 0x40#64) .atomic = .error 0x10) ∧
    (see aWarp).task.chain = [] ∧ Kept handled :=
  ⟨⟨_, rfl, by decide +kernel⟩, ⟨_, rfl, by decide +kernel⟩, rfl, by decide +kernel, List.Pairwise.nil⟩

theorem witness_trapEntry : Runs handled (see handled) ∧ Runs aWarp (see aWarp) ∧
    (let s := handled.modAgent 0 fun g => { g with frames := [] }
     Runs s (see s) ∧ handlerFor (see s) (trapIn (see s) 0x17 (see s).act 0 0) 0x4100#64) ∧
    ∀ h, ¬ handlerFor (see aWarp) (trapIn (see aWarp) 0x17 (see aWarp).act 0 0) h :=
  ⟨rfl, rfl, ⟨rfl, by decide, by decide +kernel, by decide, _, rfl, rfl⟩, fun h ⟨_, _, _, r, hr, _⟩ => by
    have e : (see aWarp).task.chain[(see aWarp).ag.frames.length]? = none := by decide +kernel
    rw [e] at hr; cases hr⟩

/-- In a handler with every active lane, and with one of them. -/
theorem witness_trapAndReturn : Runs handled (see handled) ∧ (see handled).ag.frames = [{ (default : Frame) with lanes := allLanes }] ∧
    (((see handled).ag.entries.filter fun x => x.kind != .free).length ≤ 1 ∧ (∀ x ∈ (see handled).ag.entries, x.records = []) ∧
      (see handled).ag.wide.depth = 0 ∧ (see handled).en.mask = allLanes &&& ~~~(see handled).ag.exited) ∧
    Runs (oneLane handled) (see (oneLane handled)) ∧ (see (oneLane handled)).en.mask ≠ allLanes &&& ~~~(see (oneLane handled)).ag.exited :=
  ⟨rfl, rfl, by decide +kernel, rfl, by decide +kernel⟩

theorem witness_agentLimits : Runs aWarp (see aWarp) ∧ tileOnly (.commit 3#7) = true ∧ (see aWarp).ag.kind = .warp ∧ (see aWarp).ag.frames = [] ∧
    Runs aCopy (see aCopy) ∧ (see aCopy).ag.kind = .copySeq ∧ warpOnly (.iadd 1#7 2#7 3#7 7#3) = true ∧ (see aWarp).depth = 2 ∧
    levelOf (.phase 2#4) = some 2#4 ∧ (∀ op, levelOf (.atom32 127#7 2#7 7#3 3#7 1#6 2#4 op 0#2) = some 2#4 ∧
      warpOnly (.atom32 127#7 2#7 7#3 3#7 1#6 2#4 op 0#2) = true ∧ warpOnly (.atom64 126#7 2#7 7#3 3#7 1#6 2#4 op 0#2) = true) ∧
    (see aWarp).phys 1 = 0 ∧ Runs handled (see handled) ∧ (see handled).ag.frames ≠ [] ∧ (1#4).toNat < (see handled).depth :=
  ⟨rfl, rfl, rfl, rfl, rfl, rfl, rfl, by decide +kernel, rfl, fun _ => ⟨rfl, rfl, rfl⟩, by decide +kernel, rfl, by decide +kernel,
    by decide +kernel⟩

/-- A word placed for the next instruction: FADD, one that decodes to nothing, FADD in a task of four registers. -/
def placed (w : Word) : State := State.reset.placeWords [w] .warp
def narrow : State := (placed 0x20081437#32).modTask 0 fun t => { t with info := { t.info with regsN := 4 } }
def fetched (s : State) : Except (Nat × DWord × Nat) (List Word × State) :=
  ((s.passPoint 0).noteIssue 0 0).fetchGroup 0 ((s.agent 0).entry 0).pc
theorem witness_stepRunsDecoded :
    (let s := { placed 0x20081437#32 with agenda := [] }
     s.agenda = [] ∧ s.nextFragment = some (0, 0)) ∧ (placed 0x20081437#32).mayIssue 0 0 = true ∧
    (fetched (placed 0x20081437#32)).toOption.map (·.1) = some [0x20081437#32] ∧
    ((fetched (placed 0x20081437#32)).toOption.any fun p => (issuer p.2).isSome) = true ∧
    decodeWords [0x20081437#32] = .ok (.fadd 4#7 5#7 6#7 7#3, 1) ∧ (Instr.fadd 4#7 5#7 6#7 7#3).illFormed 128 = none ∧
    ((placed 0x20081437#32).agent 0).awaitsStatus (.fadd 4#7 5#7 6#7 7#3) = false ∧
    (placed 0x12345678#32).mayIssue 0 0 = true ∧ (fetched (placed 0x12345678#32)).toOption.map (·.1) = some [0x12345678#32] ∧
    (decodeWords [0x12345678#32]).isOk = false ∧ narrow.mayIssue 0 0 = true ∧ (Instr.fadd 4#7 5#7 6#7 7#3).illFormed 4 ≠ none := by
  decide +kernel

/-- A load placed for the next instruction, after a PHASE that has still to be performed: it may be, or a store to the Granary stands
in the buffer of a team whose turn it is not. -/
def owing (held : Bool) : State := ((placed 0x62FE0C27#32).modAgent 0 fun g => { g with due := [(0, .home, true)] }).modTeam 0 fun t =>
  { t with buffer := if held then [{ agent := 0, store := storeOf (granKey 0 8) 4 [] [] }] else [] }
theorem witness_heldInstruction : (∀ b, (owing b).mayIssue 0 0 = true ∧ ((owing b).agent 0).due ≠ [] ∧
      (fetched (owing b)).toOption.map (·.1) = some [0x62FE0C27#32] ∧
      ((fetched (owing b)).toOption.any fun p => (issuer p.2).isSome && decide (MayRelease p.2 0 .home) == !b) = true) ∧
    decodeWords [0x62FE0C27#32] = .ok (.ld32 127#7 3#7 2#6 0#1 7#3, 1) ∧ (Instr.ld32 127#7 3#7 2#6 0#1 7#3).illFormed 128 = none ∧
    touchesMemory (.ld32 127#7 3#7 2#6 0#1 7#3) = true ∧ touchesMemory (.fadd 4#7 5#7 6#7 7#3) = false := by
  decide +kernel

theorem witness_decodeEncode : isEvent (.dfma 8#7 10#7 12#7 3#3) = false ∧ (Instr.dfma 8#7 10#7 12#7 3#3).illFormed 128 = none ∧
    decodeWords [0x33102863#32] = .ok (.dfma 8#7 10#7 12#7 3#3, 1) := by decide

/-- An outcome that is a next state. -/
def goesOn (o : Host.Outcome State Fault Refusal) : Bool := match o with | .next _ => true | _ => false
theorem next_of {o : Host.Outcome State Fault Refusal} (h : goesOn o = true) : ∃ t, o = .next t := by
  cases o with
  | next t => exact ⟨t, rfl⟩
  | _ => cases h

theorem witness_stepKept : Kept State.reset ∧ Kept (placed 0x20081437#32) ∧ ∃ t, step (placed 0x20081437#32) = .next t :=
  ⟨⟨by decide +kernel, List.Pairwise.nil⟩, ⟨by decide +kernel, List.Pairwise.nil⟩,
    next_of (by decide +kernel)⟩

theorem witness_bootAndHost : State.reset.booted = false := rfl

/-- A booted device with records in the mailbox at 0x40000: its request area holds an OP and an ARG0. -/
def mailed (op arg0 bad : Nat) : State :=
  let s := poke [(0x40000, 1), (0x40008, op), (0x40010, arg0), (0x40020, bad)] aWarp
  { s with booted := true, mailboxes := [{ request := 0x40000, reply := 0x40040, lastSeq := 0#64, waiting := none, nextId := 1,
                                           space := 0, retirements := 0, statuses := [] }] }
def record (op arg0 : Nat) (ok : Bool) : Record :=
  { seq := 1#64, op := op, arg0 := BitVec.ofNat 64 arg0, arg1 := 0#64, clean := ok }
/-- A task of that mailbox with the id 9. -/
def withMail (phase : TaskPhase) (s : State) : State :=
  { s with tasks := s.tasks ++ [{ placedTask 0 0 with launcher := .mailbox 0, id := 9, phase := phase, status := 1 }] }
theorem mailWaits (op : Nat) (s : State) (r : Record)
    (h : (s.booted = true ∧ 0 < s.mailboxes.length ∧ (s.mailboxes.getD 0 default).request ≠ 0 ∧
      (s.mailboxes.getD 0 default).waiting = none ∧ r.seq ≠ (s.mailboxes.getD 0 default).lastSeq ∧
      r.seq = BitVec.ofNat 64 (bytesAt s.mem (s.mailboxes.getD 0 default).request 8) ∧
      op = bytesAt s.mem ((s.mailboxes.getD 0 default).request + 8) 2 ∧ r.op = op ∧
      r.arg0 = BitVec.ofNat 64 (bytesAt s.mem ((s.mailboxes.getD 0 default).request + 16) 8) ∧
      r.arg1 = BitVec.ofNat 64 (bytesAt s.mem ((s.mailboxes.getD 0 default).request + 24) 8)) ∧
      (r.clean = true ↔ (∀ j, j < 6 → s.mem.read ((s.mailboxes.getD 0 default).request + 10 + j) = 0#8) ∧
        ∀ j, j < 32 → s.mem.read ((s.mailboxes.getD 0 default).request + 32 + j) = 0#8)) : RecordWaits s 0 op r :=
  ⟨h.1.1, h.1.2.1, h.1.2.2.1, h.1.2.2.2.1, h.1.2.2.2.2.1, h.1.2.2.2.2.2.1, h.1.2.2.2.2.2.2.1, h.1.2.2.2.2.2.2.2.1,
    h.1.2.2.2.2.2.2.2.2.1, h.1.2.2.2.2.2.2.2.2.2, h.2⟩

theorem witness_mailboxRecords :
    RecordWaits (mailed 1 0x4001 0) 0 1 (record 1 0x4001 true) ∧ RecordWaits (mailed 3 9 0) 0 3 (record 3 9 true) ∧
    (mailed 3 9 0).mailStatus 0 9 = none ∧ RecordWaits (withMail .retired (mailed 2 9 0)) 0 2 (record 2 9 true) ∧
    (∃ t, MailTask (withMail .retired (mailed 2 9 0)) 0 9#64 t ∧ t.phase = .retired) ∧
    (withMail .retired (mailed 2 9 0)).mailStatus 0 9 ≠ none ∧ RecordWaits (mailed 4 0 0) 0 4 (record 4 0 true) ∧
    RecordWaits (mailed 5 0x4000 0) 0 5 (record 5 0x4000 true) ∧
    ((mailed 5 0x4000 0).readVa (mailed 5 0x4000 0).launchDie 0 0x4000#64 32).isSome = true ∧
    RecordWaits (mailed 6 3 0) 0 6 (record 6 3 true) ∧ ((mailed 6 3 0).dies[3]?).any (·.enabled) = true ∧
    RecordWaits (mailed 7 0 0) 0 7 (record 7 0 true) ∧ RecordWaits (mailed 1 0 1) 0 1 (record 1 0 false) := by
  refine ⟨mailWaits _ _ _ ?_, mailWaits _ _ _ ?_, by decide +kernel, mailWaits _ _ _ ?_, ⟨_, rfl, rfl⟩, by decide +kernel,
    mailWaits _ _ _ ?_, mailWaits _ _ _ ?_, by decide +kernel, mailWaits _ _ _ ?_, by decide +kernel, mailWaits _ _ _ ?_,
    mailWaits _ _ _ ?_⟩ <;> decide +kernel

/-- A mailbox that waits for the task 9, which has retired. -/
def awaited : State :=
  let s := withMail .retired (mailed 0 0 0)
  { s with mailboxes := s.mailboxes.map fun m => { m with waiting := some (1#64, 9#64) } }
/-- A LAUNCH of a packet of zeros goes to no other device. -/
theorem witness_mailboxLaunch : ((mailed 1 0x4000 0).readClean (mailed 1 0x4000 0).launchDie 0 0x4000#64 192).isSome = true ∧
    ∀ b ∈ (mailed 1 0x4000 0).readClean (mailed 1 0x4000 0).launchDie 0 0x4000#64 192, (mailed 1 0x4000 0).launchKept b [] = false ∧
      (mailed 1 0x4000 0).sentTo b { launcher := .mailbox 0, id := 1, space := 0, die := 0, parent := none } [] [] = true := by
  decide +kernel

theorem witness_mailboxWaitReply : (awaited.mailboxes.getD 0 default).waiting = some (1#64, 9#64) ∧
    ∃ t, MailTask awaited 0 9#64 t ∧ t.phase = .retired ∧ awaited.taskPerformed t = true :=
  ⟨by decide +kernel, _, rfl, rfl, by decide +kernel⟩

/-- The agent's fragment waits for a service of the kernel with the argument 0x40000. -/
def serving (n : Nat) (s : State) : State := s.modEntry 0 0 fun en => { en with hold := .service n 0x40000#64 50 }
/-- A block request for one block of two bytes at VA 0x50000, and the drive. -/
def blocks (s : State) : State := { poke [(0x40000, 0), (0x40008, 0), (0x40010, 1), (0x40018, 0x50000)] s with drives := [(2, [[1#8, 2#8]])] }
theorem serves (n : Nat) (s : State) (h : (s.agent 0).phase = .active ∧ (s.agent 0).entries.length = 8 ∧
    ((s.agent 0).entry 0).hold = .service n 0x40000#64 50 ∧ ∀ j, j < 8 → j = 0 ∨ ((s.agent 0).entry j).hold = .ready)
    (h8 : ∀ j, 8 ≤ j → ((s.agent 0).entry j).hold = .ready) : ServiceWaits s 0 0 n 0x40000#64 50 := by
  refine ⟨h.1, h.2.2.1, by rw [h.2.1]; decide, fun j m x y hj => ?_⟩
  rcases Nat.lt_or_ge j 8 with hl | hl
  · rcases h.2.2.2 j hl with hz | hz
    · exact hz
    · rw [hz] at hj; cases hj
  · rw [h8 j hl] at hj; cases hj
theorem entry8 (s : State) (h : (s.agent 0).entries.length = 8) (j : Nat) (hj : 8 ≤ j) : ((s.agent 0).entry j).hold = .ready := by
  unfold Agent.entry
  rw [List.getD_eq_default _ _ (by omega)]; rfl
theorem blockBytes : ∀ j, j < 2 → (serving 19 (blocks aWarp)).helmKey 0 0 (0x50000#64 + BitVec.ofNat 64 j) .read = .ok (0x50000 + j) := by
  decide +kernel

theorem witness_kernelServices :
    (Runs aWarp (see aWarp) ∧ 16 ≤ (16#10).toNat ∧ paramPair (see aWarp) 5#7 0x4000#64) ∧
    ServiceWaits (serving 16 aWarp) 0 0 16 0x40000#64 50 ∧ ((serving 16 aWarp).readText 0 0 256 0x40000#64) = some [] ∧
    ServiceWaits (serving 20 aWarp) 0 0 20 0x40000#64 50 ∧ ServiceWaits (serving 17 aWarp) 0 0 17 0x40000#64 50 ∧
    (let s := serving 19 (blocks aWarp)
     ServiceWaits s 0 0 19 0x40000#64 50 ∧ (s.readVa (s.dieOf 0) (s.task (s.taskOf 0)).space 0x40000#64 64).isSome = true ∧
     s.drives[0]? = some (2, [[1#8, 2#8]]) ∧ KernelBytes s (s.dieOf 0) (s.task (s.taskOf 0)).space 0x50000#64 2 .read (0x50000 + ·)) ∧
    ServiceWaits (serving 18 (blocks aWarp)) 0 0 18 0x40000#64 50 :=
  ⟨⟨rfl, by decide, by unfold paramPair paramIs; decide +kernel⟩, serves _ _ (by decide +kernel) (entry8 _ (by decide +kernel)),
    by decide +kernel, serves _ _ (by decide +kernel) (entry8 _ (by decide +kernel)),
    serves _ _ (by decide +kernel) (entry8 _ (by decide +kernel)),
    ⟨serves _ _ (by decide +kernel) (entry8 _ (by decide +kernel)), by decide +kernel, by decide +kernel, blockBytes⟩,
    serves _ _ (by decide +kernel) (entry8 _ (by decide +kernel))⟩

/-- A queued task with one team, on die 0 at clock 10, with a deadline and a watchdog; whether the cores of that die exist. -/
def queued (phase : TaskPhase) (deadline : Nat) (cores : Bool) : State :=
  { State.reset with
    booted := true
    spaces := [{ root := 1, keys := [] }]
    dies := State.reset.dies.modify 0 fun d => { d with clock := 10 }
    cores := if cores then State.reset.cores else (State.reset.cores.take 64).map (fun c => { c with enabled := false }) ++ State.reset.cores.drop 64
    tasks := [{ placedTask 0 0 with phase := phase, deadlines := [(0, BitVec.ofNat 64 deadline)], chain := [{ (default : Region) with watchdog := 5 }],
                                    began := if phase = .queued then none else some (0, 0) }]
    teams := [Team.fresh 0 0 0] }
/-- Its core 0 alone exists, and another team of the task lies there. -/
def barren : State := { queued .queued 100 true with
  cores := (State.reset.cores.take 1) ++ (State.reset.cores.drop 1).map fun c => { c with enabled := false }
  teams := [Team.fresh 0 0 0, { Team.fresh 0 1 0 with phase := .resident, placed := true }] }
/-- A team that is asked to stop, its warp at the one preemption point of its code, the first word. -/
def saving : State := (((placed 0#32).modTask 0 fun t =>
  { t with info := { t.info with sections := [(0, 0, 16), (6, 32, 24)] } }).modTeam 0 fun t => { t with preemptReq := true })

theorem witness_helmEvents :
    (queued .queued 9 true).deadlinePassed 0 0 = true ∧
    (let s := queued .queued 100 true
     s.booted = true ∧ s.taskOrder 0 = [0] ∧ s.deadlinePassed 0 0 = false ∧
     ((s.rebind 0).toOption.any fun u => u.nextTeams 0 0 == [[0]] && !u.hopeless 0 && u.choiceOk [0] [0] && (u.placeTeams [0] [0]).isSome) = true) ∧
    barren.starved 0 = [(0, [0])] ∧
    ((saving.team 0).phase = .resident ∧ (saving.team 0).preemptReq = true ∧ 0 < saving.teams.length ∧ saving.agentStopped 0 = true ∧
      saving.agents.length = 1 ∧ (saving.agent 0).phase ≠ .retired) ∧
    (let s := queued .queued 100 false
     s.movesWith 0 = [0] ∧ s.canMigrate (s.movesWith 0) 64 = true) ∧
    (let s := queued .started 100 true
     (s.task 0).phase ≠ .retired ∧ (s.task 0).terminated = false ∧ (s.task 0).began = some (0, 0) ∧ ((s.task 0).chain.headD default).watchdog ≠ 0 ∧
     0 + ((s.task 0).chain.headD default).watchdog < s.clockOf 0) := by
  decide +kernel

/-- What a record restores: the handles of the context fit its words, and its vectors are live at a point. -/
def livePoint : State := (poke [(0x10020, 2), (0x10030, 2), (0x10034, 1)] rTile).modTask 0 fun t =>
  { t with info := { t.info with sections := [(1, 0, 16), (6, 32, 24)] } }
theorem witness_restore : 0 < rTile.agents.length ∧ (rTile.agent 0).kind = .tileSeq ∧ (∀ h, h < 32 →
    let x := (rTile.agent 0).tile.handles.getD h Handle.zero
    x.kind ≤ 2 ∧ x.rank < 128 ∧ x.cap < 64 ∧ x.slab < 2 ^ 14 ∧ x.slabs < 2 ^ 16 ∧ (x.slabs = 0 → x.slab = 0)) ∧
    (livePoint.liveAt 0).1 = 2#128 ∧ (livePoint.liveAt 0).2 = 2#32 := by decide +kernel

/-- A copy of one word of kind k from VA 0x8000 to local memory, an expansion of one code, one that reads tables: operation 1. -/
def copying (kind : CopyKind) (count : Nat) (arr : Option Nat) : CopyOp :=
  { num := 1, kind := kind, walked := lay 1 2 0 0 [64] [4], walkFrom := [0], other := lay 0 2 0 0x8000 [64] [4], otherFrom := [0]
    index := lay 0 2 0 0x4000 [64] [4], indexFrom := 0, count := count, arrival := none, tableArrival := arr, tables := []
    walkAt := [0], otherAt := [0] }
def withCopy (op : CopyOp) : State := aWarp.modAgent 0 fun g => { g with copyIssued := 1, copyOps := [op] }
theorem meetsNone (s : State) (ops : List MatOp → List MatOp) (h : ∀ n, matRegions s n ops = []) (k n : Nat) :
    s.meetsRegion ops k n = false := by
  unfold State.meetsRegion; rw [h]; simp
theorem noRegions (op : CopyOp) (n : Nat) : matRegions (withCopy op) n id = [] := by
  unfold matRegions
  rw [show (withCopy op).agents.zipIdx = [((withCopy op).agent 0, 0)] from rfl]
  simp only [List.flatMap_cons, List.flatMap_nil, List.append_nil]
  split
  · rfl
  · rw [show ((withCopy op).agent 0).tile.matOps = [] from rfl]; rfl

theorem witness_copyComplete : (∀ op k, (withCopy op).fetchHolds k 1 = false) ∧
    (∀ k ∈ [CopyKind.cpy, .gather, .scatter, .fill 0 1, .cpyx 3 1 0#16 [] false 0], let op := copying k 1 none
      ((withCopy op).agent 0).copyOps.find? (fun q => q.num == op.num) = some op ∧ op.tablesReady = true ∧
      ∀ l ∈ [op.walked, op.other, op.index], (withCopy op).keptBack l = false ∧ (withCopy op).silent l = false) ∧
    (let op := copying .cpy 1 none
     Still (withCopy op) ∧ (withCopy op).copyOther op 0 ((withCopy op).engineMem 0) 0 [0] = some [0] ∧ op.other.size = op.walked.size ∧
      (withCopy op).elementAt 0 op.other [0] .read = .bytes [0x8000, 0x8001, 0x8002, 0x8003] ∧
      (withCopy op).elementAt 0 op.other [64] .read = .fail ∧
      (withCopy op).elementAt 0 op.walked [0] .write = .bytes ((List.range 4).map (localKey 0 0 + ·)) ∧
      (withCopy op).elementAt 0 { op.walked with mode := 1#8 } [64] .write = .absent) :=
  ⟨fun op k => meetsNone _ _ (noRegions op) k 1, by decide +kernel, by unfold Still; decide +kernel⟩

/-- The table of a block is read when its arrival word has moved on: from its element, and where that is out of bounds. -/
theorem witness_tableRead : ∀ from_ ∈ [(0 : Int), 64],
    let op := { copying (.cpyx 7 1 0#16 [] true 1) 128 (some (localKey 0 16)) with indexFrom := from_ }
    ((withCopy op).agent 0).copyOps.find? (fun q => q.num == op.num) = some op ∧ op.tables.length < op.count / 128 ∧
      wordGen ((withCopy op).mem.read64 (localKey 0 16)) ≠ 1 ∧ (withCopy op).keptBack op.index = false ∧
      (withCopy op).silent op.index = false ∧
      ((withCopy op).elementAt 0 op.index [op.indexFrom + (op.tables.length : Int)] .read == .fail) = decide (from_ ≠ 0) := by
  decide +kernel

/-- A stream with its next element to fetch; one with an element to store at a VA, in local memory, and one that is absent. -/
def storing (k : Option Nat) : State := (streaming true).setStream 0 0 fun y => { y with fifo := [(k, 5#32, false)] }
theorem witness_streamUnit :
    (let x := ((streaming false).agent 0).stream 0
     x.setUp = true ∧ x.write = false ∧ x.next + x.fifo.length < x.count ∧ (streaming false).keptBack x.entry = false ∧
       (streaming false).keptBack x.index = false ∧
       ((streaming false).ctxOf 0).streamElem x (x.next + x.fifo.length) = .here (some 0x8004) false) ∧
    ∀ k ∈ [some 0x8004, some (localKey 0 8), none], let x := ((storing k).agent 0).stream 0
      x.setUp = true ∧ x.write = true ∧ x.fifo = [(k, 5#32, false)] ∧ (storing k).keptBack x.entry = false ∧
        ∀ q ∈ k, (storing k).fetchHolds q x.entry.size = false := by
  decide +kernel

/-- Rows of zeros of an operand of bytes. -/
def zeroRows : List (List (Nat × Bool)) := List.replicate 64 (List.replicate 256 (0, false))
/-- A matrix operation of the context at the head of its list: ACCZ, an MMA of bytes with regions that it has not fetched, the
same with operands of zeros, ACCST. -/
def mat (i : Instr) (started : Bool) : MatOp :=
  let rows := if started then zeroRows else []
  { instr := i, order := 0, wordA := 0#32, wordB := 64#32, started := started, opA := rows, opB := rows, flags := 0#6 }
def withMat (i : Instr) (started : Bool) : State :=
  aTile.modAgent 0 fun g => { g with tile := { g.tile with matOps := [mat i started] } }
def i8 : Instr := .mmaI8 1#7 2#7 4#6
theorem witness_mmaOps :
    (∀ i ∈ [Instr.accz 0#6 0#4, i8], ((withMat i false).agent 0).tile.matOps = [mat i false] ∧
      (withMat i false).arrayReaches ((withMat i false).clusterOf 0) 0 = true ∧ (∀ t ∈ (withMat i false).teams, t.buffer = [])) ∧
    (matType i8).map (fun t => (t.k, t.bits)) = some (256, 8) ∧ (mat i8 false).wordA.getLsbD 31 = false ∧
    (mat i8 false).wordB.getLsbD 31 = false ∧ mmaTarget i8 = some (4#6, 4) ∧
    (∀ i ∈ [i8, Instr.accst 1#7 4#6 0#1], ((withMat i true).agent 0).phase = .active ∧ 0 < (withMat i true).agents.length) ∧
    Still (withMat (.accst 1#7 4#6 0#1) true) ∧ writesRegion (.accst 1#7 4#6 0#1) = true ∧ writesRegion i8 = false := by
  unfold Still; decide +kernel
theorem witness_mmaArray : (∀ i k n, (withMat i true).arrayHeld k n = false) ∧ aTile.mem.struck = [] ∧
    ∀ i ∈ [i8, Instr.accz 0#6 0#4, .accst 1#7 4#6 0#1, .acccvt 1#7 4#6 2#4],
      (withMat i true).arrayReaches ((withMat i true).clusterOf 0) 0 = true := by
  refine ⟨fun i => meetsNone _ _ fun n => ?_, by decide +kernel, by decide +kernel⟩
  unfold matRegions
  rw [show (withMat i true).agents.zipIdx = [((withMat i true).agent 0, 0)] from rfl]
  simp only [List.flatMap_cons, List.flatMap_nil, List.append_nil]
  split
  · rfl
  · rw [show ((withMat i true).agent 0).tile.matOps = [mat i true] from rfl]; rfl

/-- An ACCLD that has fetched its words, one that has to; ACCZ, ACCST and ACCCVT run from the first word. -/
def loaded : MatOp := { mat (.accld 1#7 4#6 0#1) true with opA := List.replicate 64 (List.replicate 64 (7, true)) }
theorem witness_accMoves : (∀ i ∈ [Instr.accz 0#6 0#4, .accst 1#7 4#6 0#1, .acccvt 1#7 4#6 2#4], ((withMat i true).agent 0).tile.matOps = [mat i true] ∧
      (mat i true).done = 0) ∧
    ((withMat (.accld 1#7 4#6 0#1) false).agent 0).tile.matOps = [mat (.accld 1#7 4#6 0#1) false] ∧
    loaded.opA.length = 64 ∧ ∀ row ∈ loaded.opA, row.length = 64 * ((0#1).toNat + 1) ∧ ∀ x ∈ row, x.1 < 2 ^ 32 := by
  refine ⟨by decide +kernel, rfl, List.length_replicate, fun row hr => ?_⟩
  obtain rfl := (List.mem_replicate.1 hr).2
  exact ⟨List.length_replicate, fun x hx => by rw [(List.mem_replicate.1 hx).2]; decide⟩

/-- Expansions of E4M3 codes, plain and with E8M0 scales, and of a 3-bit codebook, to FP32 and B1: what the first element reads. -/
def expanding (sf d : Nat) : CopyOp :=
  { copying (.cpyx sf d 0#16 [] false 0) 128 none with
    walked := lay 1 ([3, 2, 1, 1, 0, 0, 0, 0].getD d 0) 0 0 [64] [4], other := lay 0 0 0 0x8000 [64] [1]
    index := lay 0 (if sf = 7 then 4 else 0) 0 0x4000 [64] [16] }
theorem witness_expansion : ∀ p ∈ [(3, 1), (0, 1), (7, 1), (7, 7)], let op := expanding p.1 p.2
    ((withCopy op).agent 0).copyOps.find? (fun q => q.num == op.num) = some op ∧ op.other.size = 1 ∧ (p.1 ≤ 2 → op.index.size = 1) ∧
      (p.1 = 7 → op.index.size = 16) ∧ op.walked.size = cpyxSize p.2 ∧ Still (withCopy op) ∧
      (withCopy op).elementAt 0 op.walked [0] .write = .bytes ((List.range (cpyxSize p.2)).map (localKey 0 0 + ·)) := by
  unfold Still; decide +kernel
theorem witness_expansionReads : ∀ p ∈ [(3, 1, 1), (0, 1, 1), (7, 1, 1), (7, 7, 8)], ∀ b, b < p.2.2 →
    ExpansionReads (withCopy (expanding p.1 p.2.1)) 0 (expanding p.1 p.2.1) p.1 false b := by
  unfold ExpansionReads; decide +kernel

theorem witness_mmaOperands : ((withMat i8 true).agent 0).tile.matOps = [mat i8 true] ∧ (mat i8 true).started = true ∧
    (mat i8 true).done = 0 ∧ (mat i8 true).opA.length = 64 ∧
    ∀ row ∈ (mat i8 true).opA, row.length = 256 ∧ ∀ e ∈ row, e.1 < 2 ^ 8 := by
  refine ⟨rfl, rfl, rfl, List.length_replicate, fun row hr => ?_⟩
  obtain rfl := (List.mem_replicate.1 (hr : row ∈ zeroRows)).2
  exact ⟨List.length_replicate, fun e he => by rw [(List.mem_replicate.1 he).2]; decide⟩

/-- A tile operation at the head of the context's operations: TADD of two DENSE FP64 tiles, TROUND at its allocation point. -/
def tileOp (i : Instr) (started allocated : Bool) (results : List TileValue) : TileOp :=
  { num := 1, instr := i, order := 0, params := [], trcc := 0#32, trct := 0#64, keys := [],
    srcs := [⟨1, false, 64, 0, 0, false⟩, ⟨1, false, 64, 0, 32, false⟩], unit := .winnower, started := started, allocated := allocated,
    dests := [], results := results, elems := [], status := 0#32, flags := 0#6, capped := false, densified := false }
def withTile (op : TileOp) : State := aTile.modAgent 0 fun g => { g with tile := { g.tile with ops := [op] } }
/-- The same on a cluster whose Granary has no slab left. -/
def noSlabs (s : State) : State := { s with clusters := s.clusters.map fun u => { u with grankib := 1024 } }
def dense : TileValue := { kind := 1, f32 := false, rank := 64, words := [], poison := false }

/-- Operations that complete with elements for memory, a status word, a norm; a TLOAD and a TLRLD before they run. -/
def ending (i : Instr) : TileOp := { tileOp i true true [] with keys := [some 0x4000, none], elems := [(5, true), (6, false)], status := 1#32 }
theorem witness_tileEnds :
    (∀ i ∈ [Instr.tstore 1#5 3#7 6#6, .tlrst 1#5 3#7 6#6, .tlu 1#5 3#7 6#6, .tmv 1#5 3#7 6#6 0#3, .tchol 1#5 3#7, .tnorm 1#5 10#7 0#1],
      ((withTile (ending i)).agent 0).tile.ops = [ending i] ∧ ((withTile (ending i)).agent 0).phase = .active ∧ Still (withTile (ending i)) ∧
      (∀ st ∈ elementStores (ending i), (withTile (ending i)).fetchHolds st.key st.bytes.length = false)) ∧
    (elementStores (ending (.tlu 1#5 3#7 6#6))).map (fun st => (st.key, st.marks)) = [(0x4000, [(0x1000, true)])] ∧
    (tileWords (ending (.tchol 1#5 3#7))).isSome = true ∧ (tileWords (ending (.tnorm 1#5 10#7 0#1))).isSome = true ∧
    (let op := { tileOp (.tadd 3#5 1#5 2#5 0#4) true true [dense] with dests := [(3, Handle.zero, (0, 0))] }
     op.dests = [(3, Handle.zero, (0, 0))] ∧ op.results = [dense] ∧ (3 : Nat) < 32) ∧
    (List.replicate 4096 (none : Option Nat)).length = 4096 := by
  refine ⟨by unfold Still; decide +kernel, by decide +kernel, rfl, rfl, ⟨rfl, rfl, by decide⟩, List.length_replicate⟩

/-- A TLOAD from another device that no port reaches, and a TSTORE to it; the same of this device. -/
theorem witness_tilePeers :
    (∀ b ∈ [true, false], let op := { tileOp (.tload 1#5 3#7 6#6 0#1) b b [] with keys := [some (peerKey 3 0x4000)] }
      ((withTile op).agent 0).tile.ops = [op] ∧ op.started = b ∧ ∃ k ∈ peerReads op, ¬ PeerAnswers (withTile op) k) ∧
    (let op := { tileOp (.tstore 1#5 3#7 6#6) true true [] with keys := [some (peerKey 3 0x4000)], elems := [(5, false)] }
     ((withTile op).task ((withTile op).taskOf 0)).terminated = false ∧ ∃ st ∈ (elementStores op).drop op.done, ¬ PeerAnswers (withTile op) st.key) ∧
    PeerAnswers (withTile (ending (.tstore 1#5 3#7 6#6))) 0x4000 := by
  unfold PeerAnswers; decide +kernel

/-- In a terminated task, a TLOAD from a device that a port reaches, to which a stop signal keeps requests back. -/
theorem witness_terminatedTile :
    let op := { tileOp (.tload 1#5 3#7 6#6 0#1) false false [] with keys := [some (peerKey 3 0x4000)] }
    let near : State := { withTile op with ports := State.reset.ports.map fun p => { p with device := 3, stopped := [true, true, false, false] } }
    let s := near.modTask 0 fun t => { t with status := 3, cause := 0x18 }
    (s.task (s.taskOf 0)).terminated = true ∧ (s.agent 0).tile.ops = [op] ∧ (∀ k ∈ peerReads op, PeerReached s k) ∧
      ∃ k ∈ peerReads op, ¬ PeerAnswers s k := by unfold PeerReached PeerAnswers; decide +kernel

theorem witness_tileUnits :
    (let op := tileOp (.tadd 3#5 1#5 2#5 1#4) false true []
     ((withTile op).agent 0).tile.ops = [op] ∧ op.started = false ∧ (withTile op).unitFree ((withTile op).clusterOf 0) op = true ∧
       op.instr = .tadd 3#5 1#5 2#5 (if true then 1#4 else 0#4)) ∧
    (let op := tileOp (.tround 3#5 1#5) true false [dense]
     ((withTile op).agent 0).tile.ops = [] ++ [op] ∧ op.allocated = false ∧ op.started = true ∧
       (noSlabs (withTile op)).placeAll 0 [(3, 1, false, 64)] = none ∧ ((withTile op).placeAll 0 [(3, 1, false, 64)]).isSome = true ∧
       ((withTile op).agent 0).phase = .active ∧ tileWrites op.instr = [3]) ∧
    (let op := tileOp (.tadd 3#5 1#5 2#5 0#4) true true [dense]
     ((withTile op).agent 0).tile.ops = [op] ∧ elementStores op = [] ∧ 0 < (withTile op).agents.length) := by
  decide +kernel

/-- A factorisation that TROUND and TCOMP round, the kinds of the sources. -/
theorem witness_tileKernels :
    ((factorsFor rTile 0 (.tround 4#5 1#5) [⟨2, true, 1, 2, 40, false⟩]).map fun p => (p.1.m, p.2)) = some (1, true) ∧
    (∀ h ∈ [(⟨2, true, 1, 2, 40, false⟩ : Handle), ⟨1, true, 64, 0, 0, false⟩, Handle.zero], h.kind ≤ 2) := by decide +kernel

/-- A store on its way and two invalidations, one of a core alone; a warp stopped at a write to a page without its D bit, and at
a trap of another cause. -/
def inv (cores : Option (List Nat)) : TlbInv := { agent := 0, space := 0, dies := [0], va := some 0x4000#64, cores := cores }
def tlbAt (va : Nat) (p : DWord) : Tlb := { die := 0, space := 0, level := 0, va := va, pte := p }
def busy : State :=
  { aWarp with corePend := [{ agent := 0, core := 0, cluster := 0, store := storeOf 0x4000 4 [1#8, 2#8, 3#8, 4#8] [false] }]
               invs := [inv none, inv (some [1])], tlbs := [tlbAt 0x4000 0x10DF#64, tlbAt 0x5000 0x14DF#64] }
def trapOf (cause : Nat) (peer : Option Nat) : Trap :=
  { cause := cause, mask := allLanes, addr := 0x4000#64, access := 1, level := none, partDone := false, peer := peer }
def stoppedAt (cause : Nat) (peer : Option Nat) : State :=
  (poke [(0x2000, 0x5F)] aWarp).modAgent 0 fun g => { g with phase := .stopped 0 (trapOf cause peer) }

theorem walk0 (m : Memory) (p : Nat) (h : bytesAt m 0x1000 8 = 0x801 ∧ bytesAt m 0x2000 8 = p ∧ entryOk p = true ∧ isLeaf p = true ∧
    leafFits 3 p = true) : WalkFinds m (0x4000 % 2 ^ 57) 5 1 (some (3, BitVec.ofNat 64 p, 0x2000)) := by
  obtain ⟨h1, h2, h3, h4, h5⟩ := h
  unfold WalkFinds
  simp only [show 1 * 4096 + 8 * (0x4000 % 2 ^ 57 / 2 ^ (12 + 9 * 4) % 512) = 0x1000 by decide, h1]
  rw [if_pos (by decide), if_neg (by decide), if_neg (by decide)]
  unfold WalkFinds
  simp only [show pageOf 0x801 * 4096 + 8 * (0x4000 % 2 ^ 57 / 2 ^ (12 + 9 * 3) % 512) = 0x2000 by decide, h2]
  rw [if_pos h3, if_pos h4, if_pos h5]
theorem walkNone (m : Memory) (h : bytesAt m 0x1008 8 = 0) : WalkFinds m (2 ^ 48) 5 1 none := by
  unfold WalkFinds
  simp only [show 1 * 4096 + 8 * (2 ^ 48 / 2 ^ (12 + 9 * 4) % 512) = 0x1008 by decide, h]
  rw [if_neg (by decide)]; trivial

theorem witness_translation : aWarp.spaceRoot 0 = some 1 ∧ aWarp.spaceRoot 7 = none ∧ aWarp.tlbFind 0 0 0x4000 none = none ∧
    wholeVa 0x4000#64 = true ∧ wholeVa (BitVec.ofNat 64 (2 ^ 57)) = false ∧ (busy.tlbFind 0 0 0x4000 (some 0)).isSome = true ∧
    WalkFinds (aWarp.walkMem 0) (0x4000 % 2 ^ 57) 5 1 (some (3, 0xDF#64, 0x2000)) ∧ WalkFinds (aWarp.walkMem 0) (2 ^ 48) 5 1 none ∧
    (∀ p ∈ [0xDF, 0xD0, 0x9F, 0x5F], entryOk (p + 1 - p % 2) = true) :=
  ⟨by decide +kernel, by decide +kernel, by decide +kernel, by decide, by decide +kernel, by decide +kernel,
    walk0 _ 0xDF (by decide +kernel), walkNone _ (by decide +kernel), by decide⟩

/-- The TLBs of a die with every entry taken. -/
def fullTlbs : State := { aWarp with tlbs := List.replicate 16384 (tlbAt 0x5000 0x14DF#64), asked := [(0, 0, 4, 4)] }
theorem witness_pageWalk : (∃ q ∈ fullTlbs.asked, q.1 = 0 ∧ q.2.1 = 0 ∧ q.2.2.1 ≤ 0x4000 % 2 ^ 57 / 4096 ∧ 0x4000 % 2 ^ 57 / 4096 ≤ q.2.2.2) ∧
    aWarp.asked = [] ∧ (aWarp.dies.getD 0 default).enabled = true ∧ (aWarp.tlbs.filter (·.die == 0)).length < 16384 ∧
    (fullTlbs.tlbs.filter (·.die == 0)).length = 16384 ∧
    (fullTlbs.tlbs.contains { die := 0, space := 0, level := 3, va := 0, pte := 0xDF#64 }) = false := by
  refine ⟨⟨_, List.mem_singleton.2 rfl, by decide⟩, rfl, by decide +kernel, by decide +kernel, ?_, ?_⟩
  · show ((List.replicate 16384 (tlbAt 0x5000 0x14DF#64)).filter (·.die == 0)).length = 16384
    rw [List.filter_replicate, if_pos (by decide), List.length_replicate]
  · show (List.replicate 16384 (tlbAt 0x5000 0x14DF#64)).contains _ = false
    rw [List.contains_replicate]; decide

/-- A cached non-leaf entry that leads to VA 0x4000, as memory holds it, and one older than memory; a walk from the former; a TLBINV whose
issuer has a SHARED store buffered before its team's turn, and which names both. -/
def cachedWalk (pte : DWord) : WalkEntry := { die := 0, space := 0, level := 4, va := 0, slot := 0x1000, pte := pte }
def walked : State := { granBuffered with walks := [cachedWalk 0x801#64, cachedWalk 0xC01#64], asked := [(0, 0, 4, 4)], invs := [inv none] }
theorem witness_walkCaches : walked.walkFind 0 0 0x4000 (some 0) = some (cachedWalk 0x801#64) ∧ aWarp.walkFind 0 0 0x4000 none = none ∧
    walkLeads (cachedWalk 0x801#64) 0x4000 ∧ walked.walks.map (walkOld walked.mem) = [false, true] ∧
    walked.walks.map (invReaches (inv none)) = [true, true] ∧ walked.spaceRoot 0 = some 1 ∧
    (∃ q ∈ walked.asked, q.1 = 0 ∧ q.2.1 = 0 ∧ q.2.2.1 ≤ 0x4000 % 2 ^ 57 / 4096 ∧ 0x4000 % 2 ^ 57 / 4096 ≤ q.2.2.2) ∧
    walkReads walked.mem 0x4000 5 1 = [(4, 0x801#64, 0x1000)] ∧ ¬ MayRelease walked 0 .home ∧ MayRelease busy 0 .home := by
  decide +kernel

theorem witness_memoryEvents :
    (busy.corePend ++ busy.clusterPend)[0]? = busy.corePend.head? ∧ busy.fetchHolds 0x4000 4 = false ∧
    (∀ n ∈ [0, 1], busy.invs[n]? = some (inv (if n = 0 then none else some [1])) ∧
      busy.tlbs.map (invNames (inv (if n = 0 then none else some [1]))) = [true, false]) ∧
    keyKind 0x4000 = 0 ∧ keyKind (localKey 0 8) = 1 ∧ keyKind (granKey 0 8) = 2 ∧
    (∀ x ∈ [SpareUnit.cluster 1 3, .cluster 0 0, .dramLayer 0, .registerBank 5, .bearingLane 2],
      aWarp.hasUnit x = true ∧ aWarp.otherChange x = false ∧ aWarp.unitClear x = decide (x ≠ .cluster 0 0)) ∧
    (∀ p ∈ [none, some 3], ((stoppedAt 0x10 p).agent 0).phase = .stopped 0 (trapOf 0x10 p)) ∧
    ((stoppedAt 0x10 none).servePage 0 ((stoppedAt 0x10 none).taskOf 0) (trapOf 0x10 none)).isSome = true ∧
    ((stoppedAt 0x10 (some 3)).servePage 0 ((stoppedAt 0x10 (some 3)).taskOf 0) (trapOf 0x10 (some 3))) = none ∧
    ((stoppedAt 9 none).agent 0).phase = .stopped 0 (trapOf 9 none) := by
  decide +kernel
theorem witness_dirtyPage : WalkFinds (stoppedAt 0x10 none).mem ((trapOf 0x10 none).addr.toNat % 2 ^ 57) 5 1
    (some (3, BitVec.ofNat 64 0x5F, 0x2000)) ∧ BitVec.ofNat 64 0x5F ||| 0xC0#64 ≠ BitVec.ofNat 64 0x5F ∧
    wholeVa (trapOf 0x10 none).addr = true :=
  ⟨walk0 _ 0x5F (by decide +kernel), by decide, by decide⟩

/-- An access from device 3 to VA 0x4000 that finds its page, one at an address that no page maps, one that a stop signal keeps. -/
def stopped3 : State := { aWarp with ports := aWarp.ports.map fun p => { p with device := 3, stopped := [true, true, false, false] } }
theorem witness_peerAccess : aWarp.stoppedTo 3 1 = false ∧ stopped3.stoppedTo 3 1 = true ∧
    (∀ acc ∈ [Access.read, .write, .atomic], aWarp.helmKey (aWarp.liveDies.headD 0) 0 0x4000#64 acc = .ok 0x4000 ∧
      aWarp.helmKey (aWarp.liveDies.headD 0) 0 (BitVec.ofNat 64 (2 ^ 48)) acc = .error 0x10) := by
  decide +kernel

/-- A load through an entry of device 3, whose ports are told to stop. -/
def peerEntry : Layout := { lay 3 2 0 0x4000 [64] [4] with peer := 3#16 }
/-- A table to read from another device, to which a stop signal keeps requests back. -/
theorem witness_tableHeld :
    let op := { copying (.cpyx 7 1 0#16 [] true 1) 128 (some (localKey 0 16)) with index := peerEntry }
    let s := stopped3.modAgent 0 fun g => { g with copyIssued := 1, copyOps := [op] }
    (s.agent 0).copyOps.find? (fun q => q.num == op.num) = some op ∧ s.keptBack op.index = true ∧
      wordGen (s.mem.read64 (localKey 0 16)) ≠ 1 := by decide +kernel
def keptLoad : State := withEntry peerEntry { oneLane aWarp with ports := stopped3.ports }
theorem witness_keptLoad : WarpRuns keptLoad (see keptLoad) ∧ (loadForm (.ld32 127#7 3#7 10#6 0#1 7#3)).isSome = true ∧
    (see keptLoad).guardHolds 7 = 1#32 ∧ (see keptLoad).ag.layouts.getD 10 Layout.zero = peerEntry ∧ peerEntry.space = 3#8 ∧
    peerEntry.peer.toNat ≠ keptLoad.devid ∧ peerEntry.spot ((see keptLoad).coords peerEntry 3 0) = .at 0x4008 ∧
    (∃ p, keptLoad.ports[0]? = some p ∧ p.up = true ∧ p.device = 3) ∧
    (∀ q ∈ keptLoad.ports, q.up = true → q.device = 3 → q.stopped.getD 0 false = true) :=
  ⟨⟨rfl, rfl⟩, by decide +kernel, by decide +kernel, by decide +kernel, by decide, by decide +kernel, by decide +kernel,
    ⟨_, rfl, by decide +kernel⟩, by decide +kernel⟩

/-- A port with so many replays, an agent that has waited since CLOCK 0, a SYSTEM launch, a collective of the whole system. -/
def replays (n : Nat) : State := { State.reset with ports := State.reset.ports.modify 0 fun p => { p with up := true, replays := n } }
def systemPacket : List Byte := List.replicate 12 0#8 ++ [4#8] ++ List.replicate 179 0#8
def collecting : State :=
  { State.reset with
    tasks := [{ placedTask 0 0 with system := true, away := [{ logical := 1, clock := 0#64, retired := false }], binding := [⟨4, 6, true⟩, ⟨1, 2, true⟩, ⟨32, 0, true⟩] }]
    instances := [{ (default : Instance) with task := 0, kind := .coll 0 0, node := 1 }] }

theorem witness_linkEvents :
    ((replays 7).ports[0]?).map (fun p => (p.up, p.replays)) = some (true, 7) ∧
    ((replays 8).ports[0]?).map (fun p => (p.up, p.replays)) = some (true, 8) ∧
    (let s := aWarp.modEntry 0 0 fun en => { en with hold := .peer 1 }
     0 < s.agents.length ∧ 0 < (s.agent 0).entries.length ∧ ((s.agent 0).entry 0).hold = .peer (0 + 1)) ∧
    (systemPacket.length = 192 ∧ (Packet.ofBytes systemPacket).system = true ∧
      State.reset.sentTo systemPacket { launcher := .system, id := 1, space := 0, die := 0, parent := none } [] [] = true) ∧
    (collecting.instances[0]? = some { (default : Instance) with task := 0, kind := .coll 0 0, node := 1 } ∧ 6 ≤ ((collecting.task 0).level 0).phys ∧
      collecting.awaitsFrom { (default : Instance) with task := 0, kind := .coll 0 0, node := 1 } 32 = true ∧ 0 < collecting.ports.length) := by
  decide +kernel

/-- A warp of a SYSTEM task whose other team runs on device 3, to which a port leads. -/
def reducing : State :=
  let s := aWarp.modTask 0 fun t => { t with binding := [⟨2, 7, true⟩, ⟨1, 2, true⟩, ⟨32, 0, true⟩], system := true, devices := [3]
                                             away := [{ logical := 1, clock := 0#64, retired := false }] }
  { s with ports := s.ports.map fun p => { p with up := true, device := 3 } }
theorem witness_collectiveSent : WarpRuns reducing (see reducing) ∧ reducing.instances = [] ∧ (see reducing).ag.frames = [] ∧
    (see reducing).act = ~~~(see reducing).ag.exited ∧ IsLowest (see reducing).act 0 ∧ (0#4).toNat < (see reducing).depth ∧
    (see reducing).phys 0 = 7 ∧ paramIs (see reducing) 2 5#32 ∧ reducing.collQueue = [] ∧ (see reducing).task.devices = [3] ∧
    reducing.reachable 3 = true ∧ reducing.stoppedTo 3 2 = false ∧
    ∀ i, i < 32 → (see reducing).task.lin 0 (see reducing).team.logical (see reducing).ag.number i =
      (see reducing).task.lin 0 (see reducing).team.logical (see reducing).ag.number 0 :=
  ⟨⟨rfl, rfl⟩, rfl, rfl, by decide +kernel, by unfold IsLowest; decide +kernel, by decide +kernel, by decide +kernel,
    by unfold paramIs; decide +kernel, rfl, rfl, by decide +kernel, by decide +kernel, by decide +kernel⟩

/-! ### Words of the encodings (spec/05_encoding_rules.md, the opcode table): each of another rule -/

theorem test_words_R133_to_R142 : ∀ p ∈ ([
    ([0x00143073#32], .iadd 10#7 12#7 14#7 3#3),
    ([0x12143003#32], .popc 10#7 12#7 3#3),
    ([0x15143073#32], .bfx 10#7 12#7 14#7 3#3),
    ([0x18143073#32], .iadd64 10#7 12#7 14#7 3#3),
    ([0x1B262863#32], .icmp 2#4 3#3 10#7 12#7 3#3),
    ([0x1C262863#32], .fcmp32 2#4 3#3 10#7 12#7 3#3),
    ([0x1E40002B#32], .bra 524293#21 3#3),
    ([0x1F000003#32], .exit 3#3),
    ([0x20143073#32], .fadd 10#7 12#7 14#7 3#3),
    ([0x24143073#32], .fmin 10#7 12#7 14#7 3#3)] : List (List Word × Instr)),
    decodeWords p.1 = .ok (p.2, p.1.length) ∧ encode p.2 = p.1 := by decide +kernel

theorem test_words_R143_to_R250 : ∀ p ∈ ([
    ([0x26143013#32], .fnegabs 10#7 12#7 2#2 3#3),
    ([0x27143003#32], .frcp 10#7 12#7 3#3),
    ([0x2E143003#32], .fclass 10#7 12#7 3#3),
    ([0x2F143073#32], .fscalb 10#7 12#7 14#7 3#3),
    ([0x3C143073#32], .hadd2 10#7 12#7 14#7 3#3),
    ([0x40143073#32], .cvt 10#7 12#7 14#7 3#3),
    ([0x41143073#32], .pack 10#7 12#7 14#7 3#3),
    ([0x43143073#32], .cvtsF16 10#7 12#7 14#7 3#3),
    ([0x48143003#32], .mov 10#7 12#7 3#3),
    ([0x49143073#32], .selbF32 10#7 12#7 14#7 3#3)] : List (List Word × Instr)),
    decodeWords p.1 = .ok (p.2, p.1.length) ∧ encode p.2 = p.1 := by decide +kernel

theorem test_words_R152_to_R254 : ∀ p ∈ ([
    ([0x4C143003#32], .shape 10#7 12#7 3#3),
    ([0x4D140C63#32], .movp 10#7 3#3 12#7 3#3),
    ([0x4E143073#32], .rand 10#7 12#7 14#7 3#3),
    ([0x50262863#32], .pcmp32 2#4 3#3 10#7 12#7 3#3),
    ([0x526DA403#32], .plog 3#3 3#3 3#3 9#5 3#3),
    ([0x536C0053#32], .collapse 3#3 3#3 10#7 3#3),
    ([0x54140C63#32], .pgrad 10#7 3#3 12#7 3#3),
    ([0x55140C03#32], .psum 10#7 3#3 3#3),
    ([0x566800A3#32], .pconst 3#3 16389#16 3#3),
    ([0x57140C63#32], .pquery 10#7 3#3 12#7 3#3)] : List (List Word × Instr)),
    decodeWords p.1 = .ok (p.2, p.1.length) ∧ encode p.2 = p.1 := by decide +kernel

theorem test_words_R177_to_R205 : ∀ p ∈ ([
    ([0x58140C63#32], .lmask 10#7 3#3 12#7 3#3),
    ([0x59143073#32], .xlane 10#7 12#7 14#7 3#3),
    ([0x5A143073#32], .redux 10#7 12#7 14#7 3#3),
    ([0x5B143073#32], .scan 10#7 12#7 14#7 3#3),
    ([0x5C143070#32], .rebal 10#7 12#7 14#7),
    ([0x5D143003#32], .wsort 10#7 12#7 3#3),
    ([0x5E143073#32], .matchLanes 10#7 12#7 14#7 3#3),
    ([0x5F140063#32], .elect 10#7 12#7 3#3),
    ([0x6014315B#32], .ld8 10#7 12#7 21#6 1#1 3#3),
    ([0x6A14315B#32], .cstore 10#7 12#7 21#6 1#1 3#3)] : List (List Word × Instr)),
    decodeWords p.1 = .ok (p.2, p.1.length) ∧ encode p.2 = p.1 := by decide +kernel

theorem test_words_R207_to_R167 : ∀ p ∈ ([
    ([0x6B143003#32], .lookup 10#7 12#7 3#3),
    ([0x6C140063#32], .spop 10#7 12#7 3#3),
    ([0x70143005#32], .iaddi 10#7 12#7 5#10),
    ([0x80143073#32], .sadd 10#7 12#7 14#7 3#3),
    ([0x90680005#32], .jmp 3#3 524293#21),
    ([0x91680005#32], .bru 3#3 524293#21),
    ([0x92E80005#32], .call 524293#21),
    ([0x94080005#32], .reconv 524293#21),
    ([0x95000000#32], .wide ),
    ([0x97000000#32], .yield )] : List (List Word × Instr)),
    decodeWords p.1 = .ok (p.2, p.1.length) ∧ encode p.2 = p.1 := by decide +kernel

theorem test_words_R171_to_R196 : ∀ p ∈ ([
    ([0x98000295#32], .bar 10#7 21#6),
    ([0x99200000#32], .tbar 2#4),
    ([0x9A200000#32], .phase 2#4),
    ([0x9C200000#32], .tfence 2#4),
    ([0x9D200000#32], .ifence 2#4),
    ([0x9E214015#32], .levelId 2#4 10#7 21#6),
    ([0x9F214015#32], .levelSize 2#4 10#7 21#6),
    ([0xA0214313#32], .coll 2#4 10#7 12#7 2#2 3#3),
    ([0xA1140150#32], .layout 10#7 21#6),
    ([0xA2140152#32], .layq 10#7 21#6 2#4)] : List (List Word × Instr)),
    decodeWords p.1 = .ok (p.2, p.1.length) ∧ encode p.2 = p.1 := by decide +kernel

theorem test_words_R189_to_R188 : ∀ p ∈ ([
    ([0xA3140005#32], .mfsr 10#7 5#10),
    ([0xA5143000#32], .launch 10#7 12#7),
    ([0xA6143000#32], .twait 10#7 12#7),
    ([0xA7143070#32], .forkTile 10#7 12#7 14#7),
    ([0xA8143000#32], .rdv 10#7 12#7),
    ([0xA9140000#32], .commit 10#7),
    ([0xAA002860#32], .tlwait 10#7 12#7),
    ([0xAB143150#32], .aexpect 10#7 12#7 21#6),
    ([0xAE000000#32], .dsync ),
    ([0xAF000000#32], .tktake )] : List (List Word × Instr)),
    decodeWords p.1 = .ok (p.2, p.1.length) ∧ encode p.2 = p.1 := by decide +kernel

theorem test_words_R210_to_R323 : ∀ p ∈ ([
    ([0xB1143150#32], .cpy 10#7 12#7 21#6),
    ([0xB2143150#32], .cpyx 10#7 12#7 21#6),
    ([0xB5143152#32], .fill 10#7 12#7 21#6 2#4),
    ([0xB6002860#32], .tagset 10#7 12#7),
    ([0xB8140153#32], .cbload 10#7 21#6 3#3),
    ([0xB9143152#32], .setupis 10#7 12#7 21#6 2#4),
    ([0xBA140152#32], .pref 10#7 21#6 2#4),
    ([0xBB002860#32], .cinc 10#7 12#7),
    ([0xC0143150#32], .mmaF64 10#7 12#7 21#6),
    ([0xC7000152#32], .accz 21#6 2#4)] : List (List Word × Instr)),
    decodeWords p.1 = .ok (p.2, p.1.length) ∧ encode p.2 = p.1 := by decide +kernel

theorem test_words_R324_to_R302 : ∀ p ∈ ([
    ([0xC8140151#32], .accld 10#7 21#6 1#1),
    ([0xCA140152#32], .acccvt 10#7 21#6 2#4),
    ([0xD048A000#32], .tnew 9#5 10#7),
    ([0xD1480000#32], .tfree 9#5),
    ([0xD248A000#32], .tslab 9#5 10#7),
    ([0xD348A541#32], .tload 9#5 10#7 21#6 1#1),
    ([0xD548A541#32], .tlrld 9#5 10#7 21#6 1#1),
    ([0xD74A5202#32], .tadd 9#5 9#5 9#5 2#4),
    ([0xD848A000#32], .tscal 9#5 10#7),
    ([0xD94A5203#32], .tmul 9#5 9#5 9#5 1#1 1#1)] : List (List Word × Instr)),
    decodeWords p.1 = .ok (p.2, p.1.length) ∧ encode p.2 = p.1 := by decide +kernel

theorem test_words_R303_to_R342 : ∀ p ∈ ([
    ([0xDA4A4000#32], .tround 9#5 9#5),
    ([0xDD48A000#32], .tinfo 9#5 10#7),
    ([0xDE48A001#32], .tnorm 9#5 10#7 1#1),
    ([0xE04A5297#32], .tgemm 9#5 9#5 9#5 9#5 1#1 1#1 1#1),
    ([0xE148A000#32], .tchol 9#5 10#7),
    ([0xE248A540#32], .tlu 9#5 10#7 21#6),
    ([0xE34A4090#32], .tqr 9#5 9#5 9#5),
    ([0xE44A5202#32], .ttrsm 9#5 9#5 9#5 2#4),
    ([0xE548A543#32], .tmv 9#5 10#7 21#6 3#3),
    ([0xE8000085#32], .trap 133#9)] : List (List Word × Instr)),
    decodeWords p.1 = .ok (p.2, p.1.length) ∧ encode p.2 = p.1 := by decide +kernel

theorem test_words_R343_to_R156 : ∀ p ∈ ([
    ([0xE9000000#32], .tret ),
    ([0xEA143005#32], .sysc 10#7 12#7 5#10),
    ([0xEB143000#32], .pgmap 10#7 12#7),
    ([0xEC200280#32], .tlbinv 2#4 10#7),
    ([0xED000000#32], .halt ),
    ([0xEE140000#32], .clock 10#7),
    ([0xF0143005#32], .saddi 10#7 12#7 5#10)] : List (List Word × Instr)),
    decodeWords p.1 = .ok (p.2, p.1.length) ∧ encode p.2 = p.1 := by decide +kernel

/-- Words of reserved opcodes, with a fixed bit that does not hold, and a group cut short. -/
theorem test_words_refused : ∀ p ∈ [[0x12345678#32], [0xFFFFFFFF#32], [0x6F120007#32, 1#32, 0x12345678#32],
    [0x6F120007#32, 0#32]], (decodeWords p).isOk = false := by decide +kernel

/-! ### Ill-formed instructions (R80): one for each check of WellFormed -/

theorem test_illFormed_selectors : ∀ i ∈ ([.icmp 10#4 0#3 1#7 2#7 7#3, .fcmp32 6#4 0#3 1#7 2#7 7#3, .pcmp32 6#4 0#3 1#7 2#7 7#3,
    .fnegabs 1#7 2#7 0#2 7#3, .cvt 4#7 5#7 9#7 7#3, .movp 1#7 2#3 3#7 7#3, .pgrad 1#7 2#3 2#7 7#3, .plog 1#3 2#3 0#3 7#5 7#3,
    .lmask 1#7 2#3 3#7 4#3, .wsort 1#7 2#7 3#3, .matchLanes 1#7 2#7 3#7 2#3, .elect 1#7 2#7 2#3, .spop 1#7 8#7 7#3,
    .shriI 1#7 2#7 32#10, .smin 1#7 2#7 3#7 4#3, .layq 2#7 3#6 11#4, .mfsr 2#7 7#10, .mtsr 2#7 8#10, .mmaF64 1#7 2#7 3#6,
    .accz 63#6 1#4, .acccvt 1#7 2#6 11#4, .tnewImm 1#5 0#1 2#2, .tadd 1#5 2#5 3#5 2#4, .tdense 1#5 2#5 3#2, .tqr 3#5 2#5 3#5,
    .sysc 2#7 4#7 1#10, .sysc 2#7 4#7 512#10] : List Instr), i.illFormed 128 = some .selector := by decide +kernel
/-- V9 as a pair, V30 as four, V44 as eight registers, a register from N on, the last of a pair beyond N. -/
theorem test_illFormed_registers : (Instr.dfma 9#7 10#7 12#7 7#3).illFormed 128 = some .register ∧
    (Instr.ld128 30#7 1#7 0#6 0#1 7#3).illFormed 128 = some .register ∧ (Instr.cpy 1#7 44#7 0#6).illFormed 128 = some .register ∧
    (Instr.iadd 3#7 4#7 1#7 7#3).illFormed 4 = some .register ∧ (Instr.cstore 3#7 1#7 0#6 0#1 7#3).illFormed 4 = some .register ∧
    (Instr.iadd 3#7 2#7 1#7 7#3).illFormed 4 = none := by decide +kernel

/-! ### Examples of the manual, and small cases worked out by hand -/

/-- Registers and predicates of a warp, each the same in every lane. -/
def regsOn (l : List (Nat × Nat)) (s : State) : State :=
  s.modAgent 0 fun g => l.foldl (fun (g : Agent) p => g.setReg p.1 (uni p.2)) g
def codes (l : List (Nat × Nat × Nat)) (s : State) : State :=
  withPreds (fun p _ => match l.find? (·.1 == p) with
    | some (_, c, k) => ⟨BitVec.ofNat 16 c, BitVec.ofNat 8 k, false⟩
    | none => Pred.zero) s
/-- A word, a code, the flags after an instruction. -/
def word (i : Instr) (s : State) (r l : Nat) : Option Word := match exec i s with | .next t => some ((t.agent 0).word r l) | _ => none
def code (i : Instr) (s : State) (p l : Nat) : Option Nat := match exec i s with | .next t => some ((t.agent 0).pred p l).code.toNat | _ => none
def pcsOf (i : Instr) (s : State) : Option (List Nat) :=
  match exec i s with
  | .next t => some (((t.agent 0).entries.filter fun e => e.kind != .free).map fun e => (e.pc - 0x10000#64).toNat)
  | _ => none
def causeOf (i : Instr) (s : State) : Option Nat :=
  match exec i s with
  | .next t => match (t.agent 0).phase with
    | .stopped _ x => some x.cause
    | _ => some 0
  | _ => none

/-- R135: BSEL. -/
theorem test_bsel_example : word (.bsel 10#7 11#7 12#7 7#3) (regsOn [(11, 0x88332211), (12, 0xCF0)] aWarp) 10 3 = some 0xFF880011#32 := by
  decide +kernel
/-- R154: RAND of a zero key and a zero counter. -/
theorem test_rand_example : ∀ p ∈ [(20, 0x6627E8D5#32), (21, 0xE169C58D#32), (22, 0xBC57AC4C#32), (23, 0x9B00DBD8#32)],
    word (.rand 20#7 24#7 28#7 7#3) aWarp p.1 7 = some p.2 := by decide +kernel
/-- R247: PLOG of the codes 47910 and 57723. -/
theorem test_plog_example : code (.plog 3#3 1#3 2#3 0#5 7#3) (codes [(1, 47910, 2), (2, 57723, 4)] aWarp) 3 0 = some 42199 ∧
    code (.plog 3#3 1#3 2#3 1#5 7#3) (codes [(1, 47910, 2), (2, 57723, 4)] aWarp) 3 0 = some 63434 := by decide +kernel
/-- R249: COLLAPSE of the code 42199 with two draws. -/
theorem test_collapse_example : code (.collapse 3#3 1#3 11#7 7#3) (codes [(1, 42199, 0)] (regsOn [(11, 0xA0000000)] aWarp)) 3 0 = some 65535 ∧
    code (.collapse 3#3 1#3 11#7 7#3) (codes [(1, 42199, 0)] (regsOn [(11, 0xB0000000)] aWarp)) 3 0 = some 0 := by decide +kernel
/-- R251: SELB.f32 of 3 and 1 with the codes 65535, 0 and 32768. -/
theorem test_selb_example : (∀ p ∈ [(65535, 0x40400000#32), (0, 0x3F800000#32), (32768, 0x40000040#32)],
    word (.selbF32 10#7 11#7 12#7 2#3) (codes [(2, p.1, 0)] (regsOn [(11, 0x40400000), (12, 0x3F800000)] aWarp)) 10 9 = some p.2) := by
  decide +kernel
/-- R61: MTSR of 0xFFF to TRCC. -/
theorem test_trcc_example : (match exec (.mtsr 10#7 4#10) (regsOn [(10, 0xFFF)] aTile) with
    | .next t => some (t.agent 0).sregs.trcc
    | _ => none) = some (BitVec.ofNat 32 (1 + 32 * 2 + 16 * 128)) := by decide +kernel
/-- R133: the sum wraps; R134: the high half of a signed product; R137: the sign of an arithmetic shift. -/
theorem test_integer : word (.iadd 10#7 11#7 12#7 7#3) (regsOn [(11, 0xFFFFFFFF), (12, 2)] aWarp) 10 0 = some 1#32 ∧
    word (.imulhI32 10#7 11#7 12#7 7#3) (regsOn [(11, 0xFFFFFFFF), (12, 2)] aWarp) 10 0 = some 0xFFFFFFFF#32 ∧
    word (.imulhN32 10#7 11#7 12#7 7#3) (regsOn [(11, 0xFFFFFFFF), (12, 2)] aWarp) 10 0 = some 1#32 ∧
    word (.shriI 10#7 11#7 31#10) (regsOn [(11, 0x80000000)] aWarp) 10 0 = some 0xFFFFFFFF#32 ∧
    word (.clz 10#7 11#7 7#3) (regsOn [(11, 0)] aWarp) 10 0 = some 32#32 := by decide +kernel
/-- R108, R107: (+0) − (+0) is +0; Inf − Inf is the canonical NaN; 1 + 2^-24 is a tie, to even. -/
theorem test_fadd : word (.fsub 10#7 11#7 11#7 7#3) (regsOn [(11, 0)] aWarp) 10 0 = some 0#32 ∧
    word (.fsub 10#7 11#7 11#7 7#3) (regsOn [(11, 0x7F800000)] aWarp) 10 0 = some 0x7FC00000#32 ∧
    word (.fadd 10#7 11#7 12#7 7#3) (regsOn [(11, 0x3F800000), (12, 0x33800000)] aWarp) 10 0 = some 0x3F800000#32 := by decide +kernel
/-- R243, R245: at TEMP 1, PCMP32.gt of equal values is the code 32768, of 2 and 1 the code 47910. -/
def atOne (s : State) : State := s.modAgent 0 fun g => { g with sregs := { g.sregs with temp := 0x3F800000#32 } }
theorem test_pcmp : code (.pcmp32 4#4 3#3 11#7 11#7 7#3) (atOne (regsOn [(11, 0x3F800000)] aWarp)) 3 0 = some 32768 ∧
    code (.pcmp32 4#4 3#3 11#7 12#7 7#3) (atOne (regsOn [(11, 0x40000000), (12, 0x3F800000)] aWarp)) 3 0 = some 47910 := by decide +kernel
/-- R179: the sum of the lane numbers; R126: the scan of 1, 2^-24, 2^-24. -/
theorem test_redux_scan : word (.redux 10#7 1#7 13#7 0#3) (regsOn [(13, 0xFFFFFFFF)] aWarp) 10 0 = some 496#32 ∧
    (∀ l, l < 3 → word (.scan 10#7 14#7 13#7 1#3) (withReg 14 (gen fun i => if i = 0 then 0x3F800000 else 0x33800000) (regsOn [(13, 7)] aWarp)) 10 l =
      some 0x3F800000#32) := by decide +kernel
/-- R159 to R161: branches go their words on from themselves when they are taken; a branch of half the lanes makes two fragments. -/
theorem test_control : pcsOf (.bru 3#3 5#21) aWarp = some [4] ∧ pcsOf (.bru 7#3 5#21) aWarp = some [20] ∧ pcsOf (.jmp 7#3 5#21) aWarp = some [20] ∧
    (pcsOf (.bra 5#21 1#3) split).map (·.drop 1) = some [20, 4] := by
  decide +kernel
/-- R80, R335: the causes of a privileged form in the program, of a tile instruction on a warp, of SOFTWARE. -/
theorem test_traps : causeOf .tret aWarp = some 3 ∧ causeOf (.commit 2#7) aWarp = some 2 ∧ causeOf (.trap 5#9) aWarp = some 0x17 ∧
    causeOf (.iadd 1#7 2#7 3#7 7#3) aCopy = some 1 ∧ causeOf .nop aWarp = some 0 := by decide +kernel
/-- R200, R197: a store and a load of one word, and the cause of a store out of local memory. -/
theorem test_memory : (match exec (.st32 2#7 3#7 1#6 0#1 7#3) (oneLane aWarp) with
    | .next t => word (.ld32 50#7 3#7 1#6 0#1 7#3) t 50 0
    | _ => none) = some 5#32 ∧ causeOf (.st32 2#7 3#7 10#6 0#1 7#3) over0 = some 8 := by decide +kernel
/-- The host's placed instruction is the first to run. -/
theorem test_first_step : (match step (State.reset.withFetchWord 32 0x20081437) with
    | .next t => some ((t.agent 0).entry 0).pc
    | _ => none) = some 0x10004#64 := by decide +kernel

end Sys2Proof.Tests
end

section
/-! SUPPORT. Lists by number, and numbers in bytes (R5): the value that bytes hold, as a sum, and back. -/

namespace Sys2Proof.Machine

/-! ### Lists by number -/

/-- The numbered elements of a list, by number. -/
theorem zipIdx_eq_map_range {α : Type} (l : List α) (d : α) : l.zipIdx = (List.range l.length).map fun i => (l.getD i d, i) := by
  refine List.ext_getElem (by simp) fun i h _ => ?_
  have hi : i < l.length := by simpa using h
  simp [hi]

/-- The numbers below a bound, about one of them. -/
theorem range_split {i n : Nat} (h : i < n) : List.range n = List.range i ++ i :: (List.range (n - (i + 1))).map (i + 1 + ·) := by
  rw [show n = (i + 1) + (n - (i + 1)) by omega, List.range_add, List.range_succ, List.append_assoc]
  simp

/-! ### Bytes -/

/-- The first of two bit vectors stands above the second. -/
theorem append_toNat {m n : Nat} (x : BitVec m) (y : BitVec n) : (x ++ y).toNat = x.toNat * 2 ^ n + y.toNat := by
  rw [BitVec.toNat_append, ← Nat.shiftLeft_add_eq_or_of_lt y.isLt, Nat.shiftLeft_eq]

/-- The value of bytes is the sum of their places, however many absent ones are counted with them. -/
theorem natOfBytes_eq_sum (l : List Byte) (n : Nat) (h : l.length ≤ n) :
    natOfBytes l = ((List.range n).map fun j => (l.getD j 0#8).toNat * 256 ^ j).sum := by
  induction l generalizing n with
  | nil => simp [natOfBytes]
  | cons b rest ih =>
    obtain ⟨n, rfl⟩ : ∃ m, n = m + 1 := ⟨n - 1, by simp at h; omega⟩
    rw [natOfBytes, ih n (by simpa using h), List.range_succ_eq_map, List.map_cons, List.sum_cons, List.map_map,
      ← List.sum_map_mul_left]
    congr 1
    · simp
    · refine congrArg List.sum (List.map_congr_left fun j _ => ?_)
      simp only [Function.comp_apply, List.getD_cons_succ, Nat.pow_succ]
      ring

theorem Memory.readBytes_length (m : Memory) (k n : Nat) : (m.readBytes k n).length = n := by
  induction n generalizing k with
  | zero => rfl
  | succ n ih => simp [Memory.readBytes, ih]

theorem Memory.readBytes_getD (m : Memory) (k n j : Nat) (h : j < n) : (m.readBytes k n).getD j 0#8 = m.read (k + j) := by
  induction n generalizing k j with
  | zero => omega
  | succ n ih =>
    cases j with
    | zero => rfl
    | succ j => rw [Memory.readBytes, List.getD_cons_succ, ih _ _ (by omega), Nat.add_right_comm, Nat.add_assoc]

/-- The number that n bytes of memory hold. -/
theorem Memory.readNat_eq_bytesAt (m : Memory) (k n : Nat) : m.readNat k n = bytesAt m k n := by
  rw [Memory.readNat, natOfBytes_eq_sum _ n (by rw [Memory.readBytes_length]), bytesAt, ← List.sum_eq_foldr]
  refine congrArg List.sum (List.map_congr_left fun j hj => ?_)
  rw [Memory.readBytes_getD _ _ _ _ (List.mem_range.1 hj)]

theorem bytesOfNat_length (n v : Nat) : (bytesOfNat n v).length = n := by
  induction n generalizing v with
  | zero => rfl
  | succ n ih => simp [bytesOfNat, ih]

theorem natOfBytes_bytesOfNat (n v : Nat) : natOfBytes (bytesOfNat n v) = v % 256 ^ n := by
  induction n generalizing v with
  | zero => simp [bytesOfNat, natOfBytes, Nat.mod_one]
  | succ n ih =>
    have hsplit : v % 256 ^ (n + 1) = v % 256 + 256 * (v / 256 % 256 ^ n) := by rw [Nat.pow_succ', Nat.mod_mul]
    rw [bytesOfNat, natOfBytes, ih, BitVec.toNat_ofNat, hsplit]

/-- The number that a list of bytes put into memory holds is read back. -/
theorem bytesAt_writeBytes (m : Memory) (h : m.wf = true) (k n v : Nat) :
    bytesAt (m.writeBytes k (bytesOfNat n v)) k n = v % 256 ^ n := by
  rw [← natOfBytes_bytesOfNat, natOfBytes_eq_sum _ n (by rw [bytesOfNat_length]), bytesAt, ← List.sum_eq_foldr]
  refine congrArg List.sum (List.map_congr_left fun j hj => ?_)
  rw [Memory.read_writeBytes _ _ h, bytesOfNat_length, if_pos ⟨by omega, by simpa using hj⟩, Nat.add_sub_cancel_left]

@[simp] theorem Memory.writeBytes_marked (bs : List Byte) (m : Memory) (k a : Nat) : (m.writeBytes k bs).marked a = m.marked a := by
  induction bs generalizing m k with
  | nil => rfl
  | cons b rest ih => rw [Memory.writeBytes, ih, Memory.write_marked]

end Sys2Proof.Machine
end

section
/-! SUPPORT. Branches and exit: what the model's own branch operations write, in the terms of the statements (R24, R25, R159, R160,
R165). -/

namespace Sys2Proof.Machine

/-! ### Targets and guards -/

/-- An offset in words, extended by its sign and shifted, is four times its signed value (R66). -/
theorem Ctx.target_eq (c : Ctx) (off : BitVec 21) : c.target off = branchTarget c off := by
  have hshift : off.signExtend 64 <<< 2 = BitVec.ofInt 64 off.toInt * 4#64 := by
    rw [BitVec.shiftLeft_eq_mul_twoPow]; rfl
  unfold Ctx.target branchTarget
  rw [hshift, BitVec.ofInt_add, BitVec.ofInt_mul, BitVec.ofInt_natCast, BitVec.ofNat_toNat, BitVec.setWidth_eq, BitVec.mul_comm]
  rfl

/-- The next instruction after a guarded one that completes in place, or has set its program counters, with PSTAT.FRAC as the
guard leaves it (R50). -/
theorem finish_soft_retire (c : Ctx) (p : PReg) (u : State) :
    finish c 1 (if guardSoft c p.toNat then (Done.retire u).map (·.setFrac c.a) else .retire u) = retired c 1 (withSoft c p u) := by
  unfold withSoft
  split <;> rfl

theorem finish_soft_placed (c : Ctx) (p : PReg) (u : State) :
    finish c 1 (if guardSoft c p.toNat then (Done.placed u).map (·.setFrac c.a) else .placed u) = placedAt c (withSoft c p u) := by
  unfold withSoft
  split <;> rfl

/-! ### Divergence -/

/-- The free entries of a split table, by number, lowest first. -/
theorem freeEntries_eq (c : Ctx) :
    freeEntries c = (c.ag.entries.zipIdx.filter fun p => p.1.kind == .free).map (·.2) := by
  rw [zipIdx_eq_map_range _ Entry.free, List.filter_map, List.map_map]
  simp [freeEntries, Function.comp_def]

/-- Two free entries are the first two of the list of them; with fewer there is no pair. -/
theorem freePair_eq (c : Ctx) : freePair c.ag.entries =
    if 2 ≤ (freeEntries c).length then some ((freeEntries c).getD 0 0, (freeEntries c).getD 1 0) else none := by
  unfold freePair
  rw [← freeEntries_eq]
  rcases freeEntries c with _ | ⟨i, _ | ⟨j, rest⟩⟩ <;> rfl

/-- The split of R24 writes the two sides and the join. -/
theorem Ctx.split_eq {s : State} {c : Ctx} (h : issuer s = some c) (i j : Nat) (t n : Mask) (target : DWord) :
    c.upd (fun ag => ag.split c.e i j t n target c.nextPc) =
      withIssuer c s fun g => { g with entries := divergedEntries c t n target i j } := by
  obtain ⟨-, hs, hag, hen, -⟩ := issuer_spec h
  unfold Ctx.upd withIssuer
  rw [hs]
  refine modAgent_congr _ _ _ _ ?_
  rw [← hag]
  simp only [Agent.split, ← hen]
  rfl

/-- A change of the issuing entry is what it makes of that entry. -/
theorem modEntry_congr {s : State} {c : Ctx} (h : issuer s = some c) (f g : Entry → Entry) (hfg : f c.en = g c.en) :
    s.modEntry c.a c.e f = s.modEntry c.a c.e g := by
  obtain ⟨-, -, hag, hen, -, he, -⟩ := issuer_spec h
  refine modAgent_congr _ _ _ _ ?_
  rw [← hag]
  unfold Agent.modEntry
  congr 1
  refine List.ext_getElem? fun i => ?_
  simp only [List.getElem?_modify]
  by_cases hi : c.e = i
  · subst hi
    have : c.ag.entries[c.e] = c.en := by rw [hen]; simp [Agent.entry, he]
    simp [he, this, hfg]
  · simp [hi]

/-- The deferral of R25 lets the taken lanes run and records the others. -/
theorem Ctx.defer_eq {s : State} {c : Ctx} (h : issuer s = some c) (t n : Mask) (target : DWord) :
    c.setEntry (fun en => en.defer t n target c.nextPc) = s.modEntry c.a c.e (deferredEntry c t n target) := by
  rw [Ctx.setEntry, (issuer_spec h).2.1]
  exact modEntry_congr h _ _ rfl

/-- A branch whose lanes disagree splits the fragment where two entries are free and no WIDE is open, else it defers (R24, R25). -/
theorem Ctx.diverge_eq {s : State} {c : Ctx} (h : issuer s = some c) (t n : Mask) (target : DWord) :
    c.diverge t n target = .placed (
      if c.ag.wide.depth = 0 ∧ 2 ≤ (freeEntries c).length then
        withIssuer c s fun g =>
          { g with entries := divergedEntries c t n target ((freeEntries c).getD 0 0) ((freeEntries c).getD 1 0) }
      else s.modEntry c.a c.e (deferredEntry c t n target)) := by
  unfold Ctx.diverge
  rw [freePair_eq]
  by_cases hw : c.ag.wide.depth = 0
  · by_cases hf : 2 ≤ (freeEntries c).length
    · simp only [hw, hf, Nat.lt_irrefl, if_false, if_true, and_self, Ctx.split_eq h]
    · simp only [hw, hf, Nat.lt_irrefl, if_false, and_false, Ctx.defer_eq h]
  · simp only [hw, Nat.pos_of_ne_zero hw, if_true, false_and, if_false, Ctx.defer_eq h]

end Sys2Proof.Machine

namespace Sys2Proof

open Sys2Proof.Machine

/-! ### The statements -/

/-- What BRA does in a fragment whose guard passes its checks (R159). -/
theorem exec_bra {s : State} {c : Ctx} (hw : WarpRuns s c) (off : BitVec 21) (ps : PReg) (hg : GuardClear c ps.toNat) :
    exec (.bra off ps) s = .next (
      if c.act &&& ~~~c.guardHolds ps.toNat = 0#32 then
        placedAt c (withSoft c ps (s.modEntry c.a c.e (sentTo (branchTarget c off))))
      else if c.guardHolds ps.toNat = 0#32 then retired c 1 (withSoft c ps s)
      else placedAt c (withSoft c ps (
        if c.ag.wide.depth = 0 ∧ 2 ≤ (freeEntries c).length then
          withIssuer c s fun g => { g with
            entries := divergedEntries c (c.guardHolds ps.toNat) (c.act &&& ~~~c.guardHolds ps.toNat) (branchTarget c off)
              ((freeEntries c).getD 0 0) ((freeEntries c).getD 1 0) }
        else s.modEntry c.a c.e
          (deferredEntry c (c.guardHolds ps.toNat) (c.act &&& ~~~c.guardHolds ps.toNat) (branchTarget c off))))) := by
  have hs := (issuer_spec hw.1).2.1
  show execBra off ps s = _
  rw [execBra, onWarp_eq hw, guarded_eq hg]
  dsimp only
  rw [Ctx.diverge_eq hw.1, Ctx.target_eq, Ctx.jump, Ctx.setEntry, hs]
  congr 1
  by_cases hother : c.act &&& ~~~c.guardHolds ps.toNat = 0#32
  · simp only [if_pos hother, finish_soft_placed]
    rfl
  · by_cases htaken : c.guardHolds ps.toNat = 0#32
    · simp only [if_neg hother, if_pos htaken, finish_soft_retire]
    · simp only [if_neg hother, if_neg htaken, finish_soft_placed]

/-- What BRU does in a fragment whose guard passes its checks (R160). -/
theorem exec_bru {s : State} {c : Ctx} (hw : WarpRuns s c) (off : BitVec 21) (ps : PReg) (hg : GuardClear c ps.toNat) :
    exec (.bru ps off) s = .next (
      if c.guardHolds ps.toNat = c.act then placedAt c ((withSoft c ps s).modEntry c.a c.e (sentTo (branchTarget c off)))
      else if c.guardHolds ps.toNat = 0#32 then retired c 1 (withSoft c ps s)
      else takeTrap s c.a c.e 1
        { cause := 0x06, mask := c.act, addr := 0#64, access := 0, level := none, partDone := false }) := by
  have hs := (issuer_spec hw.1).2.1
  have hguard : (c.guarded ps.toNat fun _ => .retire c.s) = .retire (withSoft c ps s) := by
    rw [guarded_eq hg, withSoft, hs]
    split <;> rfl
  show execBru ps off s = _
  rw [execBru, onWarp_eq hw, hguard]
  congr 1
  by_cases hall : c.guardHolds ps.toNat = c.act
  · simp only [if_pos hall, ← Ctx.target_eq]
    rfl
  · by_cases hnone : c.guardHolds ps.toNat = 0#32
    · simp only [if_neg hall, if_pos hnone]
      rfl
    · simp only [if_neg hall, if_neg hnone, ← hs]
      rfl

/-- Settles O14: the branch of the guard's lanes, case by case, with the split or deferral of a fragment whose lanes disagree. -/
theorem branches : Obligations.Branches := by
  intro s c off ps hw hg
  refine ⟨?_, exec_bru hw off ps hg⟩
  rw [exec_bra hw off ps hg]
  split_ifs <;> rfl

/-- Settles O15: the lanes whose guard holds leave, and the fragment goes to the next instruction. -/
theorem exitLanes : Obligations.ExitLanes := by
  intro s c ps hw hg
  have hs := (issuer_spec hw.1).2.1
  have hguard : (c.guarded ps.toNat fun x => if x = 0#32 then .retire c.s else .placed c.s) =
      if c.guardHolds ps.toNat = 0#32 then .retire (withSoft c ps s) else .placed (withSoft c ps s) := by
    rw [guarded_eq hg, withSoft, hs]
    split_ifs <;> rfl
  show execExit ps s = _
  rw [execExit, onWarp_eq hw, hguard]
  by_cases hnone : c.guardHolds ps.toNat = 0#32
  · simp only [if_pos hnone]
    rfl
  · simp only [if_neg hnone]
    rfl

end Sys2Proof
end

section
/-! SUPPORT. The boundary of a split table (R24 to R26, R32): a round leaves quiet entries alone, and one entry at its address makes
the one change of its kind, after which the table is quiet. -/

namespace Sys2Proof.Machine

/-! ### One entry -/

/-- Nothing is taken from a mask by lanes that it does not hold. -/
theorem and_not_eq_self {m ex : Mask} (h : m &&& ex = 0#32) : m &&& ~~~ex = m := by
  refine mask_ext fun i hi => ?_
  have hb := congrArg (inMask · i) h
  simp only [inMask, BitVec.getLsbD_and, BitVec.getLsbD_not, hi, decide_true, Bool.true_and, BitVec.getLsbD_zero] at hb ⊢
  cases h1 : m.getLsbD i <;> simp_all

theorem Entry.strip_of_noneExited {ex : Mask} {en : Entry} (h : NoneExited ex en) : en.strip ex = en := by
  obtain ⟨hm, ha, hr⟩ := h
  have hrec : (en.records.map fun r => { r with deferred := r.deferred &&& ~~~ex, full := r.full &&& ~~~ex }) = en.records := by
    conv_rhs => rw [← List.map_id en.records]
    refine List.map_congr_left fun r hmem => ?_
    rw [and_not_eq_self (hr r hmem).1, and_not_eq_self (hr r hmem).2]
    rfl
  rw [Entry.strip, and_not_eq_self hm, and_not_eq_self ha, hrec]

theorem Entry.handOver_of_quiet {ex : Mask} {en : Entry} (h : QuietEntry ex en) : en.handOver = en := by
  obtain ⟨-, hrun, -⟩ := h
  unfold Entry.handOver
  split
  · rename_i r rest hk hr
    obtain ⟨hm, ht⟩ := hrun hk
    rw [hr] at ht
    exact if_neg fun hc => hc.elim hm ht
  · rfl

theorem Entry.freeEmpty_of_lanes {en : Entry} (h : en.kind = .running → en.mask ≠ 0#32) : en.freeEmpty = en :=
  if_neg fun hc => h hc.1 hc.2.1

theorem Entry.joinDone_of_quiet {ex : Mask} {en : Entry} (h : QuietEntry ex en) : en.joinDone = en :=
  if_neg fun hc => h.2.2 hc.1 hc.2

theorem Entry.joinDone_of_running {en : Entry} (h : en.kind = .running) : en.joinDone = en :=
  if_neg fun hc => by rw [h] at hc; exact absurd hc.1 (by decide)

/-- What the first part of a round makes of an entry: exited lanes leave it, and its records act unless WIDE suspends them. -/
def passEntry (ex : Mask) (w : Wide) (i : Nat) (en : Entry) : Entry :=
  if w.guards i (en.strip ex) then en.strip ex else (en.strip ex).handOver.freeEmpty

theorem passEntry_of_quiet {ex : Mask} {en : Entry} (w : Wide) (i : Nat) (h : QuietEntry ex en) : passEntry ex w i en = en := by
  rw [passEntry, Entry.strip_of_noneExited h.1, Entry.handOver_of_quiet h, Entry.freeEmpty_of_lanes fun hk => (h.2.1 hk).1, ite_self]

theorem Wide.guards_of_closed {w : Wide} (h : w.depth = 0) (i : Nat) (en : Entry) : w.guards i en = false := by
  simp [Wide.guards, h]

/-! ### One round -/

theorem fuseAt_of_entry {es : List Entry} {i : Nat}
    (h : ∀ en, es[i]? = some en → en.kind = .running → en.records = [] → en.reconv ≠ some en.pc) : fuseAt es i = es := by
  unfold fuseAt
  split
  · rfl
  · rename_i en hen
    exact if_neg fun hc => h en hen hc.1 hc.2.1 hc.2.2

/-- A quiet fragment without a record is not at its reconvergence address. -/
theorem reconv_ne_of_quiet {ex : Mask} {en : Entry} (h : QuietEntry ex en) (hk : en.kind = .running) (hr : en.records = []) :
    en.reconv ≠ some en.pc := by
  have := (h.2.1 hk).2
  rwa [hr] at this

/-- Fusing along a list of numbers, where WIDE allows it. -/
def fuseAll (w : Wide) (is : List Nat) (es : List Entry) : List Entry :=
  is.foldl (fun l i => if w.guards i (l.getD i Entry.free) then l else fuseAt l i) es

theorem fuseAll_of_stay {w : Wide} {is : List Nat} {es : List Entry}
    (h : ∀ i ∈ is, w.guards i (es.getD i Entry.free) = true ∨ fuseAt es i = es) : fuseAll w is es = es := by
  induction is with
  | nil => rfl
  | cons i rest ih =>
    have hi : (if w.guards i (es.getD i Entry.free) then es else fuseAt es i) = es := by
      rcases h i (by simp) with hg | hf
      · exact if_pos hg
      · rw [hf, ite_self]
    rw [fuseAll, List.foldl_cons, hi]
    exact ih fun j hj => h j (by simp [hj])

/-- A round is: each entry by itself, then fusing in order, then joins. -/
theorem settlePass_eq (ex : Mask) (w : Wide) (es : List Entry) :
    settlePass ex w es = (fuseAll w (List.range es.length) (es.zipIdx.map fun p => passEntry ex w p.2 p.1)).map Entry.joinDone := by
  simp only [settlePass, fuseAll, List.length_map, List.length_zipIdx]
  rfl

theorem zipIdx_map_eq_self {es : List Entry} (f : Entry → Nat → Entry) (h : ∀ i en, es[i]? = some en → f en i = en) :
    (es.zipIdx.map fun p => f p.1 p.2) = es := by
  refine List.ext_getElem? fun i => ?_
  rw [List.getElem?_map, List.getElem?_zipIdx]
  cases hx : es[i]? with
  | none => rfl
  | some en => simp [h i en hx]

theorem zipIdx_map_eq_set {es : List Entry} {k : Nat} {next : Entry} (f : Entry → Nat → Entry)
    (h : ∀ i en, es[i]? = some en → f en i = if i = k then next else en) : (es.zipIdx.map fun p => f p.1 p.2) = es.set k next := by
  refine List.ext_getElem? fun i => ?_
  rw [List.getElem?_map, List.getElem?_zipIdx, List.getElem?_set]
  cases hx : es[i]? with
  | none =>
    have hi := List.getElem?_eq_none_iff.1 hx
    simp
    omega
  | some en =>
    have hi := (List.getElem?_eq_some_iff.1 hx).1
    by_cases hk : k = i
    · subst hk; simp [h _ en hx, hi]
    · simp [h i en hx, hk, Ne.symm hk]

/-- A table in which every entry is quiet. -/
abbrev QuietTable (ex : Mask) (es : List Entry) : Prop := ∀ en ∈ es, QuietEntry ex en

theorem quietTable_set {ex : Mask} {es : List Entry} {i : Nat} {next : Entry}
    (hothers : ∀ j x, es[j]? = some x → j ≠ i → QuietEntry ex x) (hnext : QuietEntry ex next) : QuietTable ex (es.set i next) := by
  intro x hx
  obtain ⟨j, hj⟩ := List.mem_iff_getElem?.1 hx
  rw [List.getElem?_set] at hj
  split_ifs at hj with h1 h2
  · cases hj; exact hnext
  · exact hothers j x hj (Ne.symm h1)

theorem map_joinDone_of {es : List Entry} (h : ∀ en ∈ es, en.joinDone = en) : es.map Entry.joinDone = es := by
  conv_rhs => rw [← List.map_id es]
  exact List.map_congr_left h

/-- Where the first part of a round leaves a quiet table, the rest of the round leaves it as it is. -/
theorem settlePass_of_quiet {ex : Mask} {w : Wide} {es es' : List Entry}
    (hmap : (es.zipIdx.map fun p => passEntry ex w p.2 p.1) = es') (hq : QuietTable ex es') : settlePass ex w es = es' := by
  rw [settlePass_eq, hmap, fuseAll_of_stay fun i _ => .inr (fuseAt_of_entry fun en hen hk hr =>
    reconv_ne_of_quiet (hq en (List.mem_of_getElem? hen)) hk hr)]
  exact map_joinDone_of fun en hen => Entry.joinDone_of_quiet (hq en hen)

theorem settlePass_quiet {ex : Mask} {w : Wide} {es : List Entry} (hq : QuietTable ex es) : settlePass ex w es = es :=
  settlePass_of_quiet (zipIdx_map_eq_self (fun en i => passEntry ex w i en) fun i en hen =>
    passEntry_of_quiet w i (hq en (List.mem_of_getElem? hen))) hq

/-! ### Rounds until nothing changes -/

/-- A round that gives a table which a further round leaves alone gives what the boundary leaves. -/
theorem Agent.settle_of_pass {g : Agent} {es' : List Entry} (h1 : settlePass g.exited g.wide g.entries = es')
    (h2 : settlePass g.exited g.wide es' = es') : g.settle = { g with entries := es' } := by
  have hrounds : settleEntries g.exited g.wide 64 g.entries = es' := by
    rw [settleEntries, h1]
    split
    · rename_i heq; exact heq.symm
    · rw [settleEntries, h2, if_pos rfl]
  rw [Agent.settle, hrounds]

theorem Agent.settle_of_quiet {g : Agent} (h : QuietTable g.exited g.entries) : g.settle = g :=
  Agent.settle_of_pass (settlePass_quiet h) (settlePass_quiet h)

/-! ### Deferral records (R25) -/

/-- What becomes of a fragment at the address of its record. -/
def afterRecord (en : Entry) (r : Deferral) (rest : List Deferral) : Entry :=
  if r.phase = false ∧ r.deferred ≠ 0#32 then
    { en with mask := r.deferred, pc := r.resume, stack := r.stack, records := { r with phase := true } :: rest }
  else { en with mask := r.full, records := rest }

theorem Entry.handOver_at_target {en : Entry} {r : Deferral} {rest : List Deferral} (hk : en.kind = .running)
    (hr : en.records = r :: rest) (ht : r.target = some en.pc) : en.handOver = afterRecord en r rest := by
  unfold Entry.handOver afterRecord
  rw [hk, hr]
  simp only [ht, or_true, if_true, Option.getD_some]
  by_cases hc : r.phase = false ∧ r.deferred ≠ 0#32
  · rw [if_pos hc, if_pos (by simpa using hc)]
  · rw [if_neg hc, if_neg (by simpa using hc)]

/-- One fragment at the address of its record, every other entry quiet: the record acts, and the table is quiet. -/
theorem settle_record {g : Agent} {i : Nat} {en : Entry} {r : Deferral} {rest : List Deferral} (hw : g.wide.depth = 0)
    (hen : g.entries[i]? = some en) (hothers : ∀ j x, g.entries[j]? = some x → j ≠ i → QuietEntry g.exited x)
    (hex : NoneExited g.exited en) (hk : en.kind = .running) (hr : en.records = r :: rest) (ht : r.target = some en.pc)
    (hq : QuietEntry g.exited (afterRecord en r rest)) : g.settle = { g with entries := g.entries.set i (afterRecord en r rest) } := by
  have hhere : passEntry g.exited g.wide i en = afterRecord en r rest := by
    rw [passEntry, Wide.guards_of_closed hw, if_neg (by decide), Entry.strip_of_noneExited hex, Entry.handOver_at_target hk hr ht]
    exact Entry.freeEmpty_of_lanes fun h => (hq.2.1 h).1
  have hmap : (g.entries.zipIdx.map fun p => passEntry g.exited g.wide p.2 p.1) = g.entries.set i (afterRecord en r rest) := by
    refine zipIdx_map_eq_set (fun en i => passEntry g.exited g.wide i en) fun j x hx => ?_
    by_cases hj : j = i
    · subst hj
      rw [if_pos rfl, ← hhere]
      rw [hen] at hx
      cases hx; rfl
    · rw [if_neg hj, passEntry_of_quiet g.wide j (hothers j x hx hj)]
  have hquiet := quietTable_set hothers hq
  exact Agent.settle_of_pass (settlePass_of_quiet hmap hquiet) (settlePass_quiet hquiet)

/-! ### Reconvergence (R26) -/

/-- What becomes of a join when lanes have arrived. -/
def afterArrival (join : Entry) (came : Mask) : Entry :=
  if join.mask &&& ~~~came = 0#32 then { join with kind := .running, arrived := 0#32, pending := none, hold := .ready }
  else { join with arrived := came }

/-- The entry of a join that still misses lanes, with the lanes that have arrived, once the round has looked at it. -/
theorem Entry.joinDone_of_join {join : Entry} (came : Mask) (hk : join.kind = .join) (hm : join.mask ≠ 0#32) :
    ({ join with arrived := came } : Entry).joinDone = afterArrival join came := by
  unfold Entry.joinDone afterArrival
  by_cases hc : join.mask &&& ~~~came = 0#32
  · simp only [hk, hc, hm, and_self, if_true, false_and, if_false]
  · simp only [hc, and_false, if_false]

theorem quietEntry_free (ex : Mask) : QuietEntry ex Entry.free := by
  refine ⟨⟨by simp [Entry.free], by simp [Entry.free], by simp [Entry.free]⟩, by simp [Entry.free], by simp [Entry.free]⟩

/-- Fusing along all the numbers of a table, when one entry alone fuses: what it leaves must not fuse either. -/
theorem fuseAll_one {w : Wide} {es es' : List Entry} {i : Nat} (hi : i < es.length)
    (hbefore : ∀ j, j < i → fuseAt es j = es) (hopen : w.guards i (es.getD i Entry.free) = false) (hhere : fuseAt es i = es')
    (hafter : ∀ j, i < j → fuseAt es' j = es') : fuseAll w (List.range es.length) es = es' := by
  rw [range_split hi, fuseAll, List.foldl_append, List.foldl_cons]
  rw [show List.foldl _ es (List.range i) = es from fuseAll_of_stay fun j hj => .inr (hbefore j (List.mem_range.1 hj)), hopen, hhere]
  refine fuseAll_of_stay fun j hj => .inr (hafter j ?_)
  obtain ⟨k, -, rfl⟩ := List.mem_map.1 hj
  omega

/-- One fragment at its reconvergence address, without a record, every other entry quiet: it is freed, its lanes arrive at its join,
and the table is quiet. -/
theorem settle_fuse {g : Agent} {i p : Nat} {en join : Entry} (hw : g.wide.depth = 0) (hip : i ≠ p)
    (hen : g.entries[i]? = some en) (hjoin : g.entries[p]? = some join)
    (hothers : ∀ j x, g.entries[j]? = some x → j ≠ i → QuietEntry g.exited x) (hex : NoneExited g.exited en) (hm : en.mask ≠ 0#32)
    (hk : en.kind = .running) (hr : en.records = []) (hx : en.reconv = some en.pc) (hp : en.parent = some p)
    (hkj : join.kind = .join) (hq : QuietEntry g.exited (afterArrival join (join.arrived ||| en.mask))) :
    g.settle = { g with entries := (g.entries.set i Entry.free).set p (afterArrival join (join.arrived ||| en.mask)) } := by
  have hi := (List.getElem?_eq_some_iff.1 hen).1
  have hjq := hothers p join hjoin (Ne.symm hip)
  have hmj : join.mask ≠ 0#32 := fun h0 => hjq.2.2 hkj (by rw [h0]; exact BitVec.zero_and)
  have hmap : (g.entries.zipIdx.map fun q => passEntry g.exited g.wide q.2 q.1) = g.entries := by
    refine zipIdx_map_eq_self (fun en i => passEntry g.exited g.wide i en) fun j x hxj => ?_
    by_cases hj : j = i
    · subst hj
      rw [hen] at hxj
      cases hxj
      rw [passEntry, Wide.guards_of_closed hw, if_neg (by decide), Entry.strip_of_noneExited hex]
      have hho : en.handOver = en := by simp only [Entry.handOver, hk, hr]
      rw [hho, Entry.freeEmpty_of_lanes fun _ => hm]
    · exact passEntry_of_quiet g.wide j (hothers j x hxj hj)
  have hfuse : fuseAt g.entries i = (g.entries.set i Entry.free).set p { join with arrived := join.arrived ||| en.mask } := by
    simp only [fuseAt, hen, hk, hr, hx, hp, and_self, if_true]
    rw [List.modify_eq_set_getElem?, List.getElem?_set_ne hip, hjoin]
    rfl
  have hstay : ∀ es : List Entry, ∀ j, (∀ x, es[j]? = some x → x.kind = .running → QuietEntry g.exited x) → fuseAt es j = es :=
    fun es j h => fuseAt_of_entry fun x hx hk hr => reconv_ne_of_quiet (h x hx hk) hk hr
  have hall : fuseAll g.wide (List.range g.entries.length) g.entries =
      (g.entries.set i Entry.free).set p { join with arrived := join.arrived ||| en.mask } := by
    refine fuseAll_one hi (fun j hj => hstay _ j fun x hx _ => hothers j x hx (by omega)) (Wide.guards_of_closed hw _ _) hfuse
      fun j hj => hstay _ j fun x hx hkx => ?_
    rw [List.getElem?_set, List.getElem?_set] at hx
    split_ifs at hx with h1 h2 h3
    · cases hx
      exact absurd (hkj.symm.trans hkx) (by decide)
    · omega
    · exact hothers j x hx (by omega)
  have hquiet : QuietTable g.exited ((g.entries.set i Entry.free).set p (afterArrival join (join.arrived ||| en.mask))) := by
    refine quietTable_set (fun j x hxj hj => ?_) hq
    exact quietTable_set hothers (quietEntry_free _) x (List.mem_of_getElem? hxj)
  have hpass : settlePass g.exited g.wide g.entries =
      (g.entries.set i Entry.free).set p (afterArrival join (join.arrived ||| en.mask)) := by
    rw [settlePass_eq, hmap, hall, List.map_set, Entry.joinDone_of_join _ hkj hmj, map_joinDone_of]
    exact fun x hx => Entry.joinDone_of_quiet (quietTable_set hothers (quietEntry_free _) x hx)
  exact Agent.settle_of_pass hpass (settlePass_quiet hquiet)

/-! ### An open WIDE bracket (R166) -/

/-- The fragment of an open bracket keeps its records and does not fuse; with every other entry quiet nothing happens. -/
theorem settle_wide {g : Agent} {i : Nat} {en : Entry} (hw : 0 < g.wide.depth) (hi : g.wide.entry = i)
    (hen : g.entries[i]? = some en) (hr : en.records.length ≤ g.wide.records)
    (hothers : ∀ j x, g.entries[j]? = some x → j ≠ i → QuietEntry g.exited x) (hex : NoneExited g.exited en)
    (hk : en.kind = .running) : g.settle = g := by
  have hguards : g.wide.guards i en = true := by simp [Wide.guards, hw, hi, hr]
  have hmap : (g.entries.zipIdx.map fun q => passEntry g.exited g.wide q.2 q.1) = g.entries := by
    refine zipIdx_map_eq_self (fun en i => passEntry g.exited g.wide i en) fun j x hxj => ?_
    by_cases hj : j = i
    · subst hj
      rw [hen] at hxj
      cases hxj
      rw [passEntry, Entry.strip_of_noneExited hex, if_pos hguards]
    · exact passEntry_of_quiet g.wide j (hothers j x hxj hj)
  have hpass : settlePass g.exited g.wide g.entries = g.entries := by
    rw [settlePass_eq, hmap, fuseAll_of_stay fun j _ => ?_]
    · refine map_joinDone_of fun x hx => ?_
      obtain ⟨j, hj⟩ := List.mem_iff_getElem?.1 hx
      by_cases hji : j = i
      · rw [hji, hen] at hj
        cases hj
        exact Entry.joinDone_of_running hk
      · exact Entry.joinDone_of_quiet (hothers j x hj hji)
    · by_cases hji : j = i
      · subst hji
        exact .inl (by rw [List.getD_eq_getElem?_getD, hen]; exact hguards)
      · exact .inr (fuseAt_of_entry fun x hx hk hr => reconv_ne_of_quiet (hothers j x hx hji) hk hr)
  exact Agent.settle_of_pass hpass hpass

end Sys2Proof.Machine

namespace Sys2Proof

open Sys2Proof.Machine

/-- Settles O17: a boundary leaves a quiet table alone, and makes the one change that is due in a table with one entry at its
address. -/
theorem quietBoundary : Obligations.QuietBoundary := fun _ =>
  ⟨Agent.settle_of_quiet, fun _ _ _ _ => settle_record, fun _ _ _ _ => settle_fuse, fun _ _ => settle_wide⟩

end Sys2Proof
end

section
/-! SUPPORT. Taking a trap (R39, R62, R336, R337): the count of FAULTS, the handler, what FAULTINFO holds. -/

namespace Sys2Proof.Machine

/-! ### FAULTS (R39) -/

theorem State.countFault_nil (s : State) (die : Nat) {t : Task} (h : t.chain = []) : s.countFault die t = s := by
  simp [State.countFault, h]

/-- FAULTS counts where its page translates; where it does not, the add is lost and recorded. -/
theorem State.countFault_ok {s : State} {die pa : Nat} {t : Task} {r : Region} (h : t.chain.head? = some r)
    (hpa : s.translate die t.space (r.va + 0x40#64) .atomic = .ok pa) :
    s.countFault die t = { s with mem := s.mem.writeBytes pa (bytesOfNat 8 ((bytesAt s.mem pa 8 + 1) % 2 ^ 64)) } := by
  have hpa' : s.translate die t.space (r.va + BitVec.ofNat 64 faultsOffset) .atomic = .ok pa := hpa
  simp only [State.countFault, h, State.addRegionCounter, hpa', Memory.readNat_eq_bytesAt, physKey]
  rfl

theorem State.countFault_error {s : State} {die e : Nat} {t : Task} {r : Region} (h : t.chain.head? = some r)
    (he : s.translate die t.space (r.va + 0x40#64) .atomic = .error e) :
    s.countFault die t = { s with checks := s.checks ++ [.region r.va] } := by
  have he' : s.translate die t.space (r.va + BitVec.ofNat 64 faultsOffset) .atomic = .error e := he
  simp only [State.countFault, h, State.addRegionCounter, he']
  rfl

theorem State.countFault_agents (s : State) (die : Nat) (t : Task) : (s.countFault die t).agents = s.agents := by
  unfold State.countFault State.addRegionCounter
  split
  · split <;> rfl
  · rfl

/-! ### The handler (R336) -/

/-- The handler to which a trap of the issuer goes. -/
def handlerOf (c : Ctx) (t : Trap) : Option DWord := if t.cause = causeWatchdog then none else c.task.handlerAt c.ag.frames.length

theorem handlerOf_eq_some (c : Ctx) (t : Trap) (h : DWord) : handlerOf c t = some h ↔ handlerFor c t h := by
  have hdepth : Config.maxHandler ≤ c.ag.frames.length ↔ ¬ c.ag.frames.length < 4 := Nat.not_lt.symm
  unfold handlerOf handlerFor Task.handlerAt causeWatchdog
  by_cases hc : t.cause = 0x1A
  · simp [hc]
  · by_cases hd : c.ag.frames.length < 4
    · rw [if_neg hc, if_neg (by simpa [hdepth] using hd)]
      cases c.task.chain[c.ag.frames.length]? with
      | none => simp
      | some r =>
        simp only [ne_eq, hc, not_false_eq_true, hd, Option.some.injEq, true_and, exists_eq_left']
        by_cases h0 : r.handler = 0#64
        · rw [if_pos h0, h0]
          exact ⟨fun hn => (Option.some_ne_none _ hn.symm).elim, fun ⟨hne, heq⟩ => (hne heq.symm).elim⟩
        · rw [if_neg h0]
          exact ⟨fun hs => by cases hs; exact ⟨h0, rfl⟩, fun ⟨_, heq⟩ => congrArg some heq⟩
    · simp [hdepth, hd]

/-! ### FAULTINFO (R62) -/

/-- FAULTINFO keeps every field of the trap; of MASK, a sequencer keeps bit 0. -/
theorem faultinfoStored_eq (warp : Bool) (t : Trap) : faultinfoStored warp (faultinfoOf t) =
    t.addr ++ (if warp then t.mask else t.mask &&& 1#32) ++ 0#12 ++ BitVec.ofNat 4 (t.level.getD t.stale) ++
      BitVec.ofBool t.level.isSome ++ 0#5 ++ BitVec.ofNat 2 t.access ++ BitVec.ofNat 8 t.cause := by
  have hkeep : (if warp then 0xFFFFFFFFFFFFFFFFFFFFFFFF000F83FF#128 else 0xFFFFFFFFFFFFFFFF00000001000F83FF#128) =
      BitVec.allOnes 64 ++ (if warp then BitVec.allOnes 32 else 1#32) ++ 0#12 ++ BitVec.allOnes 4 ++ BitVec.allOnes 1 ++ 0#5 ++
        BitVec.allOnes 2 ++ BitVec.allOnes 8 := by cases warp <;> rfl
  rw [faultinfoStored, hkeep, faultinfoOf, BitVec.and_append]
  have hmask : t.mask &&& (if warp then BitVec.allOnes 32 else 1#32) = if warp then t.mask else t.mask &&& 1#32 := by
    cases warp
    · rfl
    · exact BitVec.and_allOnes
  simp only [BitVec.and_append, BitVec.and_allOnes, BitVec.and_zero, hmask]

theorem faultWords_stored (warp : Bool) (t : Trap) : faultWords warp t (faultinfoStored warp (faultinfoOf t)) := by
  have hmask : (if warp then t.mask else t.mask &&& 1#32).toNat = if warp then t.mask.toNat else t.mask.toNat % 2 := by
    cases warp
    · simp [Nat.and_one_is_mod]
    · rfl
  have hlevel : (BitVec.ofBool t.level.isSome).toNat = if t.level.isSome then 1 else 0 := by cases t.level.isSome <;> rfl
  have hmaskLt := (if warp then t.mask else t.mask &&& 1#32).isLt
  have hlevelLt := (BitVec.ofBool t.level.isSome).isLt
  have haddrLt := t.addr.isLt
  unfold faultWords
  rw [faultinfoStored_eq, append_toNat]
  simp only [append_toNat, BitVec.toNat_ofNat, ← hmask, ← hlevel]
  generalize (if warp then t.mask else t.mask &&& 1#32).toNat = mask at *
  generalize (BitVec.ofBool t.level.isSome).toNat = valid at *
  refine ⟨?_, ?_, ?_, ?_, ?_, ?_, ?_, ?_⟩ <;> omega

/-! ### The state after a trap -/

/-- The issuer after a trap: in its handler, or stopped (R336). -/
def afterTrap (c : Ctx) (len : Nat) (t : Trap) (g : Agent) : Agent :=
  match handlerOf c t with
  | some h => g.enterHandler c.e len t h
  | none => { g.modEntry c.e (fun en => { en with hold := .ready }) with phase := .stopped c.e t }

theorem afterTrap_handled {c : Ctx} {t : Trap} {h : DWord} (hh : handlerFor c t h) (len : Nat) (g : Agent) :
    afterTrap c len t g = g.enterHandler c.e len t h := by
  rw [afterTrap, (handlerOf_eq_some c t h).2 hh]

theorem afterTrap_stopped {c : Ctx} {t : Trap} (hnone : ∀ h, ¬ handlerFor c t h) (len : Nat) (g : Agent) :
    afterTrap c len t g = { g.modEntry c.e (fun en => { en with hold := .ready }) with phase := .stopped c.e t } := by
  rw [afterTrap, Option.eq_none_iff_forall_not_mem.2 fun h hm => hnone h ((handlerOf_eq_some c t h).1 hm)]

/-- A trap of the issuer: FAULTS counts it, then the agent goes to the handler or stops (R336). -/
theorem trapped_eq {s : State} {c : Ctx} (hr : Runs s c) (len : Nat) (t : Trap) :
    trapped c s len t = (s.countFault (s.dieOf c.a) c.task).modAgent c.a (afterTrap c len t) := by
  obtain ⟨-, -, hag, -, -, -, -, -, hteam, htask⟩ := issuer_spec hr
  have ht : s.task (s.taskOf c.a) = c.task := by rw [htask, hteam, hag]; rfl
  have hafter : afterTrap c len t = fun g => afterTrap c len t g := rfl
  unfold trapped takeTrap
  simp only [ht, ← hag]
  rw [← handlerOf, hafter]
  unfold afterTrap
  cases handlerOf c t <;> rfl

theorem trapped_agent {s : State} {c : Ctx} (hr : Runs s c) (len : Nat) (t : Trap) :
    (trapped c s len t).agent c.a = afterTrap c len t c.ag := by
  obtain ⟨-, -, hag, -, ha, -⟩ := issuer_spec hr
  rw [trapped_eq hr, State.modAgent_same _ _ _ (by rwa [State.countFault_agents]), State.agent, State.countFault_agents, hag]
  rfl

/-- Beside its agents, a trapped state is what the count of FAULTS leaves. -/
theorem trapped_rest {s : State} {c : Ctx} (hr : Runs s c) (len : Nat) (t : Trap) :
    { trapped c s len t with agents := s.agents } = s.countFault (s.dieOf c.a) c.task := by
  rw [trapped_eq hr, State.modAgent, ← State.countFault_agents s (s.dieOf c.a) c.task]

/-- The one entry of a handler (R337). -/
theorem startEntries_eq (k : AgentKind) (pc : DWord) (m : Mask) : startEntries k pc m = handlerEntries (k == .warp) pc m := by
  cases k <;> rfl

end Sys2Proof.Machine

namespace Sys2Proof

open Sys2Proof.Machine

/-- Settles O45: what a trap does to memory, to the other agents, and to its own agent with a handler and without one. -/
theorem trapEntry : Obligations.TrapEntry := by
  intro s c len t hr
  obtain ⟨-, -, hag, hen, ha, -, hphase, -⟩ := issuer_spec hr
  intro u warp
  have hu : u = s.countFault (s.dieOf c.a) c.task := trapped_rest hr len t
  refine ⟨fun a hne => ?_, fun hnil => ?_, fun r hhead => ?_, fun h hh => ?_, fun hnone => ?_⟩
  · rw [trapped_eq hr, State.modAgent_other _ _ _ _ (Ne.symm hne), State.agent, State.countFault_agents]
    rfl
  · rw [hu, State.countFault_nil _ _ hnil]
  · refine ⟨fun e he => by rw [hu, State.countFault_error hhead he], fun pa hpa => ?_⟩
    rw [hu, State.countFault_ok hhead hpa]
    refine ⟨rfl, fun k => Memory.writeBytes_marked _ _ _ _, fun hkept => ⟨?_, fun k hk => ?_⟩⟩
    · show bytesAt (s.mem.writeBytes _ _) _ _ = _
      rw [bytesAt_writeBytes _ hkept.1, show 256 ^ 8 = 2 ^ 64 from rfl, Nat.mod_mod]
    · show (s.mem.writeBytes _ _).read k = _
      rw [Memory.read_writeBytes _ _ hkept.1, bytesOfNat_length, if_neg (by omega)]
  · intro g
    rw [show g = c.ag.enterHandler c.e len t h from (trapped_agent hr len t).trans (afterTrap_handled hh len c.ag)]
    refine ⟨?_, startEntries_eq _ _ _, rfl, faultWords_stored _ _, rfl, rfl, rfl, hphase, rfl, rfl⟩
    rw [Agent.enterHandler, ← hen]
    rfl
  · intro g
    rw [show g = _ from (trapped_agent hr len t).trans (afterTrap_stopped hnone len c.ag)]
    exact ⟨rfl, rfl, rfl, rfl, rfl⟩

end Sys2Proof
end

section
/-! SUPPORT. What the Helm reads to accept a launch: fields of bytes, packets, region chains (R5, R36, R37, R40, R258). -/

namespace Sys2Proof.Machine

/-! ### Fields of bytes -/

theorem getD_take_drop (b : List Byte) (off n j : Nat) (h : j < n) : ((b.drop off).take n).getD j 0#8 = b.getD (off + j) 0#8 := by
  simp [List.getD_eq_getElem?_getD, h, List.getElem?_drop]

theorem fieldOf_eq_numAt (b : List Byte) (off n : Nat) : fieldOf b off n = numAt b off n := by
  rw [fieldOf, natOfBytes_eq_sum _ n (by simp), numAt]
  refine congrArg List.sum (List.map_congr_left fun j hj => ?_)
  rw [getD_take_drop _ _ _ _ (List.mem_range.1 hj)]

theorem zeros_iff (b : List Byte) (off n : Nat) : zeros b off n = true ↔ zeroAt b off n := by
  have hbyte (j : Nat) : (b.getD (off + j) 0#8).toNat * 256 ^ j = 0 ↔ b.getD (off + j) 0#8 = 0#8 := by
    rw [Nat.mul_eq_zero, or_iff_left (by positivity)]
    exact ⟨fun h => BitVec.eq_of_toNat_eq h, fun h => by rw [h]; rfl⟩
  simp only [zeros, fieldOf_eq_numAt, numAt, beq_iff_eq, List.sum_eq_zero_iff, List.mem_map, List.mem_range, forall_exists_index,
    and_imp, forall_apply_eq_imp_iff₂, hbyte, zeroAt]

theorem natOfBytes_lt (l : List Byte) : natOfBytes l < 256 ^ l.length := by
  induction l with
  | nil => decide
  | cons b rest ih =>
    have hb : b.toNat < 256 := b.isLt
    rw [natOfBytes, List.length_cons, Nat.pow_succ]
    omega

theorem numAt_lt (b : List Byte) (off n : Nat) : numAt b off n < 256 ^ n := by
  rw [← fieldOf_eq_numAt]
  exact (natOfBytes_lt _).trans_le (Nat.pow_le_pow_right (by decide) (by simp))

/-! ### Packets (R258) -/

theorem packetRange_eq (b : List Byte) (k : Nat) : packetRange b k =
    { mode := numAt b (0x60 + 12 * k) 8 / 2 ^ 62, start := (BitVec.ofNat 57 (numAt b (0x60 + 12 * k) 8 % 2 ^ 57)).signExtend 64,
      length := numAt b (0x68 + 12 * k) 4 } := by
  have hlt : numAt b (0x60 + 12 * k) 8 < 2 ^ 64 := numAt_lt b _ 8
  have hmode : ((BitVec.ofNat 64 (numAt b (0x60 + 12 * k) 8)).extractLsb' 62 2).toNat = numAt b (0x60 + 12 * k) 8 / 2 ^ 62 := by
    rw [BitVec.extractLsb'_toNat, BitVec.toNat_ofNat, Nat.shiftRight_eq_div_pow]
    omega
  have hstart : (BitVec.ofNat 64 (numAt b (0x60 + 12 * k) 8)).extractLsb' 0 57 =
      BitVec.ofNat 57 (numAt b (0x60 + 12 * k) 8 % 2 ^ 57) := by
    refine BitVec.eq_of_toNat_eq ?_
    rw [BitVec.extractLsb'_toNat, BitVec.toNat_ofNat, BitVec.toNat_ofNat, Nat.shiftRight_zero]
    omega
  rw [packetRange]
  simp only [fieldOf_eq_numAt, hmode, hstart]

/-- An address of 57 bits, extended by its sign, is 0 when its bits are. -/
theorem signExtend_eq_zero_iff (n : Nat) (h : n < 2 ^ 57) : (BitVec.ofNat 57 n).signExtend 64 = 0#64 ↔ n = 0 := by
  refine ⟨fun hz => ?_, fun hz => by rw [hz]; rfl⟩
  have hbits : BitVec.ofNat 57 n = 0#57 := BitVec.eq_of_getLsbD_eq fun i hi => by
    have hb := congrArg (BitVec.getLsbD · i) hz
    simpa only [BitVec.getLsbD_signExtend, hi, show i < 64 by omega, if_true, decide_true, Bool.true_and, BitVec.getLsbD_zero] using hb
  have := congrArg BitVec.toNat hbits
  simp only [BitVec.toNat_ofNat] at this
  omega

theorem packetRangeOk_iff (b : List Byte) (k : Nat) : packetRangeOk b k = true ↔
    numAt b (0x60 + 12 * k) 8 / 2 ^ 57 % 32 = 0 ∧
      (numAt b (0x60 + 12 * k) 8 / 2 ^ 62 = 0 → numAt b (0x60 + 12 * k) 8 % 2 ^ 57 = 0 ∧ numAt b (0x68 + 12 * k) 4 = 0) ∧
      (numAt b (0x60 + 12 * k) 8 / 2 ^ 62 ≠ 0 → numAt b (0x68 + 12 * k) 4 ≠ 0) := by
  have hstart := signExtend_eq_zero_iff (numAt b (0x60 + 12 * k) 8 % 2 ^ 57) (Nat.mod_lt _ (by positivity))
  simp only [packetRangeOk, packetRange_eq, fieldOf_eq_numAt, Bool.and_eq_true, beq_iff_eq]
  refine and_congr_right fun _ => ?_
  by_cases hm : numAt b (0x60 + 12 * k) 8 / 2 ^ 62 = 0
  · simp only [if_true, Bool.and_eq_true, beq_iff_eq, hstart, hm, forall_const, ne_eq, not_true_eq_false, false_imp_iff, and_true]
  · simp only [if_false, bne_iff_ne, ne_eq, hm, false_imp_iff, true_and, not_false_eq_true, forall_const]

theorem packetIs_ofBytes (b : List Byte) : PacketIs b (Packet.ofBytes b) := by
  have hranges : ((List.range 8).map (packetRange b)).filter (·.mode != 0) =
      ((List.range 8).filter fun k => decide (numAt b (0x60 + 12 * k) 8 / 2 ^ 62 ≠ 0)).map (packetRange b) := by
    rw [List.filter_map]
    refine congrArg _ (List.filter_congr fun k _ => ?_)
    rw [Function.comp_apply, packetRange_eq, Bool.eq_iff_iff, decide_eq_true_iff, bne_iff_ne]
  have hformat : (Packet.ofBytes b).wellFormed = true ↔ numAt b 0x0C 4 < 8 ∧ zeroAt b 0x48 24 ∧ ∀ k, k < 8 →
      packetRangeOk b k = true := by
    simp only [Packet.ofBytes, fieldOf_eq_numAt, Bool.and_eq_true, decide_eq_true_eq, zeros_iff, List.all_eq_true, List.mem_range,
      and_assoc]
  unfold PacketIs
  simp only [hformat, packetRangeOk_iff]
  simp only [Packet.ofBytes, fieldOf_eq_numAt, hranges, beq_iff_eq, pow_zero, Nat.div_one, pow_one, true_and, and_true, iff_self,
    show 2 ^ 2 = 4 from rfl]
  exact congrArg (List.map · _) (funext (packetRange_eq b))

/-! ### Reads -/

theorem readVa_length {s : State} {die space : Nat} {va : DWord} {n : Nat} {bs : List (Byte × Bool)}
    (h : s.readVa die space va n = some bs) : bs.length = n := by
  induction n generalizing va bs with
  | zero => cases h; rfl
  | succ n ih =>
    unfold State.readVa at h
    split at h
    · rename_i k rest _ hrest
      cases h
      rw [List.length_cons, ih hrest]
    · cases h

theorem readClean_length {s : State} {die space : Nat} {va : DWord} {n : Nat} {bs : List Byte}
    (h : s.readClean die space va n = some bs) : bs.length = n := by
  unfold State.readClean at h
  split at h
  · rename_i bm hbm
    split at h
    · cases h
    · cases h
      rw [List.length_map, readVa_length hbm]
  · cases h

/-! ### Region chains (R36, R37, R40) -/

theorem blockMapped_iff (s : State) (die space : Nat) (va : DWord) : s.blockMapped die space va = true ↔
    (∃ k, s.helmKey die space va .read = .ok k) ∧
      ((∃ k, s.helmKey die space va .write = .ok k) ∨ s.helmKey die space va .write = .error 0x10) := by
  unfold State.blockMapped causePage
  cases s.helmKey die space va .read with
  | error e => simp
  | ok k => cases s.helmKey die space va .write <;> simp

theorem blockOk_iff (b : List Byte) : blockOk b = true ↔ numAt b 0x24 1 < 8 ∧ numAt b 0x25 1 < 8 ∧ zeroAt b 0x26 2 ∧
    numAt b 0x48 4 < 2 ^ 12 ∧ zeroAt b 0x50 176 := by
  simp only [blockOk, fieldOf_eq_numAt, zeros_iff, Bool.and_eq_true, decide_eq_true_eq, and_assoc, show (4096 : Nat) = 2 ^ 12 from rfl]

/-- The fields of a block (R36). -/
theorem blockOf_eq (va : DWord) (b : List Byte) : blockOf va b =
    (({ va := va, cores := numAt b 8 4, pages := numAt b 0x0C 4, localBytes := numAt b 0x10 8, granary := numAt b 0x18 8
        slabs := numAt b 0x20 4, prio := numAt b 0x24 1, preemptible := decide (numAt b 0x25 1 / 2 ^ 0 % 2 = 1)
        deterministic := decide (numAt b 0x25 1 / 2 ^ 1 % 2 = 1), reqsign := decide (numAt b 0x25 1 / 2 ^ 2 % 2 = 1)
        handler := BitVec.ofNat 64 (numAt b 0x28 8), watchdog := numAt b 0x30 8, qlimit := numAt b 0x4C 4 } : Region),
      BitVec.ofNat 64 (numAt b 0 8), BitVec.ofNat 32 (numAt b 0x48 4)) := by
  simp only [blockOf, fieldOf_eq_numAt, beq_eq_decide, pow_zero, Nat.div_one, pow_one, show 2 ^ 2 = 4 from rfl]

theorem parent_eq_zero_iff (b : List Byte) : BitVec.ofNat 64 (numAt b 0 8) = 0#64 ↔ numAt b 0 8 = 0 := by
  have hlt : numAt b 0 8 < 2 ^ 64 := numAt_lt b 0 8
  rw [← BitVec.toNat_inj, BitVec.toNat_ofNat, Nat.mod_eq_of_lt hlt]
  rfl

/-- One block of a chain and what follows it. -/
theorem readChain_succ_iff (s : State) (die space n : Nat) (va : DWord) (raw : List (Region × Word)) :
    s.readChain die space (n + 1) va = some raw ↔ va.toNat % 256 = 0 ∧ s.blockMapped die space va = true ∧
      ∃ bm, s.readVa die space va 256 = some bm ∧ blockOk (bm.map (·.1)) = true ∧
        ∃ rest, raw = ((blockOf va (bm.map (·.1))).1, (blockOf va (bm.map (·.1))).2.2) :: rest ∧
          if (blockOf va (bm.map (·.1))).2.1 = 0#64 then rest = []
          else s.readChain die space n (blockOf va (bm.map (·.1))).2.1 = some rest := by
  rw [State.readChain]
  by_cases hva : va.toNat % 256 = 0 <;> by_cases hmap : s.blockMapped die space va = true
  · rw [if_neg (by simp [hva, hmap])]
    cases s.readVa die space va 256 with
    | none => simp
    | some bm =>
      by_cases hok : blockOk (bm.map (·.1)) = true
      · simp only [hva, hmap, hok, Option.some.injEq, exists_eq_left', true_and, Bool.not_true, Bool.false_eq_true, if_false]
        by_cases hp : (blockOf va (bm.map (·.1))).2.1 = 0#64
        · simp only [hp, if_true, Option.some.injEq, exists_eq_right, eq_comm]
        · simp only [hp, if_false, Option.map_eq_some_iff]
          exact exists_congr fun rest => and_comm.trans (and_congr_left' eq_comm)
      · simp [hok]
  · simp [hmap]
  · simp [hva]
  · simp [hva]

/-- The chain that the Helm reads is the one that R36 and R40 describe. -/
theorem readChain_iff (s : State) (die space n : Nat) (va : DWord) (raw : List (Region × Word)) :
    s.readChain die space n va = some raw ↔ ChainFrom s die space n va raw := by
  induction n generalizing va raw with
  | zero => cases raw <;> simp [State.readChain, ChainFrom]
  | succ n ih =>
    rw [readChain_succ_iff]
    cases raw with
    | nil => simp [ChainFrom]
    | cons x rest =>
      obtain ⟨r, ov⟩ := x
      simp only [ChainFrom, blockMapped_iff, blockOk_iff, blockOf_eq, parent_eq_zero_iff, ih, List.cons.injEq, Prod.mk.injEq, and_assoc]
      constructor
      · rintro ⟨hva, hread, hwrite, bm, hbm, h1, h2, h3, h4, h5, _, hr, hov, rfl, hrest⟩
        exact ⟨bm, hbm, hva, hread, hwrite, h1, h2, h3, h4, h5, hov, hr, hrest⟩
      · rintro ⟨bm, hbm, hva, hread, hwrite, h1, h2, h3, h4, h5, hov, hr, hrest⟩
        exact ⟨hva, hread, hwrite, bm, hbm, h1, h2, h3, h4, h5, rest, hr, hov, rfl, hrest⟩

/-! ### Effective values (R37) -/

theorem capBudget_iff (v parent y : Nat) :
    (y = if v = 0 then parent else if parent = 0 then v else min v parent) ↔ y = capBudget v parent := by
  unfold capBudget
  split_ifs <;> omega

/-- The effective values of a chain are those of R37. -/
theorem effective_iff (raw : List (Region × Word)) (chain : List Region) : Effective raw chain ↔ chain = effective raw := by
  induction raw generalizing chain with
  | nil => rfl
  | cons x rest ih =>
    obtain ⟨r, ov⟩ := x
    simp only [Effective, ih, exists_eq_left, effective]
    cases effective rest with
    | nil => rfl
    | cons p up =>
      simp only [capBudget_iff]
      constructor
      · rintro ⟨y, rfl, hva, hcores, hpages, hlocal, hgran, hslabs, hprio, hpre, hdet, hreq, hhandler, hdog, hq⟩
        cases y
        dsimp only at hva hcores hpages hlocal hgran hslabs hprio hpre hdet hreq hhandler hdog hq
        subst hva hcores hpages hlocal hgran hslabs hprio hpre hdet hreq hhandler hdog hq
        rfl
      · rintro rfl
        exact ⟨_, rfl, rfl, rfl, rfl, rfl, rfl, rfl, rfl, rfl, rfl, rfl, rfl, rfl, rfl⟩

end Sys2Proof.Machine
end

section
/-! SUPPORT. Code objects as the Helm reads them (R92, R259). -/

namespace Sys2Proof.Machine

/-! ### Lists over the numbers below a bound -/

theorem pairwise_range_iff (n : Nat) (R : Nat → Nat → Prop) : (List.range n).Pairwise R ↔ ∀ k, k < n → ∀ j, j < k → R j k := by
  rw [List.pairwise_iff_getElem]
  simp only [List.length_range, List.getElem_range]
  exact ⟨fun h k hk j hj => h j k (hj.trans hk) hk hj, fun h j k _ hk hj => h k hk j hj⟩

theorem eraseDups_length_le {α : Type} [BEq α] (l : List α) : l.eraseDups.length ≤ l.length := by
  match l with
  | [] => simp
  | a :: as =>
    rw [List.eraseDups_cons, List.length_cons, List.length_cons]
    have h1 := eraseDups_length_le (as.filter fun b => !b == a)
    have h2 := List.length_filter_le (fun b => !b == a) as
    omega
termination_by l.length
decreasing_by exact Nat.lt_succ_of_le (List.length_filter_le _ _)

/-- Dropping what is there twice drops nothing from a list when nothing is. -/
theorem eraseDups_length_eq_iff {α : Type} [BEq α] [LawfulBEq α] (l : List α) : l.eraseDups.length = l.length ↔ l.Nodup := by
  induction l with
  | nil => simp
  | cons a as ih =>
    rw [List.eraseDups_cons, List.length_cons, List.length_cons, List.nodup_cons, Nat.add_right_cancel_iff]
    by_cases ha : a ∈ as
    · have h1 := eraseDups_length_le (as.filter fun b => !b == a)
      have h2 : (as.filter fun b => !b == a).length < as.length := List.length_filter_lt_length_iff_exists.2 ⟨a, ha, by simp⟩
      simp only [ha, not_true_eq_false, false_and, iff_false]
      omega
    · have hself : (as.filter fun b => !b == a) = as :=
        List.filter_eq_self.2 fun b hb => by simpa using fun (h : b = a) => ha (h ▸ hb)
      rw [hself, ih]
      simp [ha]

/-! ### Ranges of bytes -/

theorem meets_iff (a b : Nat × Nat) : meets a b = true ↔ ¬ Apart a b := by
  simp only [meets, Apart, Bool.and_eq_true, decide_eq_true_eq, bne_iff_ne, not_forall, not_not]
  constructor
  · rintro ⟨⟨⟨h1, h2⟩, h3⟩, h4⟩
    exact ⟨max a.1 b.1, by omega⟩
  · rintro ⟨k, h⟩
    omega

theorem apart_comm (a b : Nat × Nat) : Apart a b ↔ Apart b a := forall_congr' fun _ => by rw [and_comm]

theorem anyMeet_eq_false_iff (l : List (Nat × Nat)) : anyMeet l = false ↔ l.Pairwise Apart := by
  induction l with
  | nil => simp [anyMeet]
  | cons a rest ih =>
    rw [anyMeet, Bool.or_eq_false_iff, ih, List.pairwise_cons, List.any_eq_false]
    simp only [meets_iff, not_not]

/-! ### The header, the tree records, the section entries -/

theorem headerOk_iff (h : List Byte) : headerOk h = true ↔ numAt h 0 4 = 0x58444E47 ∧ numAt h 4 2 = 1 ∧ zeroAt h 0x34 76 ∧
    1 ≤ numAt h 6 1 ∧ numAt h 6 1 ≤ 128 ∧ numAt h 7 1 ≤ numAt h 6 1 ∧ numAt h 0x0C 4 % 256 = 0 := by
  simp only [headerOk, fieldOf_eq_numAt, zeros_iff, Bool.and_eq_true, decide_eq_true_eq, beq_iff_eq, and_assoc]

/-- Bytes that are all zero from the first zero on. -/
theorem dropWhile_all_zero_iff (l : List Byte) : (l.dropWhile (· != 0#8)).all (· == 0#8) = true ↔
    ∃ n, n ≤ l.length ∧ (∀ j, j < n → l.getD j 0#8 ≠ 0#8) ∧ ∀ j, n ≤ j → l.getD j 0#8 = 0#8 := by
  induction l with
  | nil => simp
  | cons b rest ih =>
    by_cases hb : b = 0#8
    · subst hb
      rw [List.dropWhile_cons_of_neg (by simp), List.all_eq_true]
      constructor
      · intro h
        refine ⟨0, by simp, by simp, fun j _ => ?_⟩
        by_cases hj : j < (0#8 :: rest).length
        · rw [List.getD_eq_getElem _ _ hj]
          exact by simpa using h _ (List.getElem_mem hj)
        · exact List.getD_eq_default _ _ (by omega)
      · rintro ⟨n, -, hne, hz⟩ x hx
        obtain ⟨j, hj, rfl⟩ := List.mem_iff_getElem.1 hx
        have hn : n = 0 := by
          by_contra hn
          exact hne 0 (by omega) rfl
        have := hz j (by omega)
        rw [List.getD_eq_getElem _ _ hj] at this
        simp [this]
    · rw [List.dropWhile_cons_of_pos (by simpa using hb), ih]
      constructor
      · rintro ⟨n, hn, hne, hz⟩
        refine ⟨n + 1, by simpa using hn, fun j hj => ?_, fun j hj => ?_⟩
        · cases j with
          | zero => exact hb
          | succ j => exact hne j (by omega)
        · obtain ⟨j, rfl⟩ : ∃ m, j = m + 1 := ⟨j - 1, by omega⟩
          exact hz j (by omega)
      · rintro ⟨n, hn, hne, hz⟩
        obtain ⟨n, rfl⟩ : ∃ m, n = m + 1 := ⟨n - 1, by
          have : n ≠ 0 := fun h0 => hb (hz 0 (by omega))
          omega⟩
        exact ⟨n, by simpa using hn, fun j hj => hne (j + 1) (by omega), fun j hj => hz (j + 1) (by omega)⟩

/-- A name of 16 bytes has from 1 to 15 bytes that are not NUL and then NULs alone. -/
theorem nameOk_iff (r : List Byte) (hr : 16 ≤ r.length) : nameOk (r.take 16) = true ↔
    ∃ n, 1 ≤ n ∧ n ≤ 15 ∧ (∀ j, j < n → r.getD j 0#8 ≠ 0#8) ∧ zeroAt r n (16 - n) := by
  have hlen : (r.take 16).length = 16 := by simpa using hr
  have hin (j : Nat) (hj : j < 16) : (r.take 16).getD j 0#8 = r.getD j 0#8 := by
    simp [List.getD_eq_getElem?_getD, hj]
  have hout (j : Nat) (hj : 16 ≤ j) : (r.take 16).getD j 0#8 = 0#8 := List.getD_eq_default _ _ (by omega)
  have hhead : (r.take 16).headD 0#8 = r.getD 0 0#8 := by
    rw [← hin 0 (by omega)]
    cases r.take 16 <;> rfl
  have hlast : (r.take 16).getLastD 1#8 = r.getD 15 0#8 := by
    rw [← hin 15 (by omega), List.getLastD_eq_getLast?, List.getLast?_eq_getElem?, hlen, List.getD_eq_getElem _ _ (by omega),
      List.getElem?_eq_getElem (by omega)]
    rfl
  simp only [nameOk, hhead, hlast, Bool.and_eq_true, bne_iff_ne, beq_iff_eq, dropWhile_all_zero_iff, hlen]
  constructor
  · rintro ⟨⟨h0, h15⟩, n, hn, hne, hz⟩
    have hn1 : 1 ≤ n := by
      by_contra h
      exact h0 (by rw [← hin 0 (by omega)]; exact hz 0 (by omega))
    have hn2 : n ≤ 15 := by
      by_contra h
      exact hne 15 (by omega) (by rw [hin 15 (by omega)]; exact h15)
    refine ⟨n, hn1, hn2, fun j hj => ?_, fun j hj => ?_⟩
    · rw [← hin j (by omega)]
      exact hne j hj
    · rw [← hin (n + j) (by omega)]
      exact hz (n + j) (by omega)
  · rintro ⟨n, hn1, hn2, hne, hz⟩
    refine ⟨⟨hne 0 (by omega), ?_⟩, n, by omega, fun j hj => ?_, fun j hj => ?_⟩
    · rw [show 15 = n + (15 - n) by omega]
      exact hz (15 - n) (by omega)
    · rw [hin j (by omega)]
      exact hne j hj
    · by_cases hj' : j < 16
      · rw [hin j hj', show j = n + (j - n) by omega]
        exact hz (j - n) (by omega)
      · exact hout j (by omega)

theorem treeRecord_length {t : List Byte} {d k : Nat} (ht : t.length = 4 + 20 * d) (hk : k < d) : (treeRecord t k).length = 20 := by
  rw [treeRecord, List.length_take, List.length_drop, ht]
  omega

theorem treeOk_iff {t : List Byte} {d : Nat} (ht : t.length = 4 + 20 * d) : treeOk t d = true ↔ ∀ k, k < d →
    zeroAt (treeRecord t k) 19 1 ∧ (numAt (treeRecord t k) 18 1 ≤ 7 ∨ numAt (treeRecord t k) 18 1 = 0xFF) ∧
      (∃ n, 1 ≤ n ∧ n ≤ 15 ∧ (∀ j, j < n → (treeRecord t k).getD j 0#8 ≠ 0#8) ∧ zeroAt (treeRecord t k) n (16 - n)) ∧
      ∀ j, j < k → (treeRecord t j).take 16 ≠ (treeRecord t k).take 16 := by
  simp only [treeOk, Bool.and_eq_true, beq_iff_eq, eraseDups_length_eq_iff, List.Nodup, List.map_map, List.pairwise_map,
    pairwise_range_iff, List.all_eq_true, List.mem_map, List.mem_range, forall_exists_index, and_imp, forall_apply_eq_imp_iff₂,
    zeros_iff, Bool.or_eq_true, decide_eq_true_eq, fieldOf_eq_numAt, Function.comp_apply, ne_eq]
  constructor
  · rintro ⟨hrec, hname⟩ k hk
    obtain ⟨⟨hz, hp⟩, hn⟩ := hrec k hk
    exact ⟨hz, hp, (nameOk_iff _ (by rw [treeRecord_length ht hk]; omega)).1 hn, hname k hk⟩
  · intro h
    refine ⟨fun k hk => ?_, fun k hk => (h k hk).2.2.2⟩
    obtain ⟨hz, hp, hn, -⟩ := h k hk
    exact ⟨⟨hz, hp⟩, (nameOk_iff _ (by rw [treeRecord_length ht hk]; omega)).2 hn⟩

/-- The levels that a tree of good records declares (R8). -/
theorem treeOf_eq {t : List Byte} {d : Nat}
    (h : ∀ k, k < d → numAt (treeRecord t k) 18 1 ≤ 7 ∨ numAt (treeRecord t k) 18 1 = 0xFF) :
    treeOf t d = (List.range d).map fun k =>
      { fan := numAt (treeRecord t k) 16 2, phys := min 8 (numAt (treeRecord t k) 18 1) } := by
  refine List.map_congr_left fun k hk => ?_
  have hp : (if numAt (treeRecord t k) 18 1 = 0xFF then 8 else numAt (treeRecord t k) 18 1) =
      min 8 (numAt (treeRecord t k) 18 1) := by
    rcases h k (List.mem_range.1 hk) with h | h <;> split_ifs <;> omega
  simp only [fieldOf_eq_numAt, hp]

/-- The k-th section entry: kind, file offset, size. -/
def sectionEntry (b : List Byte) (k : Nat) : Nat × Nat × Nat := (numAt b (24 * k) 1, numAt b (24 * k + 8) 8, numAt b (24 * k + 16) 8)

theorem sectionsOf_eq (b : List Byte) (n : Nat) : sectionsOf b n = (List.range n).map (sectionEntry b) := by
  simp only [sectionsOf, fieldOf_eq_numAt]
  rfl

theorem sections_nodup_iff (b : List Byte) (n : Nat) : ((sectionsOf b n).map (·.1)).Nodup ↔
    ∀ k, k < n → ∀ j, j < k → (sectionEntry b j).1 ≠ (sectionEntry b k).1 := by
  simp only [sectionsOf_eq, List.Nodup, List.map_map, List.pairwise_map, pairwise_range_iff, Function.comp_apply]

/-- Where kinds differ, looking for a kind finds the entry that has it. -/
theorem find?_kind_iff {α : Type} {l : List (Nat × α)} (hd : (l.map (·.1)).Nodup) (kind : Nat) (x : Nat × α) :
    l.find? (·.1 == kind) = some x ↔ x ∈ l ∧ x.1 = kind := by
  constructor
  · exact fun h => ⟨List.mem_of_find?_eq_some h, by simpa using List.find?_some h⟩
  · rintro ⟨hx, hk⟩
    cases hf : l.find? (·.1 == kind) with
    | none => exact absurd hk (by simpa using List.find?_eq_none.1 hf x hx)
    | some y =>
      have hy : y.1 = kind := by simpa using List.find?_some hf
      rw [List.inj_on_of_nodup_map hd (List.mem_of_find?_eq_some hf) hx (hy.trans hk.symm)]

theorem sectionsOk_iff (b : List Byte) (n : Nat) : sectionsOk b n = true ↔
    (∀ k, k < n → zeroAt b (24 * k + 1) 7 ∧ (sectionEntry b k).1 ≤ 6 ∧ ∀ j, j < k → (sectionEntry b j).1 ≠ (sectionEntry b k).1) ∧
      ∃ k, k < n ∧ (sectionEntry b k).1 = 0 ∧ (sectionEntry b k).2.2 ≠ 0 := by
  have hnodup : (((sectionsOf b n).map (·.1)).eraseDups.length == n) = true ↔
      ∀ k, k < n → ∀ j, j < k → (sectionEntry b j).1 ≠ (sectionEntry b k).1 := by
    have hdup := eraseDups_length_eq_iff ((sectionsOf b n).map (·.1))
    rw [show ((sectionsOf b n).map (·.1)).length = n by simp [sectionsOf]] at hdup
    rw [beq_iff_eq, hdup, sections_nodup_iff]
  simp only [sectionsOk, Bool.and_eq_true, hnodup]
  simp only [sectionsOf_eq, List.all_eq_true, List.any_eq_true, List.mem_map, List.mem_range, zeros_iff, forall_exists_index,
    and_imp, forall_apply_eq_imp_iff₂, decide_eq_true_eq, exists_exists_and_eq_and, Bool.and_eq_true, beq_iff_eq, bne_iff_ne]
  constructor
  · rintro ⟨⟨⟨hz, hk⟩, hd⟩, hx⟩
    exact ⟨fun k h => ⟨hz k h, hk k h, hd k h⟩, hx⟩
  · rintro ⟨h, hx⟩
    exact ⟨⟨⟨fun k hk => (h k hk).1, fun k hk => (h k hk).2.1⟩, fun k hk => (h k hk).2.2⟩, hx⟩

/-- Seven kinds leave room for seven different ones. -/
theorem sections_le_seven {b : List Byte} {n : Nat}
    (h : ∀ k, k < n → (sectionEntry b k).1 ≤ 6 ∧ ∀ j, j < k → (sectionEntry b j).1 ≠ (sectionEntry b k).1) : n ≤ 7 := by
  have hnodup := (sections_nodup_iff b n).2 fun k hk => (h k hk).2
  have hsub : (sectionsOf b n).map (·.1) ⊆ List.range 7 := by
    rw [sectionsOf_eq, List.map_map]
    intro x hx
    obtain ⟨k, hk, rfl⟩ := List.mem_map.1 hx
    exact List.mem_range.2 (Nat.lt_succ_of_le (h k (List.mem_range.1 hk)).1)
  simpa [sectionsOf] using (hnodup.subperm hsub).length_le

/-! ### The object -/

/-- The parts of a code object outside its sections, as R259 has them: the header, the tree, the section table, the two symbol
tables, the signature. -/
def codeParts (h : List Byte) (treeLen : Nat) : List (Nat × Nat) :=
  [(0, 128), (numAt h 0x10 4, treeLen), (numAt h 0x14 4, 24 * numAt h 0x18 4), (numAt h 0x1C 4, 64 * numAt h 0x20 4),
    (numAt h 0x24 4, 16 * numAt h 0x28 4), (numAt h 0x2C 4, if numAt h 0x2C 4 = 0 then 0 else numAt h 0x30 4)]

/-- The file ranges of the sections that lie in the file. -/
def codeFiles (sb : List Byte) (n : Nat) : List (Nat × Nat) := ((sectionsOf sb n).filter (·.1 != 5)).map (·.2)

/-- The number of tree records that are read. -/
def treeDepth (t4 : List Byte) : Nat := if 1 ≤ numAt t4 0 1 ∧ numAt t4 0 1 ≤ 16 then numAt t4 0 1 else 0

/-- The size of the section of local memory. -/
def localSection (sb : List Byte) (n : Nat) : Nat := (((sectionsOf sb n).find? (·.1 == 5)).map (·.2.2)).getD 0

/-- What the Helm keeps of a code object. -/
def codeInfo (h t sb : List Byte) (d : Nat) : CodeInfo :=
  { regsN := numAt h 6 1, regsG := numAt h 7 1, localSize := numAt h 8 4, granary := numAt h 0x0C 4, tree := treeOf t d,
    sections := sectionsOf sb (numAt h 0x18 4) }

theorem codeInfo_eq {h t sb : List Byte} {d : Nat}
    (hrec : ∀ k, k < d → numAt (treeRecord t k) 18 1 ≤ 7 ∨ numAt (treeRecord t k) 18 1 = 0xFF) : codeInfo h t sb d =
      { regsN := numAt h 6 1, regsG := numAt h 7 1, localSize := numAt h 8 4, granary := numAt h 0x0C 4
        tree := (List.range d).map fun k =>
          { fan := numAt (treeRecord t k) 16 2, phys := min 8 (numAt (treeRecord t k) 18 1) }
        sections := (List.range (numAt h 0x18 4)).map (sectionEntry sb) } := by
  rw [codeInfo, treeOf_eq hrec, sectionsOf_eq]

theorem exists_checked_iff (bad : Bool) (x : CodeObject) (i : CodeInfo) :
    (∃ o, (if bad = true then none else some x) = some o ∧ o.info = i) ↔ bad = false ∧ x.info = i := by
  cases bad <;> simp

/-- The reads and checks by which the Helm comes to what it keeps. -/
theorem readCode_info_iff (s : State) (die space : Nat) (code : DWord) (i : CodeInfo) :
    (∃ o, s.readCode die space code = some o ∧ o.info = i) ↔
      code.toNat % 64 = 0 ∧ ∃ h, s.readClean die space code 128 = some h ∧ headerOk h = true ∧ numAt h 0x18 4 ≤ 7 ∧
        ∃ t4, s.readClean die space (code + BitVec.ofNat 64 (numAt h 0x10 4)) 4 = some t4 ∧
        ∃ sb, s.readClean die space (code + BitVec.ofNat 64 (numAt h 0x14 4)) (24 * numAt h 0x18 4) = some sb ∧
        ∃ t, s.readClean die space (code + BitVec.ofNat 64 (numAt h 0x10 4)) (4 + 20 * treeDepth t4) = some t ∧
          sectionsOk sb (numAt h 0x18 4) = true ∧ treeOk t (treeDepth t4) = true ∧
          anyMeet (codeFiles sb (numAt h 0x18 4)) = false ∧
          (∀ f ∈ codeFiles sb (numAt h 0x18 4), ∀ p ∈ codeParts h t.length, meets f p = false) ∧
          numAt h 8 4 = localSection sb (numAt h 0x18 4) ∧ i = codeInfo h t sb (treeDepth t4) := by
  unfold State.readCode
  by_cases hcode : code.toNat % 64 = 0
  swap
  · simp [hcode]
  rw [if_neg (by simp [hcode])]
  cases hh : s.readClean die space code 128 with
  | none => simp
  | some h =>
    simp only [fieldOf_eq_numAt]
    by_cases hok : headerOk h = true ∧ numAt h 0x18 4 ≤ 7
    swap
    · have hbad : (!headerOk h || decide (7 < numAt h 0x18 4)) = true := by
        by_cases hh : headerOk h = true
        · have : ¬ numAt h 0x18 4 ≤ 7 := fun h7 => hok ⟨hh, h7⟩
          simp only [hh, Bool.not_true, Bool.false_or, decide_eq_true_eq]
          omega
        · simp [hh]
      rw [if_pos hbad]
      simp only [reduceCtorEq, false_and, exists_false, hcode, true_and, Option.some.injEq, exists_eq_left', false_iff]
      exact fun hx => hok ⟨hx.1, hx.2.1⟩
    obtain ⟨hhead, hseven⟩ := hok
    rw [if_neg (by simp [hhead, hseven])]
    simp only [hcode, Option.some.injEq, exists_eq_left', hhead, hseven, true_and]
    cases ht4 : s.readClean die space (code + BitVec.ofNat 64 (numAt h 0x10 4)) 4 with
    | none => simp
    | some t4 =>
      cases hsb : s.readClean die space (code + BitVec.ofNat 64 (numAt h 0x14 4)) (24 * numAt h 0x18 4) with
      | none => simp
      | some sb =>
        have hread : (if decide (1 ≤ numAt t4 0 1 ∧ numAt t4 0 1 ≤ 16) = true then 4 + 20 * numAt t4 0 1 else 4) =
            4 + 20 * treeDepth t4 := by
          unfold treeDepth
          split_ifs <;> simp_all
        simp only [Option.some.injEq, exists_eq_left', hread]
        cases ht : s.readClean die space (code + BitVec.ofNat 64 (numAt h 0x10 4)) (4 + 20 * treeDepth t4) with
        | none => simp
        | some t =>
          have htree : (decide (1 ≤ numAt t4 0 1 ∧ numAt t4 0 1 ≤ 16) && !treeOk t (numAt t4 0 1)) = false ↔
              treeOk t (treeDepth t4) = true := by
            unfold treeDepth
            split_ifs with hk
            · simp [hk]
            · simp [hk, treeOk]
          have hlevels : (if decide (1 ≤ numAt t4 0 1 ∧ numAt t4 0 1 ≤ 16) = true then treeOf t (numAt t4 0 1) else []) =
              treeOf t (treeDepth t4) := by
            unfold treeDepth
            split_ifs with h1 h2 h2
            · rfl
            · exact absurd (of_decide_eq_true h1) h2
            · exact absurd (decide_eq_true h2) h1
            · rfl
          rw [exists_checked_iff]
          simp only [Bool.or_eq_false_iff, htree, hlevels, Bool.not_eq_false', List.any_eq_false, bne_eq_false_iff_eq,
            Bool.not_eq_true, and_assoc, Option.some.injEq, exists_eq_left']
          rw [eq_comm (b := i)]
          exact Iff.rfl

theorem codeFiles_eq (sb : List Byte) (n : Nat) :
    codeFiles sb n = ((List.range n).filter fun k => (sectionEntry sb k).1 != 5).map fun k => (sectionEntry sb k).2 := by
  rw [codeFiles, sectionsOf_eq, List.filter_map, List.map_map]
  rfl

/-- The sections in the file share no byte with one another or with another part (R259). -/
theorem codeFiles_apart_iff (sb : List Byte) (n : Nat) (parts : List (Nat × Nat)) :
    (anyMeet (codeFiles sb n) = false ∧ ∀ f ∈ codeFiles sb n, ∀ p ∈ parts, meets f p = false) ↔
      ∀ k, (k < n ∧ (sectionEntry sb k).1 ≠ 5) →
        (∀ j, (j < n ∧ (sectionEntry sb j).1 ≠ 5) → j ≠ k → Apart (sectionEntry sb j).2 (sectionEntry sb k).2) ∧
          ∀ x ∈ parts, Apart x (sectionEntry sb k).2 := by
  have hmeets (a b : Nat × Nat) : meets a b = false ↔ Apart b a := by
    rw [← Bool.not_eq_true, meets_iff, not_not, apart_comm]
  simp only [anyMeet_eq_false_iff, codeFiles_eq, List.pairwise_map, List.pairwise_filter, pairwise_range_iff, hmeets,
    List.forall_mem_map, List.mem_filter, List.mem_range, bne_iff_ne, and_imp]
  constructor
  · rintro ⟨hpair, hpart⟩ k hk hk5
    refine ⟨fun j hj hj5 hne => ?_, hpart k hk hk5⟩
    rcases Nat.lt_or_gt_of_ne hne with hlt | hlt
    · exact hpair k hk j hlt hj5 hk5
    · exact (apart_comm _ _).1 (hpair j hj k hlt hk5 hj5)
  · intro h
    exact ⟨fun k hk j hj hj5 hk5 => (h k hk hk5).1 j (hj.trans hk) hj5 (Nat.ne_of_lt hj), fun k hk hk5 => (h k hk hk5).2⟩

/-- The section of local memory, where the kinds differ, is the one of its kind. -/
theorem localSection_iff {sb : List Byte} {n : Nat} (hd : ((sectionsOf sb n).map (·.1)).Nodup) (v : Nat) :
    v = localSection sb n ↔ (∀ k, k < n → (sectionEntry sb k).1 = 5 → (sectionEntry sb k).2.2 = v) ∧
      ((∀ k, k < n → (sectionEntry sb k).1 ≠ 5) → v = 0) := by
  have hfind : ∀ k, k < n → (sectionEntry sb k).1 = 5 → (sectionsOf sb n).find? (·.1 == 5) = some (sectionEntry sb k) :=
    fun k hk h5 => (find?_kind_iff hd 5 _).2 ⟨by rw [sectionsOf_eq]; exact List.mem_map_of_mem (List.mem_range.2 hk), h5⟩
  unfold localSection
  by_cases hany : ∃ k, k < n ∧ (sectionEntry sb k).1 = 5
  · obtain ⟨k, hk, h5⟩ := hany
    rw [hfind k hk h5, Option.map_some, Option.getD_some]
    refine ⟨fun h => ⟨fun j hj hj5 => ?_, fun hn => absurd h5 (hn k hk)⟩, fun h => (h.1 k hk h5).symm⟩
    rw [h, Option.some.inj ((hfind j hj hj5).symm.trans (hfind k hk h5))]
  · have hnone : ∀ k, k < n → (sectionEntry sb k).1 ≠ 5 := fun k hk h5 => hany ⟨k, hk, h5⟩
    have hf : (sectionsOf sb n).find? (·.1 == 5) = none := by
      rw [List.find?_eq_none, sectionsOf_eq, List.forall_mem_map]
      exact fun k hk => by simpa using hnone k (List.mem_range.1 hk)
    rw [hf, Option.map_none, Option.getD_none]
    exact ⟨fun h => ⟨fun k hk h5 => absurd h5 (hnone k hk), fun _ => h⟩, fun h => h.2 hnone⟩

/-- A code object that the Helm accepts is one that passes R259, and the Helm keeps what R92 says. -/
theorem readCode_iff (s : State) (die space : Nat) (code : DWord) (i : CodeInfo) :
    (∃ o, s.readCode die space code = some o ∧ o.info = i) ↔ CodeOk s die space code i := by
  rw [readCode_info_iff]
  constructor
  · rintro ⟨hcode, h, hh, hhead, -, t4, ht4, sb, hsb, t, ht, hsect, htree, hmeet, hparts, hlocal, rfl⟩
    have htlen := readClean_length ht
    obtain ⟨h1, h2, h3, h4, h5, h6, h7⟩ := (headerOk_iff h).1 hhead
    have hrec := (treeOk_iff htlen).1 htree
    obtain ⟨hs, htext⟩ := (sectionsOk_iff sb _).1 hsect
    have hfiles := (codeFiles_apart_iff sb _ _).1 ⟨hmeet, hparts⟩
    obtain ⟨hlocal5, hlocal0⟩ := (localSection_iff ((sections_nodup_iff sb _).2 fun k hk => (hs k hk).2.2) _).1 hlocal
    rw [htlen] at hfiles
    exact ⟨h, t4, t, sb, hcode, hh, ht4, ht, hsb, h1, h2, h3, h4, h5, h6, h7, hrec, hs, htext, hfiles, hlocal5, hlocal0,
      codeInfo_eq fun k hk => (hrec k hk).2.1⟩
  · rintro ⟨h, t4, t, sb, hcode, hh, ht4, ht, hsb, h1, h2, h3, h4, h5, h6, h7, hrec, hs, htext, hfiles, hlocal5, hlocal0, rfl⟩
    have htlen : t.length = 4 + 20 * treeDepth t4 := readClean_length ht
    have hsect : sectionsOk sb (numAt h 0x18 4) = true := (sectionsOk_iff sb _).2 ⟨hs, htext⟩
    obtain ⟨hmeet, hparts⟩ := (codeFiles_apart_iff sb (numAt h 0x18 4) (codeParts h (4 + 20 * treeDepth t4))).2 hfiles
    rw [← htlen] at hparts
    exact ⟨hcode, h, hh, (headerOk_iff h).2 ⟨h1, h2, h3, h4, h5, h6, h7⟩, sections_le_seven fun k hk => (hs k hk).2, t4, ht4, sb, hsb,
      t, ht, hsect, (treeOk_iff htlen).2 hrec, hmeet, hparts, (localSection_iff ((sections_nodup_iff sb _).2 fun k hk => (hs k hk).2.2) _).2 ⟨hlocal5, hlocal0⟩,
      (codeInfo_eq fun k hk => (hrec k hk).2.1).symm⟩

/-! ### What an accepted object holds -/

/-- A tree that R259 lets pass names a physical code for each level, or any. -/
theorem codeOk_tree {s : State} {die space : Nat} {code : DWord} {i : CodeInfo} (h : CodeOk s die space code i) :
    ∀ l ∈ i.tree, l.phys ≤ 8 := by
  obtain ⟨h, t4, t, sb, hrest⟩ := h
  obtain ⟨-, -, -, -, -, -, -, -, -, -, -, -, -, -, -, -, -, -, rfl⟩ := hrest
  intro l hl
  obtain ⟨k, hk, rfl⟩ := List.mem_map.1 hl
  exact Nat.min_le_left _ _

theorem codeOk_sections_nodup {s : State} {die space : Nat} {code : DWord} {i : CodeInfo} (h : CodeOk s die space code i) :
    (i.sections.map (·.1)).Nodup := by
  obtain ⟨h, t4, t, sb, hrest⟩ := h
  obtain ⟨-, -, -, -, -, -, -, -, -, -, -, -, -, hs, -, -, -, -, rfl⟩ := hrest
  have hd := (sections_nodup_iff sb (numAt h 0x18 4)).2 fun k hk => (hs k hk).2.2
  rw [sectionsOf_eq] at hd
  exact hd

/-- The section of the code is the one that has its kind. -/
theorem text_iff {i : CodeInfo} (hd : (i.sections.map (·.1)).Nodup) (entry : Nat) :
    entry < ((i.sectionAt 0).getD (0, 0)).2 ↔ ∃ x ∈ i.sections, x.1 = 0 ∧ entry < x.2.2 := by
  unfold CodeInfo.sectionAt
  cases hf : i.sections.find? (·.1 == 0) with
  | none =>
    have hnone : ∀ x ∈ i.sections, x.1 ≠ 0 := fun x hx => by simpa using List.find?_eq_none.1 hf x hx
    exact ⟨fun h => absurd h (Nat.not_lt_zero _), fun ⟨x, hx, h0, _⟩ => absurd h0 (hnone x hx)⟩
  | some y =>
    obtain ⟨hy, hy0⟩ := (find?_kind_iff hd 0 y).1 hf
    refine ⟨fun h => ⟨y, hy, hy0, h⟩, fun ⟨x, hx, h0, hlt⟩ => ?_⟩
    rw [(find?_kind_iff hd 0 x).2 ⟨hx, h0⟩] at hf
    cases hf
    exact hlt

end Sys2Proof.Machine
end

section
/-! SUPPORT. Capacities of the device (R11, R12). -/

namespace Sys2Proof.Machine

theorem sumOf_eq_sum (l : List Nat) : sumOf l = l.sum := List.sum_eq_foldl.symm

theorem le_foldl_max (l : List Nat) (a : Nat) : a ≤ l.foldl max a ∧ ∀ x ∈ l, x ≤ l.foldl max a := by
  induction l generalizing a with
  | nil => simp
  | cons b rest ih =>
    obtain ⟨h1, h2⟩ := ih (max a b)
    refine ⟨(Nat.le_max_left a b).trans h1, fun x hx => ?_⟩
    rcases List.mem_cons.1 hx with rfl | hx
    · exact (Nat.le_max_right a x).trans h1
    · exact h2 x hx

theorem foldl_max_mem (l : List Nat) (a : Nat) : l.foldl max a = a ∨ l.foldl max a ∈ l := by
  induction l generalizing a with
  | nil => exact .inl rfl
  | cons b rest ih =>
    rw [List.foldl_cons]
    rcases ih (max a b) with h | h
    · rcases Nat.le_total a b with hab | hab
      · exact .inr (by rw [h, Nat.max_eq_right hab]; exact List.mem_cons_self)
      · exact .inl (by rw [h, Nat.max_eq_left hab])
    · exact .inr (List.mem_cons_of_mem _ h)

/-- The unit of a level that a core lies in, the enabled units of a level, and how many enabled instances of a level one holds (R12). -/
def capUnit (q core : Nat) : Nat := if q = 2 then core else if q = 3 then core / 4 else if q = 4 then core / 64 else 0
def capUnits (s : State) (q : Nat) : List Nat :=
  if q = 2 then s.liveCores else if q = 3 then s.liveClusters else if q = 4 then s.liveDies else [0]
def capCores (s : State) (q u : Nat) : List Nat := s.liveCores.filter fun k => capUnit q k == u
def capCount (s : State) (c q u : Nat) : Nat :=
  match c with
  | 0 => 32 * ((capCores s q u).map fun k => (s.cores.getD k default).warps).sum
  | 1 => ((capCores s q u).map fun k => (s.cores.getD k default).warps).sum
  | 2 => (capCores s q u).length
  | 3 => (s.liveClusters.filter fun k => q == 5 || k / 16 == u).length
  | _ => s.liveDies.length

theorem capCores_core (s : State) {u : Nat} (hu : u ∈ s.liveCores) : capCores s 2 u = [u] := by
  show s.liveCores.filter (· == u) = [u]
  rw [List.filter_beq, List.count_eq_one_of_mem (show s.liveCores.Nodup from List.nodup_range.filter _) hu]
  rfl

theorem capCores_device (s : State) : capCores s 5 0 = s.liveCores := by
  show s.liveCores.filter (fun _ => 0 == 0) = s.liveCores
  simp

/-- The instances of a level below CORE, and of CORE, are counted over the cores of a unit; clusters in their die. -/
theorem unitCount_eq_capCount {s : State} {c q u : Nat} {clusters dies : List Nat} (hc : c < q) (hq : q ≤ 5)
    (hclusters : c = 3 → clusters = s.liveClusters.filter fun k => q == 5 || k / 16 == u) (hdies : c = 4 → dies = s.liveDies) :
    s.unitCount c (capCores s q u) clusters dies = capCount s c q u := by
  have hc5 : c < 5 := hc.trans_le hq
  interval_cases c
  · simp only [State.unitCount, capCount, sumOf_eq_sum]
  · simp only [State.unitCount, capCount, sumOf_eq_sum]
  · rfl
  · simp only [State.unitCount, capCount, hclusters]
  · simp only [State.unitCount, capCount, hdies]

/-- Cap below the device is the largest count in a unit. -/
theorem cap_eq_maxOf (s : State) {c q : Nat} (hc : c < q) (h2 : 2 ≤ q) (h4 : q ≤ 4) :
    s.cap c q = maxOf ((capUnits s q).map (capCount s c q)) := by
  have hne : c ≠ q := Nat.ne_of_lt hc
  unfold State.cap
  rw [if_neg hne]
  interval_cases q
  · refine congrArg maxOf (List.map_congr_left fun k hk => ?_)
    rw [← capCores_core s hk]
    exact unitCount_eq_capCount hc (by omega) (by omega) (by omega)
  · refine congrArg maxOf (List.map_congr_left fun k _ => ?_)
    exact unitCount_eq_capCount (u := k) (q := 3) hc (by omega) (by omega) (by omega)
  · refine congrArg maxOf (List.map_congr_left fun k _ => ?_)
    exact unitCount_eq_capCount (u := k) (q := 4) hc (by omega) (fun _ => rfl) (by omega)

theorem cap_device (s : State) {c : Nat} (hc : c < 5) : s.cap c 5 = capCount s c 5 0 := by
  unfold State.cap
  rw [if_neg (Nat.ne_of_lt hc)]
  show s.unitCount c s.liveCores s.liveClusters s.liveDies = _
  conv_lhs => rw [← capCores_device s]
  exact unitCount_eq_capCount hc (Nat.le_refl _) (fun _ => by simp) (fun _ => rfl)

theorem capLaw (s : State) : CapLaw s := by
  have hmax : ∀ c q, c < q → 2 ≤ q → q ≤ 5 → (∀ u ∈ capUnits s q, capCount s c q u ≤ s.cap c q) ∧
      (s.cap c q = 0 ∨ ∃ u ∈ capUnits s q, capCount s c q u = s.cap c q) := by
    intro c q hc h2 h5
    by_cases hq : q = 5
    · subst hq
      rw [cap_device s hc]
      simp [capUnits]
    · rw [cap_eq_maxOf s hc h2 (by omega)]
      refine ⟨fun u hu => (le_foldl_max _ 0).2 _ (List.mem_map_of_mem hu), ?_⟩
      rcases foldl_max_mem ((capUnits s q).map (capCount s c q)) 0 with h | h
      · exact .inl h
      · exact .inr (List.mem_map.1 h)
  exact ⟨fun c => if_pos rfl, rfl, hmax⟩

end Sys2Proof.Machine
end

section
/-! SUPPORT. The binder (R15): orders of codes, resolution, implicit levels, runs. -/

namespace Sys2Proof.Machine

/-! ### Products of fanouts -/

theorem foldl_mul_if {α : Type} (p : α → Bool) (f : α → Nat) (l : List α) (a : Nat) :
    l.foldl (fun n x => if p x = true then n * f x else n) a = a * ((l.filter p).map f).prod := by
  induction l generalizing a with
  | nil => simp
  | cons x rest ih =>
    rw [List.foldl_cons, ih]
    by_cases hx : p x = true
    · rw [if_pos hx, List.filter_cons_of_pos hx, List.map_cons, List.prod_cons, Nat.mul_assoc]
    · rw [if_neg hx, List.filter_cons_of_neg hx]

theorem fans_eq (b : List BoundLevel) (p : Nat → Bool) : fans b p = ((b.filter fun l => p l.phys).map (·.fan)).prod := by
  rw [fans, foldl_mul_if (fun l : BoundLevel => p l.phys) (·.fan), Nat.one_mul]

theorem runFan_eq (run : List BoundLevel) : run.foldl (fun n x => n * x.fan) 1 = (run.map (·.fan)).prod := by
  have h := foldl_mul_if (fun _ : BoundLevel => true) (·.fan) run 1
  simpa using h

theorem fanOf_eq (ls : List (Nat × Option Nat)) (c : Nat) : fanOf ls c = ((ls.filter fun l => l.2 == some c).map (·.1)).prod := by
  have h := foldl_mul_if (fun l : Nat × Option Nat => l.2 == some c) (·.1) ls 1
  simp only [beq_iff_eq, Nat.one_mul] at h
  exact h

/-! ### The order of explicit codes (BIND_ORDER) -/

theorem orderOk_iff (ls : List TreeLevel) (top : Nat) : orderOk ls top = true ↔ ∀ k, k < ls.length → (ls.getD k default).phys ≠ 8 →
    (ls.getD k default).phys ≤ top ∧
      ∀ j, j < k → (ls.getD j default).phys ≠ 8 → (ls.getD k default).phys ≤ (ls.getD j default).phys := by
  induction ls generalizing top with
  | nil => simp [orderOk]
  | cons l rest ih =>
    rw [orderOk]
    by_cases h8 : l.phys = 8
    · rw [if_pos h8, ih]
      constructor
      · intro h k hk hk8
        cases k with
        | zero => exact absurd h8 hk8
        | succ k =>
          obtain ⟨htop, hj⟩ := h k (by simpa using hk) hk8
          refine ⟨htop, fun j hjk hj8 => ?_⟩
          cases j with
          | zero => exact absurd h8 hj8
          | succ j => exact hj j (by omega) hj8
      · intro h k hk hk8
        obtain ⟨htop, hj⟩ := h (k + 1) (by simpa using hk) hk8
        exact ⟨htop, fun j hjk hj8 => hj (j + 1) (by omega) hj8⟩
    · rw [if_neg h8, Bool.and_eq_true, decide_eq_true_eq, ih]
      constructor
      · rintro ⟨hl, h⟩ k hk hk8
        cases k with
        | zero => exact ⟨hl, fun j hj => absurd hj (Nat.not_lt_zero j)⟩
        | succ k =>
          obtain ⟨hup, hj⟩ := h k (by simpa using hk) hk8
          refine ⟨hup.trans hl, fun j hjk hj8 => ?_⟩
          cases j with
          | zero => exact hup
          | succ j => exact hj j (by omega) hj8
      · intro h
        refine ⟨(h 0 (by simp) h8).1, fun k hk hk8 => ?_⟩
        obtain ⟨-, hj⟩ := h (k + 1) (by simpa using hk) hk8
        exact ⟨hj 0 (by omega) h8, fun j hjk hj8 => hj (j + 1) (by omega) hj8⟩

/-! ### Resolution (R15) -/

/-- The code that resolution gives to a level: its own, or the lowest that fits between what is below and what is above. -/
def resolveCode (s : State) (top fan ph : Nat) (rest : List (Nat × Nat)) (acc : List (Nat × Option Nat)) (below : Nat) : Option Nat :=
  if ph ≠ 8 then some ph
  else
    let above := ((rest.find? (·.2 != 8)).map (·.2)).getD top
    (List.range 8).find? fun c => decide (below ≤ c) && decide (c ≤ above) &&
      (if c = 0 then decide (fan * fanOf acc c ≤ 32) else if c = above then true else decide (fan * fanOf acc c ≤ s.cap c above))

theorem resolve_cons (s : State) (top fan ph : Nat) (rest : List (Nat × Nat)) (acc : List (Nat × Option Nat)) (below : Nat) :
    s.resolve top ((fan, ph) :: rest) acc below =
      s.resolve top rest ((fan, resolveCode s top fan ph rest acc below) :: acc)
        ((resolveCode s top fan ph rest acc below).getD below) := by
  rw [State.resolve]
  unfold resolveCode
  by_cases hph : ph ≠ 8
  · simp only [if_pos hph, Option.getD_some]
  · simp only [if_neg hph]
    split
    · rename_i c hc
      simp only [hc, Option.getD_some]
    · rename_i hc
      simp only [hc, Option.getD_none]

section Levels

variable (s : State) (top d : Nat) (ph f : Nat → Nat) (p : Nat → Option Nat)

/-- The code of the nearest level at or below k that has one, the explicit code nearest above k, and the fanouts at or below k that
have a code, in the terms of R15. -/
def codeBelow (k : Nat) : Nat := (((List.range d).filter fun j => decide (k ≤ j) && (p j).isSome).head?.bind p).getD 0
def codeAbove (k : Nat) : Nat := (((List.range k).filter fun j => ph j != 8).getLast?.map ph).getD top
def fanBelow (k c : Nat) : Nat := (((List.range d).filter fun j => decide (k ≤ j) && p j == some c).map f).prod

/-- A code fits level k. -/
def CodeFits (k c : Nat) : Prop :=
  if c = 0 then f k * fanBelow d f p (k + 1) c ≤ 32
  else c = codeAbove top ph k ∨ f k * fanBelow d f p (k + 1) c ≤ s.cap c (codeAbove top ph k)

/-- Level k is resolved as R15 says. -/
def LevelResolved (k : Nat) : Prop :=
  (ph k ≠ 8 → p k = some (ph k)) ∧
    (ph k = 8 → (p k = none → ∀ c, codeBelow d p (k + 1) ≤ c → c ≤ codeAbove top ph k → ¬ CodeFits s top d ph f p k c) ∧
      ∀ c, p k = some c → codeBelow d p (k + 1) ≤ c ∧ c ≤ codeAbove top ph k ∧ CodeFits s top d ph f p k c ∧
        ∀ x, codeBelow d p (k + 1) ≤ x → x < c → ¬ CodeFits s top d ph f p k x)

/-- The levels from k on, with the codes that they have. -/
def levelsFrom (k : Nat) : List (Nat × Option Nat) := ((List.range d).filter fun j => decide (k ≤ j)).map fun j => (f j, p j)

end Levels

/-- The first of the levels from k on is k. -/
theorem range_from_cons {k d : Nat} (h : k < d) :
    ((List.range d).filter fun j => decide (k ≤ j)) = k :: (List.range d).filter fun j => decide (k + 1 ≤ j) := by
  rw [range_split h, List.filter_append, List.filter_append]
  have hlow : ((List.range k).filter fun j => decide (k ≤ j)) = [] := by simp
  have hlow' : ((List.range k).filter fun j => decide (k + 1 ≤ j)) = [] := by
    simp only [List.filter_eq_nil_iff, List.mem_range, decide_eq_true_eq]
    omega
  rw [hlow, hlow', List.filter_cons_of_pos (by simp), List.filter_cons_of_neg (by simp), List.nil_append, List.nil_append]
  refine congrArg _ (List.filter_congr fun j hj => ?_)
  obtain ⟨i, -, rfl⟩ := List.mem_map.1 hj
  simp only [decide_eq_decide]
  omega

theorem levelsFrom_cons {d k : Nat} (f : Nat → Nat) (p : Nat → Option Nat) (h : k < d) :
    levelsFrom d f p k = (f k, p k) :: levelsFrom d f p (k + 1) := by
  rw [levelsFrom, range_from_cons h, List.map_cons]
  rfl

theorem filter_from_and {d k : Nat} (q : Nat → Bool) :
    ((List.range d).filter fun j => decide (k ≤ j) && q j) = ((List.range d).filter fun j => decide (k ≤ j)).filter q := by
  rw [List.filter_filter]
  exact List.filter_congr fun j _ => Bool.and_comm _ _

theorem codeBelow_cons {d k : Nat} (p : Nat → Option Nat) (h : k < d) : codeBelow d p k = (p k).getD (codeBelow d p (k + 1)) := by
  unfold codeBelow
  rw [filter_from_and, range_from_cons h, filter_from_and]
  cases hp : p k with
  | none => rw [List.filter_cons_of_neg (by simp [hp]), Option.getD_none]
  | some c => rw [List.filter_cons_of_pos (by simp [hp]), List.head?_cons, Option.bind_some, hp]; rfl

theorem fanOf_levelsFrom (d k c : Nat) (f : Nat → Nat) (p : Nat → Option Nat) : fanOf (levelsFrom d f p k) c = fanBelow d f p k c := by
  rw [fanOf_eq, levelsFrom, List.filter_map, List.map_map, fanBelow, filter_from_and]
  rfl

/-- What is said of the levels from k on does not depend on the codes above. -/
theorem filter_from_congr {d k : Nat} {q r : Nat → Bool} (h : ∀ j, k ≤ j → q j = r j) :
    ((List.range d).filter fun j => decide (k ≤ j) && q j) = (List.range d).filter fun j => decide (k ≤ j) && r j := by
  refine List.filter_congr fun j _ => ?_
  by_cases hj : k ≤ j
  · rw [h j hj]
  · simp [hj]

theorem codeBelow_congr {d k : Nat} {p p' : Nat → Option Nat} (h : ∀ j, k ≤ j → p j = p' j) : codeBelow d p k = codeBelow d p' k := by
  unfold codeBelow
  rw [filter_from_congr (r := fun j => (p' j).isSome) fun j hj => by rw [h j hj]]
  cases hx : ((List.range d).filter fun j => decide (k ≤ j) && (p' j).isSome).head? with
  | none => rfl
  | some j =>
    have hmem := List.mem_filter.1 (List.mem_of_mem_head? hx)
    have hj : k ≤ j := by
      have := hmem.2
      simp only [Bool.and_eq_true, decide_eq_true_eq] at this
      exact this.1
    rw [Option.bind_some, Option.bind_some, h j hj]

theorem fanBelow_congr {d k : Nat} {f : Nat → Nat} {p p' : Nat → Option Nat} (h : ∀ j, k ≤ j → p j = p' j) (c : Nat) :
    fanBelow d f p k c = fanBelow d f p' k c := by
  unfold fanBelow
  rw [filter_from_congr (r := fun j => p' j == some c) fun j hj => by rw [h j hj]]

theorem levelResolved_congr {s : State} {top d k : Nat} {ph f : Nat → Nat} {p p' : Nat → Option Nat} (h : ∀ j, k ≤ j → p j = p' j) :
    LevelResolved s top d ph f p k ↔ LevelResolved s top d ph f p' k := by
  unfold LevelResolved CodeFits
  rw [h k (Nat.le_refl k), codeBelow_congr fun j hj => h j (by omega)]
  simp only [fanBelow_congr (f := f) (fun j (hj : k + 1 ≤ j) => h j (by omega))]

theorem levelsFrom_congr {d k : Nat} {f : Nat → Nat} {p p' : Nat → Option Nat} (h : ∀ j, k ≤ j → p j = p' j) :
    levelsFrom d f p k = levelsFrom d f p' k := by
  refine List.map_congr_left fun j hj => ?_
  rw [h j (by simpa using (List.mem_filter.1 hj).2)]

/-- The explicit code nearest above, as resolution looks for it. -/
theorem find_above_eq (top k : Nat) (ph f : Nat → Nat) :
    (((((List.range k).map fun j => (f j, ph j)).reverse.find? (·.2 != 8)).map (·.2)).getD top) = codeAbove top ph k := by
  rw [← List.head?_filter, List.filter_reverse, List.head?_reverse, List.filter_map, List.getLast?_map, Option.map_map]
  rfl

theorem codeAbove_le {top k d : Nat} {ph : Nat → Nat} (htop : top ≤ 7) (hph : ∀ j, j < d → ph j ≤ 8) (hk : k ≤ d) :
    codeAbove top ph k ≤ 7 := by
  unfold codeAbove
  cases hx : ((List.range k).filter fun j => ph j != 8).getLast? with
  | none => exact htop
  | some j =>
    obtain ⟨hj, h8⟩ := List.mem_filter.1 (List.mem_of_getLast? hx)
    have := hph j ((List.mem_range.1 hj).trans_le hk)
    have : ph j ≠ 8 := by simpa using h8
    show ph j ≤ 7
    omega

theorem resolveCode_resolved {s : State} {top d k : Nat} {ph f : Nat → Nat} {p : Nat → Option Nat} (htop : top ≤ 7)
    (hph : ∀ j, j < d → ph j ≤ 8) (hk : k < d)
    (hp : p k = resolveCode s top (f k) (ph k) ((List.range k).map fun j => (f j, ph j)).reverse (levelsFrom d f p (k + 1))
      (codeBelow d p (k + 1))) : LevelResolved s top d ph f p k := by
  have habove := codeAbove_le htop hph hk.le
  have hfits : ∀ c, (if c = 0 then decide (f k * fanBelow d f p (k + 1) c ≤ 32) else if c = codeAbove top ph k then true
      else decide (f k * fanBelow d f p (k + 1) c ≤ s.cap c (codeAbove top ph k))) = true ↔ CodeFits s top d ph f p k c := by
    intro c
    unfold CodeFits
    split_ifs with h0 h1
    · exact decide_eq_true_iff
    · simp [h1]
    · simp [h1]
  unfold resolveCode at hp
  simp only [find_above_eq, fanOf_levelsFrom] at hp
  refine ⟨fun h8 => by rw [hp, if_pos h8], fun h8 => ?_⟩
  rw [if_neg (by simpa using h8)] at hp
  refine ⟨fun hnone c hb ha hfit => ?_, fun c hc => ?_⟩
  · rw [hnone] at hp
    have := List.find?_eq_none.1 hp.symm c (List.mem_range.2 (by omega))
    simp only [Bool.and_eq_true, decide_eq_true_eq, hfits] at this
    exact this ⟨⟨hb, ha⟩, hfit⟩
  · rw [hc] at hp
    obtain ⟨hgood, -, hmin⟩ := List.find?_range_eq_some.1 hp.symm
    simp only [Bool.and_eq_true, decide_eq_true_eq, hfits] at hgood
    refine ⟨hgood.1.1, hgood.1.2, hgood.2, fun x hb hx hfit => ?_⟩
    have := hmin x hx
    simp only [Bool.not_eq_true', ← Bool.not_eq_true, Bool.and_eq_true, decide_eq_true_eq, hfits] at this
    exact this ⟨⟨hb, by omega⟩, hfit⟩

/-- Resolution of the levels above k, with those from k on resolved, resolves them all. -/
theorem resolve_from (s : State) {top d : Nat} {ph f : Nat → Nat} (htop : top ≤ 7) (hph : ∀ j, j < d → ph j ≤ 8) (k : Nat) (hk : k ≤ d)
    (p : Nat → Option Nat) (hp : ∀ j, k ≤ j → j < d → LevelResolved s top d ph f p j) :
    ∃ p', Resolved s top d ph f p' ∧ s.resolve top ((List.range k).map fun j => (f j, ph j)).reverse (levelsFrom d f p k)
      (codeBelow d p k) = (List.range d).map fun j => (f j, p' j) := by
  induction k generalizing p with
  | zero =>
    refine ⟨p, fun j hj => hp j (Nat.zero_le j) hj, ?_⟩
    simp [State.resolve, levelsFrom]
  | succ k ih =>
    let code := resolveCode s top (f k) (ph k) ((List.range k).map fun j => (f j, ph j)).reverse (levelsFrom d f p (k + 1))
      (codeBelow d p (k + 1))
    let p₁ := Function.update p k code
    have hsame : ∀ j, k + 1 ≤ j → p j = p₁ j := fun j hj => (Function.update_of_ne (by omega) _ _).symm
    have hself : p₁ k = code := Function.update_self ..
    have hlevels : ∀ j, k ≤ j → j < d → LevelResolved s top d ph f p₁ j := by
      intro j hj hjd
      rcases Nat.eq_or_lt_of_le hj with rfl | hlt
      · refine resolveCode_resolved htop hph hjd ?_
        rw [hself, ← levelsFrom_congr hsame, ← codeBelow_congr hsame]
      · exact (levelResolved_congr fun i hi => hsame i (by omega)).1 (hp j (by omega) hjd)
    obtain ⟨p', hres, heq⟩ := ih (by omega) p₁ hlevels
    refine ⟨p', hres, ?_⟩
    rw [← heq, List.range_succ, List.map_append, List.reverse_append]
    show s.resolve top ((f k, ph k) :: _) _ _ = _
    rw [resolve_cons, levelsFrom_cons f p₁ (by omega), codeBelow_cons p₁ (by omega), hself, ← levelsFrom_congr hsame,
      ← codeBelow_congr hsame]
    rfl

/-- Resolution from the leaf to the root (R15). -/
theorem resolve_resolved (s : State) {top d : Nat} {ph f : Nat → Nat} (htop : top ≤ 7) (hph : ∀ j, j < d → ph j ≤ 8) :
    ∃ p, Resolved s top d ph f p ∧
      s.resolve top ((List.range d).map fun j => (f j, ph j)).reverse [] 0 = (List.range d).map fun j => (f j, p j) := by
  have hnone : ((List.range d).filter fun j => decide (d ≤ j)) = [] := by simp
  have h := resolve_from s (f := f) htop hph d (Nat.le_refl d) (fun _ => none) (fun j hj hjd => by omega)
  rwa [levelsFrom, hnone, List.map_nil, codeBelow, filter_from_and, hnone] at h

end Sys2Proof.Machine
end

section
/-! SUPPORT. The binder (R15 to R19): implicit levels, runs, budgets, and the outcome. -/

namespace Sys2Proof.Machine

/-! ### Implicit levels -/

theorem insertLevel_inserted (c : Nat) (ls : List BoundLevel) : Inserted c ls (insertLevel c ls) := by
  unfold insertLevel
  constructor
  · rintro ⟨l, hl, hc⟩
    rw [if_pos (List.any_eq_true.2 ⟨l, hl, by simpa using hc⟩)]
  · intro hno
    have hany : ¬ ls.any (·.phys == c) = true := by
      rw [List.any_eq_true]
      exact fun ⟨l, hl, hc⟩ => hno l hl (by simpa using hc)
    rw [if_neg hany]
    refine ⟨_, _, (List.takeWhile_append_dropWhile (p := fun l => decide (c ≤ l.phys))).symm, by simp, fun l hl => ?_, fun l hl => ?_⟩
    · have hle : c ≤ l.phys := by simpa using List.mem_takeWhile_imp hl
      have hne := hno l ((List.takeWhile_sublist _).subset hl)
      omega
    · have := List.head?_dropWhile_not (fun l : BoundLevel => decide (c ≤ l.phys)) ls
      rw [hl] at this
      simpa using this

/-! ### Runs -/

/-- The levels of a list all have a code, and the next one, if any, has another. -/
theorem takeWhile_run {run lo : List BoundLevel} {a : Nat} (hrun : ∀ l ∈ run, l.phys = a) (hlo : ∀ l, lo.head? = some l → l.phys ≠ a) :
    (run ++ lo).takeWhile (·.phys == a) = run := by
  have hstop : lo.takeWhile (·.phys == a) = [] := by
    cases lo with
    | nil => rfl
    | cons l rest => exact List.takeWhile_cons_of_neg (by simpa using hlo l rfl)
  rw [List.takeWhile_append_of_pos (fun l hl => by simpa using hrun l hl), hstop, List.append_nil]

/-- The code just above what follows a list of levels. -/
def codeOver (hi : List BoundLevel) (top : Nat) : Nat := (hi.getLast?.map (·.phys)).getD top

theorem codeOver_append {run hi : List BoundLevel} {a : Nat} (hne : run ≠ []) (hrun : ∀ l ∈ run, l.phys = a) (top : Nat) :
    codeOver (run ++ hi) top = codeOver hi a := by
  unfold codeOver
  cases hi with
  | nil =>
    rw [List.append_nil, List.getLast?_eq_some_getLast hne]
    exact hrun _ (List.getLast_mem hne)
  | cons x rest =>
    rw [List.getLast?_append, List.getLast?_eq_some_getLast (List.cons_ne_nil x rest)]
    rfl

/-- The first run fits what is above it, and the others what follows it. -/
theorem runsFit_append {s : State} {top a : Nat} {run rest : List BoundLevel} (hne : run ≠ []) (hrun : ∀ l ∈ run, l.phys = a)
    (hrest : ∀ l, rest.head? = some l → l.phys ≠ a) :
    RunsFit s top (run ++ rest) ↔ (a = 0 ∨ (run.map (·.fan)).prod ≤ s.cap a top) ∧ RunsFit s a rest := by
  constructor
  · intro h
    refine ⟨?_, fun hi r lo c heq hr hc hall hhi hlo => ?_⟩
    · rcases Nat.eq_zero_or_pos a with h0 | hpos
      · exact .inl h0
      · exact .inr (h [] run rest a rfl hne hpos hrun (fun l hl => absurd hl (by simp)) hrest)
    · have hfit := h (run ++ hi) r lo c (by rw [heq]; simp) hr hc hall ?_ hlo
      · rwa [show (((run ++ hi).getLast?.map (·.phys)).getD top) = codeOver hi a from codeOver_append hne hrun top] at hfit
      · intro l hl
        cases hi with
        | nil =>
          rw [List.append_nil] at hl
          obtain ⟨x, r', rfl⟩ := List.exists_cons_of_ne_nil hr
          rw [hrun l (List.mem_of_getLast? hl), ← hall x (by simp)]
          exact (hrest x (by rw [heq]; rfl)).symm
        | cons y hi' => exact hhi l (by simpa using hl)
  · rintro ⟨hfirst, h⟩ hi r lo c heq hr hc hall hhi hlo
    have hafter : ∀ hi', hi = run ++ hi' → rest = hi' ++ r ++ lo → (r.map (·.fan)).prod ≤ s.cap c (codeOver hi top) := by
      rintro hi' rfl hrest'
      rw [codeOver_append hne hrun]
      refine h hi' r lo c hrest' hr hc hall (fun l hl => hhi l ?_) hlo
      rw [List.getLast?_append, hl]
      rfl
    rw [List.append_assoc] at heq
    rcases List.append_eq_append_iff.1 heq with ⟨hi', hhi', hrest'⟩ | ⟨mid, hrun', hmid⟩
    · exact hafter hi' hhi' (by rw [hrest', List.append_assoc])
    · cases mid with
      | nil => exact hafter [] (by simpa using hrun'.symm) (by simpa using hmid.symm)
      | cons x mid =>
        have hx : x.phys = a := hrun x (by rw [hrun']; simp)
        have hca : c = a := by
          obtain ⟨y, r', rfl⟩ := List.exists_cons_of_ne_nil hr
          rw [← hall y (by simp), ← hx]
          simp only [List.cons_append, List.cons.injEq] at hmid
          rw [hmid.1]
        have hnil : hi = [] := by
          by_contra hhine
          refine hhi _ (List.getLast?_eq_some_getLast hhine) ?_
          rw [hca]
          exact hrun _ (by rw [hrun']; exact List.mem_append_left _ (List.getLast_mem hhine))
        subst hnil hca
        have hsame : r = run := by
          rw [← takeWhile_run hall hlo, ← takeWhile_run hrun hrest, hrun', List.nil_append, hmid]
        rw [hsame]
        exact hfirst.resolve_left (by omega)

theorem runsFit_nil (s : State) (top : Nat) : RunsFit s top [] := by
  intro hi run lo c heq hne
  simp only [List.append_assoc, List.nil_eq, List.append_eq_nil_iff] at heq
  exact absurd heq.2.1 hne

/-- The run checks say that every maximal run above LANE fits (R15). -/
theorem runsOk_iff (s : State) (n : Nat) (ls : List BoundLevel) (top : Nat) (h : ls.length ≤ n) :
    s.runsOk n ls top = true ↔ RunsFit s top ls := by
  induction n generalizing ls top with
  | zero =>
    rw [List.length_eq_zero_iff.1 (Nat.le_zero.1 h)]
    exact ⟨fun _ => runsFit_nil s top, fun _ => rfl⟩
  | succ n ih =>
    cases ls with
    | nil => exact ⟨fun _ => runsFit_nil s top, fun _ => rfl⟩
    | cons l rest =>
      have hsplit := List.takeWhile_append_dropWhile (p := fun x : BoundLevel => x.phys == l.phys) (l := l :: rest)
      have hne : (l :: rest).takeWhile (·.phys == l.phys) ≠ [] := by rw [List.takeWhile_cons_of_pos (by simp)]; simp
      have hdrop : (l :: rest).drop ((l :: rest).takeWhile (·.phys == l.phys)).length = (l :: rest).dropWhile (·.phys == l.phys) := by
        have h := List.drop_left (l₁ := (l :: rest).takeWhile (·.phys == l.phys)) (l₂ := (l :: rest).dropWhile (·.phys == l.phys))
        rwa [hsplit] at h
      have hlen : ((l :: rest).dropWhile (·.phys == l.phys)).length ≤ n := by
        have h1 := congrArg List.length hsplit
        have h2 := List.length_pos_iff.2 hne
        rw [List.length_append] at h1
        simp only [List.length_cons] at h h1
        omega
      have hrun : ∀ x ∈ (l :: rest).takeWhile (·.phys == l.phys), x.phys = l.phys := fun x hx => by
        simpa using List.mem_takeWhile_imp hx
      have hrest : ∀ x, ((l :: rest).dropWhile (·.phys == l.phys)).head? = some x → x.phys ≠ l.phys := fun x hx => by
        have := List.head?_dropWhile_not (fun x : BoundLevel => x.phys == l.phys) (l :: rest)
        rw [hx] at this
        simpa using this
      have hfit := runsFit_append (s := s) (top := top) hne hrun hrest
      rw [hsplit] at hfit
      rw [hfit, State.runsOk]
      simp only [hdrop, runFan_eq, Bool.and_eq_true, Bool.or_eq_true, beq_iff_eq, decide_eq_true_eq, ih _ _ hlen]

/-! ### Budgets (R17 to R19) -/

theorem has_iff (i : CodeInfo) (kind : Nat) : i.has kind = true ↔ ∃ x ∈ i.sections, x.1 = kind ∧ x.2.2 ≠ 0 := by
  simp [CodeInfo.has]

theorem serves_iff (u : ClusterUnit) (i : CodeInfo) : u.serves i = true ↔ servesFor i u := by
  have himp (b : Bool) (P : Prop) (x : Bool) (hx : x = true ↔ P) : (!b || x) = true ↔ (b = true → P) := by
    cases b <;> simp [hx]
  unfold ClusterUnit.serves servesFor
  simp only [Bool.and_eq_true, decide_eq_true_eq, and_assoc]
  rw [himp _ (1 ≤ u.seqctx ∧ 1 ≤ u.winnowers ∧ u.array = 1) _ (by simp [and_assoc]), himp _ (1 ≤ u.cpyctx) _ decide_eq_true_iff,
    has_iff, has_iff]

theorem exceeds_iff (budget n : Nat) : (budget != 0 && decide (budget < n)) = true ↔ budget ≠ 0 ∧ budget < n := by simp

theorem coreFits_iff (s : State) (c : Nat) (i : CodeInfo) (w : Nat) : s.coreFits c i w = true ↔
    w * warpCost i ≤ 16384 * (s.cores.getD c default).regbanks ∧ allocated i ≤ 1024 * (s.cores.getD c default).localKib ∧
      w ≤ (s.cores.getD c default).warps ∧ servesFor i (s.clusters.getD (c / 4) default) := by
  simp only [State.coreFits, Bool.and_eq_true, decide_eq_true_eq, serves_iff, and_assoc]
  rfl

/-- A list of the fitting cores, each once, is as long as any other. -/
theorem fitting_length {cs : List Nat} {s : State} {q : Nat → Bool} (hd : cs.Nodup) (h : ∀ c, c ∈ cs ↔ c ∈ s.liveCores ∧ q c = true) :
    cs.length = (s.liveCores.filter q).length := by
  have hlive : s.liveCores.Nodup := List.nodup_range.filter _
  refine List.Perm.length_eq ((List.perm_ext_iff_of_nodup hd (hlive.filter q)).2 fun c => ?_)
  rw [h, List.mem_filter]

/-- Checks in order: the first that fails gives its fault. -/
theorem first_fault {b₁ b₂ b₃ b₄ : Bool} {P₁ P₂ P₃ P₄ : Prop} (h₁ : b₁ = true ↔ P₁) (h₂ : b₂ = true ↔ P₂) (h₃ : b₃ = true ↔ P₃)
    (h₄ : b₄ = true ↔ P₄) (f₁ f₂ f₃ f₄ : Nat) (out : Option Nat)
    (hout : out = if b₁ = true then some f₁ else if b₂ = true then some f₂ else if b₃ = true then some f₃
      else if b₄ = true then some f₄ else none) :
    (P₁ → out = some f₁) ∧ (¬ P₁ → P₂ → out = some f₂) ∧ (¬ P₁ → ¬ P₂ → P₃ → out = some f₃) ∧
      (¬ P₁ → ¬ P₂ → ¬ P₃ → P₄ → out = some f₄) ∧ (¬ P₁ → ¬ P₂ → ¬ P₃ → ¬ P₄ → out = none) := by
  rw [← h₁, ← h₂, ← h₃, ← h₄]
  cases b₁ <;> cases b₂ <;> cases b₃ <;> cases b₄ <;> simp [hout]

theorem noCore_iff (l : List Nat) (cost : Nat) (size : Nat → Nat) :
    (!l.any fun c => decide (cost ≤ size c)) = true ↔ ∀ c ∈ l, size c < cost := by
  simp only [Bool.not_eq_true', List.any_eq_false, decide_eq_true_eq, Nat.not_le]

theorem budgetChecks_give (s : State) (i : CodeInfo) (top : Nat) (r : Region) (together : Bool) (b : List BoundLevel) :
    BudgetsGive s i top r together b (s.budgetChecks i top r together b) := by
  have hcluster : (!s.liveClusters.any fun c => (s.clusters.getD c default).serves i) = true ↔
      ∀ c ∈ s.liveClusters, ¬ servesFor i (s.clusters.getD c default) := by
    simp only [Bool.not_eq_true', List.any_eq_false, serves_iff]
  have hfit (w n t : Nat) : n * (s.liveCores.filter fun c => s.coreFits c i w).length < t ↔
      ∃ cs : List Nat, (cs.Nodup ∧ ∀ c, c ∈ cs ↔ c ∈ s.liveCores ∧ w * warpCost i ≤ 16384 * (s.cores.getD c default).regbanks ∧
        allocated i ≤ 1024 * (s.cores.getD c default).localKib ∧ w ≤ (s.cores.getD c default).warps ∧
        servesFor i (s.clusters.getD (c / 4) default)) ∧ n * cs.length < t := by
    simp only [← coreFits_iff]
    constructor
    · exact fun h => ⟨_, ⟨(List.nodup_range.filter _).filter _, fun c => List.mem_filter⟩, h⟩
    · rintro ⟨cs, ⟨hd, hmem⟩, h⟩
      rwa [fitting_length hd hmem] at h
  refine first_fault (noCore_iff _ _ _) ?_ ?_ ?_ _ _ _ _ _ (by simp only [State.budgetChecks, State.clusterNodes, fans_eq]; rfl)
  · rw [Bool.or_eq_true, noCore_iff, exceeds_iff]
    rfl
  · rw [Bool.or_eq_true, hcluster, exceeds_iff]
  · have hdevices : (if top ≤ 5 then 1 else s.devices top) = s.devices top := by
      split_ifs with h5
      · rw [State.devices, if_pos h5]
      · rfl
    simp only [Bool.and_eq_true, Bool.or_eq_true, bne_iff_ne, decide_eq_true_eq, hfit, hdevices, or_assoc]
    rfl

/-! ### The outcome (R15, R16) -/

theorem tree_levels (tree : List TreeLevel) (pk : List Nat) :
    (tree.zipIdx.map fun (l, k) => (if l.fan = 0 then pk.getD k 0 else l.fan, l.phys)) = (List.range tree.length).map fun k =>
      (if (tree.getD k default).fan = 0 then pk.getD k 0 else (tree.getD k default).fan, (tree.getD k default).phys) := by
  rw [zipIdx_eq_map_range tree default, List.map_map]
  rfl

/-- The fanouts and the tree of a packet do not agree (TREE_MISMATCH). -/
theorem mismatch_iff (tree : List TreeLevel) (pk : List Nat) :
    (tree.length = 0 ∨ 16 < tree.length ∨ (pk.drop tree.length).any (· != 0) = true ∨
      tree.zipIdx.any (fun (l, k) => l.fan != 0 && pk.getD k 0 != 0 && pk.getD k 0 != l.fan) = true) ↔
    (tree.length < 1 ∨ 16 < tree.length ∨ (∃ k, tree.length ≤ k ∧ pk.getD k 0 ≠ 0) ∨
      ∃ k, k < tree.length ∧ (tree.getD k default).fan ≠ 0 ∧ pk.getD k 0 ≠ 0 ∧ pk.getD k 0 ≠ (tree.getD k default).fan) := by
  have hrest : (pk.drop tree.length).any (· != 0) = true ↔ ∃ k, tree.length ≤ k ∧ pk.getD k 0 ≠ 0 := by
    simp only [List.any_eq_true, bne_iff_ne]
    constructor
    · rintro ⟨x, hx, hne⟩
      obtain ⟨j, hj, rfl⟩ := List.mem_iff_getElem.1 hx
      rw [List.getElem_drop] at hne
      exact ⟨tree.length + j, by omega, by rwa [List.getD_eq_getElem]⟩
    · rintro ⟨k, hk, hne⟩
      have hlt : k < pk.length := by
        by_contra h
        exact hne (List.getD_eq_default _ _ (by omega))
      refine ⟨pk.getD k 0, ?_, hne⟩
      rw [List.getD_eq_getElem _ _ hlt]
      exact List.mem_drop_iff_getElem.2 ⟨k - tree.length, by omega, by congr 1; omega⟩
  have hlevels : tree.zipIdx.any (fun (l, k) => l.fan != 0 && pk.getD k 0 != 0 && pk.getD k 0 != l.fan) = true ↔
      ∃ k, k < tree.length ∧ (tree.getD k default).fan ≠ 0 ∧ pk.getD k 0 ≠ 0 ∧ pk.getD k 0 ≠ (tree.getD k default).fan := by
    rw [zipIdx_eq_map_range tree default, List.any_map, List.any_eq_true]
    simp only [List.mem_range, Function.comp_apply, Bool.and_eq_true, bne_iff_ne, and_assoc]
  rw [hrest, hlevels, Nat.lt_one_iff]

theorem disorder_iff (tree : List TreeLevel) (top : Nat) : (!orderOk tree top) = true ↔
    ∃ k, k < tree.length ∧ (tree.getD k default).phys ≠ 8 ∧ (top < (tree.getD k default).phys ∨
      ∃ j, j < k ∧ (tree.getD j default).phys ≠ 8 ∧ (tree.getD j default).phys < (tree.getD k default).phys) := by
  rw [Bool.not_eq_true', ← Bool.not_eq_true, orderOk_iff]
  push Not
  refine exists_congr fun k => and_congr_right fun _ => and_congr_right fun _ => ?_
  rw [← Nat.not_le, ← imp_iff_not_or]

/-- What binding does with its levels once they are resolved, and once the implicit ones are there. -/
def bindRuns (s : State) (i : CodeInfo) (top : Nat) (r : Region) (together : Bool) (b : List BoundLevel) :
    Except Nat (List BoundLevel) :=
  if !s.runsOk b.length b top then .error lfFanout
  else
    match s.budgetChecks i top r together b with
    | some f => .error f
    | none => .ok b

def bindLevels (s : State) (i : CodeInfo) (top : Nat) (r : Region) (together : Bool) (ls : List (Nat × Option Nat)) :
    Except Nat (List BoundLevel) :=
  if fanOf ls 0 ≠ 32 ∨ ls.all (·.2 != some 0) then .error lfLanes
  else if ls.any fun l => l.1 == 0 || l.2.isNone then .error lfFanout
  else bindRuns s i top r together (insertLevel 1 (insertLevel 2 (ls.map fun l => ⟨l.1, l.2.getD 0, true⟩)))

theorem bind_eq_bindLevels {s : State} {i : CodeInfo} {pk : List Nat} {top : Nat} {r : Region} {together : Bool}
    (hm : ¬ (i.tree.length = 0 ∨ 16 < i.tree.length ∨ (pk.drop i.tree.length).any (· != 0) = true ∨
      i.tree.zipIdx.any (fun (l, k) => l.fan != 0 && pk.getD k 0 != 0 && pk.getD k 0 != l.fan) = true))
    (ho : orderOk i.tree top = true) : s.bind i pk top r together = bindLevels s i top r together
      (s.resolve top (i.tree.zipIdx.map fun (l, k) => (if l.fan = 0 then pk.getD k 0 else l.fan, l.phys)).reverse [] 0) := by
  unfold State.bind
  rw [if_neg hm, if_neg (by simp [ho])]
  rfl

/-- The fanouts of the levels that have a code. -/
theorem fanOf_range (d c : Nat) (f : Nat → Nat) (p : Nat → Option Nat) :
    fanOf ((List.range d).map fun j => (f j, p j)) c = (((List.range d).filter fun k => p k == some c).map f).prod := by
  rw [fanOf_eq, List.filter_map, List.map_map]
  rfl

/-- Without a level at LANE the fanouts there make 1. -/
theorem some_lane_of_fanOf {ls : List (Nat × Option Nat)} (h : fanOf ls 0 = 32) : ¬ ls.all (·.2 != some 0) = true := by
  intro hall
  have hnone : (ls.filter fun l => l.2 == some 0) = [] := by
    rw [List.filter_eq_nil_iff]
    exact fun l hl => by simpa using List.all_eq_true.1 hall l hl
  rw [fanOf_eq, hnone] at h
  exact absurd h (by decide)

/-- What binding answers, check by check (R15 to R19). -/
theorem bind_gives (s : State) (i : CodeInfo) (pk : List Nat) (top : Nat) (r : Region) (together : Bool) (htop : top ≤ 7)
    (hphys : ∀ l ∈ i.tree, l.phys ≤ 8) : BindGives s i pk top r together (s.bind i pk top r together) := by
  refine ⟨fun hm => ?_, fun hm hd => ?_, fun hm hd => ?_⟩
  · unfold State.bind
    rw [if_pos ((mismatch_iff i.tree pk).2 hm)]
    rfl
  · unfold State.bind
    rw [if_neg fun h => hm ((mismatch_iff i.tree pk).1 h), if_pos ((disorder_iff i.tree top).2 hd)]
    rfl
  · have hph : ∀ j, j < i.tree.length → (i.tree.getD j default).phys ≤ 8 := fun j hj => by
      rw [List.getD_eq_getElem _ _ hj]
      exact hphys _ (List.getElem_mem hj)
    have hbind := bind_eq_bindLevels (s := s) (r := r) (together := together) (fun h => hm ((mismatch_iff i.tree pk).1 h))
      (by simpa using fun h => hd ((disorder_iff i.tree top).1 h))
    obtain ⟨p, hres, hls⟩ := resolve_resolved s htop hph
      (f := fun k => if (i.tree.getD k default).fan = 0 then pk.getD k 0 else (i.tree.getD k default).fan)
    rw [tree_levels, hls] at hbind
    have hunfit : (((List.range i.tree.length).map fun k => (if (i.tree.getD k default).fan = 0 then pk.getD k 0
        else (i.tree.getD k default).fan, p k)).any fun l => l.1 == 0 || l.2.isNone) = true ↔
        ∃ k, k < i.tree.length ∧ (((i.tree.getD k default).fan = 0 ∧ pk.getD k 0 = 0) ∨ p k = none) := by
      simp only [List.any_map, List.any_eq_true, List.mem_range, Function.comp_apply, Bool.or_eq_true, beq_iff_eq, Option.isNone_iff_eq_none]
      refine exists_congr fun k => and_congr_right fun _ => or_congr_left ?_
      split_ifs with h0
      · exact (and_iff_right h0).symm
      · simp only [h0, false_and]
    refine ⟨p, hres, fun hl => ?_, fun hl hu => ?_, fun hl hu => ?_⟩
    · rw [hbind, bindLevels, if_pos (.inl (by rw [fanOf_range]; exact hl))]
      rfl
    · have hlanes := (fanOf_range i.tree.length 0 _ p).trans hl
      rw [hbind, bindLevels, if_neg (not_or_intro (not_not_intro hlanes) (some_lane_of_fanOf hlanes)), if_pos (hunfit.2 hu)]
      rfl
    · have hlanes := (fanOf_range i.tree.length 0 _ p).trans hl
      rw [hbind, bindLevels, if_neg (not_or_intro (not_not_intro hlanes) (some_lane_of_fanOf hlanes)), if_neg fun h => hu (hunfit.1 h),
        List.map_map]
      refine ⟨_, _, insertLevel_inserted 2 _, insertLevel_inserted 1 _, fun hr => ?_, fun hr => ⟨_, budgetChecks_give .., ?_⟩⟩
      · have hruns := (runsOk_iff s _ _ top (Nat.le_refl _)).not.2 hr
        rw [Bool.not_eq_true] at hruns
        rw [bindRuns, if_pos (by rw [Bool.not_eq_true']; exact hruns)]
        rfl
      · have hruns := (runsOk_iff s _ _ top (Nat.le_refl _)).2 hr
        rw [bindRuns, if_neg (by rw [Bool.not_eq_true', Bool.not_eq_false]; exact hruns)]
        rfl

end Sys2Proof.Machine
end

section
/-! SUPPORT. Acceptance of a launch (R16, R260, R264): the checks in their order, and the task that comes of them. -/

namespace Sys2Proof.Machine

/-! ### Dependences (R264) -/

theorem conflicts_iff (x y : Range) : x.conflicts y = true ↔
    ¬ Apart (x.start.toNat, x.length) (y.start.toNat, y.length) ∧ (2 ≤ x.mode ∨ 2 ≤ y.mode) := by
  rw [← meets_iff]
  simp only [Range.conflicts, meets, Bool.and_eq_true, Bool.or_eq_true, decide_eq_true_eq]

theorem inRegion_iff (t : Task) (space : Nat) (va : DWord) :
    t.inRegion space va = true ↔ t.space = space ∧ t.chain.head?.map (·.va) = some va := by
  simp only [Task.inRegion, Bool.and_eq_true, beq_iff_eq]

theorem mem_dependsOn (s : State) (space : Nat) (va : DWord) (ranges : List Range) (up : List Nat) (n : Nat) :
    n ∈ s.dependsOn space va ranges up ↔ n < s.tasks.length ∧ (s.task n).phase ≠ .retired ∧ (s.task n).space = space ∧
      (s.task n).chain.head?.map (·.va) = some va ∧ n ∉ up ∧ ∃ x ∈ ranges, ∃ y ∈ (s.task n).ranges,
        ¬ Apart (x.start.toNat, x.length) (y.start.toNat, y.length) ∧ (2 ≤ x.mode ∨ 2 ≤ y.mode) := by
  rw [State.dependsOn, zipIdx_eq_map_range s.tasks default, List.filter_map, List.map_map]
  simp only [List.mem_map, List.mem_filter, List.mem_range, Function.comp_apply, Bool.and_eq_true, bne_iff_ne,
    inRegion_iff, Bool.not_eq_true', List.contains_eq_mem, decide_eq_false_iff_not, List.any_eq_true, conflicts_iff, and_assoc]
  constructor
  · rintro ⟨m, hm, hphase, hspace, hva, hup, hranges, rfl⟩
    exact ⟨hm, hphase, hspace, hva, hup, hranges⟩
  · rintro ⟨hm, hphase, hspace, hva, hup, hranges⟩
    exact ⟨n, hm, hphase, hspace, hva, hup, hranges, rfl⟩

/-! ### The checks (R16) -/

/-- Is the region of the launching task in the chain (R36)? -/
def launchesWithin (s : State) (who : LaunchBy) (chain : List Region) : Bool :=
  match who.parent with
  | none => true
  | some t => match (s.task t).chain.head? with
    | some own => chain.any (·.va == own.va)
    | none => false

theorem launchesWithin_iff (s : State) (who : LaunchBy) (chain : List Region) : launchesWithin s who chain = true ↔
    (who.parent = none ∨ ∃ t own rest, who.parent = some t ∧ (s.task t).chain = own :: rest ∧ ∃ x ∈ chain, x.va = own.va) := by
  unfold launchesWithin
  cases who.parent with
  | none => simp
  | some t => cases hc : (s.task t).chain <;> simp [hc]

/-- Do the format of the packet, its region or its entry refuse it? -/
def packetRefused (s : State) (who : LaunchBy) (p : Packet) (chain : List Region) (i : CodeInfo) : Bool :=
  !p.wellFormed || (!who.parent.isNone && p.system) || !launchesWithin s who chain || p.entry % 4 != 0 ||
    decide (((i.sectionAt 0).getD (0, 0)).2 ≤ p.entry)

theorem packetRefused_iff {s : State} {who : LaunchBy} {p : Packet} {chain : List Region} {i : CodeInfo}
    (hd : (i.sections.map (·.1)).Nodup) : packetRefused s who p chain i = false ↔
      p.wellFormed = true ∧ (p.system = true → who.parent = none) ∧
        (who.parent = none ∨ ∃ t own rest, who.parent = some t ∧ (s.task t).chain = own :: rest ∧ ∃ x ∈ chain, x.va = own.va) ∧
        p.entry % 4 = 0 ∧ ∃ x ∈ i.sections, x.1 = 0 ∧ p.entry < x.2.2 := by
  have hos : (!who.parent.isNone && p.system) = false ↔ (p.system = true → who.parent = none) := by
    cases who.parent <;> cases p.system <;> simp
  simp only [packetRefused, Bool.or_eq_false_iff, Bool.not_eq_false', hos, launchesWithin_iff, bne_eq_false_iff_eq,
    decide_eq_false_iff_not, Nat.not_le, text_iff hd, and_assoc]

/-- The task that a packet which binds gives. -/
def acceptedTask (s : State) (who : LaunchBy) (p : Packet) (chain : List Region) (i : CodeInfo) (b : List BoundLevel) : Task :=
  { launcher := who.launcher, id := who.id, space := who.space, code := p.code, info := i, entry := p.entry
    coresident := p.coresident || (chain.headD default).deterministic, abandon := p.abandon, system := p.system
    domain := if p.system then 7 else 5, pk := p.pk, binding := b, args := p.args, ranges := p.ranges, chain := chain
    issuingDie := who.die, deadlines := [(who.die, p.deadline)], order := s.seq
    deps := s.dependsOn who.space p.region p.ranges (s.ancestors s.tasks.length who.parent)
    phase := .queued, overdue := false, status := 0, cause := 0, began := none, extents := [], lodestone := none, nextChild := 1 }

/-- The binding of a packet. -/
def packetBind (s : State) (p : Packet) (chain : List Region) (i : CodeInfo) : Except Nat (List BoundLevel) :=
  s.bind i p.pk (if p.system then 7 else 5) (chain.headD default) (p.coresident || (chain.headD default).deterministic)

/-- What acceptance does with a chain and a code object that it has read. -/
def checkRead (s : State) (who : LaunchBy) (p : Packet) (chain : List Region) (o : CodeObject) : Except Nat Task :=
  if packetRefused s who p chain o.info then .error lfRegion
  else if (chain.headD default).reqsign && !s.signed who.die who.space p.code o then .error lfSignature
  else
    match packetBind s p chain o.info with
    | .error f => .error f
    | .ok b => .ok (acceptedTask s who p chain o.info b)

theorem check_eq {s : State} {who : LaunchBy} {p : Packet} {raw : List (Region × Word)} {o : CodeObject}
    (hraw : s.readChain who.die who.space 16 p.region = some raw) (ho : s.readCode who.die who.space p.code = some o) :
    s.check who p = checkRead s who p (effective raw) o := by
  unfold State.check
  rw [hraw, ho]
  rfl

/-- Without a chain or a code object the launch faults with REGION. -/
theorem check_unread {s : State} {who : LaunchBy} {p : Packet}
    (h : s.readChain who.die who.space 16 p.region = none ∨ s.readCode who.die who.space p.code = none) :
    s.check who p = .error 0x49 := by
  unfold State.check
  rcases h with h | h
  · rw [h]
    rfl
  · rw [h]
    cases s.readChain who.die who.space 16 p.region <;> rfl

theorem checkRead_refused {s : State} {who : LaunchBy} {p : Packet} {chain : List Region} {o : CodeObject}
    (h : packetRefused s who p chain o.info = true) : checkRead s who p chain o = .error 0x49 := if_pos h

theorem checkRead_unsigned {s : State} {who : LaunchBy} {p : Packet} {chain : List Region} {o : CodeObject}
    (h : packetRefused s who p chain o.info = false)
    (hs : ¬ ((chain.headD default).reqsign = true → s.signed who.die who.space p.code o = true)) :
    checkRead s who p chain o = .error 0x48 := by
  rw [checkRead, if_neg (by simp [h]), if_pos (by simpa using hs)]
  rfl

theorem checkRead_signed {s : State} {who : LaunchBy} {p : Packet} {chain : List Region} {o : CodeObject}
    (h : packetRefused s who p chain o.info = false)
    (hs : (chain.headD default).reqsign = true → s.signed who.die who.space p.code o = true) :
    (∀ f, packetBind s p chain o.info = .error f → checkRead s who p chain o = .error f) ∧
      ∀ b, packetBind s p chain o.info = .ok b → checkRead s who p chain o = .ok (acceptedTask s who p chain o.info b) := by
  have hsigned : ((chain.headD default).reqsign && !s.signed who.die who.space p.code o) = false := by simpa using hs
  rw [checkRead, if_neg (by simp [h]), if_neg (by rw [hsigned]; exact Bool.false_ne_true)]
  exact ⟨fun f hf => by rw [hf], fun b hb => by rw [hb]⟩

theorem checkLaw (s : State) (who : LaunchBy) (p : Packet) : CheckLaw s who p := by
  refine ⟨fun h => check_unread (h.imp (fun hno => ?_) fun hno => ?_), fun raw chain i hraw heff hcode => ?_⟩
  · exact Option.eq_none_iff_forall_ne_some.2 fun raw hr => hno raw ((readChain_iff ..).1 hr)
  · exact Option.eq_none_iff_forall_ne_some.2 fun o ho => hno o.info ((readCode_iff ..).1 ⟨o, ho, rfl⟩)
  · obtain ⟨o, ho, rfl⟩ := (readCode_iff ..).2 hcode
    obtain rfl := (effective_iff ..).1 heff
    have hcheck := check_eq ((readChain_iff ..).2 hraw) ho
    have hok := packetRefused_iff (s := s) (who := who) (p := p) (chain := effective raw) (codeOk_sections_nodup hcode)
    have htop : (if p.system then 7 else 5) ≤ 7 := by split <;> decide
    rw [hcheck]
    refine ⟨fun hno => checkRead_refused ?_, fun hyes => ⟨o, ho, rfl, checkRead_unsigned (hok.2 hyes), fun hs => ?_⟩⟩
    · rw [← Bool.not_eq_false]
      exact fun h => hno (hok.1 h)
    · obtain ⟨herror, hgood⟩ := checkRead_signed (hok.2 hyes) hs
      refine ⟨packetBind s p (effective raw) o.info, bind_gives s o.info p.pk _ _ _ htop (codeOk_tree hcode), herror, fun b hb => ?_⟩
      exact ⟨_, hgood b hb, rfl, fun n => mem_dependsOn ..⟩

end Sys2Proof.Machine
end

section
/-! SUPPORT. LAUNCH, TWAIT and TWAIT.poll (R260, R262, R263): the parameters they read, the words they write, and what a launch answers. -/

namespace Sys2Proof.Machine

/-! ### Parameters (R47, R359) -/

theorem uread_of_paramIs {c : Ctx} {r : Nat} {w : Word} (h : paramIs c r w) : c.ag.uread r = some (w, false) := by
  obtain ⟨hshape, hpoison⟩ := h
  unfold uniformOf at hshape
  unfold Agent.uread
  rw [hpoison]
  cases hr : (c.ag.reg r).shape <;> rw [hr] at hshape
  case uniform x => cases hshape; rfl
  case affine b stride => cases hshape; rfl
  case general ws => cases hshape

/-- A parameter register gives its word. -/
theorem params_of_paramIs {c : Ctx} {r : Nat} {w : Word} (h : paramIs c r w) (k : List Word → Done) :
    c.params [r] k = k [w] := by
  simp [Ctx.params, Ctx.sources, Agent.ureads, uread_of_paramIs h]

/-- A parameter pair gives its two words, low one first. -/
theorem params_of_paramPair {c : Ctx} {r : Reg} {v : DWord} (h : paramPair c r v) (k : List Word → Done) :
    c.params (regRun (rn r) 2) k = k (lowHigh v) := by
  obtain ⟨hlow, hhigh⟩ := h
  have hrun : regRun (rn r) 2 = [r.toNat, r.toNat + 1] := rfl
  simp [Ctx.params, Ctx.sources, Agent.ureads, hrun, uread_of_paramIs hlow, uread_of_paramIs hhigh, lowHigh]

theorem pairOf_lowHigh (v : DWord) : pairOf (lowHigh v) 0 = v := by
  refine BitVec.eq_of_toNat_eq ?_
  have hv : v.toNat < 2 ^ 64 := v.isLt
  show (BitVec.ofNat 32 (v.toNat / 2 ^ 32) ++ BitVec.ofNat 32 (v.toNat % 2 ^ 32)).toNat = v.toNat
  rw [append_toNat, BitVec.toNat_ofNat, BitVec.toNat_ofNat]
  omega

/-! ### Releases (R223) -/

theorem mayRelease_iff_said (s : State) (a : Nat) (p : Point) : s.mayRelease a p = true ↔ MayRelease s a p := by
  rw [mayRelease_iff, ← Bool.not_eq_true, owesStores_iff, inTurn_iff]
  simp only [MayRelease, beyondCore, not_exists, not_and]

/-- An instruction that releases first, and may, goes on in the state after the release. -/
theorem releasing_of_may {s : State} {c : Ctx} {p : Point} (h : issuer s = some c) (hmay : MayRelease s c.a p) (k : State → Done) :
    c.releasing p k = k (s.release c.a p) := by
  obtain ⟨-, hs, -⟩ := issuer_spec h
  rw [Ctx.releasing, hs, if_pos ((mayRelease_iff_said ..).2 hmay)]

/-- One that may not waits for its team's turn. -/
theorem releasing_of_mayNot {s : State} {c : Ctx} {p : Point} (h : issuer s = some c) (hmay : ¬ MayRelease s c.a p)
    (k : State → Done) : c.releasing p k = .hold s .polling := by
  obtain ⟨-, hs, -⟩ := issuer_spec h
  rw [Ctx.releasing, hs, if_neg (by rwa [mayRelease_iff_said])]

/-! ### Words written (R131) -/

/-- Writing words changes the vector registers alone. -/
theorem writeWords_frame (g : Agent) (d : Nat) (p : Bool) (ws : List Word) :
    g.writeWords d p ws = { g with regs := (g.writeWords d p ws).regs } := by
  induction ws generalizing g d with
  | nil => rfl
  | cons w ws ih => rw [Agent.writeWords, ih]; rfl

theorem writeWords_reg_outside (g : Agent) (d : Nat) (p : Bool) (ws : List Word) (hd : d + ws.length ≤ 128) (r : Nat)
    (hr : r < d ∨ d + ws.length ≤ r) : (g.writeWords d p ws).reg r = g.reg r := by
  induction ws generalizing g d with
  | nil => rfl
  | cons w ws ih =>
    rw [List.length_cons] at hd hr
    rw [Agent.writeWords, ih _ _ (by omega) (by omega), Agent.reg_setReg _ _ _ _ (by omega), if_neg (by omega)]

theorem writeWords_reg_inside (g : Agent) (d : Nat) (p : Bool) (ws : List Word) (hd : d + ws.length ≤ 128) (j : Nat)
    (hj : j < ws.length) : (g.writeWords d p ws).reg (d + j) = VReg.ofWord (ws.getD j 0#32) p := by
  induction ws generalizing g d j with
  | nil => simp at hj
  | cons w ws ih =>
    rw [List.length_cons] at hd hj
    rw [Agent.writeWords]
    cases j with
    | zero =>
      rw [writeWords_reg_outside _ _ _ _ (by omega) _ (by omega), Agent.reg_setReg _ _ _ _ (by omega)]
      exact if_pos rfl
    | succ j =>
      rw [show d + (j + 1) = d + 1 + j by omega, ih _ _ (by omega) _ (by omega)]
      rfl

/-- An instruction that retires with words written has written them and nothing else. -/
theorem wordWrite_retireWords {s : State} {c : Ctx} (h : issuer s = some c) (len d : Nat) (p : Bool) (ws : List Word)
    (hd : d + ws.length ≤ 128) : WordWrite c (finish c len (c.retireWords d p ws)) len d ws p := by
  obtain ⟨-, hs, hag, -, ha, -⟩ := issuer_spec h
  have hframe := writeWords_frame c.ag d p ws
  have hdone : finish c len (c.retireWords d p ws) =
      (s.countIssue c.a).modAgent c.a fun g => ((g.writeWords d p ws).modEntry c.e (·.advance len)).settle := by
    rw [← complete_modAgent h len (·.writeWords d p ws) (by refine ⟨?_, ?_, ?_⟩ <;> rw [hframe]), ← hs]
    rfl
  have hafter : (finish c len (c.retireWords d p ws)).agent c.a =
      ((c.ag.writeWords d p ws).modEntry c.e (·.advance len)).settle := by
    rw [hdone, State.modAgent_same _ _ _ (by rwa [countIssue_agents]), countIssue_agent, hag]
  unfold WordWrite
  rw [hafter, hdone, hs]
  refine ⟨beside_modAgent s c.a _, sameMemory_modAgent s c.a _, onlyRegisters_intro c len _ (by rw [hframe]), ?_, ?_, fun r hr => ?_,
    fun j hj => ?_⟩
  · show (c.ag.writeWords d p ws).preds = _
    rw [hframe]
  · show (c.ag.writeWords d p ws).sregs = _
    rw [hframe]
  · exact writeWords_reg_outside _ _ _ _ hd r hr
  · exact writeWords_reg_inside _ _ _ _ hd j hj

/-! ### TWAIT (R262, R263) -/

theorem statusWord_eq (t : Task) : t.statusWord = retiredWord t := by
  unfold Task.statusWord retiredWord
  congr 1
  split <;> omega

/-- What TWAIT does once it has read its id. -/
theorem exec_twait {s : State} {c : Ctx} {vd va : Reg} {id : Word} (h : Runs s c) (hid : paramIs c va.toNat id) :
    exec (.twait vd va) s = .next (finish c 1 (match s.childOf c.team.task id.toNat with
      | none => c.retireWords (rn vd) false [0xFFFFFFFF#32]
      | some t => if t.phase = .retired then c.retireWords (rn vd) false [t.statusWord] else .hold s .polling)) := by
  obtain ⟨-, hs, -⟩ := issuer_spec h
  rw [show exec (.twait vd va) s = execTwait vd va s from rfl, execTwait, onAny_eq h, rn, params_of_paramIs hid, hs]
  rfl

theorem exec_twaitPoll {s : State} {c : Ctx} {vd va : Reg} {id : Word} (h : Runs s c) (hid : paramIs c va.toNat id) :
    exec (.twaitPoll vd va) s = .next (finish c 1 (match s.childOf c.team.task id.toNat with
      | none => c.retireWords (rn vd) false [0xFFFFFFFF#32]
      | some t => c.retireWords (rn vd) false [if t.phase = .retired then t.statusWord else 0xFFFFFFFE#32])) := by
  obtain ⟨-, hs, -⟩ := issuer_spec h
  rw [show exec (.twaitPoll vd va) s = execTwaitPoll vd va s from rfl, execTwaitPoll, onAny_eq h, rn, params_of_paramIs hid, hs]
  rfl

/-! ### LAUNCH (R260) -/

/-- The issuing task's count of ids after a launch. -/
def countedLaunch (c : Ctx) (s : State) : State :=
  s.modTask c.team.task fun t => { t with nextChild := if c.task.nextChild = 0 then t.nextChild else t.nextChild + 1 }

/-- What a launch from an agent says of itself. -/
def launchOf (c : Ctx) : LaunchBy :=
  { launcher := .task c.team.task, id := c.task.nextChild, space := c.task.space, die := c.die, parent := some c.team.task }

/-- The instruction has answered: the words of the id and of the code are written in state v. -/
def launchAnswer (c : Ctx) (vd : Reg) (v : State) (id code : Nat) : Out :=
  .next (retired c 1 (withIssuer c v fun g => g.writeWords vd.toNat false [BitVec.ofNat 32 id, BitVec.ofNat 32 code]))

/-- What LAUNCH does once acceptance has answered. -/
def launchDone (c : Ctx) (vd : Reg) (r : State × Nat × Nat) : Out :=
  launchAnswer c vd (if r.2.1 = 0 then r.1 else r.1.modTask c.team.task fun t => { t with nextChild := t.nextChild + 1 }) r.2.1 r.2.2

/-- A launch that is ready to release does so, or waits. -/
theorem exec_launch {s : State} {c : Ctx} {vd va : Reg} {addr : DWord} (h : Runs s c) (hpair : paramPair c va addr)
    (halign : addr.toNat % 64 = 0) (hfault : s.packetFault c.die c.task.space addr = none) :
    (¬ MayRelease s c.a .home → exec (.launch vd va) s = .next (awaiting c s)) ∧
      ∀ b, MayRelease s c.a .home → (s.release c.a .home).readClean c.die c.task.space addr 192 = some b →
        exec (.launch vd va) s = launchDone c vd ((s.release c.a .home).accept (launchOf c) b []) := by
  obtain ⟨-, hs, -⟩ := issuer_spec h
  have hstart : exec (.launch vd va) s = execLaunch vd va s := rfl
  rw [hstart, execLaunch, onAny_eq h, params_of_paramPair hpair]
  simp only [pairOf_lowHigh, halign, ne_eq, not_true, if_false, hs, hfault]
  refine ⟨fun hmay => ?_, fun b hmay hread => ?_⟩
  · rw [releasing_of_mayNot h hmay]
    rfl
  · rw [releasing_of_may h hmay, hread]
    rfl

theorem queued_eq (s : State) (space : Nat) (va : DWord) : s.queued space va =
    (s.tasks.filter fun x => x.phase == .queued && x.space == space && x.chain.head?.map (·.va) == some va).length := by
  simp only [State.queued, Task.inRegion, Bool.and_assoc]

theorem accept_fault {s : State} {who : LaunchBy} {b : List Byte} {share : List Nat} {f : Nat}
    (h : s.check who (Packet.ofBytes b) = .error f) : s.accept who b share = (s, 0, f) := by
  rw [State.accept, h]

theorem accept_full {s : State} {who : LaunchBy} {b : List Byte} {share : List Nat} {t : Task}
    (h : s.check who (Packet.ofBytes b) = .ok t)
    (hfull : (t.chain.headD default).queue ≤ s.queued who.space (Packet.ofBytes b).region) : s.accept who b share = (s, 0, 1) := by
  simp only [State.accept, h]
  rw [if_pos hfull]

theorem accept_room {s : State} {who : LaunchBy} {b : List Byte} {share : List Nat} {t : Task}
    (h : s.check who (Packet.ofBytes b) = .ok t)
    (hroom : ¬ (t.chain.headD default).queue ≤ s.queued who.space (Packet.ofBytes b).region) :
    s.accept who b share = (s.enqueue t share, who.id, 0) := by
  simp only [State.accept, h]
  rw [if_neg hroom]

/-- A launch that is not accepted answers its code. -/
theorem launchDone_refused (c : Ctx) (vd : Reg) (s : State) (code : Nat) :
    launchDone c vd (s, 0, code) = launchAnswer c vd s 0 code := rfl

/-- One that is accepted answers its id and counts it. -/
theorem launchDone_accepted (c : Ctx) (vd : Reg) (s : State) :
    launchDone c vd (s, c.task.nextChild, 0) = launchAnswer c vd (countedLaunch c s) c.task.nextChild 0 := by
  have hcount : (if c.task.nextChild = 0 then s else s.modTask c.team.task fun t => { t with nextChild := t.nextChild + 1 }) =
      countedLaunch c s := by
    unfold countedLaunch
    by_cases hzero : c.task.nextChild = 0
    · rw [if_pos hzero]
      simp only [if_pos hzero, State.modTask]
      exact (congrArg (fun ts => { s with tasks := ts }) (List.modify_id ..)).symm
    · simp only [if_neg hzero]
  rw [launchDone, hcount]

end Sys2Proof.Machine

namespace Sys2Proof
open Sys2Proof.Machine

/-- The answers of LAUNCH (R260). -/
theorem launch_answers (s : State) (c : Ctx) (vd va : Reg) (addr : DWord) (b : List Byte) (h : Runs s c) (hpair : paramPair c va addr)
    (halign : addr.toNat % 64 = 0) (hfault : s.packetFault c.die c.task.space addr = none) (hmay : MayRelease s c.a .home)
    (hread : (s.release c.a .home).readClean c.die c.task.space addr 192 = some b) :
    (∀ f, (s.release c.a .home).check (launchOf c) (Packet.ofBytes b) = .error f →
      exec (.launch vd va) s = launchAnswer c vd (s.release c.a .home) 0 f) ∧
    ∀ t, (s.release c.a .home).check (launchOf c) (Packet.ofBytes b) = .ok t →
      ((t.chain.headD default).queue ≤ (s.release c.a .home).queued c.task.space (Packet.ofBytes b).region →
        exec (.launch vd va) s = launchAnswer c vd (s.release c.a .home) 0 1) ∧
      (¬ (t.chain.headD default).queue ≤ (s.release c.a .home).queued c.task.space (Packet.ofBytes b).region →
        exec (.launch vd va) s =
          launchAnswer c vd (countedLaunch c ((s.release c.a .home).enqueue t [])) c.task.nextChild 0) := by
  have hexec := (exec_launch (vd := vd) h hpair halign hfault).2 b hmay hread
  refine ⟨fun f hf => ?_, fun t ht => ⟨fun hfull => ?_, fun hroom => ?_⟩⟩
  · rw [hexec, accept_fault hf, launchDone_refused]
  · rw [hexec, accept_full ht hfull, launchDone_refused]
  · rw [hexec, accept_room ht hroom]
    exact launchDone_accepted ..

/-- The answers of TWAIT and TWAIT.poll (R262, R263). -/
theorem twait_answers (s : State) (c : Ctx) (vd va : Reg) (id : Word) (h : Runs s c) (hid : paramIs c va.toNat id) :
    let ends (i : Instr) (w : Word) : Prop := ∃ t, exec i s = .next t ∧ WordWrite c t 1 vd.toNat [w] false
    (noChild s c id → ends (.twait vd va) 0xFFFFFFFF#32 ∧ ends (.twaitPoll vd va) 0xFFFFFFFF#32) ∧
    (∀ t, isChild s c id t → t.phase = .retired →
      ends (.twait vd va) (retiredWord t) ∧ ends (.twaitPoll vd va) (retiredWord t)) ∧
    (∀ t, isChild s c id t → t.phase ≠ .retired →
      exec (.twait vd va) s = .next (awaiting c s) ∧ ends (.twaitPoll vd va) 0xFFFFFFFE#32) := by
  intro ends
  have hwait := exec_twait (vd := vd) h hid
  have hpoll := exec_twaitPoll (vd := vd) h hid
  have hwrites (w : Word) : WordWrite c (finish c 1 (c.retireWords (rn vd) false [w])) 1 vd.toNat [w] false :=
    wordWrite_retireWords h 1 vd.toNat false [w] vd.isLt
  refine ⟨fun hnone => ?_, fun t hchild hphase => ?_, fun t hchild hphase => ?_⟩
  · rw [show s.childOf c.team.task id.toNat = none from hnone] at hwait hpoll
    exact ⟨⟨_, hwait, hwrites _⟩, _, hpoll, hwrites _⟩
  · rw [show s.childOf c.team.task id.toNat = some t from hchild] at hwait hpoll
    simp only [if_pos hphase, statusWord_eq] at hwait hpoll
    exact ⟨⟨_, hwait, hwrites _⟩, _, hpoll, hwrites _⟩
  · rw [show s.childOf c.team.task id.toNat = some t from hchild] at hwait hpoll
    simp only [if_neg hphase] at hwait hpoll
    exact ⟨hwait, _, hpoll, hwrites _⟩

/-- Settles O34: LAUNCH runs acceptance in the state after its release, and acceptance makes the checks of R16 in their order, each of
which is what the statement says of it; TWAIT looks its id up among the task's own launches. -/
theorem launchAnswers : Obligations.LaunchAnswers := by
  unfold Obligations.LaunchAnswers
  refine ⟨fun s c vd va addr b h hpair halign hfault => ⟨(exec_launch h hpair halign hfault).1, fun hmay hread => ?_⟩,
    fun s who b _ => ⟨packetIs_ofBytes b, capLaw s, checkLaw s who _⟩, twait_answers⟩
  obtain ⟨hrefused, haccepted⟩ := launch_answers s c vd va addr b h hpair halign hfault hmay hread
  refine ⟨hrefused, fun t ht => ?_⟩
  obtain ⟨hfull, hroom⟩ := haccepted t ht
  rw [queued_eq] at hfull hroom
  intro q limit
  split
  · exact hfull ‹_›
  · exact hroom ‹_›

end Sys2Proof
end

section
/-! SUPPORT. Words as the fields that stand in them (R67, R69, R71, R72): a word is put together of fields exactly when each field
stands at its place in it. -/

namespace Sys2Proof

/-! ### Fields of a bit vector -/

/-- A bit vector is one of two put together exactly when it holds each at its place. -/
theorem eq_append_iff {m n : Nat} {w : BitVec (m + n)} {x : BitVec m} {y : BitVec n} :
    w = x ++ y ↔ w.extractLsb' n m = x ∧ w.extractLsb' 0 n = y := by
  constructor
  · rintro rfl
    exact ⟨BitVec.extractLsb'_append_eq_left, BitVec.extractLsb'_append_eq_right⟩
  · rintro ⟨rfl, rfl⟩
    exact BitVec.extractLsb'_append_extractLsb'.symm

theorem extractLsb'_extractLsb' {n s l s' l' : Nat} {w : BitVec n} (h : s' + l' ≤ l) :
    (w.extractLsb' s l).extractLsb' s' l' = w.extractLsb' (s + s') l' := by
  refine BitVec.eq_of_getLsbD_eq fun i hi => ?_
  simp only [BitVec.getLsbD_extractLsb', hi, decide_true, Bool.true_and, Nat.add_assoc,
    show s' + i < l from Nat.lt_of_lt_of_le (Nat.add_lt_add_left hi s') h]

/-- A part of a field that is known is known. -/
theorem subfield {n s l : Nat} {w : BitVec n} {x : BitVec l} (h : w.extractLsb' s l = x) (s' l' : Nat) (hl : s' + l' ≤ l) :
    w.extractLsb' (s + s') l' = x.extractLsb' s' l' := by
  rw [← h, extractLsb'_extractLsb' hl]

/-! ### The layouts of a word

Each is named by the widths of its fields below the opcode: LR, LW and UR are 7, 7, 7, 3; LC is 4, 3, 7, 7, 3; LQ is 7, 4, 3, 7, 3;
LP is 3, 3, 3, 5, 7, 3; LPI is 3, 16, 2, 3; LM is 7, 7, 6, 1, 3; LB is 21, 3; LI and UI are 7, 7, 10; LIC is 4, 3, 7, 10; UJ is
3, 21; UL is 4, 7, 7, 6; UE is 7, 7, 6, 4; UT is 5, 5, 5, 5, 4. The others join unused fields of one of these. -/

variable {op : BitVec 8}

theorem word_7_7_7_3_iff {w : BitVec (8 + 7 + 7 + 7 + 3)} {a b c : BitVec 7} {d : BitVec 3} :
    w = op ++ a ++ b ++ c ++ d ↔ w.extractLsb' 24 8 = op ∧ w.extractLsb' 17 7 = a ∧ w.extractLsb' 10 7 = b ∧
    w.extractLsb' 3 7 = c ∧ w.extractLsb' 0 3 = d := by
  simp only [eq_append_iff]
  simp only [extractLsb'_extractLsb', Nat.reduceAdd, Nat.reduceLeDiff, and_assoc]

theorem word_4_3_7_7_3_iff {w : BitVec (8 + 4 + 3 + 7 + 7 + 3)} {a : BitVec 4} {b : BitVec 3} {c d : BitVec 7}
    {e : BitVec 3} : w = op ++ a ++ b ++ c ++ d ++ e ↔ w.extractLsb' 24 8 = op ∧ w.extractLsb' 20 4 = a ∧
    w.extractLsb' 17 3 = b ∧ w.extractLsb' 10 7 = c ∧ w.extractLsb' 3 7 = d ∧ w.extractLsb' 0 3 = e := by
  simp only [eq_append_iff]
  simp only [extractLsb'_extractLsb', Nat.reduceAdd, Nat.reduceLeDiff, and_assoc]

theorem word_21_3_iff {w : BitVec (8 + 21 + 3)} {a : BitVec 21} {b : BitVec 3} : w = op ++ a ++ b ↔
    w.extractLsb' 24 8 = op ∧ w.extractLsb' 3 21 = a ∧ w.extractLsb' 0 3 = b := by
  simp only [eq_append_iff]
  simp only [extractLsb'_extractLsb', Nat.reduceAdd, Nat.reduceLeDiff, and_assoc]

theorem word_7_7_5_2_3_iff {w : BitVec (8 + 7 + 7 + 5 + 2 + 3)} {a b : BitVec 7} {c : BitVec 5} {d : BitVec 2}
    {e : BitVec 3} : w = op ++ a ++ b ++ c ++ d ++ e ↔ w.extractLsb' 24 8 = op ∧ w.extractLsb' 17 7 = a ∧
    w.extractLsb' 10 7 = b ∧ w.extractLsb' 5 5 = c ∧ w.extractLsb' 3 2 = d ∧ w.extractLsb' 0 3 = e := by
  simp only [eq_append_iff]
  simp only [extractLsb'_extractLsb', Nat.reduceAdd, Nat.reduceLeDiff, and_assoc]

theorem word_7_4_3_7_3_iff {w : BitVec (8 + 7 + 4 + 3 + 7 + 3)} {a : BitVec 7} {b : BitVec 4} {c : BitVec 3}
    {d : BitVec 7} {e : BitVec 3} : w = op ++ a ++ b ++ c ++ d ++ e ↔ w.extractLsb' 24 8 = op ∧ w.extractLsb' 17 7 = a ∧
    w.extractLsb' 13 4 = b ∧ w.extractLsb' 10 3 = c ∧ w.extractLsb' 3 7 = d ∧ w.extractLsb' 0 3 = e := by
  simp only [eq_append_iff]
  simp only [extractLsb'_extractLsb', Nat.reduceAdd, Nat.reduceLeDiff, and_assoc]

theorem word_3_3_3_5_7_3_iff {w : BitVec (8 + 3 + 3 + 3 + 5 + 7 + 3)} {a b c : BitVec 3} {d : BitVec 5} {e : BitVec 7}
    {f : BitVec 3} : w = op ++ a ++ b ++ c ++ d ++ e ++ f ↔ w.extractLsb' 24 8 = op ∧ w.extractLsb' 21 3 = a ∧
    w.extractLsb' 18 3 = b ∧ w.extractLsb' 15 3 = c ∧ w.extractLsb' 10 5 = d ∧ w.extractLsb' 3 7 = e ∧
    w.extractLsb' 0 3 = f := by
  simp only [eq_append_iff]
  simp only [extractLsb'_extractLsb', Nat.reduceAdd, Nat.reduceLeDiff, and_assoc]

theorem word_3_3_8_7_3_iff {w : BitVec (8 + 3 + 3 + 8 + 7 + 3)} {a b : BitVec 3} {c : BitVec 8} {d : BitVec 7}
    {e : BitVec 3} : w = op ++ a ++ b ++ c ++ d ++ e ↔ w.extractLsb' 24 8 = op ∧ w.extractLsb' 21 3 = a ∧
    w.extractLsb' 18 3 = b ∧ w.extractLsb' 10 8 = c ∧ w.extractLsb' 3 7 = d ∧ w.extractLsb' 0 3 = e := by
  simp only [eq_append_iff]
  simp only [extractLsb'_extractLsb', Nat.reduceAdd, Nat.reduceLeDiff, and_assoc]

theorem word_3_16_2_3_iff {w : BitVec (8 + 3 + 16 + 2 + 3)} {a : BitVec 3} {b : BitVec 16} {c : BitVec 2}
    {d : BitVec 3} : w = op ++ a ++ b ++ c ++ d ↔ w.extractLsb' 24 8 = op ∧ w.extractLsb' 21 3 = a ∧
    w.extractLsb' 5 16 = b ∧ w.extractLsb' 3 2 = c ∧ w.extractLsb' 0 3 = d := by
  simp only [eq_append_iff]
  simp only [extractLsb'_extractLsb', Nat.reduceAdd, Nat.reduceLeDiff, and_assoc]

theorem word_7_7_6_1_3_iff {w : BitVec (8 + 7 + 7 + 6 + 1 + 3)} {a b : BitVec 7} {c : BitVec 6} {d : BitVec 1}
    {e : BitVec 3} : w = op ++ a ++ b ++ c ++ d ++ e ↔ w.extractLsb' 24 8 = op ∧ w.extractLsb' 17 7 = a ∧
    w.extractLsb' 10 7 = b ∧ w.extractLsb' 4 6 = c ∧ w.extractLsb' 3 1 = d ∧ w.extractLsb' 0 3 = e := by
  simp only [eq_append_iff]
  simp only [extractLsb'_extractLsb', Nat.reduceAdd, Nat.reduceLeDiff, and_assoc]

theorem word_7_7_10_iff {w : BitVec (8 + 7 + 7 + 10)} {a b : BitVec 7} {c : BitVec 10} : w = op ++ a ++ b ++ c ↔
    w.extractLsb' 24 8 = op ∧ w.extractLsb' 17 7 = a ∧ w.extractLsb' 10 7 = b ∧ w.extractLsb' 0 10 = c := by
  simp only [eq_append_iff]
  simp only [extractLsb'_extractLsb', Nat.reduceAdd, Nat.reduceLeDiff, and_assoc]

theorem word_7_17_iff {w : BitVec (8 + 7 + 17)} {a : BitVec 7} {b : BitVec 17} : w = op ++ a ++ b ↔
    w.extractLsb' 24 8 = op ∧ w.extractLsb' 17 7 = a ∧ w.extractLsb' 0 17 = b := by
  simp only [eq_append_iff]
  simp only [extractLsb'_extractLsb', Nat.reduceAdd, Nat.reduceLeDiff, and_assoc]

theorem word_4_3_7_10_iff {w : BitVec (8 + 4 + 3 + 7 + 10)} {a : BitVec 4} {b : BitVec 3} {c : BitVec 7}
    {d : BitVec 10} : w = op ++ a ++ b ++ c ++ d ↔ w.extractLsb' 24 8 = op ∧ w.extractLsb' 20 4 = a ∧
    w.extractLsb' 17 3 = b ∧ w.extractLsb' 10 7 = c ∧ w.extractLsb' 0 10 = d := by
  simp only [eq_append_iff]
  simp only [extractLsb'_extractLsb', Nat.reduceAdd, Nat.reduceLeDiff, and_assoc]

theorem word_3_21_iff {w : BitVec (8 + 3 + 21)} {a : BitVec 3} {b : BitVec 21} : w = op ++ a ++ b ↔
    w.extractLsb' 24 8 = op ∧ w.extractLsb' 21 3 = a ∧ w.extractLsb' 0 21 = b := by
  simp only [eq_append_iff]
  simp only [extractLsb'_extractLsb', Nat.reduceAdd, Nat.reduceLeDiff, and_assoc]

theorem word_24_iff {w : BitVec (8 + 24)} {a : BitVec 24} : w = op ++ a ↔ w.extractLsb' 24 8 = op ∧
    w.extractLsb' 0 24 = a := by
  simp only [eq_append_iff]

theorem word_11_7_6_iff {w : BitVec (8 + 11 + 7 + 6)} {a : BitVec 11} {b : BitVec 7} {c : BitVec 6} :
    w = op ++ a ++ b ++ c ↔ w.extractLsb' 24 8 = op ∧ w.extractLsb' 13 11 = a ∧ w.extractLsb' 6 7 = b ∧
    w.extractLsb' 0 6 = c := by
  simp only [eq_append_iff]
  simp only [extractLsb'_extractLsb', Nat.reduceAdd, Nat.reduceLeDiff, and_assoc]

theorem word_4_20_iff {w : BitVec (8 + 4 + 20)} {a : BitVec 4} {b : BitVec 20} : w = op ++ a ++ b ↔
    w.extractLsb' 24 8 = op ∧ w.extractLsb' 20 4 = a ∧ w.extractLsb' 0 20 = b := by
  simp only [eq_append_iff]
  simp only [extractLsb'_extractLsb', Nat.reduceAdd, Nat.reduceLeDiff, and_assoc]

theorem word_4_7_7_6_iff {w : BitVec (8 + 4 + 7 + 7 + 6)} {a : BitVec 4} {b c : BitVec 7} {d : BitVec 6} :
    w = op ++ a ++ b ++ c ++ d ↔ w.extractLsb' 24 8 = op ∧ w.extractLsb' 20 4 = a ∧ w.extractLsb' 13 7 = b ∧
    w.extractLsb' 6 7 = c ∧ w.extractLsb' 0 6 = d := by
  simp only [eq_append_iff]
  simp only [extractLsb'_extractLsb', Nat.reduceAdd, Nat.reduceLeDiff, and_assoc]

theorem word_4_7_7_1_2_3_iff {w : BitVec (8 + 4 + 7 + 7 + 1 + 2 + 3)} {a : BitVec 4} {b c : BitVec 7} {d : BitVec 1}
    {e : BitVec 2} {f : BitVec 3} : w = op ++ a ++ b ++ c ++ d ++ e ++ f ↔ w.extractLsb' 24 8 = op ∧
    w.extractLsb' 20 4 = a ∧ w.extractLsb' 13 7 = b ∧ w.extractLsb' 6 7 = c ∧ w.extractLsb' 5 1 = d ∧
    w.extractLsb' 3 2 = e ∧ w.extractLsb' 0 3 = f := by
  simp only [eq_append_iff]
  simp only [extractLsb'_extractLsb', Nat.reduceAdd, Nat.reduceLeDiff, and_assoc]

theorem word_7_7_6_4_iff {w : BitVec (8 + 7 + 7 + 6 + 4)} {a b : BitVec 7} {c : BitVec 6} {d : BitVec 4} :
    w = op ++ a ++ b ++ c ++ d ↔ w.extractLsb' 24 8 = op ∧ w.extractLsb' 17 7 = a ∧ w.extractLsb' 10 7 = b ∧
    w.extractLsb' 4 6 = c ∧ w.extractLsb' 0 4 = d := by
  simp only [eq_append_iff]
  simp only [extractLsb'_extractLsb', Nat.reduceAdd, Nat.reduceLeDiff, and_assoc]

theorem word_14_6_4_iff {w : BitVec (8 + 14 + 6 + 4)} {a : BitVec 14} {b : BitVec 6} {c : BitVec 4} :
    w = op ++ a ++ b ++ c ↔ w.extractLsb' 24 8 = op ∧ w.extractLsb' 10 14 = a ∧ w.extractLsb' 4 6 = b ∧
    w.extractLsb' 0 4 = c := by
  simp only [eq_append_iff]
  simp only [extractLsb'_extractLsb', Nat.reduceAdd, Nat.reduceLeDiff, and_assoc]

theorem word_7_7_6_3_1_iff {w : BitVec (8 + 7 + 7 + 6 + 3 + 1)} {a b : BitVec 7} {c : BitVec 6} {d : BitVec 3}
    {e : BitVec 1} : w = op ++ a ++ b ++ c ++ d ++ e ↔ w.extractLsb' 24 8 = op ∧ w.extractLsb' 17 7 = a ∧
    w.extractLsb' 10 7 = b ∧ w.extractLsb' 4 6 = c ∧ w.extractLsb' 1 3 = d ∧ w.extractLsb' 0 1 = e := by
  simp only [eq_append_iff]
  simp only [extractLsb'_extractLsb', Nat.reduceAdd, Nat.reduceLeDiff, and_assoc]

theorem word_5_7_12_iff {w : BitVec (8 + 5 + 7 + 12)} {a : BitVec 5} {b : BitVec 7} {c : BitVec 12} :
    w = op ++ a ++ b ++ c ↔ w.extractLsb' 24 8 = op ∧ w.extractLsb' 19 5 = a ∧ w.extractLsb' 12 7 = b ∧
    w.extractLsb' 0 12 = c := by
  simp only [eq_append_iff]
  simp only [extractLsb'_extractLsb', Nat.reduceAdd, Nat.reduceLeDiff, and_assoc]

theorem word_5_16_1_2_iff {w : BitVec (8 + 5 + 16 + 1 + 2)} {a : BitVec 5} {b : BitVec 16} {c : BitVec 1}
    {d : BitVec 2} : w = op ++ a ++ b ++ c ++ d ↔ w.extractLsb' 24 8 = op ∧ w.extractLsb' 19 5 = a ∧
    w.extractLsb' 3 16 = b ∧ w.extractLsb' 2 1 = c ∧ w.extractLsb' 0 2 = d := by
  simp only [eq_append_iff]
  simp only [extractLsb'_extractLsb', Nat.reduceAdd, Nat.reduceLeDiff, and_assoc]

theorem word_5_19_iff {w : BitVec (8 + 5 + 19)} {a : BitVec 5} {b : BitVec 19} : w = op ++ a ++ b ↔
    w.extractLsb' 24 8 = op ∧ w.extractLsb' 19 5 = a ∧ w.extractLsb' 0 19 = b := by
  simp only [eq_append_iff]
  simp only [extractLsb'_extractLsb', Nat.reduceAdd, Nat.reduceLeDiff, and_assoc]

theorem word_5_7_6_5_1_iff {w : BitVec (8 + 5 + 7 + 6 + 5 + 1)} {a : BitVec 5} {b : BitVec 7} {c : BitVec 6}
    {d : BitVec 5} {e : BitVec 1} : w = op ++ a ++ b ++ c ++ d ++ e ↔ w.extractLsb' 24 8 = op ∧ w.extractLsb' 19 5 = a ∧
    w.extractLsb' 12 7 = b ∧ w.extractLsb' 6 6 = c ∧ w.extractLsb' 1 5 = d ∧ w.extractLsb' 0 1 = e := by
  simp only [eq_append_iff]
  simp only [extractLsb'_extractLsb', Nat.reduceAdd, Nat.reduceLeDiff, and_assoc]

theorem word_5_7_6_6_iff {w : BitVec (8 + 5 + 7 + 6 + 6)} {a : BitVec 5} {b : BitVec 7} {c d : BitVec 6} :
    w = op ++ a ++ b ++ c ++ d ↔ w.extractLsb' 24 8 = op ∧ w.extractLsb' 19 5 = a ∧ w.extractLsb' 12 7 = b ∧
    w.extractLsb' 6 6 = c ∧ w.extractLsb' 0 6 = d := by
  simp only [eq_append_iff]
  simp only [extractLsb'_extractLsb', Nat.reduceAdd, Nat.reduceLeDiff, and_assoc]

theorem word_5_5_5_5_4_iff {w : BitVec (8 + 5 + 5 + 5 + 5 + 4)} {a b c d : BitVec 5} {e : BitVec 4} :
    w = op ++ a ++ b ++ c ++ d ++ e ↔ w.extractLsb' 24 8 = op ∧ w.extractLsb' 19 5 = a ∧ w.extractLsb' 14 5 = b ∧
    w.extractLsb' 9 5 = c ∧ w.extractLsb' 4 5 = d ∧ w.extractLsb' 0 4 = e := by
  simp only [eq_append_iff]
  simp only [extractLsb'_extractLsb', Nat.reduceAdd, Nat.reduceLeDiff, and_assoc]

theorem word_5_5_5_7_1_1_iff {w : BitVec (8 + 5 + 5 + 5 + 7 + 1 + 1)} {a b c : BitVec 5} {d : BitVec 7}
    {e f : BitVec 1} : w = op ++ a ++ b ++ c ++ d ++ e ++ f ↔ w.extractLsb' 24 8 = op ∧ w.extractLsb' 19 5 = a ∧
    w.extractLsb' 14 5 = b ∧ w.extractLsb' 9 5 = c ∧ w.extractLsb' 2 7 = d ∧ w.extractLsb' 1 1 = e ∧
    w.extractLsb' 0 1 = f := by
  simp only [eq_append_iff]
  simp only [extractLsb'_extractLsb', Nat.reduceAdd, Nat.reduceLeDiff, and_assoc]

theorem word_5_5_14_iff {w : BitVec (8 + 5 + 5 + 14)} {a b : BitVec 5} {c : BitVec 14} : w = op ++ a ++ b ++ c ↔
    w.extractLsb' 24 8 = op ∧ w.extractLsb' 19 5 = a ∧ w.extractLsb' 14 5 = b ∧ w.extractLsb' 0 14 = c := by
  simp only [eq_append_iff]
  simp only [extractLsb'_extractLsb', Nat.reduceAdd, Nat.reduceLeDiff, and_assoc]

theorem word_5_5_12_2_iff {w : BitVec (8 + 5 + 5 + 12 + 2)} {a b : BitVec 5} {c : BitVec 12} {d : BitVec 2} :
    w = op ++ a ++ b ++ c ++ d ↔ w.extractLsb' 24 8 = op ∧ w.extractLsb' 19 5 = a ∧ w.extractLsb' 14 5 = b ∧
    w.extractLsb' 2 12 = c ∧ w.extractLsb' 0 2 = d := by
  simp only [eq_append_iff]
  simp only [extractLsb'_extractLsb', Nat.reduceAdd, Nat.reduceLeDiff, and_assoc]

theorem word_5_7_11_1_iff {w : BitVec (8 + 5 + 7 + 11 + 1)} {a : BitVec 5} {b : BitVec 7} {c : BitVec 11}
    {d : BitVec 1} : w = op ++ a ++ b ++ c ++ d ↔ w.extractLsb' 24 8 = op ∧ w.extractLsb' 19 5 = a ∧
    w.extractLsb' 12 7 = b ∧ w.extractLsb' 1 11 = c ∧ w.extractLsb' 0 1 = d := by
  simp only [eq_append_iff]
  simp only [extractLsb'_extractLsb', Nat.reduceAdd, Nat.reduceLeDiff, and_assoc]

theorem word_5_5_5_5_1_1_1_1_iff {w : BitVec (8 + 5 + 5 + 5 + 5 + 1 + 1 + 1 + 1)} {a b c d : BitVec 5}
    {e f g h : BitVec 1} : w = op ++ a ++ b ++ c ++ d ++ e ++ f ++ g ++ h ↔ w.extractLsb' 24 8 = op ∧
    w.extractLsb' 19 5 = a ∧ w.extractLsb' 14 5 = b ∧ w.extractLsb' 9 5 = c ∧ w.extractLsb' 4 5 = d ∧
    w.extractLsb' 3 1 = e ∧ w.extractLsb' 2 1 = f ∧ w.extractLsb' 1 1 = g ∧ w.extractLsb' 0 1 = h := by
  simp only [eq_append_iff]
  simp only [extractLsb'_extractLsb', Nat.reduceAdd, Nat.reduceLeDiff, and_assoc]

theorem word_5_7_6_3_3_iff {w : BitVec (8 + 5 + 7 + 6 + 3 + 3)} {a : BitVec 5} {b : BitVec 7} {c : BitVec 6}
    {d e : BitVec 3} : w = op ++ a ++ b ++ c ++ d ++ e ↔ w.extractLsb' 24 8 = op ∧ w.extractLsb' 19 5 = a ∧
    w.extractLsb' 12 7 = b ∧ w.extractLsb' 6 6 = c ∧ w.extractLsb' 3 3 = d ∧ w.extractLsb' 0 3 = e := by
  simp only [eq_append_iff]
  simp only [extractLsb'_extractLsb', Nat.reduceAdd, Nat.reduceLeDiff, and_assoc]

theorem word_15_9_iff {w : BitVec (8 + 15 + 9)} {a : BitVec 15} {b : BitVec 9} : w = op ++ a ++ b ↔
    w.extractLsb' 24 8 = op ∧ w.extractLsb' 9 15 = a ∧ w.extractLsb' 0 9 = b := by
  simp only [eq_append_iff]
  simp only [extractLsb'_extractLsb', Nat.reduceAdd, Nat.reduceLeDiff, and_assoc]

theorem word_7_14_3_iff {w : BitVec (8 + 7 + 14 + 3)} {a : BitVec 7} {b : BitVec 14} {c : BitVec 3} :
    w = op ++ a ++ b ++ c ↔ w.extractLsb' 24 8 = op ∧ w.extractLsb' 17 7 = a ∧ w.extractLsb' 3 14 = b ∧
    w.extractLsb' 0 3 = c := by
  simp only [eq_append_iff]
  simp only [extractLsb'_extractLsb', Nat.reduceAdd, Nat.reduceLeDiff, and_assoc]

theorem word_7_6_4_5_2_iff {w : BitVec (8 + 7 + 6 + 4 + 5 + 2)} {a : BitVec 7} {b : BitVec 6} {c : BitVec 4}
    {d : BitVec 5} {e : BitVec 2} : w = op ++ a ++ b ++ c ++ d ++ e ↔ w.extractLsb' 24 8 = op ∧ w.extractLsb' 17 7 = a ∧
    w.extractLsb' 11 6 = b ∧ w.extractLsb' 7 4 = c ∧ w.extractLsb' 2 5 = d ∧ w.extractLsb' 0 2 = e := by
  simp only [eq_append_iff]
  simp only [extractLsb'_extractLsb', Nat.reduceAdd, Nat.reduceLeDiff, and_assoc]
end Sys2Proof
end

section
/-! SUPPORT. Decoding what encoding gives (R64 to R74): the opcode byte picks the row and the column of the opcode maps, and what
is read there are the fields that encoding has put in. -/

namespace Sys2Proof

open Sys2Proof.Machine

/-! ### By the opcode byte -/

/-- The reading that an opcode byte asks for (R74). -/
def decodeAt (op : BitVec 8) (w : Word) : Except DecodeError Instr :=
  let low := (op.extractLsb' 0 4).toNat
  match (op.extractLsb' 4 4).toNat with
  | 0 => decodeL0 low w
  | 1 => decodeL1 low w
  | 2 => decodeL2 low w
  | 3 => decodeL3 low w
  | 4 => decodeL4 low w
  | 5 => decodeL5 low w
  | 6 => decodeL6 low w
  | 7 => decodeL7 low w
  | 8 => decodeU0 low w
  | 9 => decodeU1 low w
  | 10 => decodeU2 low w
  | 11 => decodeU3 low w
  | 12 => decodeU4 low w
  | 13 => decodeU5 low w
  | 14 => decodeU6 low w
  | _ => decodeU7 low w

theorem decodeOne_eq (w : Word) : decodeOne w = decodeAt (w.extractLsb' 24 8) w := by
  simp only [decodeOne, decodeAt, extractLsb'_extractLsb', Nat.reduceAdd, Nat.reduceLeDiff] <;> rfl

theorem decodeWords_one {w : Word} {op : BitVec 8} (hop : w.extractLsb' 24 8 = op) (hs : op ≠ lxByte ∧ op ≠ uxByte)
    (rest : List Word) : decodeWords (w :: rest) = (decodeAt op w).map (·, 1) := by
  simp only [decodeWords, hop, hs.1, hs.2, if_false, decodeOne_eq]
  cases decodeAt op w <;> rfl

theorem decodeWords_lx {w : Word} (hop : w.extractLsb' 24 8 = lxByte) (x : Word) (rest : List Word) :
    decodeWords (w :: x :: rest) = decodeLX w x rest :=
  if_pos hop

theorem decodeWords_ux {w : Word} (hop : w.extractLsb' 24 8 = uxByte) (x : Word) (rest : List Word) :
    decodeWords (w :: x :: rest) = decodeUX w x rest :=
  (if_neg (by rw [hop]; decide)).trans (if_pos hop)

/-! ### One instruction of each length

In each of these the first word is any word with the fields that encoding has put in: decoding reads the fields alone. -/

theorem oneWordCase {word : Word} {i : Instr} (h : ∀ w : Word, w = word →
    ∃ op, w.extractLsb' 24 8 = op ∧ (op ≠ lxByte ∧ op ≠ uxByte) ∧ decodeAt op w = .ok i) :
    decodeWords [word] = .ok (i, 1) := by
  obtain ⟨op, hop, hs, hi⟩ := h _ rfl
  rw [decodeWords_one hop hs, hi]
  rfl

theorem lxCase {word word' : Word} {rest : List Word} {r : Except DecodeError (Instr × Nat)}
    (h : ∀ w x : Word, w = word → x = word' → w.extractLsb' 24 8 = lxByte ∧ decodeLX w x rest = r) :
    decodeWords (word :: word' :: rest) = r :=
  (decodeWords_lx (h _ _ rfl rfl).1 _ _).trans (h _ _ rfl rfl).2

theorem uxCase {word x : Word} {rest : List Word} {r : Except DecodeError (Instr × Nat)} (h : ∀ w : Word, w = word →
    w.extractLsb' 24 8 = uxByte ∧ decodeUX w x rest = r) : decodeWords (word :: x :: rest) = r :=
  (decodeWords_ux (h _ rfl).1 _ _).trans (h _ rfl).2

/-- Decoding gives back what was encoded. The instructions stand by their layouts, and within a layout by the fields that are fixed,
which are the checks that the decoder makes. -/
theorem decodeWords_encode (i : Instr) (h : isEvent i = false) : decodeWords (encode i) = .ok (i, i.words) := by
  cases i with
  | iadd | isub | imul | imulhI32 | imulhN32 | imad | iminI32 | iminN32 | imaxI32 | imaxN32 | land | lor | lxor | andn
      | shl | shrN | shrI | rot | bfx | bfi | bsel | iadd64 | isub64 | imul64 | fadd | fsub | fmul | ffma | fmin | fmax
      | fdiv | fscalb | dadd | dsub | dmul | dfma | dmin | dmax | ddiv | dscalb | hadd2 | hfma2 | badd2 | bfma2 | cvt
      | pack | unpk | cvtsF16 | cvtsBf16 | cvtsE4m3 | cvtsE5m2 | cvtsE2m1 | selbF32 | selbF64 | selbBf16x2 | rand
      | xlane | redux | scan | matchLanes | sadd | ssub | smul | smulh | sand | sor | sxor | sshl | sshr | ssar | smin
      | smax | scc =>
    refine oneWordCase fun w hw => ?_
    obtain ⟨hop, rfl, rfl, rfl, rfl⟩ := word_7_7_7_3_iff.1 hw
    exact ⟨_, hop, by decide, rfl⟩
  | popc | clz | brev | frcp | frsq | fsqrt | fexp2 | flog2 | fsigm | fclass | dsqrt | drcp | drsq | dclass | mov
      | shape | wsort | lookup | spopc | sclz | smov =>
    refine oneWordCase fun w hw => ?_
    obtain ⟨hop, rfl, rfl, h1, rfl⟩ := word_7_7_7_3_iff.1 hw
    exact ⟨_, hop, by decide, if_pos h1⟩
  | icmp | fcmp32 | fcmp64 | pcmp32 | pcmp64 =>
    refine oneWordCase fun w hw => ?_
    obtain ⟨hop, rfl, rfl, rfl, rfl, rfl⟩ := word_4_3_7_7_3_iff.1 hw
    exact ⟨_, hop, by decide, rfl⟩
  | bra =>
    refine oneWordCase fun w hw => ?_
    obtain ⟨hop, rfl, rfl⟩ := word_21_3_iff.1 hw
    exact ⟨_, hop, by decide, rfl⟩
  | exit =>
    refine oneWordCase fun w hw => ?_
    obtain ⟨hop, h1, rfl⟩ := word_21_3_iff.1 (show w = 0x1F#8 ++ 0x0#21 ++ _ from hw)
    exact ⟨_, hop, by decide, if_pos h1⟩
  | fnegabs =>
    refine oneWordCase fun w hw => ?_
    obtain ⟨hop, rfl, rfl, h1, rfl, rfl⟩ := word_7_7_5_2_3_iff.1 hw
    exact ⟨_, hop, by decide, if_pos h1⟩
  | movp | pgrad | pquery | lmask =>
    refine oneWordCase fun w hw => ?_
    obtain ⟨hop, rfl, h1, rfl, rfl, rfl⟩ := word_7_4_3_7_3_iff.1 hw
    exact ⟨_, hop, by decide, if_pos h1⟩
  | plog =>
    refine oneWordCase fun w hw => ?_
    obtain ⟨hop, rfl, rfl, rfl, rfl, h1, rfl⟩ := word_3_3_3_5_7_3_iff.1 hw
    exact ⟨_, hop, by decide, if_pos h1⟩
  | collapse =>
    refine oneWordCase fun w hw => ?_
    obtain ⟨hop, rfl, rfl, h1, rfl, rfl⟩ := word_3_3_8_7_3_iff.1 hw
    exact ⟨_, hop, by decide, if_pos h1⟩
  | psum =>
    refine oneWordCase fun w hw => ?_
    obtain ⟨hop, rfl, h1, rfl, h2, rfl⟩ := word_7_4_3_7_3_iff.1 hw
    exact ⟨_, hop, by decide, if_pos ⟨h1, h2⟩⟩
  | pconst =>
    refine oneWordCase fun w hw => ?_
    obtain ⟨hop, rfl, rfl, h1, rfl⟩ := word_3_16_2_3_iff.1 hw
    exact ⟨_, hop, by decide, if_pos h1⟩
  | rebal | forkTile =>
    refine oneWordCase fun w hw => ?_
    obtain ⟨hop, rfl, rfl, rfl, h1⟩ := word_7_7_7_3_iff.1 hw
    exact ⟨_, hop, by decide, if_pos h1⟩
  | elect | spop =>
    refine oneWordCase fun w hw => ?_
    obtain ⟨hop, rfl, h1, rfl, rfl⟩ := word_7_7_7_3_iff.1 hw
    exact ⟨_, hop, by decide, if_pos h1⟩
  | ld8 | ld16 | ld32 | ld64 | ld128 | st8 | st16 | st32 | st64 | st128 | cstore =>
    refine oneWordCase fun w hw => ?_
    obtain ⟨hop, rfl, rfl, rfl, rfl, rfl⟩ := word_7_7_6_1_3_iff.1 hw
    exact ⟨_, hop, by decide, rfl⟩
  | spush =>
    refine oneWordCase fun w hw => ?_
    obtain ⟨hop, h1, rfl, rfl, rfl⟩ := word_7_7_7_3_iff.1 (show w = 0x6D#8 ++ 0x0#7 ++ _ ++ _ ++ _ from hw)
    exact ⟨_, hop, by decide, if_pos h1⟩
  | iaddi | andi | ori | xori | shli | shriN | shriI | sysc | saddi | sandi | sori | sxori | sshli | sshri | ssari
      | scci | smuli =>
    refine oneWordCase fun w hw => ?_
    obtain ⟨hop, rfl, rfl, rfl⟩ := word_7_7_10_iff.1 hw
    exact ⟨_, hop, by decide, rfl⟩
  | movi | smovi =>
    refine oneWordCase fun w hw => ?_
    obtain ⟨hop, rfl, rfl⟩ := word_7_17_iff.1 hw
    exact ⟨_, hop, by decide, rfl⟩
  | icmpi =>
    refine oneWordCase fun w hw => ?_
    obtain ⟨hop, rfl, rfl, rfl, rfl⟩ := word_4_3_7_10_iff.1 hw
    exact ⟨_, hop, by decide, rfl⟩
  | jmp | bru =>
    refine oneWordCase fun w hw => ?_
    obtain ⟨hop, rfl, rfl⟩ := word_3_21_iff.1 hw
    exact ⟨_, hop, by decide, rfl⟩
  | call =>
    refine oneWordCase fun w hw => ?_
    obtain ⟨hop, h1, rfl⟩ := word_3_21_iff.1 (show w = 0x92#8 ++ 0x7#3 ++ _ from hw)
    exact ⟨_, hop, by decide, if_pos h1⟩
  | ret =>
    refine oneWordCase fun w hw => ?_
    obtain ⟨hop, h1⟩ := word_24_iff.1 (show w = 0x93#8 ++ 0x0#24 from hw)
    exact ⟨_, hop, by decide, if_pos h1⟩
  | reconv =>
    refine oneWordCase fun w hw => ?_
    obtain ⟨hop, h1, rfl⟩ := word_3_21_iff.1 (show w = 0x94#8 ++ 0x0#3 ++ _ from hw)
    exact ⟨_, hop, by decide, if_pos h1⟩
  | wide =>
    refine oneWordCase fun w hw => ?_
    obtain ⟨hop, h1⟩ := word_24_iff.1 (show w = 0x95#8 ++ 0x0#24 from hw)
    exact ⟨_, hop, by decide, if_pos h1⟩
  | endwide =>
    refine oneWordCase fun w hw => ?_
    obtain ⟨hop, h1⟩ := word_24_iff.1 (show w = 0x96#8 ++ 0x0#24 from hw)
    exact ⟨_, hop, by decide, if_pos h1⟩
  | yield =>
    refine oneWordCase fun w hw => ?_
    obtain ⟨hop, h1⟩ := word_24_iff.1 (show w = 0x97#8 ++ 0x0#24 from hw)
    exact ⟨_, hop, by decide, if_pos h1⟩
  | bar =>
    refine oneWordCase fun w hw => ?_
    obtain ⟨hop, h1, rfl, rfl⟩ := word_11_7_6_iff.1 (show w = 0x98#8 ++ 0x0#11 ++ _ ++ _ from hw)
    exact ⟨_, hop, by decide, if_pos h1⟩
  | tbar | phase | fenceAr | tfence | ifence =>
    refine oneWordCase fun w hw => ?_
    obtain ⟨hop, rfl, h1⟩ := word_4_20_iff.1 hw
    exact ⟨_, hop, by decide, if_pos h1⟩
  | levelId | levelSize =>
    refine oneWordCase fun w hw => ?_
    obtain ⟨hop, rfl, rfl, h1, rfl⟩ := word_4_7_7_6_iff.1 hw
    exact ⟨_, hop, by decide, if_pos h1⟩
  | coll =>
    refine oneWordCase fun w hw => ?_
    obtain ⟨hop, rfl, rfl, rfl, h1, rfl, rfl⟩ := word_4_7_7_1_2_3_iff.1 hw
    exact ⟨_, hop, by decide, if_pos h1⟩
  | layout =>
    refine oneWordCase fun w hw => ?_
    obtain ⟨hop, rfl, h1, rfl, h2⟩ := word_7_7_6_4_iff.1 hw
    exact ⟨_, hop, by decide, if_pos ⟨h1, h2⟩⟩
  | layq | pref | acccvt =>
    refine oneWordCase fun w hw => ?_
    obtain ⟨hop, rfl, h1, rfl, rfl⟩ := word_7_7_6_4_iff.1 hw
    exact ⟨_, hop, by decide, if_pos h1⟩
  | mfsr =>
    refine oneWordCase fun w hw => ?_
    obtain ⟨hop, rfl, h1, rfl⟩ := word_7_7_10_iff.1 hw
    exact ⟨_, hop, by decide, if_pos h1⟩
  | mtsr =>
    refine oneWordCase fun w hw => ?_
    obtain ⟨hop, h1, rfl, rfl⟩ := word_7_7_10_iff.1 (show w = 0xA4#8 ++ 0x0#7 ++ _ ++ _ from hw)
    exact ⟨_, hop, by decide, if_pos h1⟩
  | launch | twait | rdv | crd | pgmap =>
    refine oneWordCase fun w hw => ?_
    obtain ⟨hop, rfl, rfl, h1⟩ := word_7_7_10_iff.1 hw
    exact ⟨_, hop, by decide, if_pos h1⟩
  | commit | clock =>
    refine oneWordCase fun w hw => ?_
    obtain ⟨hop, rfl, h1⟩ := word_7_17_iff.1 hw
    exact ⟨_, hop, by decide, if_pos h1⟩
  | tlwait =>
    refine oneWordCase fun w hw => ?_
    obtain ⟨hop, h1, rfl, rfl, h2⟩ := word_7_7_7_3_iff.1 (show w = 0xAA#8 ++ 0x0#7 ++ _ ++ _ ++ 0x0#3 from hw)
    exact ⟨_, hop, by decide, if_pos ⟨h1, h2⟩⟩
  | aexpect | await | aarrive | cpy | cpyx | gather | scatter | mmaF64 | mmaBf16 | mmaF16 | mmaE4m3 | mmaE5m2 | mmaI8 =>
    refine oneWordCase fun w hw => ?_
    obtain ⟨hop, rfl, rfl, rfl, h1⟩ := word_7_7_6_4_iff.1 hw
    exact ⟨_, hop, by decide, if_pos h1⟩
  | dsync =>
    refine oneWordCase fun w hw => ?_
    obtain ⟨hop, h1⟩ := word_24_iff.1 (show w = 0xAE#8 ++ 0x0#24 from hw)
    exact ⟨_, hop, by decide, if_pos h1⟩
  | tktake =>
    refine oneWordCase fun w hw => ?_
    obtain ⟨hop, h1⟩ := word_24_iff.1 (show w = 0xAF#8 ++ 0x0#24 from hw)
    exact ⟨_, hop, by decide, if_pos h1⟩
  | tkpass =>
    refine oneWordCase fun w hw => ?_
    obtain ⟨hop, h1⟩ := word_24_iff.1 (show w = 0xB0#8 ++ 0x0#24 from hw)
    exact ⟨_, hop, by decide, if_pos h1⟩
  | fill | setupis =>
    refine oneWordCase fun w hw => ?_
    obtain ⟨hop, rfl, rfl, rfl, rfl⟩ := word_7_7_6_4_iff.1 hw
    exact ⟨_, hop, by decide, rfl⟩
  | tagset =>
    refine oneWordCase fun w hw => ?_
    obtain ⟨hop, h1, rfl, rfl, h2⟩ := word_7_7_7_3_iff.1 (show w = 0xB6#8 ++ 0x0#7 ++ _ ++ _ ++ 0x0#3 from hw)
    exact ⟨_, hop, by decide, if_pos ⟨h1, h2⟩⟩
  | tagclr =>
    refine oneWordCase fun w hw => ?_
    obtain ⟨hop, h1, rfl, h2⟩ := word_7_7_10_iff.1 (show w = 0xB7#8 ++ 0x0#7 ++ _ ++ 0x0#10 from hw)
    exact ⟨_, hop, by decide, if_pos ⟨h1, h2⟩⟩
  | cbload =>
    refine oneWordCase fun w hw => ?_
    obtain ⟨hop, rfl, h1, rfl, h2, rfl⟩ := word_7_7_6_1_3_iff.1 hw
    exact ⟨_, hop, by decide, if_pos ⟨h1, h2⟩⟩
  | cinc =>
    refine oneWordCase fun w hw => ?_
    obtain ⟨hop, h1, rfl, rfl, h2⟩ := word_7_7_7_3_iff.1 (show w = 0xBB#8 ++ 0x0#7 ++ _ ++ _ ++ 0x0#3 from hw)
    exact ⟨_, hop, by decide, if_pos ⟨h1, h2⟩⟩
  | mmaB1 =>
    refine oneWordCase fun w hw => ?_
    obtain ⟨hop, rfl, rfl, rfl, h1, rfl⟩ := word_7_7_6_3_1_iff.1 hw
    exact ⟨_, hop, by decide, if_pos h1⟩
  | accz =>
    refine oneWordCase fun w hw => ?_
    obtain ⟨hop, h1, rfl, rfl⟩ := word_14_6_4_iff.1 (show w = 0xC7#8 ++ 0x0#14 ++ _ ++ _ from hw)
    exact ⟨_, hop, by decide, if_pos h1⟩
  | accld | accst =>
    refine oneWordCase fun w hw => ?_
    obtain ⟨hop, rfl, h1, rfl, h2, rfl⟩ := word_7_7_6_3_1_iff.1 hw
    exact ⟨_, hop, by decide, if_pos ⟨h1, h2⟩⟩
  | tnew | tslab | tscal | tinfo | tchol =>
    refine oneWordCase fun w hw => ?_
    obtain ⟨hop, rfl, rfl, h1⟩ := word_5_7_12_iff.1 hw
    exact ⟨_, hop, by decide, if_pos h1⟩
  | tfree =>
    refine oneWordCase fun w hw => ?_
    obtain ⟨hop, rfl, h1⟩ := word_5_19_iff.1 hw
    exact ⟨_, hop, by decide, if_pos h1⟩
  | tload | tlrld =>
    refine oneWordCase fun w hw => ?_
    obtain ⟨hop, rfl, rfl, rfl, h1, rfl⟩ := word_5_7_6_5_1_iff.1 hw
    exact ⟨_, hop, by decide, if_pos h1⟩
  | tstore | tlrst | tlu =>
    refine oneWordCase fun w hw => ?_
    obtain ⟨hop, rfl, rfl, rfl, h1⟩ := word_5_7_6_6_iff.1 hw
    exact ⟨_, hop, by decide, if_pos h1⟩
  | tadd | ttrsm =>
    refine oneWordCase fun w hw => ?_
    obtain ⟨hop, rfl, rfl, rfl, h1, rfl⟩ := word_5_5_5_5_4_iff.1 hw
    exact ⟨_, hop, by decide, if_pos h1⟩
  | tmul =>
    refine oneWordCase fun w hw => ?_
    obtain ⟨hop, rfl, rfl, rfl, h1, rfl, rfl⟩ := word_5_5_5_7_1_1_iff.1 hw
    exact ⟨_, hop, by decide, if_pos h1⟩
  | tround | tcomp =>
    refine oneWordCase fun w hw => ?_
    obtain ⟨hop, rfl, rfl, h1⟩ := word_5_5_14_iff.1 hw
    exact ⟨_, hop, by decide, if_pos h1⟩
  | tdense =>
    refine oneWordCase fun w hw => ?_
    obtain ⟨hop, rfl, rfl, h1, rfl⟩ := word_5_5_12_2_iff.1 hw
    exact ⟨_, hop, by decide, if_pos h1⟩
  | tnorm =>
    refine oneWordCase fun w hw => ?_
    obtain ⟨hop, rfl, rfl, h1, rfl⟩ := word_5_7_11_1_iff.1 hw
    exact ⟨_, hop, by decide, if_pos h1⟩
  | tgemm =>
    refine oneWordCase fun w hw => ?_
    obtain ⟨hop, rfl, rfl, rfl, rfl, h1, rfl, rfl, rfl⟩ := word_5_5_5_5_1_1_1_1_iff.1 hw
    exact ⟨_, hop, by decide, if_pos h1⟩
  | tqr =>
    refine oneWordCase fun w hw => ?_
    obtain ⟨hop, rfl, rfl, h1, rfl, h2⟩ := word_5_5_5_5_4_iff.1 hw
    exact ⟨_, hop, by decide, if_pos ⟨h1, h2⟩⟩
  | tmv =>
    refine oneWordCase fun w hw => ?_
    obtain ⟨hop, rfl, rfl, rfl, h1, rfl⟩ := word_5_7_6_3_3_iff.1 hw
    exact ⟨_, hop, by decide, if_pos h1⟩
  | trap =>
    refine oneWordCase fun w hw => ?_
    obtain ⟨hop, h1, rfl⟩ := word_15_9_iff.1 (show w = 0xE8#8 ++ 0x0#15 ++ _ from hw)
    exact ⟨_, hop, by decide, if_pos h1⟩
  | tret =>
    refine oneWordCase fun w hw => ?_
    obtain ⟨hop, h1⟩ := word_24_iff.1 (show w = 0xE9#8 ++ 0x0#24 from hw)
    exact ⟨_, hop, by decide, if_pos h1⟩
  | tlbinv =>
    refine oneWordCase fun w hw => ?_
    obtain ⟨hop, rfl, h1, rfl, h2⟩ := word_4_7_7_6_iff.1 hw
    exact ⟨_, hop, by decide, if_pos ⟨h1, h2⟩⟩
  | halt =>
    refine oneWordCase fun w hw => ?_
    obtain ⟨hop, h1⟩ := word_24_iff.1 (show w = 0xED#8 ++ 0x0#24 from hw)
    exact ⟨_, hop, by decide, if_pos h1⟩
  | nop =>
    refine oneWordCase fun w hw => ?_
    obtain ⟨hop, h1⟩ := word_24_iff.1 (show w = 0xEF#8 ++ 0x0#24 from hw)
    exact ⟨_, hop, by decide, if_pos h1⟩
  | fenceRel =>
    refine oneWordCase fun w hw => ?_
    obtain ⟨hop, rfl, h1⟩ := word_4_20_iff.1 hw
    exact ⟨_, hop, by decide, (if_neg (by rw [h1]; decide)).trans (if_pos h1)⟩
  | fenceAcq =>
    refine oneWordCase fun w hw => ?_
    obtain ⟨hop, rfl, h1⟩ := word_4_20_iff.1 hw
    exact ⟨_, hop, by decide, (if_neg (by rw [h1]; decide)).trans ((if_neg (by rw [h1]; decide)).trans (if_pos h1))⟩
  | layoutInv =>
    refine oneWordCase fun w hw => ?_
    obtain ⟨hop, h1, rfl, h2⟩ := word_14_6_4_iff.1 (show w = 0xA1#8 ++ 0x0#14 ++ _ ++ 0x1#4 from hw)
    exact ⟨_, hop, by decide, (if_neg fun h0 => absurd (h0.2.symm.trans h2) (by decide)).trans (if_pos ⟨h1, h2⟩)⟩
  | twaitPoll =>
    refine oneWordCase fun w hw => ?_
    obtain ⟨hop, rfl, rfl, h1⟩ := word_7_7_10_iff.1 hw
    exact ⟨_, hop, by decide, (if_neg (by rw [h1]; decide)).trans (if_pos h1)⟩
  | forkCopy =>
    refine oneWordCase fun w hw => ?_
    obtain ⟨hop, rfl, rfl, rfl, h1⟩ := word_7_7_7_3_iff.1 hw
    exact ⟨_, hop, by decide, (if_neg (by rw [h1]; decide)).trans (if_pos h1)⟩
  | tnewImm =>
    refine oneWordCase fun w hw => ?_
    obtain ⟨hop, rfl, h1, rfl, rfl⟩ := word_5_16_1_2_iff.1 hw
    exact ⟨_, hop, by decide, (if_neg fun h0 => absurd ((subfield h0 3 9 (by decide)).symm.trans (subfield h1 0 9 (by
      decide))) (by decide)).trans (if_pos h1)⟩
  | tqrR =>
    refine oneWordCase fun w hw => ?_
    obtain ⟨hop, rfl, rfl, h1⟩ := word_5_5_14_iff.1 hw
    exact ⟨_, hop, by decide, (if_neg fun h0 => absurd (h0.2.symm.trans (subfield h1 0 4 (by decide))) (by decide)).trans
      (if_pos h1)⟩
  | trapEsc =>
    refine oneWordCase fun w hw => ?_
    obtain ⟨hop, h1⟩ := word_24_iff.1 (show w = 0xE8#8 ++ 0x3FF#24 from hw)
    exact ⟨_, hop, by decide, (if_neg fun h0 => absurd (h0.symm.trans (subfield h1 9 15 (by decide))) (by decide)).trans
      (if_pos h1)⟩
  | tlbinvAll =>
    refine oneWordCase fun w hw => ?_
    obtain ⟨hop, rfl, h1⟩ := word_4_20_iff.1 hw
    exact ⟨_, hop, by decide, (if_neg fun h0 => absurd (h0.2.symm.trans (subfield h1 0 6 (by decide))) (by decide)).trans
      (if_pos h1)⟩
  | atom32 | atom64 =>
    refine lxCase fun w x hw hx => ?_
    obtain ⟨hop, rfl, rfl, h1, rfl⟩ := word_7_7_7_3_iff.1 hw
    obtain ⟨hxop, rfl, rfl, rfl, rfl, rfl⟩ := word_7_6_4_5_2_iff.1 hx
    rw [decodeLX, hxop]
    exact ⟨hop, if_pos h1⟩
  | cas32 | cas64 =>
    refine lxCase fun w x hw hx => ?_
    obtain ⟨hop, rfl, rfl, rfl, rfl⟩ := word_7_7_7_3_iff.1 hw
    obtain ⟨hxop, rfl, rfl, rfl, h1, rfl⟩ := word_7_6_4_5_2_iff.1 hx
    rw [decodeLX, hxop]
    exact ⟨hop, if_pos h1⟩
  | movi32 =>
    refine lxCase fun w x hw hx => ?_
    obtain ⟨hop, rfl, h1, rfl⟩ := word_7_14_3_iff.1 hw
    obtain ⟨hxop, h2⟩ := word_24_iff.1 (show x = 0x0#8 ++ 0x0#24 from hx)
    rw [decodeLX, hxop]
    exact ⟨hop, if_pos ⟨h1, h2⟩⟩
  | saddi32 | sandi32 | sori32 | sxori32 =>
    refine uxCase fun w hw => ?_
    obtain ⟨hop, rfl, rfl, h1⟩ := word_7_7_10_iff.1 hw
    exact ⟨hop, if_pos ⟨h1, rfl⟩⟩
  | smovi32 =>
    refine uxCase fun w hw => ?_
    obtain ⟨hop, rfl, h1⟩ := word_7_17_iff.1 hw
    exact ⟨hop, (if_pos ⟨subfield h1 0 10 (by decide), rfl⟩).trans (if_pos (subfield h1 10 7 (by decide)))⟩
  | smovi64 vd imm =>
    refine uxCase fun w hw => ?_
    obtain ⟨hop, rfl, h1⟩ := word_7_17_iff.1 hw
    have himm : imm.extractLsb' 32 32 ++ imm.extractLsb' 0 32 = imm := BitVec.extractLsb'_append_extractLsb'
    exact ⟨hop, (if_pos ⟨subfield h1 0 10 (by decide), rfl⟩).trans
      ((if_pos (subfield h1 10 7 (by decide))).trans (congrArg (fun v => Except.ok (Instr.smovi64 _ v, 4)) himm))⟩
  | _ => exact absurd rfl (Bool.eq_false_iff.1 h)

end Sys2Proof
end

section
/-! SUPPORT. Encoding what decoding gives (R64 to R74): in each row of the opcode maps, what encoding puts together are the fields
that the word holds. -/

namespace Sys2Proof

/-! ### What a check lets through -/

theorem ok_of_check {α : Type} {p : Prop} [Decidable p] {r : Except DecodeError α} {j : α} {e : DecodeError}
    (h : (if p then r else .error e) = .ok j) : p ∧ r = .ok j := by
  by_cases hp : p
  · exact ⟨hp, (if_pos hp).symm.trans h⟩
  · cases (if_neg hp).symm.trans h

theorem ok_or_of_checks {α : Type} {p : Prop} [Decidable p] {i j : α} {r : Except DecodeError α}
    (h : (if p then Except.ok i else r) = .ok j) : (p ∧ i = j) ∨ r = .ok j := by
  by_cases hp : p
  · exact .inl ⟨hp, Except.ok.inj ((if_pos hp).symm.trans h)⟩
  · exact .inr ((if_neg hp).symm.trans h)

theorem singleton_eq {α : Type} {x y : α} (h : x = y) : [y] = [x] := by rw [h]

theorem pair_eq {α : Type} {x y x' y' : α} (h : x = y) (h' : x' = y') (l : List α) : y :: y' :: l = x :: x' :: l := by rw [h, h']

/-! ### One word, by the rows of the opcode maps -/

theorem encode_of_decodeL0 {w : Word} {i : Instr} : ∀ {low : Nat}, w.extractLsb' 24 8 = BitVec.ofNat 8 (0x00 + low) →
    decodeL0 low w = .ok i → encode i = [w]
  | 0, hop, h | 1, hop, h | 2, hop, h | 3, hop, h | 4, hop, h | 5, hop, h | 6, hop, h | 7, hop, h | 8, hop, h
      | 9, hop, h | 10, hop, h | 11, hop, h | 12, hop, h | 13, hop, h | 14, hop, h | 15, hop, h => by
    obtain rfl := Except.ok.inj h
    exact singleton_eq (word_7_7_7_3_iff.2 ⟨hop, rfl, rfl, rfl, rfl⟩)

theorem encode_of_decodeL1 {w : Word} {i : Instr} : ∀ {low : Nat}, w.extractLsb' 24 8 = BitVec.ofNat 8 (0x10 + low) →
    decodeL1 low w = .ok i → encode i = [w]
  | 0, hop, h | 1, hop, h | 5, hop, h | 6, hop, h | 7, hop, h | 8, hop, h | 9, hop, h | 10, hop, h => by
    obtain rfl := Except.ok.inj h
    exact singleton_eq (word_7_7_7_3_iff.2 ⟨hop, rfl, rfl, rfl, rfl⟩)
  | 2, hop, h | 3, hop, h | 4, hop, h => by
    obtain ⟨h1, ⟨⟩⟩ := ok_of_check h
    exact singleton_eq (word_7_7_7_3_iff.2 ⟨hop, rfl, rfl, h1, rfl⟩)
  | 11, hop, h | 12, hop, h | 13, hop, h => by
    obtain rfl := Except.ok.inj h
    exact singleton_eq (word_4_3_7_7_3_iff.2 ⟨hop, rfl, rfl, rfl, rfl, rfl⟩)
  | 14, hop, h => by
    obtain rfl := Except.ok.inj h
    exact singleton_eq (word_21_3_iff.2 ⟨hop, rfl, rfl⟩)
  | 15, hop, h => by
    obtain ⟨h1, ⟨⟩⟩ := ok_of_check h
    exact singleton_eq (show w = 0x1F#8 ++ 0x0#21 ++ _ from word_21_3_iff.2 ⟨hop, h1, rfl⟩)

theorem encode_of_decodeL2 {w : Word} {i : Instr} : ∀ {low : Nat}, w.extractLsb' 24 8 = BitVec.ofNat 8 (0x20 + low) →
    decodeL2 low w = .ok i → encode i = [w]
  | 0, hop, h | 1, hop, h | 2, hop, h | 3, hop, h | 4, hop, h | 5, hop, h | 10, hop, h | 15, hop, h => by
    obtain rfl := Except.ok.inj h
    exact singleton_eq (word_7_7_7_3_iff.2 ⟨hop, rfl, rfl, rfl, rfl⟩)
  | 6, hop, h => by
    obtain ⟨h1, ⟨⟩⟩ := ok_of_check h
    exact singleton_eq (word_7_7_5_2_3_iff.2 ⟨hop, rfl, rfl, h1, rfl, rfl⟩)
  | 7, hop, h | 8, hop, h | 9, hop, h | 11, hop, h | 12, hop, h | 13, hop, h | 14, hop, h => by
    obtain ⟨h1, ⟨⟩⟩ := ok_of_check h
    exact singleton_eq (word_7_7_7_3_iff.2 ⟨hop, rfl, rfl, h1, rfl⟩)

theorem encode_of_decodeL3 {w : Word} {i : Instr} : ∀ {low : Nat}, w.extractLsb' 24 8 = BitVec.ofNat 8 (0x30 + low) →
    decodeL3 low w = .ok i → encode i = [w]
  | 0, hop, h | 1, hop, h | 2, hop, h | 3, hop, h | 4, hop, h | 5, hop, h | 6, hop, h | 11, hop, h | 12, hop, h
      | 13, hop, h | 14, hop, h | 15, hop, h => by
    obtain rfl := Except.ok.inj h
    exact singleton_eq (word_7_7_7_3_iff.2 ⟨hop, rfl, rfl, rfl, rfl⟩)
  | 7, hop, h | 8, hop, h | 9, hop, h | 10, hop, h => by
    obtain ⟨h1, ⟨⟩⟩ := ok_of_check h
    exact singleton_eq (word_7_7_7_3_iff.2 ⟨hop, rfl, rfl, h1, rfl⟩)

theorem encode_of_decodeL4 {w : Word} {i : Instr} : ∀ {low : Nat}, w.extractLsb' 24 8 = BitVec.ofNat 8 (0x40 + low) →
    decodeL4 low w = .ok i → encode i = [w]
  | 0, hop, h | 1, hop, h | 2, hop, h | 3, hop, h | 4, hop, h | 5, hop, h | 6, hop, h | 7, hop, h | 9, hop, h
      | 10, hop, h | 11, hop, h | 14, hop, h => by
    obtain rfl := Except.ok.inj h
    exact singleton_eq (word_7_7_7_3_iff.2 ⟨hop, rfl, rfl, rfl, rfl⟩)
  | 8, hop, h | 12, hop, h => by
    obtain ⟨h1, ⟨⟩⟩ := ok_of_check h
    exact singleton_eq (word_7_7_7_3_iff.2 ⟨hop, rfl, rfl, h1, rfl⟩)
  | 13, hop, h => by
    obtain ⟨h1, ⟨⟩⟩ := ok_of_check h
    exact singleton_eq (word_7_4_3_7_3_iff.2 ⟨hop, rfl, h1, rfl, rfl, rfl⟩)

theorem encode_of_decodeL5 {w : Word} {i : Instr} : ∀ {low : Nat}, w.extractLsb' 24 8 = BitVec.ofNat 8 (0x50 + low) →
    decodeL5 low w = .ok i → encode i = [w]
  | 0, hop, h | 1, hop, h => by
    obtain rfl := Except.ok.inj h
    exact singleton_eq (word_4_3_7_7_3_iff.2 ⟨hop, rfl, rfl, rfl, rfl, rfl⟩)
  | 2, hop, h => by
    obtain ⟨h1, ⟨⟩⟩ := ok_of_check h
    exact singleton_eq (word_3_3_3_5_7_3_iff.2 ⟨hop, rfl, rfl, rfl, rfl, h1, rfl⟩)
  | 3, hop, h => by
    obtain ⟨h1, ⟨⟩⟩ := ok_of_check h
    exact singleton_eq (word_3_3_8_7_3_iff.2 ⟨hop, rfl, rfl, h1, rfl, rfl⟩)
  | 4, hop, h | 7, hop, h | 8, hop, h => by
    obtain ⟨h1, ⟨⟩⟩ := ok_of_check h
    exact singleton_eq (word_7_4_3_7_3_iff.2 ⟨hop, rfl, h1, rfl, rfl, rfl⟩)
  | 5, hop, h => by
    obtain ⟨⟨h1, h2⟩, ⟨⟩⟩ := ok_of_check h
    exact singleton_eq (word_7_4_3_7_3_iff.2 ⟨hop, rfl, h1, rfl, h2, rfl⟩)
  | 6, hop, h => by
    obtain ⟨h1, ⟨⟩⟩ := ok_of_check h
    exact singleton_eq (word_3_16_2_3_iff.2 ⟨hop, rfl, rfl, h1, rfl⟩)
  | 9, hop, h | 10, hop, h | 11, hop, h | 14, hop, h => by
    obtain rfl := Except.ok.inj h
    exact singleton_eq (word_7_7_7_3_iff.2 ⟨hop, rfl, rfl, rfl, rfl⟩)
  | 12, hop, h => by
    obtain ⟨h1, ⟨⟩⟩ := ok_of_check h
    exact singleton_eq (word_7_7_7_3_iff.2 ⟨hop, rfl, rfl, rfl, h1⟩)
  | 13, hop, h => by
    obtain ⟨h1, ⟨⟩⟩ := ok_of_check h
    exact singleton_eq (word_7_7_7_3_iff.2 ⟨hop, rfl, rfl, h1, rfl⟩)
  | 15, hop, h => by
    obtain ⟨h1, ⟨⟩⟩ := ok_of_check h
    exact singleton_eq (word_7_7_7_3_iff.2 ⟨hop, rfl, h1, rfl, rfl⟩)

theorem encode_of_decodeL6 {w : Word} {i : Instr} : ∀ {low : Nat}, w.extractLsb' 24 8 = BitVec.ofNat 8 (0x60 + low) →
    decodeL6 low w = .ok i → encode i = [w]
  | 0, hop, h | 1, hop, h | 2, hop, h | 3, hop, h | 4, hop, h | 5, hop, h | 6, hop, h | 7, hop, h | 8, hop, h
      | 9, hop, h | 10, hop, h => by
    obtain rfl := Except.ok.inj h
    exact singleton_eq (word_7_7_6_1_3_iff.2 ⟨hop, rfl, rfl, rfl, rfl, rfl⟩)
  | 11, hop, h => by
    obtain ⟨h1, ⟨⟩⟩ := ok_of_check h
    exact singleton_eq (word_7_7_7_3_iff.2 ⟨hop, rfl, rfl, h1, rfl⟩)
  | 12, hop, h => by
    obtain ⟨h1, ⟨⟩⟩ := ok_of_check h
    exact singleton_eq (word_7_7_7_3_iff.2 ⟨hop, rfl, h1, rfl, rfl⟩)
  | 13, hop, h => by
    obtain ⟨h1, ⟨⟩⟩ := ok_of_check h
    exact singleton_eq (show w = 0x6D#8 ++ 0x0#7 ++ _ ++ _ ++ _ from word_7_7_7_3_iff.2 ⟨hop, h1, rfl, rfl, rfl⟩)

theorem encode_of_decodeL7 {w : Word} {i : Instr} : ∀ {low : Nat}, w.extractLsb' 24 8 = BitVec.ofNat 8 (0x70 + low) →
    decodeL7 low w = .ok i → encode i = [w]
  | 0, hop, h | 1, hop, h | 2, hop, h | 3, hop, h | 4, hop, h | 5, hop, h | 6, hop, h => by
    obtain rfl := Except.ok.inj h
    exact singleton_eq (word_7_7_10_iff.2 ⟨hop, rfl, rfl, rfl⟩)
  | 7, hop, h => by
    obtain rfl := Except.ok.inj h
    exact singleton_eq (word_7_17_iff.2 ⟨hop, rfl, rfl⟩)
  | 8, hop, h => by
    obtain rfl := Except.ok.inj h
    exact singleton_eq (word_4_3_7_10_iff.2 ⟨hop, rfl, rfl, rfl, rfl⟩)

theorem encode_of_decodeU0 {w : Word} {i : Instr} : ∀ {low : Nat}, w.extractLsb' 24 8 = BitVec.ofNat 8 (0x80 + low) →
    decodeU0 low w = .ok i → encode i = [w]
  | 0, hop, h | 1, hop, h | 2, hop, h | 3, hop, h | 4, hop, h | 5, hop, h | 6, hop, h | 7, hop, h | 8, hop, h
      | 9, hop, h | 10, hop, h | 11, hop, h | 12, hop, h => by
    obtain rfl := Except.ok.inj h
    exact singleton_eq (word_7_7_7_3_iff.2 ⟨hop, rfl, rfl, rfl, rfl⟩)
  | 13, hop, h | 14, hop, h | 15, hop, h => by
    obtain ⟨h1, ⟨⟩⟩ := ok_of_check h
    exact singleton_eq (word_7_7_7_3_iff.2 ⟨hop, rfl, rfl, h1, rfl⟩)

theorem encode_of_decodeU1 {w : Word} {i : Instr} : ∀ {low : Nat}, w.extractLsb' 24 8 = BitVec.ofNat 8 (0x90 + low) →
    decodeU1 low w = .ok i → encode i = [w]
  | 0, hop, h | 1, hop, h => by
    obtain rfl := Except.ok.inj h
    exact singleton_eq (word_3_21_iff.2 ⟨hop, rfl, rfl⟩)
  | 2, hop, h => by
    obtain ⟨h1, ⟨⟩⟩ := ok_of_check h
    exact singleton_eq (show w = 0x92#8 ++ 0x7#3 ++ _ from word_3_21_iff.2 ⟨hop, h1, rfl⟩)
  | 3, hop, h => by
    obtain ⟨h1, ⟨⟩⟩ := ok_of_check h
    exact singleton_eq (show w = 0x93#8 ++ 0x0#24 from word_24_iff.2 ⟨hop, h1⟩)
  | 4, hop, h => by
    obtain ⟨h1, ⟨⟩⟩ := ok_of_check h
    exact singleton_eq (show w = 0x94#8 ++ 0x0#3 ++ _ from word_3_21_iff.2 ⟨hop, h1, rfl⟩)
  | 5, hop, h => by
    obtain ⟨h1, ⟨⟩⟩ := ok_of_check h
    exact singleton_eq (show w = 0x95#8 ++ 0x0#24 from word_24_iff.2 ⟨hop, h1⟩)
  | 6, hop, h => by
    obtain ⟨h1, ⟨⟩⟩ := ok_of_check h
    exact singleton_eq (show w = 0x96#8 ++ 0x0#24 from word_24_iff.2 ⟨hop, h1⟩)
  | 7, hop, h => by
    obtain ⟨h1, ⟨⟩⟩ := ok_of_check h
    exact singleton_eq (show w = 0x97#8 ++ 0x0#24 from word_24_iff.2 ⟨hop, h1⟩)
  | 8, hop, h => by
    obtain ⟨h1, ⟨⟩⟩ := ok_of_check h
    exact singleton_eq (show w = 0x98#8 ++ 0x0#11 ++ _ ++ _ from word_11_7_6_iff.2 ⟨hop, h1, rfl, rfl⟩)
  | 9, hop, h | 10, hop, h | 12, hop, h | 13, hop, h => by
    obtain ⟨h1, ⟨⟩⟩ := ok_of_check h
    exact singleton_eq (word_4_20_iff.2 ⟨hop, rfl, h1⟩)
  | 11, hop, h => by
    obtain ⟨h1, rfl⟩ | h := ok_or_of_checks h
    · exact singleton_eq (word_4_20_iff.2 ⟨hop, rfl, h1⟩)
    · obtain ⟨h1, rfl⟩ | h := ok_or_of_checks h
      · exact singleton_eq (word_4_20_iff.2 ⟨hop, rfl, h1⟩)
      · obtain ⟨h1, ⟨⟩⟩ := ok_of_check h
        exact singleton_eq (word_4_20_iff.2 ⟨hop, rfl, h1⟩)
  | 14, hop, h | 15, hop, h => by
    obtain ⟨h1, ⟨⟩⟩ := ok_of_check h
    exact singleton_eq (word_4_7_7_6_iff.2 ⟨hop, rfl, rfl, h1, rfl⟩)

theorem encode_of_decodeU2 {w : Word} {i : Instr} : ∀ {low : Nat}, w.extractLsb' 24 8 = BitVec.ofNat 8 (0xA0 + low) →
    decodeU2 low w = .ok i → encode i = [w]
  | 0, hop, h => by
    obtain ⟨h1, ⟨⟩⟩ := ok_of_check h
    exact singleton_eq (word_4_7_7_1_2_3_iff.2 ⟨hop, rfl, rfl, rfl, h1, rfl, rfl⟩)
  | 1, hop, h => by
    obtain ⟨⟨h1, h2⟩, rfl⟩ | h := ok_or_of_checks h
    · exact singleton_eq (word_7_7_6_4_iff.2 ⟨hop, rfl, h1, rfl, h2⟩)
    · obtain ⟨⟨h1, h2⟩, ⟨⟩⟩ := ok_of_check h
      exact singleton_eq (show w = 0xA1#8 ++ 0x0#14 ++ _ ++ 0x1#4 from word_14_6_4_iff.2 ⟨hop, h1, rfl, h2⟩)
  | 2, hop, h => by
    obtain ⟨h1, ⟨⟩⟩ := ok_of_check h
    exact singleton_eq (word_7_7_6_4_iff.2 ⟨hop, rfl, h1, rfl, rfl⟩)
  | 3, hop, h => by
    obtain ⟨h1, ⟨⟩⟩ := ok_of_check h
    exact singleton_eq (word_7_7_10_iff.2 ⟨hop, rfl, h1, rfl⟩)
  | 4, hop, h => by
    obtain ⟨h1, ⟨⟩⟩ := ok_of_check h
    exact singleton_eq (show w = 0xA4#8 ++ 0x0#7 ++ _ ++ _ from word_7_7_10_iff.2 ⟨hop, h1, rfl, rfl⟩)
  | 5, hop, h | 8, hop, h => by
    obtain ⟨h1, ⟨⟩⟩ := ok_of_check h
    exact singleton_eq (word_7_7_10_iff.2 ⟨hop, rfl, rfl, h1⟩)
  | 6, hop, h => by
    obtain ⟨h1, rfl⟩ | h := ok_or_of_checks h
    · exact singleton_eq (word_7_7_10_iff.2 ⟨hop, rfl, rfl, h1⟩)
    · obtain ⟨h1, ⟨⟩⟩ := ok_of_check h
      exact singleton_eq (word_7_7_10_iff.2 ⟨hop, rfl, rfl, h1⟩)
  | 7, hop, h => by
    obtain ⟨h1, rfl⟩ | h := ok_or_of_checks h
    · exact singleton_eq (word_7_7_7_3_iff.2 ⟨hop, rfl, rfl, rfl, h1⟩)
    · obtain ⟨h1, ⟨⟩⟩ := ok_of_check h
      exact singleton_eq (word_7_7_7_3_iff.2 ⟨hop, rfl, rfl, rfl, h1⟩)
  | 9, hop, h => by
    obtain ⟨h1, ⟨⟩⟩ := ok_of_check h
    exact singleton_eq (word_7_17_iff.2 ⟨hop, rfl, h1⟩)
  | 10, hop, h => by
    obtain ⟨⟨h1, h2⟩, ⟨⟩⟩ := ok_of_check h
    exact singleton_eq (show w = 0xAA#8 ++ 0x0#7 ++ _ ++ _ ++ 0x0#3 from word_7_7_7_3_iff.2 ⟨hop, h1, rfl, rfl, h2⟩)
  | 11, hop, h | 12, hop, h | 13, hop, h => by
    obtain ⟨h1, ⟨⟩⟩ := ok_of_check h
    exact singleton_eq (word_7_7_6_4_iff.2 ⟨hop, rfl, rfl, rfl, h1⟩)
  | 14, hop, h => by
    obtain ⟨h1, ⟨⟩⟩ := ok_of_check h
    exact singleton_eq (show w = 0xAE#8 ++ 0x0#24 from word_24_iff.2 ⟨hop, h1⟩)
  | 15, hop, h => by
    obtain ⟨h1, ⟨⟩⟩ := ok_of_check h
    exact singleton_eq (show w = 0xAF#8 ++ 0x0#24 from word_24_iff.2 ⟨hop, h1⟩)

theorem encode_of_decodeU3 {w : Word} {i : Instr} : ∀ {low : Nat}, w.extractLsb' 24 8 = BitVec.ofNat 8 (0xB0 + low) →
    decodeU3 low w = .ok i → encode i = [w]
  | 0, hop, h => by
    obtain ⟨h1, ⟨⟩⟩ := ok_of_check h
    exact singleton_eq (show w = 0xB0#8 ++ 0x0#24 from word_24_iff.2 ⟨hop, h1⟩)
  | 1, hop, h | 2, hop, h | 3, hop, h | 4, hop, h => by
    obtain ⟨h1, ⟨⟩⟩ := ok_of_check h
    exact singleton_eq (word_7_7_6_4_iff.2 ⟨hop, rfl, rfl, rfl, h1⟩)
  | 5, hop, h | 9, hop, h => by
    obtain rfl := Except.ok.inj h
    exact singleton_eq (word_7_7_6_4_iff.2 ⟨hop, rfl, rfl, rfl, rfl⟩)
  | 6, hop, h => by
    obtain ⟨⟨h1, h2⟩, ⟨⟩⟩ := ok_of_check h
    exact singleton_eq (show w = 0xB6#8 ++ 0x0#7 ++ _ ++ _ ++ 0x0#3 from word_7_7_7_3_iff.2 ⟨hop, h1, rfl, rfl, h2⟩)
  | 7, hop, h => by
    obtain ⟨⟨h1, h2⟩, ⟨⟩⟩ := ok_of_check h
    exact singleton_eq (show w = 0xB7#8 ++ 0x0#7 ++ _ ++ 0x0#10 from word_7_7_10_iff.2 ⟨hop, h1, rfl, h2⟩)
  | 8, hop, h => by
    obtain ⟨⟨h1, h2⟩, ⟨⟩⟩ := ok_of_check h
    exact singleton_eq (word_7_7_6_1_3_iff.2 ⟨hop, rfl, h1, rfl, h2, rfl⟩)
  | 10, hop, h => by
    obtain ⟨h1, ⟨⟩⟩ := ok_of_check h
    exact singleton_eq (word_7_7_6_4_iff.2 ⟨hop, rfl, h1, rfl, rfl⟩)
  | 11, hop, h => by
    obtain ⟨⟨h1, h2⟩, ⟨⟩⟩ := ok_of_check h
    exact singleton_eq (show w = 0xBB#8 ++ 0x0#7 ++ _ ++ _ ++ 0x0#3 from word_7_7_7_3_iff.2 ⟨hop, h1, rfl, rfl, h2⟩)
  | 12, hop, h => by
    obtain ⟨h1, ⟨⟩⟩ := ok_of_check h
    exact singleton_eq (word_7_7_10_iff.2 ⟨hop, rfl, rfl, h1⟩)

theorem encode_of_decodeU4 {w : Word} {i : Instr} : ∀ {low : Nat}, w.extractLsb' 24 8 = BitVec.ofNat 8 (0xC0 + low) →
    decodeU4 low w = .ok i → encode i = [w]
  | 0, hop, h | 1, hop, h | 2, hop, h | 3, hop, h | 4, hop, h | 6, hop, h => by
    obtain ⟨h1, ⟨⟩⟩ := ok_of_check h
    exact singleton_eq (word_7_7_6_4_iff.2 ⟨hop, rfl, rfl, rfl, h1⟩)
  | 5, hop, h => by
    obtain ⟨h1, ⟨⟩⟩ := ok_of_check h
    exact singleton_eq (word_7_7_6_3_1_iff.2 ⟨hop, rfl, rfl, rfl, h1, rfl⟩)
  | 7, hop, h => by
    obtain ⟨h1, ⟨⟩⟩ := ok_of_check h
    exact singleton_eq (show w = 0xC7#8 ++ 0x0#14 ++ _ ++ _ from word_14_6_4_iff.2 ⟨hop, h1, rfl, rfl⟩)
  | 8, hop, h | 9, hop, h => by
    obtain ⟨⟨h1, h2⟩, ⟨⟩⟩ := ok_of_check h
    exact singleton_eq (word_7_7_6_3_1_iff.2 ⟨hop, rfl, h1, rfl, h2, rfl⟩)
  | 10, hop, h => by
    obtain ⟨h1, ⟨⟩⟩ := ok_of_check h
    exact singleton_eq (word_7_7_6_4_iff.2 ⟨hop, rfl, h1, rfl, rfl⟩)

theorem encode_of_decodeU5 {w : Word} {i : Instr} : ∀ {low : Nat}, w.extractLsb' 24 8 = BitVec.ofNat 8 (0xD0 + low) →
    decodeU5 low w = .ok i → encode i = [w]
  | 0, hop, h => by
    obtain ⟨h1, rfl⟩ | h := ok_or_of_checks h
    · exact singleton_eq (word_5_7_12_iff.2 ⟨hop, rfl, rfl, h1⟩)
    · obtain ⟨h1, ⟨⟩⟩ := ok_of_check h
      exact singleton_eq (word_5_16_1_2_iff.2 ⟨hop, rfl, h1, rfl, rfl⟩)
  | 1, hop, h => by
    obtain ⟨h1, ⟨⟩⟩ := ok_of_check h
    exact singleton_eq (word_5_19_iff.2 ⟨hop, rfl, h1⟩)
  | 2, hop, h | 8, hop, h | 13, hop, h => by
    obtain ⟨h1, ⟨⟩⟩ := ok_of_check h
    exact singleton_eq (word_5_7_12_iff.2 ⟨hop, rfl, rfl, h1⟩)
  | 3, hop, h | 5, hop, h => by
    obtain ⟨h1, ⟨⟩⟩ := ok_of_check h
    exact singleton_eq (word_5_7_6_5_1_iff.2 ⟨hop, rfl, rfl, rfl, h1, rfl⟩)
  | 4, hop, h | 6, hop, h => by
    obtain ⟨h1, ⟨⟩⟩ := ok_of_check h
    exact singleton_eq (word_5_7_6_6_iff.2 ⟨hop, rfl, rfl, rfl, h1⟩)
  | 7, hop, h => by
    obtain ⟨h1, ⟨⟩⟩ := ok_of_check h
    exact singleton_eq (word_5_5_5_5_4_iff.2 ⟨hop, rfl, rfl, rfl, h1, rfl⟩)
  | 9, hop, h => by
    obtain ⟨h1, ⟨⟩⟩ := ok_of_check h
    exact singleton_eq (word_5_5_5_7_1_1_iff.2 ⟨hop, rfl, rfl, rfl, h1, rfl, rfl⟩)
  | 10, hop, h | 11, hop, h => by
    obtain ⟨h1, ⟨⟩⟩ := ok_of_check h
    exact singleton_eq (word_5_5_14_iff.2 ⟨hop, rfl, rfl, h1⟩)
  | 12, hop, h => by
    obtain ⟨h1, ⟨⟩⟩ := ok_of_check h
    exact singleton_eq (word_5_5_12_2_iff.2 ⟨hop, rfl, rfl, h1, rfl⟩)
  | 14, hop, h => by
    obtain ⟨h1, ⟨⟩⟩ := ok_of_check h
    exact singleton_eq (word_5_7_11_1_iff.2 ⟨hop, rfl, rfl, h1, rfl⟩)

theorem encode_of_decodeU6 {w : Word} {i : Instr} : ∀ {low : Nat}, w.extractLsb' 24 8 = BitVec.ofNat 8 (0xE0 + low) →
    decodeU6 low w = .ok i → encode i = [w]
  | 0, hop, h => by
    obtain ⟨h1, ⟨⟩⟩ := ok_of_check h
    exact singleton_eq (word_5_5_5_5_1_1_1_1_iff.2 ⟨hop, rfl, rfl, rfl, rfl, h1, rfl, rfl, rfl⟩)
  | 1, hop, h => by
    obtain ⟨h1, ⟨⟩⟩ := ok_of_check h
    exact singleton_eq (word_5_7_12_iff.2 ⟨hop, rfl, rfl, h1⟩)
  | 2, hop, h => by
    obtain ⟨h1, ⟨⟩⟩ := ok_of_check h
    exact singleton_eq (word_5_7_6_6_iff.2 ⟨hop, rfl, rfl, rfl, h1⟩)
  | 3, hop, h => by
    obtain ⟨⟨h1, h2⟩, rfl⟩ | h := ok_or_of_checks h
    · exact singleton_eq (word_5_5_5_5_4_iff.2 ⟨hop, rfl, rfl, h1, rfl, h2⟩)
    · obtain ⟨h1, ⟨⟩⟩ := ok_of_check h
      exact singleton_eq (word_5_5_14_iff.2 ⟨hop, rfl, rfl, h1⟩)
  | 4, hop, h => by
    obtain ⟨h1, ⟨⟩⟩ := ok_of_check h
    exact singleton_eq (word_5_5_5_5_4_iff.2 ⟨hop, rfl, rfl, rfl, h1, rfl⟩)
  | 5, hop, h => by
    obtain ⟨h1, ⟨⟩⟩ := ok_of_check h
    exact singleton_eq (word_5_7_6_3_3_iff.2 ⟨hop, rfl, rfl, rfl, h1, rfl⟩)
  | 8, hop, h => by
    obtain ⟨h1, rfl⟩ | h := ok_or_of_checks h
    · exact singleton_eq (show w = 0xE8#8 ++ 0x0#15 ++ _ from word_15_9_iff.2 ⟨hop, h1, rfl⟩)
    · obtain ⟨h1, ⟨⟩⟩ := ok_of_check h
      exact singleton_eq (show w = 0xE8#8 ++ 0x3FF#24 from word_24_iff.2 ⟨hop, h1⟩)
  | 9, hop, h => by
    obtain ⟨h1, ⟨⟩⟩ := ok_of_check h
    exact singleton_eq (show w = 0xE9#8 ++ 0x0#24 from word_24_iff.2 ⟨hop, h1⟩)
  | 10, hop, h => by
    obtain rfl := Except.ok.inj h
    exact singleton_eq (word_7_7_10_iff.2 ⟨hop, rfl, rfl, rfl⟩)
  | 11, hop, h => by
    obtain ⟨h1, ⟨⟩⟩ := ok_of_check h
    exact singleton_eq (word_7_7_10_iff.2 ⟨hop, rfl, rfl, h1⟩)
  | 12, hop, h => by
    obtain ⟨⟨h1, h2⟩, rfl⟩ | h := ok_or_of_checks h
    · exact singleton_eq (word_4_7_7_6_iff.2 ⟨hop, rfl, h1, rfl, h2⟩)
    · obtain ⟨h1, ⟨⟩⟩ := ok_of_check h
      exact singleton_eq (word_4_20_iff.2 ⟨hop, rfl, h1⟩)
  | 13, hop, h => by
    obtain ⟨h1, ⟨⟩⟩ := ok_of_check h
    exact singleton_eq (show w = 0xED#8 ++ 0x0#24 from word_24_iff.2 ⟨hop, h1⟩)
  | 14, hop, h => by
    obtain ⟨h1, ⟨⟩⟩ := ok_of_check h
    exact singleton_eq (word_7_17_iff.2 ⟨hop, rfl, h1⟩)
  | 15, hop, h => by
    obtain ⟨h1, ⟨⟩⟩ := ok_of_check h
    exact singleton_eq (show w = 0xEF#8 ++ 0x0#24 from word_24_iff.2 ⟨hop, h1⟩)

theorem encode_of_decodeU7 {w : Word} {i : Instr} : ∀ {low : Nat}, w.extractLsb' 24 8 = BitVec.ofNat 8 (0xF0 + low) →
    decodeU7 low w = .ok i → encode i = [w]
  | 0, hop, h | 1, hop, h | 2, hop, h | 3, hop, h | 4, hop, h | 5, hop, h | 6, hop, h | 8, hop, h | 9, hop, h => by
    obtain rfl := Except.ok.inj h
    exact singleton_eq (word_7_7_10_iff.2 ⟨hop, rfl, rfl, rfl⟩)
  | 7, hop, h => by
    obtain rfl := Except.ok.inj h
    exact singleton_eq (word_7_17_iff.2 ⟨hop, rfl, rfl⟩)
/-- The opcode byte is its row and its column (R74). -/
theorem opcode_eq (w : Word) :
    w.extractLsb' 24 8 = BitVec.ofNat 8 (16 * (w.extractLsb' 28 4).toNat + (w.extractLsb' 24 4).toNat) := by
  refine BitVec.eq_of_toNat_eq ?_
  simp only [BitVec.extractLsb'_toNat, BitVec.toNat_ofNat, Nat.shiftRight_eq_div_pow]
  omega

theorem encode_of_decodeOne {w : Word} {i : Instr} (h : decodeOne w = .ok i) : encode i = [w] := by
  have hop := opcode_eq w
  have hrow : (w.extractLsb' 28 4).toNat < 16 := (w.extractLsb' 28 4).isLt
  unfold decodeOne at h
  generalize (w.extractLsb' 24 4).toNat = low at h hop
  generalize (w.extractLsb' 28 4).toNat = row at h hop hrow
  match row, hrow with
  | 0, _ => exact encode_of_decodeL0 hop h
  | 1, _ => exact encode_of_decodeL1 hop h
  | 2, _ => exact encode_of_decodeL2 hop h
  | 3, _ => exact encode_of_decodeL3 hop h
  | 4, _ => exact encode_of_decodeL4 hop h
  | 5, _ => exact encode_of_decodeL5 hop h
  | 6, _ => exact encode_of_decodeL6 hop h
  | 7, _ => exact encode_of_decodeL7 hop h
  | 8, _ => exact encode_of_decodeU0 hop h
  | 9, _ => exact encode_of_decodeU1 hop h
  | 10, _ => exact encode_of_decodeU2 hop h
  | 11, _ => exact encode_of_decodeU3 hop h
  | 12, _ => exact encode_of_decodeU4 hop h
  | 13, _ => exact encode_of_decodeU5 hop h
  | 14, _ => exact encode_of_decodeU6 hop h
  | 15, _ => exact encode_of_decodeU7 hop h
  | _ + 16, hrow => exact absurd hrow (by omega)

/-! ### Two words and more -/

/-- The opcode byte of a second word, as the decoder matches on it. -/
theorem byte_eq {x : Word} {k : Nat} (h : (x.extractLsb' 24 8).toNat = k) : x.extractLsb' 24 8 = BitVec.ofNat 8 k := by
  rw [← h, BitVec.ofNat_toNat, BitVec.setWidth_eq]

theorem encode_of_decodeLX {w x : Word} {rest : List Word} {i : Instr} {n : Nat} (hop : w.extractLsb' 24 8 = lxByte)
    (h : decodeLX w x rest = .ok (i, n)) : encode i = (w :: x :: rest).take n ∧ n = i.words := by
  unfold decodeLX at h
  split at h
  case h_1 hx =>
    obtain ⟨⟨h1, h2⟩, h⟩ := ok_of_check h
    split at h <;> cases h
    exact ⟨pair_eq (word_7_14_3_iff.2 ⟨hop, rfl, h1, rfl⟩)
      (show x = 0x0#8 ++ 0x0#24 from word_24_iff.2 ⟨byte_eq hx, h2⟩) _, rfl⟩
  case h_2 hx | h_3 hx =>
    obtain ⟨h1, ⟨⟩⟩ := ok_of_check h
    exact ⟨pair_eq (word_7_7_7_3_iff.2 ⟨hop, rfl, rfl, h1, rfl⟩)
      (word_7_6_4_5_2_iff.2 ⟨byte_eq hx, rfl, rfl, rfl, rfl, rfl⟩) _, rfl⟩
  case h_4 hx | h_5 hx =>
    obtain ⟨h1, ⟨⟩⟩ := ok_of_check h
    exact ⟨pair_eq (word_7_7_7_3_iff.2 ⟨hop, rfl, rfl, rfl, rfl⟩)
      (word_7_6_4_5_2_iff.2 ⟨byte_eq hx, rfl, rfl, rfl, h1, rfl⟩) _, rfl⟩
  case h_6 => cases h

theorem encode_of_decodeUX {w x : Word} {rest : List Word} {i : Instr} {n : Nat} (hop : w.extractLsb' 24 8 = uxByte)
    (h : decodeUX w x rest = .ok (i, n)) : encode i = (w :: x :: rest).take n ∧ n = i.words := by
  obtain ⟨⟨h1, h2⟩, h⟩ := ok_of_check h
  have hlow (h3 : w.extractLsb' 10 7 = 0#7) : w.extractLsb' 0 17 = 0#17 :=
    (BitVec.extractLsb'_append_extractLsb'_eq_extractLsb' (len₂ := 7) rfl).symm.trans (by rw [h1, h3])
  have hsecond {k : Nat} (hx : (x.extractLsb' 24 8).toNat = k) : x = BitVec.ofNat 8 k ++ 0#24 :=
    word_24_iff.2 ⟨byte_eq hx, h2⟩
  split at h
  case h_1 hx _ =>
    obtain ⟨h3, ⟨⟩⟩ := ok_of_check h
    exact ⟨pair_eq (word_7_17_iff.2 ⟨hop, rfl, hlow h3⟩) (hsecond hx) _, rfl⟩
  case h_2 lo hi _ hx _ =>
    obtain ⟨h3, ⟨⟩⟩ := ok_of_check h
    have hwords := pair_eq (word_7_17_iff.2 ⟨hop, rfl, hlow h3⟩) (hsecond hx) [lo, hi]
    refine ⟨(congrArg (fun l => _ :: _ :: l) ?_).trans hwords, rfl⟩
    rw [BitVec.extractLsb'_append_eq_right, BitVec.extractLsb'_append_eq_left]
  case h_3 hx _ | h_4 hx _ | h_5 hx _ | h_6 hx _ =>
    obtain ⟨⟩ := h
    exact ⟨pair_eq (word_7_7_10_iff.2 ⟨hop, rfl, rfl, h1⟩) (hsecond hx) _, rfl⟩
  case h_7 => split at h <;> cases h

/-- What decodes is what its instruction encodes to. -/
theorem encode_of_decodeWords {ws : List Word} {i : Instr} {n : Nat} (h : decodeWords ws = .ok (i, n)) :
    encode i = ws.take n ∧ n = i.words := by
  match ws with
  | [] => cases h
  | w :: rest =>
    by_cases hlx : w.extractLsb' 24 8 = lxByte
    · match rest with
      | [] => cases (if_pos hlx).symm.trans h
      | x :: rest => exact encode_of_decodeLX hlx ((decodeWords_lx hlx x rest).symm.trans h)
    by_cases hux : w.extractLsb' 24 8 = uxByte
    · match rest with
      | [] => cases ((if_neg hlx).trans (if_pos hux)).symm.trans h
      | x :: rest => exact encode_of_decodeUX hux ((decodeWords_ux hux x rest).symm.trans h)
    rw [decodeWords_one rfl ⟨hlx, hux⟩, ← decodeOne_eq] at h
    cases hone : decodeOne w with
    | error e => rw [hone] at h; cases h
    | ok j =>
      rw [hone] at h
      cases h
      have henc := encode_of_decodeOne hone
      exact ⟨henc, by rw [Instr.words, henc]; rfl⟩

end Sys2Proof

namespace Sys2Proof

/-- Settles O49: each instruction by the layout of its words, and each row of the opcode maps by the fields that it reads. -/
theorem decodeEncode : Obligations.DecodeEncode :=
  ⟨fun i _ h _ => decodeWords_encode i h, fun _ _ _ => encode_of_decodeWords⟩

end Sys2Proof
end

section
/-! SUPPORT. Words of each instruction set, decoded (R64 to R78). -/

namespace Sys2Proof

/-- Settles O50: each word is evaluated by the decoder. -/
theorem decodedWords : Obligations.DecodedWords := by
  refine ⟨?_, ?_, ?_, ?_, ?_, ?_, ?_, ?_, ?_, ?_, ?_, ?_⟩ <;> rfl

end Sys2Proof
end

section
/-! SUPPORT. Where a jump, a call and a return send a fragment (R161 to R164). -/

namespace Sys2Proof

open Sys2Proof.Machine

/-- Settles O13: each of the four is its clause of the model with the target as R158 gives it. -/
theorem jumpsAndCalls : Obligations.JumpsAndCalls := by
  intro s c off hr
  obtain ⟨-, hs, -⟩ := issuer_spec hr
  refine ⟨?jump, ?jumpIf, ?call, ?ret, ?reconv⟩
  case jump =>
    show execJmp 7#3 off s = _
    rw [execJmp, onAny_eq hr, if_pos rfl, Ctx.jump, Ctx.setEntry, Ctx.target_eq, hs]
    rfl
  case jumpIf =>
    intro r w hr7 hw
    show execJmp r off s = _
    rw [execJmp, onAny_eq hr, if_neg hr7, params_of_paramIs hw, Ctx.jump, Ctx.setEntry, Ctx.target_eq, hs]
    by_cases hzero : w = 0#32
    · rw [if_neg (by simp [hzero]), if_pos hzero]
      rfl
    · rw [if_pos (by simpa using hzero), if_neg hzero]
      rfl
  case call =>
    intro hroom
    have hfull : ¬ Config.maxStack ≤ c.en.stack.length := Nat.not_le.mpr hroom
    show execCall off s = _
    rw [execCall, onAny_eq hr, if_neg hfull, Ctx.setEntry, Ctx.target_eq, hs]
    rfl
  case ret =>
    intro pc rest hstack
    show execRet s = _
    rw [execRet, onAny_eq hr, ← hs]
    simp only [hstack]
    rfl
  case reconv =>
    intro hwarp
    show execReconv off s = _
    rw [execReconv, onWarp_eq ⟨hr, hwarp⟩, Ctx.setEntry, Ctx.target_eq, hs]
    rfl

end Sys2Proof
end

section
/-! SUPPORT. Which agents run an instruction, and the traps of those that do not: SEQ_ONLY, ILLEGAL, PRIV, LEVEL and MEMBER
(R79, R81, R171, R175, R335, R345, R347). Each instruction is classed by the wrapper that its meaning is given in. -/

namespace Sys2Proof

open Sys2Proof.Machine

/-! ### The wrapper of each instruction -/

/-- An instruction of warps alone is given its meaning under the check that a warp runs it. -/
theorem exec_eq_onWarp {i : Instr} (h : warpOnly i = true) (s : State) : ∃ k, exec i s = onWarp s i.words k := by
  cases i
  case iadd | isub | imul | imulhI32 | imulhN32 | imad | iminI32 | iminN32 | imaxI32 | imaxN32 | land | lor | lxor | andn
    | shl | shrN | shrI | rot | popc | clz | brev | bfx | bfi | bsel | iadd64 | isub64 | imul64 | icmp | fcmp32 | fcmp64
    | bra | exit | fadd | fsub | fmul | ffma | fmin | fmax | fnegabs | frcp | frsq | fsqrt | fdiv | fexp2 | flog2 | fsigm
    | fclass | fscalb | dadd | dsub | dmul | dfma | dmin | dmax | ddiv | dsqrt | drcp | drsq | dclass | dscalb | hadd2
    | hfma2 | badd2 | bfma2 | cvt | pack | unpk | cvtsF16 | cvtsBf16 | cvtsE4m3 | cvtsE5m2 | cvtsE2m1 | mov | selbF32
    | selbF64 | selbBf16x2 | shape | movp | rand | pcmp32 | pcmp64 | plog | collapse | pgrad | psum | pconst | pquery
    | lmask | xlane | redux | scan | rebal | wsort | matchLanes | elect | ld8 | ld16 | ld32 | ld64 | ld128 | st8 | st16
    | st32 | st64 | st128 | cstore | lookup | spop | spush | movi32 | atom32 | atom64 | cas32 | cas64 | iaddi | andi | ori
    | xori | shli | shriN | shriI | movi | icmpi | bru | reconv | bar | tbar | coll | wide | endwide | dsync | tktake
    | tkpass =>
    exact ⟨_, rfl⟩
  all_goals exact absurd h Bool.false_ne_true

/-- An instruction of the tile sequencer alone is one word, given its meaning under the check that its context runs it. -/
theorem exec_eq_onTile {i : Instr} (h : tileOnly i = true) (s : State) : ∃ k, exec i s = onTile s 1 k := by
  cases i
  case commit | mmaF64 | mmaBf16 | mmaF16 | mmaE4m3 | mmaE5m2 | mmaB1 | mmaI8 | accz | accld | accst | acccvt | tnew
    | tnewImm | tfree | tslab | tload | tstore | tlrld | tlrst | tadd | tscal | tmul | tround | tcomp | tdense | tinfo
    | tnorm | tgemm | tchol | tlu | tqr | tqrR | ttrsm | tmv =>
    exact ⟨_, rfl⟩
  all_goals exact absurd h Bool.false_ne_true

/-- An instruction that names a level checks it before anything else but who runs it. -/
theorem exec_eq_withLevel {i : Instr} {l : BitVec 4} (h : levelOf i = some l) (s : State) :
    ∃ k : Ctx → Done, if warpOnly i = true then exec i s = onWarp s i.words (fun c => c.withLevel l.toNat (k c))
      else exec i s = onAny s i.words fun c => c.withLevel l.toNat (k c) := by
  cases i
  case tbar | coll | atom32 | atom64 | cas32 | cas64 =>
    cases h
    exact ⟨_, (if_pos rfl).mpr rfl⟩
  case phase | fenceAr | fenceRel | fenceAcq | tfence | ifence | levelId | levelSize | tlbinv | tlbinvAll =>
    cases h
    exact ⟨_, (if_neg Bool.false_ne_true).mpr rfl⟩
  all_goals cases h

/-! ### The traps of the wrappers -/

section

variable {s : State} {c : Ctx} (hr : Runs s c)
include hr

/-- An instruction whose meaning is a trap from the state in which it issued takes that trap. -/
theorem onAny_trap (len : Nat) (k : Ctx → Done) (t : Trap) (hk : k c = .trap c.s t) :
    onAny s len k = .next (trapped c s len t) := by
  obtain ⟨-, hs, -⟩ := issuer_spec hr
  rw [onAny_eq hr, hk, hs]
  rfl

theorem onWarp_of_not_warp (len : Nat) (k : Ctx → Done) (hkind : c.ag.kind ≠ .warp) :
    onWarp s len k = .next (trapped c s len (trapHere c 0x01)) :=
  onAny_trap hr len _ _ (if_neg hkind)

theorem onTile_of_warp (len : Nat) (k : Ctx → Done) (hkind : c.ag.kind = .warp) :
    onTile s len k = .next (trapped c s len (trapHere c 0x02)) :=
  onAny_trap hr len _ _ (by rw [hkind]; rfl)

theorem onTile_of_copySeq (len : Nat) (k : Ctx → Done) (hkind : c.ag.kind = .copySeq) :
    onTile s len k = .next (trapped c s len (trapHere c 0x01)) :=
  onAny_trap hr len _ _ (by rw [hkind]; rfl)

/-- A warp's instruction takes the trap that its meaning gives. -/
theorem onWarp_trap (len : Nat) (k : Ctx → Done) (t : Trap) (hkind : c.ag.kind = .warp) (hk : k c = .trap c.s t) :
    onWarp s len k = .next (trapped c s len t) :=
  onAny_trap hr len _ _ ((if_pos hkind).trans hk)

end

/-- The LEVEL trap of a level index. -/
def levelTrapOf (c : Ctx) (l : Nat) : Trap := { trapIn c 0x07 c.act 0 0 with level := some l }

theorem withLevel_of_undeclared {c : Ctx} {l : Nat} (h : c.depth ≤ l) (k : Done) :
    c.withLevel l k = .trap c.s (levelTrapOf c l) :=
  if_pos h

theorem withLevel_of_declared {c : Ctx} {l : Nat} (h : l < c.depth) (k : Done) : c.withLevel l k = k :=
  if_neg (Nat.not_le.mpr h)

theorem outsideHandler_of_handler {c : Ctx} (h : c.ag.frames ≠ []) (k : Done) :
    c.outsideHandler k = .trap c.s (trapIn c 0x15 c.act 0 0) :=
  if_neg h

theorem outsideHandler_of_no_handler {c : Ctx} (h : c.ag.frames = []) (k : Done) : c.outsideHandler k = k :=
  if_pos h

/-! ### The statement -/

/-- What an instruction does that names a level which the tree does not declare (R81). -/
theorem exec_of_undeclared {s : State} {c : Ctx} {i : Instr} {l : BitVec 4} (hr : Runs s c) (hl : levelOf i = some l)
    (hdepth : c.depth ≤ l.toNat) (hwarp : warpOnly i = true → c.ag.kind = .warp) :
    exec i s = .next (trapped c s i.words (levelTrapOf c l.toNat)) := by
  obtain ⟨k, hk⟩ := exec_eq_withLevel hl s
  by_cases hw : warpOnly i = true
  · rw [(if_pos hw).mp hk]
    exact onWarp_trap hr _ _ _ (hwarp hw) (withLevel_of_undeclared hdepth _)
  · rw [(if_neg hw).mp hk]
    exact onAny_trap hr _ _ _ (withLevel_of_undeclared hdepth _)

/-- PRIV outside a handler (R343, R345). -/
theorem exec_of_handlerOnly {s : State} {c : Ctx} {i : Instr} {d r : Reg} (hr : Runs s c) (hframes : c.ag.frames = [])
    (hi : i = .tret ∨ i = .trapEsc ∨ i = .pgmap d r) : exec i s = .next (trapped c s 1 (trapHere c 0x03)) := by
  obtain rfl | rfl | rfl := hi
  case inl => exact onAny_trap hr _ _ _ (by rw [hframes]; rfl)
  case inr.inl => exact onAny_trap hr _ _ _ (if_pos hframes)
  case inr.inr => exact onAny_trap hr _ _ _ (if_pos hframes)

/-- MEMBER in a handler (R171, R175). -/
theorem exec_of_notInHandler {s : State} {c : Ctx} {i : Instr} {r vd va : Reg} {n : BitVec 6} {l : BitVec 4} {k : BitVec 2}
    {op : BitVec 3} (hr : Runs s c) (hkind : c.ag.kind = .warp) (hframes : c.ag.frames ≠ [])
    (hi : i = .bar r n ∨ (l.toNat < c.depth ∧ (i = .tbar l ∨ i = .coll l vd va k op))) :
    exec i s = .next (trapped c s 1 (trapIn c 0x15 c.act 0 0)) := by
  obtain rfl | ⟨hdecl, rfl | rfl⟩ := hi
  case inl => exact onWarp_trap hr _ _ _ hkind (outsideHandler_of_handler hframes _)
  case inr.inl =>
    exact onWarp_trap hr _ _ _ hkind ((withLevel_of_declared hdecl _).trans (outsideHandler_of_handler hframes _))
  case inr.inr =>
    exact onWarp_trap hr _ _ _ hkind ((withLevel_of_declared hdecl _).trans (outsideHandler_of_handler hframes _))

/-- Settles O47: each trap is the one of the wrapper or of the first check of its instruction. -/
theorem agentLimits : Obligations.AgentLimits := by
  intro s c i hr
  refine ⟨?tileOnWarp, ?tileOnCopy, ?warpOnSequencer, ?halt, ?priv, ?level, ?lanes, ?member⟩
  case tileOnWarp =>
    intro hi hkind
    obtain ⟨k, hk⟩ := exec_eq_onTile hi s
    rw [hk, onTile_of_warp hr _ _ hkind]
  case tileOnCopy =>
    intro hi hkind
    obtain ⟨k, hk⟩ := exec_eq_onTile hi s
    rw [hk, onTile_of_copySeq hr _ _ hkind]
  case warpOnSequencer =>
    intro hi hkind
    obtain ⟨k, hk⟩ := exec_eq_onWarp hi s
    rw [hk, onWarp_of_not_warp hr _ _ hkind]
  case halt => exact fun hkind => onAny_trap hr _ _ _ (if_pos (by rw [Ctx.isWarp, hkind]; rfl))
  case priv => exact fun d r hframes hi => exec_of_handlerOnly hr hframes hi
  case level => exact fun l hl hdepth hwarp => exec_of_undeclared hr hl hdepth hwarp
  case lanes =>
    rintro l vd va k op hkind rfl hdecl hframes hlane
    refine onWarp_trap hr _ _ _ hkind ((withLevel_of_declared hdecl _).trans ?_)
    exact (outsideHandler_of_no_handler hframes _).trans (if_pos hlane)
  case member => exact fun r n l vd va k op hkind hframes hi => exec_of_notInHandler hr hkind hframes hi

end Sys2Proof
end

section
/-! SUPPORT. What the releases that an agent waits for leave as it was: where each agent stands (R221, R223, R227). -/

namespace Sys2Proof.Machine

/-! ### Lists of units of which one part stays -/

/-- A part of an element that a change of one element keeps. -/
theorem getD_modify_part {α β : Type} (part : α → β) (f : α → α) (hf : ∀ x, part (f x) = part x) (l : List α)
    (k n : Nat) (d : α) : part ((l.modify k f).getD n d) = part (l.getD n d) := by
  simp only [List.getD_eq_getElem?_getD, List.getElem?_modify]
  cases l[n]? with
  | none => rfl
  | some x => by_cases hk : k = n <;> simp [hk, hf]

/-- A part of an element that a change of every element by its place keeps. -/
theorem getD_zipIdx_map_part {α β : Type} (part : α → β) (f : α × Nat → α) (hf : ∀ x i, part (f (x, i)) = part x)
    (l : List α) (n : Nat) (d : α) : part ((l.zipIdx.map f).getD n d) = part (l.getD n d) := by
  simp only [List.getD_eq_getElem?_getD, List.getElem?_map, List.getElem?_zipIdx]
  cases l[n]? with
  | none => rfl
  | some x => simp [hf]

/-! ### Where the agents stand -/

/-- Nothing moves from s to t: the agents keep their teams and split tables, the teams their cores and tasks, the tasks stay as
they are, and so do the translations asked for. -/
structure SameStanding (s t : State) : Prop where
  asked : t.asked = s.asked
  tasks : t.tasks = s.tasks
  core : ∀ n, (t.team n).core = (s.team n).core
  task : ∀ n, (t.team n).task = (s.team n).task
  team : ∀ a, (t.agent a).team = (s.agent a).team
  entries : ∀ a, (t.agent a).entries = (s.agent a).entries

namespace SameStanding

variable {s t u : State}

/-- A change beside the agents, the teams, the tasks and the translations asked for. -/
theorem of_eq (hagents : t.agents = s.agents) (hteams : t.teams = s.teams) (htasks : t.tasks = s.tasks)
    (hasked : t.asked = s.asked) : SameStanding s t where
  asked := hasked
  tasks := htasks
  core n := by rw [State.team, hteams, State.team]
  task n := by rw [State.team, hteams, State.team]
  team a := by rw [State.agent, hagents, State.agent]
  entries a := by rw [State.agent, hagents, State.agent]

theorem refl (s : State) : SameStanding s s := of_eq rfl rfl rfl rfl

theorem trans (h : SameStanding s t) (h' : SameStanding t u) : SameStanding s u where
  asked := h'.asked.trans h.asked
  tasks := h'.tasks.trans h.tasks
  core n := (h'.core n).trans (h.core n)
  task n := (h'.task n).trans (h.task n)
  team a := (h'.team a).trans (h.team a)
  entries a := (h'.entries a).trans (h.entries a)

theorem foldl {α : Type} {f : State → α → State} (hf : ∀ s x, SameStanding s (f s x)) (l : List α) (s : State) :
    SameStanding s (l.foldl f s) := by
  induction l generalizing s with
  | nil => exact refl s
  | cons x rest ih => exact (hf s x).trans (ih _)

theorem modAgent (s : State) (a : Nat) (f : Agent → Agent) (hteam : ∀ g, (f g).team = g.team)
    (hentries : ∀ g, (f g).entries = g.entries) : SameStanding s (s.modAgent a f) where
  asked := rfl
  tasks := rfl
  core _ := rfl
  task _ := rfl
  team b := getD_modify_part Agent.team f hteam s.agents a b default
  entries b := getD_modify_part Agent.entries f hentries s.agents a b default

theorem modTeam (s : State) (n : Nat) (f : Team → Team) (hcore : ∀ g, (f g).core = g.core)
    (htask : ∀ g, (f g).task = g.task) : SameStanding s (s.modTeam n f) where
  asked := rfl
  tasks := rfl
  core m := getD_modify_part Team.core f hcore s.teams n m default
  task m := getD_modify_part Team.task f htask s.teams n m default
  team _ := rfl
  entries _ := rfl

/-! ### The operations of a release and a refresh -/

theorem performMem (s : State) (st : Store) : SameStanding s (s.performMem st) := by
  unfold State.performMem
  split
  · exact of_eq rfl rfl rfl rfl
  · exact of_eq rfl rfl rfl rfl

theorem performHome (s : State) (ps : List Pend) : SameStanding s (s.performHome ps) := by
  refine foldl (fun v p => ?_) ps s
  refine trans ?_ (performMem _ p.store)
  exact of_eq rfl rfl rfl rfl

theorem toCluster (s : State) (sel : Pend → Bool) : SameStanding s (s.toCluster sel) := by
  unfold State.toCluster
  split
  refine trans ?start (foldl (fun v p => ?each) _ _)
  case start => exact of_eq rfl rfl rfl rfl
  case each =>
    split
    · exact performMem v p.store
    · exact of_eq rfl rfl rfl rfl

theorem clusterToHome (s : State) (sel : Pend → Bool) : SameStanding s (s.clusterToHome sel) := by
  unfold State.clusterToHome
  split
  refine trans ?start (foldl (fun v p => ?each) _ _)
  case start => exact of_eq rfl rfl rfl rfl
  case each =>
    refine trans ?_ (performMem _ p.store)
    exact of_eq rfl rfl rfl rfl

theorem toHome (s : State) (sel : Pend → Bool) : SameStanding s (s.toHome sel) := (toCluster s sel).trans (clusterToHome _ sel)

theorem performTo (s : State) (p : Point) (sel : Pend → Bool) : SameStanding s (s.performTo p sel) := by
  cases p with
  | core => exact toCluster s _
  | cluster => exact toCluster s sel
  | home => exact toHome s sel

theorem drainStreams (s : State) (a : Nat) : SameStanding s (s.drainStreams a) := by
  unfold State.drainStreams
  refine trans ?_ (modAgent _ a _ (fun _ => rfl) fun _ => rfl)
  refine trans (foldl performMem ((s.agent a).streamed.filter fun st => keyKind st.key == 1) s) ?_
  exact of_eq rfl rfl rfl rfl

theorem drainOver (s : State) (a : Nat) (st : Store) : SameStanding s (s.drainOver a st) := by
  refine foldl (fun v i => ?_) _ s
  split
  · exact drainStreams v i
  · exact refl v

theorem clearPath (s : State) (a : Nat) (p : Point) (st : Store) : SameStanding s (s.clearPath a p st) := by
  refine (drainOver s a st).trans ?_
  unfold State.clearPath
  dsimp only
  split
  · exact refl _
  · exact toCluster _ _
  · exact (toCluster _ _).trans (clusterToHome _ _)

theorem replaceBuffered (s : State) (a : Nat) (older : Buffered → Bool) (st : Store) :
    SameStanding s (s.replaceBuffered a older st) where
  asked := rfl
  tasks := rfl
  core n := getD_zipIdx_map_part Team.core _ (fun tm i => by dsimp only; split <;> rfl) s.teams n default
  task n := getD_zipIdx_map_part Team.task _ (fun tm i => by dsimp only; split <;> rfl) s.teams n default
  team _ := rfl
  entries _ := rfl

theorem drainBuffer (s : State) (t : Nat) : SameStanding s (s.drainBuffer t) := by
  refine trans (foldl (fun v b => ?_) _ s) (modTeam _ t _ (fun _ => rfl) fun _ => rfl)
  exact (clearPath v _ _ _).trans ((performHome _ _).trans (foldl (fun w st => replaceBuffered w _ _ st) _ _))

theorem drainFor (s : State) (a : Nat) (p : Point) : SameStanding s (s.drainFor a p) := by
  unfold State.drainFor
  split
  · exact drainBuffer s _
  · exact refl s

theorem release (s : State) (a : Nat) (p : Point) : SameStanding s (s.release a p) :=
  (drainFor s a p).trans ((drainStreams _ a).trans (performTo _ p _))

theorem pull (s : State) (core cluster : Nat) (p : Point) : SameStanding s (s.pull core cluster p) := by
  cases p with
  | core => exact refl s
  | cluster => exact of_eq rfl rfl rfl rfl
  | home => exact of_eq rfl rfl rfl rfl

theorem refresh (s : State) (a : Nat) (p : Point) : SameStanding s (s.refresh a p) :=
  (pull s _ _ p).trans (modAgent _ a _ (fun _ => rfl) fun _ => rfl)

theorem fenceAt (s : State) (a : Nat) (r : Nat × Point × Bool) : SameStanding s (s.fenceAt a r) := by
  unfold State.fenceAt
  split
  · exact (release s r.1 r.2.1).trans (refresh _ a r.2.1)
  · exact release s r.1 r.2.1

theorem passPoint (s : State) (a : Nat) : SameStanding s (s.passPoint a) := by
  unfold State.passPoint
  dsimp only
  split
  · exact refl s
  · exact modTeam s _ _ (fun _ => rfl) fun _ => rfl

/-! ### What it says of one agent -/

theorem dieOf (h : SameStanding s t) (a : Nat) : t.dieOf a = s.dieOf a := by
  rw [State.dieOf, State.coreOf, h.team, h.core, State.dieOf, State.coreOf]

theorem taskOf (h : SameStanding s t) (a : Nat) : t.task (t.taskOf a) = s.task (s.taskOf a) := by
  rw [State.taskOf, h.team, h.task, State.task, h.tasks, State.task, State.taskOf]

theorem entry (h : SameStanding s t) (a e : Nat) : (t.agent a).entry e = (s.agent a).entry e := by
  rw [Agent.entry, h.entries, Agent.entry]

end SameStanding

/-- The state after the releases that an agent waits for, all of them. -/
def paidDue (s : State) (a : Nat) : State :=
  ((s.agent a).due.foldl (fun v r => v.fenceAt a r) s).modAgent a fun g => { g with due := [] }

theorem sameStanding_paidDue (s : State) (a : Nat) : SameStanding s (paidDue s a) :=
  (SameStanding.foldl (fun v r => .fenceAt v a r) _ s).trans (.modAgent _ a _ (fun _ => rfl) fun _ => rfl)

/-- The releases are performed when each of them may be. -/
theorem payDue_of_may {s : State} {a : Nat} (h : ∀ r ∈ (s.agent a).due, MayRelease s r.1 r.2.1) :
    s.payDue a = some (paidDue s a) :=
  if_pos (List.all_eq_true.2 fun r hr => (mayRelease_iff_said ..).2 (h r hr))

/-- They wait while one of them must. -/
theorem payDue_of_not_may {s : State} {a : Nat} (h : ∃ r ∈ (s.agent a).due, ¬ MayRelease s r.1 r.2.1) :
    s.payDue a = none := by
  refine if_neg fun hall => ?_
  obtain ⟨r, hr, hmay⟩ := h
  exact hmay ((mayRelease_iff_said ..).1 (List.all_eq_true.1 hall r hr))

end Sys2Proof.Machine
end

section
/-! SUPPORT. What an issue notes and a fetch leaves as it was, and what becomes of the fetched words (R64, R73, R80, R81, R227,
R231, R307). -/

namespace Sys2Proof.Machine

/-! ### Which fragment issues -/

/-- A choice made along a list is one of its elements, or the one it began with. -/
theorem foldl_choice_mem {α : Type} (f : Option α → α → Option α) (hf : ∀ b p, f b p = b ∨ f b p = some p)
    (l : List α) (b : Option α) (x : α) (h : l.foldl f b = some x) : b = some x ∨ x ∈ l := by
  induction l generalizing b with
  | nil => exact .inl h
  | cons p rest ih =>
    obtain hx | hx := ih _ h
    · obtain hb | hp := hf b p
      · exact .inl (hb.symm.trans hx)
      · exact .inr (Option.some.inj (hp.symm.trans hx) ▸ List.mem_cons_self)
    · exact .inr (List.mem_cons_of_mem p hx)

/-- The fragment that the default order names may issue. -/
theorem mayIssue_of_nextFragment {s : State} {a e : Nat} (h : s.nextFragment = some (a, e)) : s.mayIssue a e = true := by
  refine (foldl_choice_mem _ ?choice _ _ _ h).elim (fun hnone => nomatch hnone) fun hmem => (List.mem_filter.1 hmem).2
  case choice =>
    intro b p
    cases b with
    | none => exact .inr rfl
    | some q =>
      dsimp only
      split
      · exact .inr rfl
      · exact .inl rfl

/-- A fragment that can issue exists, runs, and belongs to an active agent. -/
theorem canIssue_spec {s : State} {a e : Nat} (h : s.canIssue a e = true) :
    a < s.agents.length ∧ e < (s.agent a).entries.length ∧ (s.agent a).phase = .active ∧
      ((s.agent a).entry e).kind = .running := by
  simp only [State.canIssue, Bool.and_eq_true, decide_eq_true_eq, beq_iff_eq] at h
  obtain ⟨⟨⟨⟨⟨⟨⟨ha, he⟩, hphase⟩, hkind⟩, -⟩, -⟩, -⟩, -⟩ := h
  exact ⟨ha, he, hphase, hkind⟩

theorem canIssue_of_mayIssue {s : State} {a e : Nat} (h : s.mayIssue a e = true) : s.canIssue a e = true :=
  (Bool.and_eq_true_iff.1 h).1

/-! ### Fetching -/

/-- Fetching uses up words that were fetched ahead and changes nothing else. -/
theorem fetchWord_frame {s u : State} {a : Nat} {va : DWord} {w : Word} (h : s.fetchWord a va = .ok (w, u)) :
    ∃ l, u = { s with fetched := l } := by
  unfold State.fetchWord at h
  split at h
  · cases h
  · split at h
    · cases h
      exact ⟨_, rfl⟩
    · split at h
      · cases h
      · cases h
        exact ⟨s.fetched, rfl⟩

theorem fetchMore_frame {s u : State} {a n : Nat} {va : DWord} {ws : List Word} (h : s.fetchMore a n va = .ok (ws, u)) :
    ∃ l, u = { s with fetched := l } := by
  induction n generalizing s va ws with
  | zero =>
    cases h
    exact ⟨_, rfl⟩
  | succ n ih =>
    unfold State.fetchMore at h
    split at h
    · cases h
    · rename_i w v hword
      split at h
      · cases h
      · rename_i rest t hmore
        cases h
        obtain ⟨l, rfl⟩ := fetchWord_frame hword
        obtain ⟨k, rfl⟩ := ih hmore
        exact ⟨k, rfl⟩

theorem fetchGroup_frame {s u : State} {a : Nat} {va : DWord} {ws : List Word} (h : s.fetchGroup a va = .ok (ws, u)) :
    ∃ l, u = { s with fetched := l } := by
  unfold State.fetchGroup at h
  split at h
  · cases h
  · rename_i w v hfirst
    obtain ⟨l, rfl⟩ := fetchWord_frame hfirst
    split at h
    · cases h
      exact ⟨l, rfl⟩
    · split at h
      · cases h
      · rename_i x t hsecond
        obtain ⟨k, rfl⟩ := fetchWord_frame hsecond
        split at h
        · cases h
        · rename_i rest v hrest
          cases h
          obtain ⟨m, rfl⟩ := fetchMore_frame hrest
          exact ⟨m, rfl⟩

/-! ### What the issue notes -/

/-- What an issue notes of the fragment that takes it. -/
def Entry.noted (en : Entry) (n : Nat) : Entry := { en with owed := [], given := 0, passed := 0, turn := n }

/-- The split table of the issuing agent once the issue of entry e is noted. -/
def notedEntries (s : State) (a e : Nat) : List Entry := ((s.noteIssue a e).agent a).entries

/-- Of the issuing agent, an issue notes the address and what it says of the entries. -/
theorem noteIssue_agent {s : State} {a : Nat} (e : Nat) (ha : a < s.agents.length) : (s.noteIssue a e).agent a =
    { s.agent a with issuedAt := ((s.agent a).entry e).pc, entries := notedEntries s a e } := by
  unfold notedEntries State.noteIssue State.agent
  simp [List.getD_eq_getElem?_getD, ha]

theorem notedEntries_entry {s : State} {a e : Nat} (ha : a < s.agents.length) (he : e < (s.agent a).entries.length) :
    (notedEntries s a e)[e]? = some (((s.agent a).entry e).noted (s.issues + 1)) := by
  unfold State.agent at he
  unfold notedEntries State.noteIssue State.agent Agent.entry Entry.noted
  simp [List.getD_eq_getElem?_getD, List.getElem?_zipIdx, ha] at he ⊢
  simp [he]

/-- Looking whether a team has passed a point changes its teams alone. -/
theorem passPoint_frame (s : State) (a : Nat) : ∃ ts, s.passPoint a = { s with teams := ts } := by
  unfold State.passPoint
  dsimp only
  split
  · exact ⟨s.teams, rfl⟩
  · exact ⟨_, rfl⟩

/-! ### The state in which an instruction's words have been fetched -/

/-- Fragment e of agent a, of the state s, has been noted as issuing and its words have been fetched, in the state u. -/
structure Issued (s u : State) (a e : Nat) : Prop where
  cur : u.cur = some (a, e)
  mem : u.mem = s.mem
  lt : a < u.agents.length
  agent : ∃ es, u.agent a = { s.agent a with issuedAt := ((s.agent a).entry e).pc, entries := es } ∧
    ∃ n, es[e]? = some (((s.agent a).entry e).noted n)
  die : u.dieOf a = s.dieOf a
  task : u.task (u.taskOf a) = s.task (s.taskOf a)
  phase : (s.agent a).phase = .active
  kind : ((s.agent a).entry e).kind = .running

theorem issued_of_fetch {s u : State} {a e : Nat} {pc : DWord} {ws : List Word} (hmay : s.mayIssue a e = true)
    (hf : ((s.passPoint a).noteIssue a e).fetchGroup a pc = .ok (ws, u)) : Issued s u a e := by
  obtain ⟨ha, he, hphase, hkind⟩ := canIssue_spec (canIssue_of_mayIssue hmay)
  obtain ⟨l, rfl⟩ := fetchGroup_frame hf
  have hstand := SameStanding.passPoint s a
  obtain ⟨ts, hv⟩ := passPoint_frame s a
  have hagents : (s.passPoint a).agents = s.agents := by rw [hv]
  have hmem : (s.passPoint a).mem = s.mem := by rw [hv]
  have hagent : (s.passPoint a).agent a = s.agent a := by rw [State.agent, hagents, State.agent]
  generalize s.passPoint a = v at *
  have hla : a < v.agents.length := hagents ▸ ha
  have hnoted : (v.noteIssue a e).agent a =
      { s.agent a with issuedAt := ((s.agent a).entry e).pc, entries := notedEntries v a e } := by
    rw [noteIssue_agent e hla, hagent]
  have hteam : ((v.noteIssue a e).agent a).team = (v.agent a).team := by rw [hnoted, hagent]
  refine ⟨rfl, hmem, ?lt, ⟨_, hnoted, v.issues + 1, ?entry⟩, ?die, ?task, hphase, hkind⟩
  case lt => simpa [State.noteIssue] using hla
  case entry => rw [notedEntries_entry hla (hagent ▸ he), hagent]
  case die =>
    show dieOfCore (v.team ((v.noteIssue a e).agent a).team).core = _
    rw [hteam]
    exact hstand.dieOf a
  case task =>
    show v.task (v.team ((v.noteIssue a e).agent a).team).task = _
    rw [hteam]
    exact hstand.taskOf a

namespace Issued

variable {s u : State} {a e : Nat}

/-- The issuing entry is as it was, but for what the issue notes. -/
theorem entry (h : Issued s u a e) : ∃ n, (u.agent a).entries[e]? = some (((s.agent a).entry e).noted n) := by
  obtain ⟨es, hagent, n, hentry⟩ := h.agent
  exact ⟨n, by rw [hagent]; exact hentry⟩

theorem due (h : Issued s u a e) : (u.agent a).due = (s.agent a).due := by
  obtain ⟨es, hagent, -⟩ := h.agent
  rw [hagent]

theorem awaitsStatus (h : Issued s u a e) (i : Instr) : (u.agent a).awaitsStatus i = (s.agent a).awaitsStatus i := by
  obtain ⟨es, hagent, -⟩ := h.agent
  rw [hagent]
  rfl

theorem entry_pc (h : Issued s u a e) : ((u.agent a).entry e).pc = ((s.agent a).entry e).pc := by
  obtain ⟨n, hentry⟩ := h.entry
  rw [Agent.entry, List.getD_eq_getElem?_getD, hentry]
  rfl

/-- The fragment is the state's issuer. -/
theorem issuer_isSome (h : Issued s u a e) : (issuer u).isSome = true := by
  obtain ⟨es, hagent, n, hentry⟩ := h.agent
  have hget : u.agents[a]? = some { s.agent a with issuedAt := ((s.agent a).entry e).pc, entries := es } := by
    rw [← hagent, State.agent, List.getD_eq_getElem?_getD, List.getElem?_eq_getElem h.lt, Option.getD_some]
  simp [issuer, h.cur, hget, hentry, h.phase, h.kind, Entry.noted]

/-- What the issuer is made of. -/
theorem issuer_spec {c : Ctx} (h : Issued s u a e) (hr : issuer u = some c) :
    c.a = a ∧ c.e = e ∧ c.ag.regs = (s.agent a).regs ∧ c.ag.preds = (s.agent a).preds ∧ c.ag.sregs = (s.agent a).sregs ∧
      c.en.pc = ((s.agent a).entry e).pc ∧ c.en.mask = ((s.agent a).entry e).mask := by
  obtain ⟨hcur, -, hag, hen, -⟩ := Machine.issuer_spec hr
  obtain ⟨rfl, rfl⟩ := Prod.mk.inj (Option.some.inj (h.cur.symm.trans hcur))
  obtain ⟨es, hagent, n, hentry⟩ := h.agent
  have hnoted : c.en = ((s.agent c.a).entry c.e).noted n := by
    rw [hen, hag, hagent, Agent.entry, List.getD_eq_getElem?_getD, hentry, Option.getD_some]
  rw [hnoted, hag, hagent]
  exact ⟨rfl, rfl, rfl, rfl, rfl, rfl, rfl⟩

end Issued

/-! ### What becomes of the words -/

section

variable {s u : State} {a e : Nat} {ws : List Word} {i : Instr} {len : Nat}

theorem issueAt_of_stopped {t : State} (hmay : s.mayIssue a e = true) (h : s.prepare a e = .stopped t) :
    issueAt s a e = .next t := by
  rw [issueAt, if_pos hmay, h]

theorem issueAt_of_run {t : State} (hmay : s.mayIssue a e = true) (h : s.prepare a e = .run i t) :
    issueAt s a e = exec i t := by
  rw [issueAt, if_pos hmay, h]

variable (hf : ((s.passPoint a).noteIssue a e).fetchGroup a ((s.agent a).entry e).pc = .ok (ws, u))
include hf

theorem prepare_of_undecoded {err : DecodeError} (hd : decodeWords ws = .error err) :
    s.prepare a e = .stopped (u.fetchTrap a e ws.length causeIllegal ((s.agent a).entry e).pc) := by
  simp only [State.prepare, hf, hd]

variable (hd : decodeWords ws = .ok (i, len))
include hd

theorem prepare_of_illFormed (hi : i.illFormed (u.task (u.taskOf a)).info.regsN ≠ none) :
    s.prepare a e = .stopped (u.fetchTrap a e len causeIllegal ((s.agent a).entry e).pc) := by
  simp only [State.prepare, hf, hd, Option.isSome_iff_ne_none.2 hi, if_true]

variable (hi : i.illFormed (u.task (u.taskOf a)).info.regsN = none)
include hi

theorem prepare_of_awaits (hw : (u.agent a).awaitsStatus i = true) : s.prepare a e = .stopped (u.modEntry a e Entry.wait) := by
  simp [State.prepare, hf, hd, hi, hw]

theorem prepare_of_due (hw : (u.agent a).awaitsStatus i = false) (hdue : u.afterDue a i = none) :
    s.prepare a e = .stopped (u.modEntry a e Entry.wait) := by
  simp [State.prepare, hf, hd, hi, hw, hdue]

theorem prepare_of_ready {t : State} (hw : (u.agent a).awaitsStatus i = false) (hdue : u.afterDue a i = some t) :
    s.prepare a e = .run i (t.noteAsked a e i) := by
  simp [State.prepare, hf, hd, hi, hw, hdue]

end

/-! ### The releases that wait -/

/-- An instruction that waits for no release issues in the state as it is. -/
theorem afterDue_of_none {u : State} {a : Nat} {i : Instr} (h : (u.agent a).due = [] ∨ touchesMemory i = false) :
    u.afterDue a i = some u :=
  if_pos (h.imp_right fun hi => by rw [hi]; rfl)

/-- A memory instruction waits for its agent's releases. -/
theorem afterDue_of_due {u : State} {a : Nat} {i : Instr} (hdue : (u.agent a).due ≠ []) (hi : touchesMemory i = true) :
    u.afterDue a i = u.payDue a :=
  if_neg (by simp [hdue, hi])

/-! ### The translations asked for -/

/-- In w, which is v but for the translations asked for beside those of u, the pages of the code of agent a of the state s
have been asked for. -/
def AsksCode (s u : State) (a : Nat) (pc : DWord) (v w : State) : Prop :=
  (∃ l, w = { v with asked := u.asked ++ l }) ∧
    (pc.toNat % 2 ^ 57 + 15 < 2 ^ 57 → ∃ q ∈ w.asked, q.1 = s.dieOf a ∧ q.2.1 = (s.task (s.taskOf a)).space ∧
      q.2.2.1 ≤ pc.toNat % 2 ^ 57 / 4096 ∧ pc.toNat % 2 ^ 57 / 4096 ≤ q.2.2.2)

/-- Pages that an agent asks for are noted for its die and its space. -/
theorem mem_asked_ask (s : State) (a : Nat) {ps : List (Nat × Nat)} {p : Nat × Nat} (hp : p ∈ ps) :
    (s.dieOf a, (s.task (s.taskOf a)).space, p.1, p.2) ∈ (s.ask a ps).asked := by
  by_cases hin : (s.dieOf a, (s.task (s.taskOf a)).space, p.1, p.2) ∈ s.asked
  · exact List.mem_append_left _ hin
  · refine List.mem_append_right _ (List.mem_eraseDups.2 (List.mem_filter.2 ⟨List.mem_map.2 ⟨p, hp, rfl⟩, ?_⟩))
    simpa using hin

/-- Asking for pages with those of the code among them. -/
theorem asksCode_ask {s u v : State} {a : Nat} {pc : DWord} {ps : List (Nat × Nat)} (hdie : v.dieOf a = s.dieOf a)
    (htask : v.task (v.taskOf a) = s.task (s.taskOf a)) (hasked : v.asked = u.asked)
    (hp : pagesBetween pc.toNat (pc.toNat + 15) ∈ ps) : AsksCode s u a pc v (v.ask a ps) := by
  refine ⟨?_, fun hwrap => ⟨_, mem_asked_ask v a hp, hdie, by rw [htask], Nat.le_refl _, ?_⟩⟩
  · obtain ⟨l, hl⟩ := ask_eq v a ps
    exact ⟨l, by rw [hl, hasked]⟩
  · show pc.toNat % 2 ^ 57 / 4096 ≤ (pc.toNat + 15) % 2 ^ 57 / 4096
    omega

/-- An instruction that issues asks for the pages of its code among the others. -/
theorem codePages_mem_asks {c : Ctx} (i : Instr) : pagesBetween c.en.pc.toNat (c.en.pc.toNat + 15) ∈ c.asks i := by
  simp [Ctx.asks, Entry.codePages]

theorem asksCode_noteAsked {s u v : State} {a e : Nat} (i : Instr) (h : Issued s u a e) (hv : SameStanding u v) :
    AsksCode s u a ((s.agent a).entry e).pc v (v.noteAsked a e i) := by
  refine asksCode_ask ((hv.dieOf a).trans h.die) ((hv.taskOf a).trans h.task) hv.asked ?_
  rw [← h.entry_pc, ← hv.entry a e]
  exact codePages_mem_asks i

/-- An issuer executes in its entry's lanes, or after a trap that left others complete in those that execute again. -/
theorem issuer_act {u : State} {c : Ctx} (hr : issuer u = some c) : c.act = c.en.redo.elim c.en.mask (c.en.mask &&& ·) := by
  unfold issuer at hr
  split at hr
  · cases hr
  · split at hr
    · cases hr
    · split at hr
      · cases hr
      · split at hr
        · rename_i en _ _
          cases hr
          dsimp only
          cases en.redo <;> rfl
        · cases hr

/-- The trap of words that stand for no instruction is ILLEGAL of the issuer, taken once the pages of its code are asked for. -/
theorem fetchTrap_eq {u : State} {c : Ctx} (hr : issuer u = some c) (len : Nat) :
    u.fetchTrap c.a c.e len causeIllegal c.en.pc = trapped c (u.ask c.a c.en.codePages) len (trapHere c 0x01) := by
  obtain ⟨-, -, hag, hen, -⟩ := issuer_spec hr
  have hact : c.act = c.en.redo.elim c.en.mask (c.en.mask &&& ·) := issuer_act hr
  rw [hag] at hen
  unfold State.fetchTrap trapped trapHere
  rw [← hen, hact]
  dsimp only
  cases c.en.redo <;> rfl

theorem asksCode_fetchTrap {s u : State} {a e : Nat} {c : Ctx} (h : Issued s u a e) (hr : issuer u = some c) :
    AsksCode s u a ((s.agent a).entry e).pc u (u.ask c.a c.en.codePages) := by
  obtain ⟨ha, -, -, -, -, hpc, -⟩ := h.issuer_spec hr
  rw [ha, ← hpc]
  exact asksCode_ask h.die h.task rfl List.mem_cons_self

end Sys2Proof.Machine
end
section
/-! SUPPORT. A step and the instruction whose words lie at the fragment's address (R64, R73, R80, R81, R227). -/

namespace Sys2Proof

open Sys2Proof.Machine

section

variable {s u : State} {a e : Nat} {ws : List Word}

/-- Words that stand for no instruction of the code's registers trap ILLEGAL with the length of their group. -/
theorem issueAt_of_fetchTrap {c : Ctx} {len : Nat} (h : Issued s u a e) (hr : issuer u = some c) (hmay : s.mayIssue a e = true)
    (hp : s.prepare a e = .stopped (u.fetchTrap a e len causeIllegal ((s.agent a).entry e).pc)) :
    ∃ w, AsksCode s u a ((s.agent a).entry e).pc u w ∧ issueAt s a e = .next (trapped c w len (trapHere c 0x01)) := by
  refine ⟨_, asksCode_fetchTrap h hr, ?_⟩
  rw [issueAt_of_stopped hmay hp, ← fetchTrap_eq hr]
  obtain ⟨rfl, rfl, -, -, -, hpc, -⟩ := h.issuer_spec hr
  rw [hpc]

/-- The outcomes of a well-formed instruction: it waits for a status word, or for releases that may not be performed yet, or it
runs, after the releases that it waited for. -/
theorem issueAt_of_decoded {i : Instr} {len : Nat} (h : Issued s u a e) (hmay : s.mayIssue a e = true)
    (hf : ((s.passPoint a).noteIssue a e).fetchGroup a ((s.agent a).entry e).pc = .ok (ws, u))
    (hd : decodeWords ws = .ok (i, len)) (hi : i.illFormed (s.task (s.taskOf a)).info.regsN = none) :
    ((s.agent a).awaitsStatus i = true → issueAt s a e = .next (u.modEntry a e Entry.wait)) ∧
    ((s.agent a).awaitsStatus i = false →
      ((s.agent a).due = [] ∨ touchesMemory i = false →
        ∃ w, AsksCode s u a ((s.agent a).entry e).pc u w ∧ issueAt s a e = exec i w) ∧
      ((s.agent a).due ≠ [] → touchesMemory i = true → (∀ r ∈ (s.agent a).due, MayRelease u r.1 r.2.1) →
        ∃ w, AsksCode s u a ((s.agent a).entry e).pc (paidDue u a) w ∧ issueAt s a e = exec i w) ∧
      (touchesMemory i = true → (∃ r ∈ (s.agent a).due, ¬ MayRelease u r.1 r.2.1) →
        issueAt s a e = .next (u.modEntry a e Entry.wait))) := by
  rw [← h.task] at hi
  rw [← h.awaitsStatus i, ← h.due]
  refine ⟨fun hw => issueAt_of_stopped hmay (prepare_of_awaits hf hd hi hw), fun hw => ⟨?free, ?paid, ?held⟩⟩
  case free =>
    intro hfree
    exact ⟨_, asksCode_noteAsked i h (.refl u), issueAt_of_run hmay (prepare_of_ready hf hd hi hw (afterDue_of_none hfree))⟩
  case paid =>
    intro hdue htouch hrelease
    have hpaid := (afterDue_of_due hdue htouch).trans (payDue_of_may hrelease)
    exact ⟨_, asksCode_noteAsked i h (sameStanding_paidDue u a), issueAt_of_run hmay (prepare_of_ready hf hd hi hw hpaid)⟩
  case held =>
    intro htouch hwait
    have hne := List.ne_nil_of_mem hwait.choose_spec.1
    have hdue := (afterDue_of_due hne htouch).trans (payDue_of_not_may hwait)
    exact issueAt_of_stopped hmay (prepare_of_due hf hd hi hw hdue)

end

/-- Settles O48: the fetch leaves the issuer's registers and memory as they were, and each outcome of the decoder, of the
registers that wait and of the releases that wait is one branch of the model's issue. -/
theorem stepRunsDecoded : Obligations.StepRunsDecoded := by
  intro s a e
  refine ⟨?next, fun _ => rfl, ?issues, fun hmay ws u hf => (issued_of_fetch hmay hf).issuer_isSome⟩
  case next =>
    intro hagenda hnext
    refine ⟨mayIssue_of_nextFragment hnext, ?_⟩
    unfold step
    simp only [hagenda, hnext]
  case issues =>
    intro hmay pc regsN ws u c hf hr
    have h := issued_of_fetch hmay hf
    obtain ⟨ha, he, hregs, hpreds, hsregs, hpc, hmask⟩ := h.issuer_spec hr
    refine ⟨h.mem, ha, he, hregs, hpreds, hsregs, hpc, hmask, ?decoded, ?undecoded, ?illFormed⟩
    case decoded =>
      intro i len hd hi
      have hout := issueAt_of_decoded h hmay hf hd hi
      unfold paidDue at hout
      rw [h.due] at hout
      exact hout
    case undecoded => exact fun err hd => issueAt_of_fetchTrap h hr hmay (prepare_of_undecoded hf hd)
    case illFormed =>
      intro i len hd hi
      exact issueAt_of_fetchTrap h hr hmay (prepare_of_illFormed hf hd (h.task ▸ hi))

end Sys2Proof
end
